-- ==== Sys2Proof/Word.lean ====
section
/-!
DEFINITION. The word types of the CB4410: what its rules treat as bits. Counts, sizes and times in
µs or ms are plain numbers (Nat) and have no type here.
-/

namespace Sys2Proof

/-- A byte of host memory, of a frame, or of the Payload Store. -/
abbrev Byte := BitVec 8

/-- A 16-bit field: Adapter Id, Endpoint Id, Frame Type, Probe Sequence, a path counter. -/
abbrev W16 := BitVec 16

/-- A 32-bit value: the Adapter Clock, an Issue Number, a port counter, a register half. -/
abbrev W32 := BitVec 32

/-- A 64-bit host address or register. -/
abbrev W64 := BitVec 64

/-- An Ethernet address; the first byte on the wire is the most significant one. -/
abbrev Mac := BitVec 48

end Sys2Proof
end

