-- ==== Sys2Proof/Config.lean ====
section
/-!
DEFINITION. What is fixed in every CB4410: the sizes of its stores, the constant IDENT register, and
the fixed times and numbers its rules name. Four values are left free: how far the issue of a completion had
come when a warm reset cut it, what an unaligned 32-bit register read returns, what an unaligned 32-bit write of
ANCHOR leaves in it, and when each table read of a LOADING begins.
-/

namespace Sys2Proof.Config

/-- IDENT (11, section 11.1): vendor 1C4Ah, part 4410h, revision 01h, bytes 5 to 7 zero. -/
def ident : W64 := 0x0000000144101C4A#64

/-- Places of the Arm FIFO (R5). -/
def fifoPlaces : Nat := 32

/-- Bytes of one Payload Store slot (R13). -/
def slotBytes : Nat := 4096

/-- The Host Bridge judges a read failed after 50 ms without an answer (R163); in µs. -/
def readLimit : Nat := 50000

/-- The longest hold-down, 64,000 ms (R107). -/
def holdDownMax : Nat := 64000

/-- The granularity floor of a reply timeout, 200 µs (R52). -/
def granularity : Nat := 200

/-- E(p) of a path without a sample, in µs (R55). -/
def noSamplePrice : Nat := 1000000

/-- The greatest sample, in µs (R48). -/
def sampleMax : Nat := 1000000

/-- The most entries of a correlation list (R119). -/
def correlationPlaces : Nat := 8

/-- The clock gives an age check each time it passes a multiple of this many µs (R146). -/
def ageStep : Nat := 1073741824

/-- The loss filter time of every port before the first LOADING, 5 ms (R79). -/
def initialLossTime : Nat := 5

/-- The return filter time of every port before the first LOADING, 200 ms (R79). -/
def initialReturnTime : Nat := 200

/-- FREE VALUE (R27, R156, R164; log 42): how many of the steps 1 to 3 of R155 had been issued, for the
completion at the head of the queue, when the warm reset of this number was taken. The manual lets the
reset fall before the issue or between its writes. -/
opaque issuedAtReset : Nat → Fin 4

/-- FREE VALUE (R174; log 21): what a 32-bit read returns that begins inside a register at this offset, no
multiple of 4, at this time. -/
opaque unalignedRead : Nat → W32 → W32

/-- FREE VALUE (R174; log 21): what a 32-bit write leaves in ANCHOR that begins inside it at this offset, which is
neither 08h nor 0Ch, given the data and the value held before. -/
opaque unalignedAnchor : BitVec 12 → W32 → W64 → W64

/-- FREE VALUE (R163, R168; log 45): in the LOADING whose step 3 began at this clock, how many µs after that the read
of table entry k begins: of target k for k below 64, of path k − 64 from there on. -/
opaque tableReadBegins : W32 → Nat → Nat

end Sys2Proof.Config
end

