-- ==== Sys2Proof/Syntax.lean ====
section
/-!
DEFINITION. The commands the CB4410 takes: one constructor of `Instr` for each row of
spec/opcode_table.json, with the operands the row's rule reads. The table gives no row any bits; the
NOTICE and CONTROL words that spell some of these commands are decoded in Decode.lean.
-/

namespace Sys2Proof

/-- A path, 0 to 127. -/
abbrev PathId := Fin 128

/-- A target, 0 to 63. -/
abbrev TargetId := Fin 64

/-- A stream, 0 to 255. -/
abbrev StreamId := Fin 256

/-- A port, P0 to P3. -/
abbrev PortId := Fin 4

/-- A context of the Context Store, 0 to 511. -/
abbrev CtxId := Fin 512

/-- The width of a host access to the register window (R174). -/
inductive AccessWidth where
  | w8 | w16 | w32 | w64
deriving DecidableEq, Repr

/-- What a write to a 64-bit register covers (R174): a half, the whole, or four bytes that begin inside the register
at the window offset given, which is that of neither half. -/
inductive RegisterSpan where
  | low | high | whole
  | inside (offset : BitVec 12)
deriving DecidableEq, Repr

/-- How host memory answered a read (R163): its data, or the requests of the read that failed, in the
order of their failures. Request k of a read is its k-th piece between multiples of 4096. -/
inductive ReadAnswer where
  | data (bytes : List Byte)
  | failed (requests : List Nat)
deriving DecidableEq, Repr

/-- An entry of the tables that step 3 of LOADING reads (R168): a target descriptor or a path descriptor. -/
inductive TableEntry where
  | target (t : TargetId)
  | path (p : PathId)
deriving DecidableEq, Repr

/-- The end of one read of step 3 of LOADING (R168): the entry read, and how host memory answered. -/
structure TableReadEnd where
  entry : TableEntry
  answer : ReadAnswer
deriving DecidableEq, Repr

/-- The host-memory reads the adapter makes (R163). -/
inductive HostReadId where
  | ownerWord
  | record
  | payload
  | stream (s : StreamId)
  | target (t : TargetId)
  | path (p : PathId)
  | anchor
  | table (entry : TableEntry)
deriving DecidableEq, Repr

/-- An arriving Ethernet frame: its envelope, whether the Ethernet frame check passed, and the bytes
after the type field (R68, R84). -/
structure EthFrame where
  dest : Mac
  src : Mac
  etype : W16
  checkOk : Bool
  body : List Byte
deriving DecidableEq, Repr

/-- The commands, in the table's order. -/
inductive Instr where
  /-- START (R166). -/
  | start
  /-- STOP (R170). -/
  | stop
  /-- WARM_RESET (R172). -/
  | warmReset
  /-- CONTROL_BAD_COMBINATION (R166). -/
  | controlBadCombination
  /-- COLD_RESET (R173), with the raw carrier each port finds present (R79). -/
  | coldReset (raw0 raw1 raw2 raw3 : Bool)
  /-- ARM (R4): the first exchange number and the run length, as encoded. -/
  | arm (first : BitVec 12) (len : BitVec 7)
  /-- SWEEP (R6). -/
  | sweep
  /-- ABORT (R24). -/
  | abort (exch : BitVec 12)
  /-- RELOAD_STREAM (R33). -/
  | reloadStream (entry : Byte)
  /-- RELOAD_TARGET (R33). -/
  | reloadTarget (entry : Byte)
  /-- RELOAD_PATH (R33). -/
  | reloadPath (entry : Byte)
  /-- FENCE (R114). -/
  | fence (entry : Byte)
  /-- UNFENCE (R116). -/
  | unfence (entry : Byte)
  /-- DRILL (R115). -/
  | drill (entry : Byte)
  /-- DRILL_END (R116). -/
  | drillEnd (entry : Byte)
  /-- SNAPSHOT (R160). -/
  | snapshot
  /-- NOTICE_UNKNOWN_KIND (R175). -/
  | noticeUnknownKind (code : Byte)
  /-- EVENT_WRITE (R161). -/
  | eventWrite (value : W32)
  /-- EVENT_MASK_WRITE (R161). -/
  | eventMaskWrite (value : W32)
  /-- ANCHOR_WRITE (R166); the data of a 32-bit write stand in the low 32 bits of `value`. -/
  | anchorWrite (span : RegisterSpan) (value : W64)
  /-- FAULT_ADDRESS_WRITE (R163): the data bytes written, whichever half they cover. -/
  | faultAddressWrite (value : W64)
  /-- OTHER_REGISTER_WRITE (R174). -/
  | otherRegisterWrite (offset : BitVec 12) (width : AccessWidth)
  /-- UNMAPPED_REGISTER_READ (R174). -/
  | unmappedRegisterRead (offset : BitVec 12)
  /-- RAW_CARRIER_LOSS (R63). -/
  | rawCarrierLoss (port : PortId)
  /-- RAW_CARRIER_RETURN (R63). -/
  | rawCarrierReturn (port : PortId)
  /-- CARRIER_FILTER_EXPIRY (R63). -/
  | carrierFilterExpiry (port : PortId)
  /-- FRAME_ARRIVAL (R68). -/
  | frameArrival (port : PortId) (frame : EthFrame)
  /-- AGE_CHECK (R146), as taken by one Link Port. -/
  | ageCheck (port : PortId)
  /-- REPLY_TIMER_EXPIRY (R125): of one of the context's two reply timers. -/
  | replyTimerExpiry (ctx : CtxId) (timer : Fin 2)
  /-- INQUIRY_TIMER_EXPIRY (R136). -/
  | inquiryTimerExpiry (ctx : CtxId)
  /-- DEADLINE_EXPIRY (R23). -/
  | deadlineExpiry (ctx : CtxId)
  /-- WAIT_TIMER_EXPIRY (R130), of a context in WAITING. -/
  | waitTimerExpiry (ctx : CtxId)
  /-- PENDING_WAIT_EXPIRY (R139), of a context in RESOLVING. -/
  | pendingWaitExpiry (ctx : CtxId)
  /-- PROBE_MARK_A_EXPIRY (R109). -/
  | probeMarkAExpiry (path : PathId)
  /-- PROBE_CYCLE_START (R108): the expiry of mark B. -/
  | probeCycleStart (path : PathId)
  /-- HOLD_DOWN_EXPIRY (R107). -/
  | holdDownExpiry (path : PathId)
  /-- STABILITY_EXPIRY (R106). -/
  | stabilityExpiry (path : PathId)
  /-- DRAIN_LIMIT_EXPIRY (R113). -/
  | drainLimitExpiry (path : PathId)
  /-- HOLDOFF_EXPIRY (R162). -/
  | holdoffExpiry
  /-- HOST_READ_TIMEOUT (R163): the read, and its requests that failed. -/
  | hostReadTimeout (read : HostReadId) (requests : List Nat)
  /-- RUN_START (R5). -/
  | runStart
  /-- SWEEP_START (R7). -/
  | sweepStart
  /-- SWEEP_OWNER_READ_END (R7). -/
  | sweepOwnerReadEnd (answer : ReadAnswer)
  /-- CONTEXT_RESERVATION (R8). -/
  | contextReservation
  /-- RECORD_READ_END (R9). -/
  | recordReadEnd (answer : ReadAnswer)
  /-- STREAM_LOAD_READ_END (R31). -/
  | streamLoadReadEnd (stream : StreamId) (answer : ReadAnswer)
  /-- PAYLOAD_READ_END (R13). -/
  | payloadReadEnd (answer : ReadAnswer)
  /-- RELOAD_STREAM_READ_END (R35). -/
  | reloadStreamReadEnd (stream : StreamId) (answer : ReadAnswer)
  /-- RELOAD_TARGET_READ_END (R38). -/
  | reloadTargetReadEnd (target : TargetId) (answer : ReadAnswer)
  /-- RELOAD_PATH_READ_END (R39). -/
  | reloadPathReadEnd (path : PathId) (answer : ReadAnswer)
  /-- LOADING_ANCHOR_READ_END (R168). -/
  | loadingAnchorReadEnd (answer : ReadAnswer)
  /-- LOADING_TABLES_READ_END (R168). -/
  | loadingTablesReadEnd (ends : List TableReadEnd)
  /-- GRANT_DECISION (R73). -/
  | grantDecision (port : PortId)
  /-- TRANSMIT_END (R77). -/
  | transmitEnd (port : PortId)
  /-- COMPLETION_ISSUE (R155). -/
  | completionIssue
  /-- DIGEST_REWRITE_ISSUE (R159). -/
  | digestRewriteIssue
deriving DecidableEq, Repr

end Sys2Proof
end

