-- ==== Sys2Proof/WellFormed.lean ====
section
/-!
DEFINITION. Which operands a command of the table can carry. The meanings are total on every operand;
these checks say which operands stand for an event the adapter can be given (a whole record has 128
bytes, a notice of unknown kind has a code outside 1 to 11, …).
-/

namespace Sys2Proof

/-- The offset belongs to no register (R174): 24h–27h and 30h–FFFh. -/
def unmappedOffset (offset : BitVec 12) : Bool :=
  (0x24 ≤ offset.toNat && offset.toNat < 0x28) || 0x30 ≤ offset.toNat

/-- The offset lies in IDENT (00h–07h) or STATUS (14h–17h), whose writes are discarded (R174). -/
def readOnlyOffset (offset : BitVec 12) : Bool :=
  offset.toNat < 8 || (0x14 ≤ offset.toNat && offset.toNat < 0x18)

/-- A row of a failed answer names at least one request and none twice (R163: each failed request is
one failure). -/
def failuresWellFormed (requests : List Nat) : Bool :=
  !requests.isEmpty && decide requests.Nodup

/-- An answer to a read of `len` bytes. -/
def ReadAnswer.wellFormed (len : Nat) : ReadAnswer → Bool
  | .data bytes => bytes.length == len
  | .failed requests => failuresWellFormed requests

/-- An answer to a read of 1 to 4096 bytes (a request payload, R1). -/
def ReadAnswer.wellFormedPayload : ReadAnswer → Bool
  | .data bytes => decide (1 ≤ bytes.length) && decide (bytes.length ≤ 4096)
  | .failed requests => failuresWellFormed requests

/-- The bytes of a table entry: 16 of a target descriptor, 64 of a path descriptor (11). -/
def TableEntry.size : TableEntry → Nat
  | .target _ => 16
  | .path _ => 64

/-- Ends of table reads of LOADING that come together (R168): at least one, and none of an entry twice. -/
def tableEndsWellFormed (ends : List TableReadEnd) : Bool :=
  !ends.isEmpty && decide (ends.map (·.entry)).Nodup && ends.all fun e => e.answer.wellFormed e.entry.size

/-- The data of a 32-bit write fill the low 32 bits alone, and one that begins inside ANCHOR (08h–0Fh) without being
of a half begins at neither 08h nor 0Ch (R174). -/
def spanWellFormed (span : RegisterSpan) (value : W64) : Bool :=
  match span with
  | .whole => true
  | .low => decide (value.toNat < 2 ^ 32)
  | .high => decide (value.toNat < 2 ^ 32)
  | .inside offset =>
      decide (value.toNat < 2 ^ 32) && 0x08 < offset.toNat && offset.toNat < 0x10 && offset.toNat != 0x0C

/-- The operands of a command are such as the adapter can be given. -/
def Instr.wellFormed : Instr → Bool
  | .start => true
  | .stop => true
  | .warmReset => true
  | .controlBadCombination => true
  | .coldReset _ _ _ _ => true
  | .arm _ _ => true
  | .sweep => true
  | .abort _ => true
  | .reloadStream _ => true
  | .reloadTarget _ => true
  | .reloadPath _ => true
  | .fence _ => true
  | .unfence _ => true
  | .drill _ => true
  | .drillEnd _ => true
  | .snapshot => true
  | .noticeUnknownKind code => code == 0#8 || decide (12 ≤ code.toNat)
  | .eventWrite _ => true
  | .eventMaskWrite _ => true
  | .anchorWrite span value => spanWellFormed span value
  | .faultAddressWrite _ => true
  | .otherRegisterWrite offset width =>
      width == .w8 || width == .w16 || unmappedOffset offset || readOnlyOffset offset
  | .unmappedRegisterRead offset => unmappedOffset offset
  | .rawCarrierLoss _ => true
  | .rawCarrierReturn _ => true
  | .carrierFilterExpiry _ => true
  | .frameArrival _ _ => true
  | .ageCheck _ => true
  | .replyTimerExpiry _ _ => true
  | .inquiryTimerExpiry _ => true
  | .deadlineExpiry _ => true
  | .waitTimerExpiry _ => true
  | .pendingWaitExpiry _ => true
  | .probeMarkAExpiry _ => true
  | .probeCycleStart _ => true
  | .holdDownExpiry _ => true
  | .stabilityExpiry _ => true
  | .drainLimitExpiry _ => true
  | .holdoffExpiry => true
  | .hostReadTimeout _ requests => failuresWellFormed requests
  | .runStart => true
  | .sweepStart => true
  | .sweepOwnerReadEnd answer => answer.wellFormed 4
  | .contextReservation => true
  | .recordReadEnd answer => answer.wellFormed 128
  | .streamLoadReadEnd _ answer => answer.wellFormed 64
  | .payloadReadEnd answer => answer.wellFormedPayload
  | .reloadStreamReadEnd _ answer => answer.wellFormed 64
  | .reloadTargetReadEnd _ answer => answer.wellFormed 16
  | .reloadPathReadEnd _ answer => answer.wellFormed 64
  | .loadingAnchorReadEnd answer => answer.wellFormed 256
  | .loadingTablesReadEnd ends => tableEndsWellFormed ends
  | .grantDecision _ => true
  | .transmitEnd _ => true
  | .completionIssue => true
  | .digestRewriteIssue => true

end Sys2Proof
end

