-- ==== Sys2Proof/Decode.lean ====
section
/-!
DEFINITION. How a host access spells commands: the CONTROL word (R166), the NOTICE word (R175, section
11.2) and the splitting of window accesses by offset and width (R174). spec/opcode_table.json gives its
rows no bits, so no word of the table spells a command and `decodeTableWord` answers none.
-/

namespace Sys2Proof

/-- The command a word spells by the bits of spec/opcode_table.json: the table gives none of its 56 rows
any bits, so there is none. -/
def decodeTableWord (_nbits _w : Nat) : Option Instr :=
  none

/-- R166: a write to CONTROL is one command; bit 0 START, bit 1 STOP, bit 2 RESET. -/
def decodeControl (word : W32) : Instr :=
  if word.getLsbD 2 then .warmReset
  else if word.getLsbD 0 && !word.getLsbD 1 then .start
  else if word.getLsbD 1 && !word.getLsbD 0 then .stop
  else .controlBadCombination

/-- R175: a write to NOTICE is one notice. Bits a kind does not use are ignored. -/
def decodeNotice (word : W32) : Instr :=
  let code := (word.extractLsb' 0 8).toNat
  let exch := word.extractLsb' 8 12
  let len := word.extractLsb' 20 7
  let entry := word.extractLsb' 8 8
  if code = 1 then .arm exch len
  else if code = 2 then .abort exch
  else if code = 3 then .sweep
  else if code = 4 then .reloadStream entry
  else if code = 5 then .reloadTarget entry
  else if code = 6 then .reloadPath entry
  else if code = 7 then .fence entry
  else if code = 8 then .unfence entry
  else if code = 9 then .drill entry
  else if code = 10 then .drillEnd entry
  else if code = 11 then .snapshot
  else .noticeUnknownKind (word.extractLsb' 0 8)

/-- The command of one aligned 32-bit write (R174). -/
def decodeWrite32 (offset : Nat) (word : W32) : Instr :=
  let off12 := BitVec.ofNat 12 offset
  if offset = 0x08 then .anchorWrite .low (word.setWidth 64)
  else if offset = 0x0C then .anchorWrite .high (word.setWidth 64)
  else if offset = 0x10 then decodeControl word
  else if offset = 0x18 then decodeNotice word
  else if offset = 0x1C then .eventWrite word
  else if offset = 0x20 then .eventMaskWrite word
  else if offset = 0x28 then .faultAddressWrite (word.setWidth 64)
  else if offset = 0x2C then .faultAddressWrite (word.setWidth 64)
  else .otherRegisterWrite off12 .w32

/-- The command of one 32-bit write that begins at an offset no multiple of 4, inside a register it may change (R174):
in ANCHOR and FAULT_ADDRESS it is that register's write; in a 32-bit register R174 gives it no effect, and it spells
none (log 21). -/
def decodeUnaligned32 (offset : BitVec 12) (word : W32) : Option Instr :=
  if 0x08 ≤ offset.toNat && offset.toNat < 0x10 then some (.anchorWrite (.inside offset) (word.setWidth 64))
  else if 0x28 ≤ offset.toNat && offset.toNat < 0x30 then some (.faultAddressWrite (word.setWidth 64))
  else none

/-- The command of one 32-bit write judged at its own offset (R174): in no register, and in IDENT and STATUS, it
is discarded wherever it begins. -/
def decodeWrite32At (offset : BitVec 12) (word : W32) : Option Instr :=
  if unmappedOffset offset || readOnlyOffset offset then some (.otherRegisterWrite offset .w32)
  else if offset.toNat % 4 = 0 then some (decodeWrite32 offset.toNat word)
  else decodeUnaligned32 offset word

/-- The commands of a host write to the window, in the order they are taken (R174): a 64-bit write other
than at a 64-bit register is two 32-bit writes, the lower address first, each judged at its own offset. A
32-bit write to which R174 gives no effect spells none, and what lies past FFFh is outside the window (log
21). -/
def decodeWindowWrite (offset : BitVec 12) (width : AccessWidth) (data : W64) : List Instr :=
  match width with
  | .w8 => [.otherRegisterWrite offset .w8]
  | .w16 => [.otherRegisterWrite offset .w16]
  | .w32 => (decodeWrite32At offset (data.setWidth 32)).toList
  | .w64 =>
      if offset.toNat = 0x00 then [.otherRegisterWrite offset .w64]
      else if offset.toNat = 0x08 then [.anchorWrite .whole data]
      else if offset.toNat = 0x28 then [.faultAddressWrite data]
      else
        let low := (decodeWrite32At offset (data.setWidth 32)).toList
        if 4096 ≤ offset.toNat + 4 then low
        else low ++ (decodeWrite32At (offset + 4) (data.extractLsb' 32 32)).toList

/-- One read at an offset of no register is one UNMAPPED_REGISTER_READ; every other read changes nothing and
is no command of the table (R174). -/
def decodeReadAt (offset : BitVec 12) : List Instr :=
  if unmappedOffset offset then [.unmappedRegisterRead offset] else []

/-- The commands of a host read of the window (R174): a 64-bit read other than at a 64-bit register is two
32-bit reads, the lower address first, each judged at its own offset (log 21). -/
def decodeWindowRead (offset : BitVec 12) (width : AccessWidth) : List Instr :=
  match width with
  | .w8 => decodeReadAt offset
  | .w16 => decodeReadAt offset
  | .w32 => decodeReadAt offset
  | .w64 =>
      if 4096 ≤ offset.toNat + 4 then decodeReadAt offset
      else decodeReadAt offset ++ decodeReadAt (offset + 4)

end Sys2Proof
end

