-- ==== Sys2Proof/Machine/State.lean ====
section
/-!
DEFINITION. The state of the CB4410 as plain data: every register, store, queue, timer and flag the
manual gives its thirteen blocks, the queue of waiting commands, and the state after a cold reset.
INVENTORY.md lists each field with its rule and its reset value.
-/

namespace Sys2Proof.Machine

/-! ### Time base and timers (chapter 8) -/

/-- A timer, or a mark of the probe timer (R147): the Adapter Clock at its start, and its limit in µs. -/
inductive Timer where
  | idle
  | running (start : W32) (limit : Nat)
  | expired (start : W32) (limit : Nat)
deriving DecidableEq, Repr

/-- A host-memory read in progress (R163): its lowest address, its length, and the Host Bridge's 50 ms
limit on the answer (log 24). -/
structure HostRead where
  addr : W64
  len : Nat
  limit : Timer
deriving DecidableEq, Repr

/-- A read in progress whose use is gone, since a START from QUIESCED was accepted (log 14) or another table read of
LOADING failed (log 32): only its failure is still reported (R163). -/
structure Orphan where
  id : HostReadId
  read : HostRead
deriving DecidableEq, Repr

/-! ### Exchanges (chapter 1) -/

/-- The adapter states (R165). -/
inductive AdapterState where
  | halted | loading | running | quiescing | quiesced | faulted
deriving DecidableEq, Repr

/-- Kind of an exchange (R1). -/
inductive Kind where
  | query | commit
deriving DecidableEq, Repr

/-- States of a live context (R19). -/
inductive CtxState where
  | fetching | pending | parked | active | waiting | resolving | closing
deriving DecidableEq, Repr

/-- States of an attempt (R20). -/
inductive AttemptState where
  | queued | sent | answered | timedOut | lost | busy | cancelled
deriving DecidableEq, Repr

/-- States of an inquiry while its context is RESOLVING (R21). -/
inductive InquiryState where
  | queued | sent | waiting
deriving DecidableEq, Repr

/-- Remote Outcome of a record (R2, 11 section 11.3). -/
inductive RemoteOutcome where
  | none | ok | busy | fault | barred | applied | pending
deriving DecidableEq, Repr

/-- Completion status codes (01 section 1.8). -/
inductive Status where
  | ok | remoteFault | remoteBusy | timeout | notApplied | inDoubt | deadline | noPath | aborted
  | withdrawn | malformed | unreadable | noStream | levelDenied
deriving DecidableEq, Repr

/-- The flags gathered over an exchange's life (R26). -/
structure ResultFlags where
  resolved : Bool := false
  lateReply : Bool := false
  redriven : Bool := false
  degraded : Bool := false
  twin : Bool := false
  truncated : Bool := false
  abortTooLate : Bool := false
  crossed : Bool := false
deriving DecidableEq, Repr

/-- An attempt record (R20). `id` is the model's own name for the record, by order of creation in its
context (log 27); the twin partner is named by it. -/
structure Attempt where
  id : Nat
  number : Option Nat
  path : PathId
  gen : Nat
  twin : Option Nat
  redrive : Bool
  sendTime : Option W32
  state : AttemptState
deriving DecidableEq, Repr

/-- The inquiry record of a context (R21). -/
structure Inquiry where
  count : Nat
  timeouts : Nat
  gen : Nat
  path : Option PathId
  lastSent : Option PathId
  state : Option InquiryState
  bar : Bool
deriving DecidableEq, Repr

/-- The attempt request a PARKED context holds (R18, R59). -/
structure ParkedRequest where
  gen : Nat
  redrive : Bool
  pair : Bool
deriving DecidableEq, Repr

/-- What is fixed in a context at its entry to CLOSING (R2, R154); TRUNCATED is added at issue. -/
structure Result where
  status : Status
  flags : ResultFlags
  remote : RemoteOutcome
  replyLen : Nat
  attemptsUsed : Nat
  inquiriesUsed : Nat
  finalPath : Option PathId
  finalGen : Nat
  issue : W32
  taken : W32
  done : W32
deriving DecidableEq, Repr

/-- A live context (R18). `timeouts` counts the attempts that ended TIMED_OUT (the k of R52, log 16);
`nextId` and `lastGen` are bookkeeping of the attempt list (logs 27, 35). -/
structure Context where
  exch : Option Nat := none
  state : CtxState := .fetching
  kind : Kind := .query
  stream : StreamId := 0
  level : Nat := 0
  issue : W32 := 0
  taken : W32 := 0
  deadlineMs : Nat := 0
  reqLen : Nat := 0
  replyAddr : W64 := 0
  replyCap : Nat := 0
  abortMark : Bool := false
  attempts : List Attempt := []
  inquiry : Option Inquiry := none
  parked : Option ParkedRequest := none
  failed : List PathId := []
  flags : ResultFlags := {}
  lastOutcome : RemoteOutcome := .none
  reply0 : Timer := .idle
  serves0 : Option Nat := none
  reply1 : Timer := .idle
  serves1 : Option Nat := none
  inquiryTimer : Timer := .idle
  deadlineTimer : Timer := .idle
  waitTimer : Timer := .idle
  timeouts : Nat := 0
  nextId : Nat := 0
  lastGen : Nat := 0
  result : Option Result := none
deriving DecidableEq, Repr

/-- A run of the Arm FIFO (R4): the first exchange number and the number of records. -/
structure Run where
  first : Nat
  len : Nat
deriving DecidableEq, Repr

/-- What the Fetch Engine is serving (R5): a current run, by its next record and the records left, or a
sweep, by the record it is at and whether it stops after that record (R17). -/
inductive Job where
  | none
  | run (next left : Nat)
  | sweep (next : Nat) (stopping : Bool)
deriving DecidableEq, Repr

/-- The host fields of a record after the clamps of R1; `deadlineMs` is 0 while the stream's Default
Deadline has not replaced it. -/
structure RecordFields where
  kind : Kind
  level : Nat
  stream : StreamId
  deadlineMs : Nat
  reqLen : Nat
  replyCap : Nat
  reqAddr : W64
  replyAddr : W64
deriving DecidableEq, Repr

/-- The step of the record fetch in progress (R7 to R13). -/
inductive FetchPhase where
  | idle
  | owner (read : HostRead)
  | wantContext
  | record (ctx : CtxId) (read : HostRead)
  | stream (ctx : CtxId) (fields : RecordFields)
  | payload (ctx : CtxId) (read : HostRead)
deriving DecidableEq, Repr

/-! ### The Descriptor Cache (chapter 2) -/

/-- Load states (02 section 2.2). LOADING keeps whether its read is a reload read for R34 (R33). -/
inductive LoadState where
  | notLoaded
  | loading (reload : Bool)
  | valid
  | reloading
  | invalid
deriving DecidableEq, Repr

/-- Mode of a stream (R28). -/
inductive Mode where
  | unordered | ordered
deriving DecidableEq, Repr

/-- An interpreted stream descriptor (R28). Times are in the units of the table. -/
structure StreamDesc where
  present : Bool
  target : TargetId
  level : Nat
  permits : BitVec 128
  mode : Mode
  window : Nat
  twin : Bool
  stopOnDoubt : Bool
  trafficClass : Fin 8
  maxAttempts : Nat
  inquiryLimit : Nat
  minTimeout : Nat
  maxTimeout : Nat
  defaultDeadline : Nat
  pendingInterval : Nat
deriving DecidableEq, Repr

/-- An interpreted target descriptor (R29). -/
structure TargetDesc where
  endpoint : W16
  pathList : List PathId
  initialTimeout : Nat
deriving DecidableEq, Repr

/-- An interpreted path descriptor (R30). -/
structure PathDesc where
  enabled : Bool
  port : PortId
  remote : Mac
  suspectThreshold : Nat
  downThreshold : Nat
  provingCount : Nat
  probeInterval : Nat
  fastInterval : Nat
  probeDeadline : Nat
  holdBase : Nat
  stabilityPeriod : Nat
  drainLimit : Nat
  upperLatency : Nat
  lowerLatency : Nat
deriving DecidableEq, Repr

/-- Whether a stream dispatches (R40). -/
inductive StreamState where
  | open | stalled
deriving DecidableEq, Repr

/-- A stream entry with its runtime state (R31, R33, R40). -/
structure StreamEntry where
  load : LoadState := .notLoaded
  contents : Option StreamDesc := none
  again : Bool := false
  read : Option HostRead := none
  state : StreamState := .open
  pendingList : List CtxId := []
  inflight : Nat := 0
  mode : Mode := .unordered
deriving DecidableEq, Repr

/-- Reachability of a target (R120). -/
inductive Reach where
  | unreachable | reachable | degraded
deriving DecidableEq, Repr

/-- A target entry (R29, R33) with its park list (R59) and its reachability (R120). -/
structure TargetEntry where
  load : LoadState := .notLoaded
  contents : Option TargetDesc := none
  again : Bool := false
  read : Option HostRead := none
  park : List CtxId := []
  reach : Reach := .unreachable
deriving DecidableEq, Repr

/-! ### Paths: descriptor copy, estimate, health (chapters 2, 3, 6) -/

/-- Health states of a path (R100). -/
inductive Health where
  | untried | up | suspect | draining | down | recovering | fenced
deriving DecidableEq, Repr

/-- The outstanding probe of a path (R99). -/
structure Probe where
  seq : W16
  sendTime : W32
deriving DecidableEq, Repr

/-- The eight path counters (R121). -/
structure PathCounters where
  requestsSent : W16 := 0
  replies : W16 := 0
  timeouts : W16 := 0
  probesSent : W16 := 0
  probeMisses : W16 := 0
  malformed : W16 := 0
  stale : W16 := 0
  transitions : W16 := 0
deriving DecidableEq, Repr

/-- All the adapter holds of one path: its descriptor copy (R30, R33), its estimate (R47), its health
record (R99) and its timers (R107, R113, R151). -/
structure PathRec where
  load : LoadState := .notLoaded
  contents : Option PathDesc := none
  again : Bool := false
  read : Option HostRead := none
  srtt : Nat := 0
  rttvar : Nat := 0
  samples : Nat := 0
  slow : Bool := false
  inflight : Nat := 0
  health : Health := .untried
  strikes : Nat := 0
  proving : Nat := 0
  flap : Nat := 0
  lastUp : Option W32 := none
  holdEnded : Bool := false
  fence : Bool := false
  drill : Bool := false
  outstanding : Option Probe := none
  nextSeq : W16 := 0
  replySeen : Bool := false
  counters : PathCounters := {}
  markA : Timer := .idle
  markB : Timer := .idle
  interval : Nat := 0
  probeDeadline : Nat := 0
  hold : Timer := .idle
  stability : Timer := .idle
  drain : Timer := .idle
deriving DecidableEq, Repr

/-! ### Link ports and port schedulers (chapter 4) -/

/-- Loss mode of a carrier filter (04 section 4.2). -/
inductive LossMode where
  | delayed | immediate
deriving DecidableEq, Repr

/-- The settings of a carrier filter, times in ms (04 section 4.2). -/
structure FilterSettings where
  mode : LossMode
  lossTime : Nat
  returnTime : Nat
deriving DecidableEq, Repr

/-- Filter states (R63); HOLD keeps the last raw level reported. -/
inductive CarrierFilter where
  | present
  | lossPending
  | hold (rawPresent : Bool)
  | lost
  | returnPending
deriving DecidableEq, Repr

/-- Port states (R66). -/
inductive PortState where
  | down | up | suspect
deriving DecidableEq, Repr

/-- A frame waiting in a lane (R70), with what is fixed at placement (R81): for REQUEST and INQUIRY the
path and the Endpoint Id in force. -/
inductive LaneEntry where
  | request (ctx : CtxId) (attempt : Nat) (path : PathId) (endpoint : W16)
  | inquiry (ctx : CtxId) (path : PathId) (endpoint : W16)
  | probe (path : PathId) (seq : W16)
  | echo (path : PathId) (seq : W16) (sendTime : W32)
deriving DecidableEq, Repr

/-- The link header (05 section 5.1, 11 section 11.4). -/
structure LinkHeader where
  kind : Byte := 0
  flags : Byte := 0
  check : W16 := 0
  adapterId : W16 := 0
  endpoint : W16 := 0
  issue : W32 := 0
  gen : BitVec 4 := 0
  attempt : BitVec 4 := 0
  code : Byte := 0
  handleCtx : BitVec 12 := 0
  handleNum : BitVec 4 := 0
  advisory : Byte := 0
  probeSeq : W16 := 0
  sendTime : W32 := 0
  payloadLen : W16 := 0
deriving DecidableEq, Repr

/-- A frame on the wire, sent by the adapter (R62, R76). -/
structure WireFrame where
  dest : Mac
  src : Mac
  etype : W16
  header : LinkHeader
  payload : List Byte
deriving DecidableEq, Repr

/-- All the adapter holds of one port: its carrier filter (R63), its port state and counters (R66, R69),
its lanes, masks and transmitter (R70, R72, R75), its correlation list (R119) and whether an age check
waits to be taken (R146). -/
structure PortRec where
  settings : FilterSettings
  filter : CarrierFilter := .lost
  filterTimer : Timer := .idle
  state : PortState := .down
  framesSent : W32 := 0
  framesReceived : W32 := 0
  unknownSource : W32 := 0
  foreignType : W32 := 0
  correlationTrips : W32 := 0
  lanes : Vector (List LaneEntry) 8 := Vector.replicate 8 []
  laneMasks : Vector Bool 8 := Vector.replicate 8 false
  chit2 : Bool := false
  chit3 : Bool := false
  transmitter : Option WireFrame := none
  downTimes : List W32 := []
  ageDue : Bool := false
deriving DecidableEq, Repr

/-! ### Settings and LOADING (chapter 10) -/

/-- Arbitration levels of a lane (R71). -/
inductive LaneLevel where
  | off | level1 | level2 | level3
deriving DecidableEq, Repr

/-- An origin slice (R12). -/
structure Slice where
  first : Nat
  last : Nat
  level : Nat
deriving DecidableEq, Repr

/-- The interpreted Anchor (R167). -/
structure Settings where
  adapterId : W16
  frameType : W16
  portAddr : Vector Mac 4
  exchBase : W64
  streamBase : W64
  targetBase : W64
  pathBase : W64
  digestBase : W64
  records : Nat
  slices : List Slice
  laneLevels : Vector LaneLevel 8
  filters : Vector FilterSettings 4
  corrWindow : Nat
  corrThreshold : Nat
  coalesce : Nat
  holdoff : Nat
  issueSeed : W32
deriving DecidableEq, Repr

/-- A LOADING in progress (R168): reading the Anchor, or the tables under the Anchor read, with the clock at the
start of step 3, the µs since (log 45), and for each of the 64 targets and 128 paths the bytes read or none while its
read has not ended; and whether it began from QUIESCED (step 8). -/
inductive Loading where
  | anchor (fromQuiesced : Bool) (read : HostRead)
  | tables (fromQuiesced : Bool) (cfg : Settings) (begun : W32) (age : Nat) (got : Vector (Option (List Byte)) 192)
deriving DecidableEq, Repr

/-! ### Completion Writer (chapter 9) -/

/-- The parts of the Digest (R159). -/
inductive Part where
  | header
  | group (g : Fin 64)
  | port (i : PortId)
  | target (t : TargetId)
  | path (p : PathId)
deriving DecidableEq, Repr

/-- An entry of the rewrite list: a part, and whether it carries an event mark (R158, R159). -/
structure Rewrite where
  part : Part
  event : Bool
deriving DecidableEq, Repr

/-- The kinds of item the Completion Writer issues in turns (R159). -/
inductive IssueKind where
  | completion | rewrite
deriving DecidableEq, Repr

/-- What the adapter hands to the host link, in issue order (R157): a posted write of host memory, or the
interrupt going from deasserted to asserted (R161; log 22). -/
inductive HostOut where
  | write (addr : W64) (bytes : List Byte)
  | interrupt
deriving DecidableEq, Repr

/-- A decision that a rule puts after a whole step (R104, R126, R67; log 4). -/
inductive Deferred where
  | lostAttempt (ctx : CtxId) (attempt : Nat)
  | lostInquiry (ctx : CtxId)
  | replace (ctx : CtxId) (gen : Nat) (redrive : Bool)
  | reroute (ctx : CtxId)
deriving DecidableEq, Repr

/-! ### The whole state -/

/-- The state of the adapter. -/
structure State where
  /-- MODEL: the commands that wait, first in first out. -/
  pending : List Instr
  /-- ANCHOR (R166). -/
  anchor : W64
  /-- EVENT, bits 8 to 0 (R161). -/
  event : BitVec 9
  /-- EVENT_MASK, bits 8 to 0 (R161). -/
  eventMask : BitVec 9
  /-- Whether the interrupt is asserted (R161). -/
  interrupt : Bool
  /-- FAULT_ADDRESS (R163). -/
  faultAddress : W64
  /-- The memory fault count of STATUS (R163). -/
  faultCount : Nat
  /-- MODEL: what has been issued to the host link, oldest first (R157). -/
  outbound : List HostOut
  /-- The adapter state (R165). -/
  adapter : AdapterState
  /-- The LOADING in progress (R168). -/
  loading : Option Loading
  /-- The reads in progress that a START from QUIESCED has left without a use, oldest first (R163; log 14). -/
  orphans : List Orphan
  /-- The settings in force (R168). -/
  settings : Option Settings
  /-- The Issue Number counter (R16). -/
  issueNumber : Option W32
  /-- The Arm FIFO (R5). -/
  armFifo : List Run
  /-- Sweep Pending (R6). -/
  sweepPending : Bool
  /-- The Fetch Engine's current run or sweep (R5, R7). -/
  job : Job
  /-- The record fetch in progress (R8 to R13). -/
  phase : FetchPhase
  /-- The Context Store (R18): a free context is none. -/
  ctxs : Vector (Option Context) 512
  /-- The Payload Store (R13), a byte memory of 512 slots. -/
  payload : List Host.Cell
  /-- The stream entries (R31, R40). -/
  streams : Vector StreamEntry 256
  /-- The target entries (R29), their park lists and reachability (R59, R120). -/
  targets : Vector TargetEntry 64
  /-- The paths (R30, R47, R99). -/
  paths : Vector PathRec 128
  /-- The ports (chapter 4). -/
  ports : Vector PortRec 4
  /-- The Adapter Clock (R145). -/
  clock : W32
  /-- The completion queue (R154). -/
  queue : List CtxId
  /-- The rewrite list (R159). -/
  rewrites : List Rewrite
  /-- The kind of item issued last since LOADING (R159). -/
  lastIssued : Option IssueKind
  /-- The shadow group counters (R156). -/
  groups : Vector W16 64
  /-- The idle arm count (R9, R158). -/
  idleArms : W32
  /-- The count C of R162. -/
  coalesced : Nat
  /-- The holdoff timer (R152). -/
  holdoff : Timer
  /-- MODEL: decisions that wait for the end of a whole step; empty between commands (log 4). -/
  deferred : List Deferred
  /-- MODEL: the number of warm resets taken, the argument of the free value of R27 (log 42). -/
  resets : Nat
deriving DecidableEq, Repr

/-- No command of the block stops the machine: every failure the manual describes (MISUSE, MEMORY_FAULT,
a refusal status, FAULTED) is an effect on State. The type has no constructor; that is safe. -/
inductive Fault where
deriving DecidableEq, Repr

/-- Why a command has no meaning. -/
inductive Refusal where
  /-- Raised by an arm of `exec` whose command has no meaning yet; no arm does. Safe: the machine stops. -/
  | notModelled (mnemonic : String)
deriving DecidableEq, Repr

/-- A port after cold reset (R79): filter settings DELAYED, 5 ms, 200 ms; filter LOST; port DOWN; counters
0; lanes empty; transmitter idle. -/
def PortRec.initial : PortRec :=
  { settings :=
      { mode := .delayed
        lossTime := Config.initialLossTime
        returnTime := Config.initialReturnTime } }

/-- The state after a cold reset with no raw carrier present (R173, R27, R46, R61, R79, R123, R153, R164).
The values the manual does not give are named in log 26. -/
def State.reset : State where
  pending := []
  anchor := 0
  event := 0
  eventMask := 0
  interrupt := false
  faultAddress := 0
  faultCount := 0
  outbound := []
  adapter := .halted
  loading := none
  orphans := []
  settings := none
  issueNumber := none
  armFifo := []
  sweepPending := false
  job := .none
  phase := .idle
  ctxs := Vector.replicate 512 none
  payload := []
  streams := Vector.replicate 256 {}
  targets := Vector.replicate 64 {}
  paths := Vector.replicate 128 {}
  ports := Vector.replicate 4 PortRec.initial
  clock := 0
  queue := []
  rewrites := []
  lastIssued := none
  groups := Vector.replicate 64 0
  idleArms := 0
  coalesced := 0
  holdoff := .idle
  deferred := []
  resets := 0

end Sys2Proof.Machine
end

