-- ==== Sys2Proof/Machine/Flags.lean ====
section
/-!
DEFINITION. The flag words: the bits of EVENT and EVENT_MASK with the interrupt they assert (R161), the
STATUS word (11, section 11.1), and the codes written into records and the Digest (11, section 11.3).
-/

namespace Sys2Proof.Machine

/-- The host events (R161). -/
inductive Event where
  | completions | pathChange | targetChange | streamStalled | armOverflow | doubleArm | memoryFault
  | stateChange | misuse
deriving DecidableEq, Repr

/-- The bit of an event in EVENT and EVENT_MASK (11, section 11.1). -/
def eventBit : Event → BitVec 9
  | .completions => 0x001#9
  | .pathChange => 0x002#9
  | .targetChange => 0x004#9
  | .streamStalled => 0x008#9
  | .armOverflow => 0x010#9
  | .doubleArm => 0x020#9
  | .memoryFault => 0x040#9
  | .stateChange => 0x080#9
  | .misuse => 0x100#9

/-- R161: the interrupt is asserted while any bit is set in both EVENT and EVENT_MASK. -/
def assertion (event mask : BitVec 9) : Bool :=
  event &&& mask != 0#9

/-- EVENT and EVENT_MASK take new values and the interrupt is evaluated again (R161). A change from
deasserted to asserted is handed to the host link in issue order (R157, log 22). -/
def State.setEvents (event mask : BitVec 9) (s : State) : State :=
  { s with
    event := event
    eventMask := mask
    interrupt := assertion event mask
    outbound := if assertion event mask && !s.interrupt then s.outbound ++ [.interrupt] else s.outbound }

/-- A raise sets the event's bit; a bit already set stays set (R161). -/
def State.raise (e : Event) (s : State) : State :=
  s.setEvents (s.event ||| eventBit e) s.eventMask

/-- Code of an adapter state in STATUS and in the Digest header (11). -/
def adapterCode : AdapterState → Nat
  | .halted => 0
  | .loading => 1
  | .running => 2
  | .quiescing => 3
  | .quiesced => 4
  | .faulted => 5

/-- Status codes of a record (11, section 11.3). -/
def statusCode : Status → Nat
  | .ok => 0x01
  | .remoteFault => 0x02
  | .remoteBusy => 0x03
  | .timeout => 0x04
  | .notApplied => 0x05
  | .inDoubt => 0x06
  | .deadline => 0x07
  | .noPath => 0x08
  | .aborted => 0x09
  | .withdrawn => 0x0A
  | .malformed => 0x0B
  | .unreadable => 0x0C
  | .noStream => 0x0D
  | .levelDenied => 0x0E

/-- Remote Outcome codes, which are also the Outcome and Verdict codes of the link (11). -/
def outcomeCode : RemoteOutcome → Nat
  | .none => 0
  | .ok => 1
  | .busy => 2
  | .fault => 3
  | .barred => 4
  | .applied => 5
  | .pending => 6

/-- The Flags word of a record (11, section 11.3). -/
def ResultFlags.word (f : ResultFlags) : W16 :=
  let bit (b : Bool) (n : Nat) : W16 := if b then BitVec.ofNat 16 (2 ^ n) else 0
  bit f.resolved 0 ||| bit f.lateReply 1 ||| bit f.redriven 2 ||| bit f.degraded 3 |||
    bit f.twin 4 ||| bit f.truncated 5 ||| bit f.abortTooLate 6 ||| bit f.crossed 7

/-- Health state codes of a path summary (11). -/
def healthCode : Health → Nat
  | .untried => 0
  | .up => 1
  | .suspect => 2
  | .draining => 3
  | .down => 4
  | .recovering => 5
  | .fenced => 6

/-- Port state codes of a port summary (11). -/
def portCode : PortState → Nat
  | .down => 0
  | .up => 1
  | .suspect => 2

/-- Target state codes (11). -/
def reachCode : Reach → Nat
  | .unreachable => 0
  | .reachable => 1
  | .degraded => 2

/-- The number of live contexts (R18). -/
def State.liveCount (s : State) : Nat :=
  s.ctxs.toList.countP (·.isSome)

/-- STATUS, formed from its owners (R174; 11, section 11.1). -/
def State.statusWord (s : State) : W32 :=
  BitVec.ofNat 32
    (adapterCode s.adapter + 8 * s.sweepPending.toNat + 16 * s.liveCount +
      2 ^ 14 * s.armFifo.length + 2 ^ 20 * s.faultCount)

end Sys2Proof.Machine
end

