-- ==== Sys2Proof/Machine/Operands.lean ====
section
/-!
DEFINITION. The formats (11): fields of host structures by offset, the interpretation of the exchange
record (R1), the stream, target and path descriptors (R28 to R30), the Anchor (R167) and the link header
(R177), and the bytes the adapter writes into records and into the Digest.
-/

namespace Sys2Proof.Machine

/-! ### Fields of a byte string -/

/-- The byte at an offset; a byte beyond the string reads 0 (log 30). -/
def byteAt (bs : List Byte) (off : Nat) : Nat :=
  (bs.getD off 0).toNat

/-- A little-endian number of `n` bytes at an offset (11: host structures). -/
def leAt (bs : List Byte) (off : Nat) : Nat → Nat
  | 0 => 0
  | n + 1 => byteAt bs off + 256 * leAt bs (off + 1) n

/-- A number of `n` bytes at an offset, most significant byte first (11: link header, wire order). -/
def beAt (bs : List Byte) (off : Nat) : Nat → Nat
  | 0 => 0
  | n + 1 => byteAt bs off * 256 ^ n + beAt bs (off + 1) n

/-- The `n` bytes of a number, least significant first. -/
def leBytes (v : Nat) : Nat → List Byte
  | 0 => []
  | n + 1 => BitVec.ofNat 8 v :: leBytes (v / 256) n

/-- The `n` bytes of a number, most significant first. -/
def beBytes (v : Nat) (n : Nat) : List Byte :=
  (leBytes v n).reverse

/-- A bit of a byte at an offset. -/
def bitAt (bs : List Byte) (off bit : Nat) : Bool :=
  (byteAt bs off).testBit bit

/-- A value taken into a range at the nearer end (R28 to R30, R167). -/
def clampTo (lo hi v : Nat) : Nat :=
  max lo (min hi v)

/-- A value taken into a range, 0 standing for a default (R28 to R30, R167). -/
def clampOr (dflt lo hi v : Nat) : Nat :=
  if v = 0 then dflt else clampTo lo hi v

/-! ### The exchange record (R1, R176) -/

/-- Owner of a record: whether it reads ARMED (R9, R176). -/
def ownerArmed (bs : List Byte) : Bool :=
  leAt bs 0x00 4 == 1

/-- The host fields of a record, clamped under R1; none where the record is malformed (R10). -/
def recordFields (bs : List Byte) : Option RecordFields :=
  let kind := byteAt bs 0x04
  let stream := leAt bs 0x06 2
  let len := leAt bs 0x0A 2
  if h : (kind = 1 ∨ kind = 2) ∧ 1 ≤ len ∧ len ≤ 4096 ∧ stream < 256 then
    some
      { kind := if kind = 1 then .query else .commit
        level := min 3 (byteAt bs 0x05)
        stream := ⟨stream, h.2.2.2⟩
        deadlineMs := min 60000 (leAt bs 0x08 2)
        reqLen := len
        replyCap := min 4096 (leAt bs 0x0C 2)
        reqAddr := BitVec.ofNat 64 (leAt bs 0x10 8)
        replyAddr := BitVec.ofNat 64 (leAt bs 0x18 8) }
  else none

/-! ### Descriptors (R28 to R30) -/

/-- A number as an index below `n + 1`, taken at the nearer end. -/
def finTo (n v : Nat) : Fin (n + 1) :=
  ⟨min n v, Nat.lt_succ_of_le (Nat.min_le_left n v)⟩

/-- The interpretation of a stream descriptor (R28). -/
def streamDesc (bs : List Byte) : StreamDesc :=
  let minT := clampOr 2000 500 1000000 (leAt bs 0x08 4)
  let maxT := clampOr 200000 1000 10000000 (leAt bs 0x0C 4)
  { present := bitAt bs 0x00 0
    target := finTo 63 (byteAt bs 0x01)
    level := min 3 (byteAt bs 0x02)
    permits := BitVec.ofNat 128 (leAt bs 0x20 16)
    mode := if bitAt bs 0x00 1 then .ordered else .unordered
    window := clampTo 1 32 (byteAt bs 0x04)
    twin := bitAt bs 0x00 2
    stopOnDoubt := bitAt bs 0x00 3
    trafficClass := finTo 7 (max 2 (byteAt bs 0x03))
    maxAttempts := clampOr 4 1 8 (byteAt bs 0x05)
    inquiryLimit := clampOr 6 1 8 (byteAt bs 0x06)
    minTimeout := minT
    maxTimeout := max minT maxT
    defaultDeadline := clampOr 5000 1 60000 (leAt bs 0x10 2)
    pendingInterval := clampOr 20 1 1000 (leAt bs 0x12 2) }

/-- The Path List of a target descriptor (R29): entries of 128 or more and repeated entries dropped. -/
def pathListOf (entries : List Nat) : List PathId :=
  entries.foldl
    (fun kept v =>
      if h : v < 128 then if (⟨v, h⟩ : PathId) ∈ kept then kept else kept ++ [⟨v, h⟩] else kept) []

/-- The interpretation of a target descriptor (R29). -/
def targetDesc (bs : List Byte) : TargetDesc :=
  { endpoint := BitVec.ofNat 16 (leAt bs 0x00 2)
    pathList :=
      pathListOf
        ([byteAt bs 0x04, byteAt bs 0x05, byteAt bs 0x06, byteAt bs 0x07].take
          (clampTo 1 4 (byteAt bs 0x02)))
    initialTimeout := clampOr 50 1 10000 (leAt bs 0x08 2) }

/-- The interpretation of a path descriptor (R30). -/
def pathDesc (bs : List Byte) : PathDesc :=
  let suspect := clampOr 3 1 14 (byteAt bs 0x08)
  let down := clampOr 6 2 15 (byteAt bs 0x09)
  let upper := clampTo 0 1000000 (leAt bs 0x20 4)
  let lower := clampTo 0 1000000 (leAt bs 0x24 4)
  { enabled := bitAt bs 0x00 0
    port := finTo 3 (byteAt bs 0x01)
    remote := BitVec.ofNat 48 (beAt bs 0x02 6)
    suspectThreshold := suspect
    downThreshold := if down ≤ suspect then suspect + 1 else down
    provingCount := clampOr 5 1 15 (byteAt bs 0x0A)
    probeInterval := clampOr 100 10 10000 (leAt bs 0x0C 2)
    fastInterval := clampOr 20 5 1000 (leAt bs 0x0E 2)
    probeDeadline := clampOr 30 1 1000 (leAt bs 0x10 2)
    holdBase := clampOr 1000 100 60000 (leAt bs 0x14 2)
    stabilityPeriod := clampOr 30000 1000 600000 (leAt bs 0x18 4)
    drainLimit := clampOr 60000 1000 600000 (leAt bs 0x1C 4)
    upperLatency := upper
    lowerLatency := if upper ≠ 0 ∧ upper ≤ lower then upper / 2 else lower }

/-! ### The Anchor (R167, R176) -/

/-- A Lane Level Map entry (R176): 0 OFF, 1 to 3 a level, above 3 level 3. -/
def laneLevelOf (v : Nat) : LaneLevel :=
  if v = 0 then .off else if v = 1 then .level1 else if v = 2 then .level2 else .level3

/-- N (R167): rounded down to a multiple of 64, within 64 to 4096. -/
def recordCount (v : Nat) : Nat :=
  clampTo 64 4096 (v / 64 * 64)

/-- Carrier settings of one port at an offset of the Anchor (R167, R176). -/
def filterAt (bs : List Byte) (off : Nat) : FilterSettings :=
  { mode := if bitAt bs off 0 then .immediate else .delayed
    lossTime := clampTo 0 1000 (leAt bs (off + 2) 2)
    returnTime := clampTo 0 10000 (leAt bs (off + 4) 2) }

/-- An origin slice at an offset of the Anchor (R167). -/
def sliceAt (bs : List Byte) (off : Nat) : Slice :=
  { first := leAt bs off 2
    last := leAt bs (off + 2) 2
    level := min 3 (byteAt bs (off + 4)) }

/-- The interpretation of the Anchor block (R167). Lanes 0 and 1 are at level 1 on every port (R71). -/
def anchorSettings (bs : List Byte) : Settings :=
  { adapterId := BitVec.ofNat 16 (leAt bs 0x00 2)
    frameType := BitVec.ofNat 16 (leAt bs 0x02 2)
    portAddr :=
      #v[BitVec.ofNat 48 (beAt bs 0x40 6), BitVec.ofNat 48 (beAt bs 0x46 6),
        BitVec.ofNat 48 (beAt bs 0x4C 6), BitVec.ofNat 48 (beAt bs 0x52 6)]
    exchBase := BitVec.ofNat 64 (leAt bs 0x18 8)
    streamBase := BitVec.ofNat 64 (leAt bs 0x20 8)
    targetBase := BitVec.ofNat 64 (leAt bs 0x28 8)
    pathBase := BitVec.ofNat 64 (leAt bs 0x30 8)
    digestBase := BitVec.ofNat 64 (leAt bs 0x38 8)
    records := recordCount (leAt bs 0x04 2)
    slices := [sliceAt bs 0x60, sliceAt bs 0x68, sliceAt bs 0x70, sliceAt bs 0x78]
    laneLevels :=
      #v[.level1, .level1, laneLevelOf (byteAt bs 0x58), laneLevelOf (byteAt bs 0x59),
        laneLevelOf (byteAt bs 0x5A), laneLevelOf (byteAt bs 0x5B), laneLevelOf (byteAt bs 0x5C),
        laneLevelOf (byteAt bs 0x5D)]
    filters := #v[filterAt bs 0x80, filterAt bs 0x88, filterAt bs 0x90, filterAt bs 0x98]
    corrWindow := clampOr 250 10 10000 (leAt bs 0x08 2)
    corrThreshold := clampOr 2 2 8 (byteAt bs 0x06)
    coalesce := clampOr 16 1 256 (leAt bs 0x0A 2)
    holdoff := clampTo 0 10000 (leAt bs 0x0C 2)
    issueSeed := BitVec.ofNat 32 (leAt bs 0x10 4) }

/-- R12: the origin level of an exchange, the greatest level of the slices that contain its number, or 3. -/
def originLevel (slices : List Slice) (n : Nat) : Nat :=
  match slices.filter (fun c => decide (c.first ≤ n) && decide (n ≤ c.last)) with
  | [] => 3
  | c :: rest => rest.foldl (fun m d => max m d.level) c.level

/-! ### The link header (R177) -/

/-- The 32 bytes of a link header (11, section 11.4); the bytes marked "sent as 0" are 0. -/
def headerBytes (h : LinkHeader) : List Byte :=
  [h.kind, h.flags] ++ beBytes h.check.toNat 2 ++ beBytes h.adapterId.toNat 2 ++
    beBytes h.endpoint.toNat 2 ++ beBytes h.issue.toNat 4 ++
    [BitVec.ofNat 8 (16 * h.gen.toNat + h.attempt.toNat), h.code] ++
    beBytes (16 * h.handleCtx.toNat + h.handleNum.toNat) 2 ++ [h.advisory, 0#8] ++
    beBytes h.probeSeq.toNat 2 ++ beBytes h.sendTime.toNat 4 ++ beBytes h.payloadLen.toNat 2 ++
    List.replicate 6 0#8

/-- The link header read from the bytes after the type field (11, section 11.4). -/
def parseHeader (bs : List Byte) : LinkHeader :=
  { kind := bs.getD 0x00 0
    flags := bs.getD 0x01 0
    check := BitVec.ofNat 16 (beAt bs 0x02 2)
    adapterId := BitVec.ofNat 16 (beAt bs 0x04 2)
    endpoint := BitVec.ofNat 16 (beAt bs 0x06 2)
    issue := BitVec.ofNat 32 (beAt bs 0x08 4)
    gen := BitVec.ofNat 4 (byteAt bs 0x0C / 16)
    attempt := BitVec.ofNat 4 (byteAt bs 0x0C)
    code := bs.getD 0x0D 0
    handleCtx := BitVec.ofNat 12 (beAt bs 0x0E 2 / 16)
    handleNum := BitVec.ofNat 4 (beAt bs 0x0E 2)
    advisory := bs.getD 0x10 0
    probeSeq := BitVec.ofNat 16 (beAt bs 0x12 2)
    sendTime := BitVec.ofNat 32 (beAt bs 0x14 4)
    payloadLen := BitVec.ofNat 16 (beAt bs 0x18 2) }

/-- The sum modulo 65536 of `n` 16-bit words, most significant byte first (R82). -/
def wordSum (bs : List Byte) : Nat → W16
  | 0 => 0
  | n + 1 => BitVec.ofNat 16 (beAt bs (2 * n) 2) + wordSum bs n

/-- The sum of the sixteen words of a header (R82). -/
def headerSum (bs : List Byte) : W16 :=
  wordSum bs 16

/-- R82 on transmission: the Header Check that makes the header's sum 0. -/
def LinkHeader.withCheck (h : LinkHeader) : LinkHeader :=
  { h with check := 0 - headerSum (headerBytes { h with check := 0 }) }

/-! ### What the adapter writes (11, section 11.3) -/

/-- The adapter part of a record, offsets 40h to 7Fh (R2, R155). -/
def resultBytes (r : Result) : List Byte :=
  leBytes (statusCode r.status) 1 ++ leBytes (outcomeCode r.remote) 1 ++
    leBytes r.flags.word.toNat 2 ++ leBytes r.replyLen 2 ++ leBytes r.attemptsUsed 1 ++
    leBytes r.inquiriesUsed 1 ++
    leBytes (match r.finalPath with | some p => p.val | none => 0xFF) 1 ++ leBytes r.finalGen 1 ++
    [0#8, 0#8] ++ leBytes r.issue.toNat 4 ++ leBytes r.taken.toNat 4 ++ leBytes r.done.toNat 4 ++
    List.replicate 40 0#8

/-- Accepted carrier of a port (R63). -/
def CarrierFilter.accepted : CarrierFilter → Bool
  | .present => true
  | .lossPending => true
  | .hold _ => false
  | .lost => false
  | .returnPending => false

/-- A port summary, 32 bytes (11). -/
def portSummary (r : PortRec) : List Byte :=
  leBytes (portCode r.state) 1 ++ leBytes r.filter.accepted.toNat 1 ++ [0#8, 0#8] ++
    leBytes r.framesSent.toNat 4 ++ leBytes r.framesReceived.toNat 4 ++
    leBytes r.unknownSource.toNat 4 ++ leBytes r.foreignType.toNat 4 ++
    leBytes r.correlationTrips.toNat 4 ++ List.replicate 8 0#8

/-- A path summary, 32 bytes (11). -/
def pathSummary (r : PathRec) : List Byte :=
  leBytes (healthCode r.health) 1 ++ leBytes r.strikes 1 ++ leBytes r.flap 1 ++
    leBytes (r.slow.toNat + 2 * r.fence.toNat + 4 * r.drill.toNat) 1 ++ leBytes r.srtt 4 ++
    leBytes r.rttvar 4 ++ leBytes r.inflight 2 ++ [0#8, 0#8] ++
    leBytes r.counters.requestsSent.toNat 2 ++ leBytes r.counters.replies.toNat 2 ++
    leBytes r.counters.timeouts.toNat 2 ++ leBytes r.counters.probesSent.toNat 2 ++
    leBytes r.counters.probeMisses.toNat 2 ++ leBytes r.counters.malformed.toNat 2 ++
    leBytes r.counters.stale.toNat 2 ++ leBytes r.counters.transitions.toNat 2

/-- The Digest header, 32 bytes (11): the last assigned Issue Number is 0 while none is held (log 36). -/
def digestHeader (s : State) : List Byte :=
  leBytes (adapterCode s.adapter) 1 ++ List.replicate 3 0#8 ++
    leBytes (s.issueNumber.getD 0).toNat 4 ++ leBytes s.idleArms.toNat 4 ++ List.replicate 20 0#8

/-- The offset of a Digest part (11). -/
def partOffset : Part → Nat
  | .header => 0x0000
  | .group g => 0x0020 + 2 * g.val
  | .port i => 0x00A0 + 32 * i.val
  | .target t => 0x0120 + t.val
  | .path p => 0x0160 + 32 * p.val

/-- A Digest part as the shadow stands (R158, R159): the shadow follows its owners. -/
def partBytes (s : State) : Part → List Byte
  | .header => digestHeader s
  | .group g => leBytes (s.groups.get g).toNat 2
  | .port i => portSummary (s.ports.get i)
  | .target t => leBytes (reachCode (s.targets.get t).reach) 1
  | .path p => pathSummary (s.paths.get p)

/-- Every part of the Digest in the order of its layout (11). -/
def digestLayout : List Part :=
  .header :: ((List.finRange 64).map .group ++ (List.finRange 4).map .port ++
    (List.finRange 64).map .target ++ (List.finRange 128).map .path)

/-- The whole Digest block, 4448 bytes (R160). -/
def digestBytes (s : State) : List Byte :=
  digestLayout.flatMap (partBytes s)

end Sys2Proof.Machine
end

