-- ==== Sys2Proof/Machine/Ops.lean ====
section
/-!
DEFINITION. The named operations on the state that every meaning uses: reading and writing one context,
stream, target, path or port with the marks for the Digest (R158); timers (R147 to R149); raises, state
changes and host writes (R157, R161, R165); host reads and memory faults (R163); the Payload Store (R13);
and one µs of the Adapter Clock (R145).
-/

namespace Sys2Proof.Machine

/-! ### Time and timers (R145 to R149) -/

/-- R146: the wrapped difference of a later clock value and an earlier one, in µs. -/
def elapsed (later earlier : W32) : Nat :=
  (later - earlier).toNat

/-- A start (R147): the limit is given in µs. -/
def Timer.start (clock : W32) (limit : Nat) : Timer :=
  .running clock limit

/-- A start with a limit in ms (08, section 8.2). -/
def Timer.startMs (clock : W32) (ms : Nat) : Timer :=
  .running clock (1000 * ms)

/-- The timer is due and its expiry not yet taken (R147). -/
def Timer.isExpired : Timer → Bool
  | .idle => false
  | .running _ _ => false
  | .expired _ _ => true

/-- The timer is IDLE (R147). -/
def Timer.isIdle : Timer → Bool
  | .idle => true
  | .running _ _ => false
  | .expired _ _ => false

/-- A RUNNING timer falls due when the wrapped difference reaches its limit (R148). -/
def Timer.tick (clock : W32) : Timer → Timer
  | .idle => .idle
  | .running start limit =>
      if limit ≤ elapsed clock start then .expired start limit else .running start limit
  | .expired start limit => .expired start limit

/-! ### Parts of the state -/

/-- Context `c`, none while it is free (R18). -/
def State.ctx (s : State) (c : CtxId) : Option Context :=
  s.ctxs.get c

/-- Context `c` becomes `x`. -/
def State.setCtx (c : CtxId) (x : Option Context) (s : State) : State :=
  { s with ctxs := s.ctxs.set c.val x c.isLt }

/-- An event of a live context changes it; a free one stays free, and one in CLOSING takes no further
event (R22). Only its issue frees a context in CLOSING (R19). -/
def State.modCtx (c : CtxId) (f : Context → Context) (s : State) : State :=
  match s.ctx c with
  | none => s
  | some x => if x.state = .closing then s else s.setCtx c (some (f x))

/-- The live contexts that satisfy a test, in increasing number. -/
def State.ctxsWhere (s : State) (test : Context → Bool) : List CtxId :=
  ((List.finRange 512).zip s.ctxs.toList).filterMap fun e =>
    match e.2 with
    | none => none
    | some x => if test x then some e.1 else none

/-- The entry of stream `n`. -/
def State.stream (s : State) (n : StreamId) : StreamEntry :=
  s.streams.get n

/-- The entry of stream `n` becomes `e`. -/
def State.setStream (n : StreamId) (e : StreamEntry) (s : State) : State :=
  { s with streams := s.streams.set n.val e n.isLt }

/-- A change of a stream entry. -/
def State.modStream (n : StreamId) (f : StreamEntry → StreamEntry) (s : State) : State :=
  s.setStream n (f (s.stream n))

/-- The entry of target `t`. -/
def State.target (s : State) (t : TargetId) : TargetEntry :=
  s.targets.get t

/-- The entry of target `t` becomes `e`. -/
def State.setTarget (t : TargetId) (e : TargetEntry) (s : State) : State :=
  { s with targets := s.targets.set t.val e t.isLt }

/-- A change of a target entry. -/
def State.modTarget (t : TargetId) (f : TargetEntry → TargetEntry) (s : State) : State :=
  s.setTarget t (f (s.target t))

/-- The record of path `p`. -/
def State.path (s : State) (p : PathId) : PathRec :=
  s.paths.get p

/-- The record of port `i`. -/
def State.port (s : State) (i : PortId) : PortRec :=
  s.ports.get i

/-! ### The rewrite list (R158, R159) -/

/-- A part is marked: it joins the tail when it is not yet in the list; a part already there keeps its
place and takes any event mark with it (R159). -/
def markRewrite (part : Part) (event : Bool) (l : List Rewrite) : List Rewrite :=
  if l.any (fun r => r.part == part) then
    l.map fun r => if r.part = part then { r with event := r.event || event } else r
  else l ++ [{ part := part, event := event }]

/-- A part of the Digest is marked for rewrite (R158). -/
def State.mark (part : Part) (event : Bool) (s : State) : State :=
  { s with rewrites := markRewrite part event s.rewrites }

/-- The items of a path summary whose every change is handed to the Completion Writer as it is taken
(R158). A change of health state is handed on at step 5 of R104 and is not among them. -/
structure PathReported where
  strikes : Nat
  flap : Nat
  slow : Bool
  fence : Bool
  drill : Bool
  srtt : Nat
  rttvar : Nat
  inflight : Nat
  counters : PathCounters
deriving DecidableEq, Repr

/-- The reported items of a path record. -/
def PathRec.reported (r : PathRec) : PathReported :=
  { strikes := r.strikes
    flap := r.flap
    slow := r.slow
    fence := r.fence
    drill := r.drill
    srtt := r.srtt
    rttvar := r.rttvar
    inflight := r.inflight
    counters := r.counters }

/-- The record of path `p` becomes `r`; its summary is marked if a reported item changed (R158). -/
def State.setPath (p : PathId) (r : PathRec) (s : State) : State :=
  { s with
    paths := s.paths.set p.val r p.isLt
    rewrites :=
      if (s.path p).reported = r.reported then s.rewrites
      else markRewrite (.path p) false s.rewrites }

/-- A change of a path record. -/
def State.modPath (p : PathId) (f : PathRec → PathRec) (s : State) : State :=
  s.setPath p (f (s.path p))

/-- The items of a port summary (R158): port state, accepted carrier, the five counters. -/
structure PortReported where
  state : PortState
  carrier : Bool
  framesSent : W32
  framesReceived : W32
  unknownSource : W32
  foreignType : W32
  correlationTrips : W32
deriving DecidableEq, Repr

/-- The reported items of a port record. -/
def PortRec.reported (r : PortRec) : PortReported :=
  { state := r.state
    carrier := r.filter.accepted
    framesSent := r.framesSent
    framesReceived := r.framesReceived
    unknownSource := r.unknownSource
    foreignType := r.foreignType
    correlationTrips := r.correlationTrips }

/-- The record of port `i` becomes `r`; its summary is marked if a reported item changed (R158). -/
def State.setPort (i : PortId) (r : PortRec) (s : State) : State :=
  { s with
    ports := s.ports.set i.val r i.isLt
    rewrites :=
      if (s.port i).reported = r.reported then s.rewrites
      else markRewrite (.port i) false s.rewrites }

/-- A change of a port record. -/
def State.modPort (i : PortId) (f : PortRec → PortRec) (s : State) : State :=
  s.setPort i (f (s.port i))

/-! ### Host Bridge -/

/-- A posted write joins the writes issued (R157). -/
def State.hostWrite (addr : W64) (bytes : List Byte) (s : State) : State :=
  { s with outbound := s.outbound ++ [.write addr bytes] }

/-- MISUSE is raised (R161). -/
def State.misuse (s : State) : State :=
  s.raise .misuse

/-- A change of adapter state (R165): STATE_CHANGE is raised and the Digest header is marked. -/
def State.enterAdapter (a : AdapterState) (s : State) : State :=
  ({ s with adapter := a }.mark .header false).raise .stateChange

/-- A read begins (R163, log 24). -/
def beginRead (clock : W32) (addr : W64) (len : Nat) : HostRead :=
  { addr := addr
    len := len
    limit := .start clock Config.readLimit }

/-- The number of requests of a read: it is split at every multiple of 4096 (R163). -/
def requestCount (r : HostRead) : Nat :=
  (r.addr.toNat % 4096 + r.len + 4095) / 4096

/-- The lowest address of request `k` of a read (R163). -/
def requestAddr (r : HostRead) (k : Nat) : W64 :=
  if k = 0 then r.addr else BitVec.ofNat 64 ((r.addr.toNat / 4096 + k) * 4096)

/-- One failed request (R163): the fault address, the fault count, MEMORY_FAULT. -/
def State.memoryFault (addr : W64) (s : State) : State :=
  { s with
    faultAddress := if s.faultAddress = 0 then addr else s.faultAddress
    faultCount := min 255 (s.faultCount + 1) }.raise .memoryFault

/-- The failed requests of a read: numbers the read does not have are dropped, and when none is left its
first request stands for the failure (log 30). -/
def failedRequests (r : HostRead) (requests : List Nat) : List Nat :=
  let known := requests.filter fun k => decide (k < requestCount r)
  if known.isEmpty then [0] else known

/-- A failed read: each failed request is one failure, in the order given (R163). -/
def State.readFailed (r : HostRead) (requests : List Nat) (s : State) : State :=
  (failedRequests r requests).foldl (fun s k => s.memoryFault (requestAddr r k)) s

/-- The oldest read of a kind among those left without a use (logs 14, 32). -/
def State.orphan (s : State) (id : HostReadId) : Option HostRead :=
  (s.orphans.find? fun o => o.id == id).map (·.read)

/-- The end of a read left without a use: each failed request is reported (R163), and nothing else follows, since the
next LOADING reads everything afresh (logs 14, 32). Data that come when its 50 ms have run are no
answer to it (log 24). -/
def State.endOrphan (id : HostReadId) (answer : ReadAnswer) (s : State) : State :=
  match s.orphan id with
  | none => s
  | some r =>
      let dropped := { s with orphans := s.orphans.eraseP fun o => o.id == id }
      match answer with
      | .data _ => if r.limit.isExpired then s else dropped
      | .failed requests => dropped.readFailed r requests

/-! ### The 50 ms of a read (R163) -/

/-- The limit on the answer of a read of the Fetch Engine. -/
def FetchPhase.limit : FetchPhase → Timer
  | .idle => .idle
  | .owner r => r.limit
  | .wantContext => .idle
  | .record _ r => r.limit
  | .stream _ _ => .idle
  | .payload _ r => r.limit

/-- Whether the read is of the kind the Fetch Engine has in progress. -/
def FetchPhase.reads : FetchPhase → HostReadId → Bool
  | .owner _, .ownerWord => true
  | .record _ _, .record => true
  | .payload _ _, .payload => true
  | _, _ => false

/-- The limit on the answer of a read in progress has expired. -/
def readExpired (r : Option HostRead) : Bool :=
  r.any fun r => r.limit.isExpired

/-- The 50 ms of the Anchor read in progress have run. -/
def Loading.anchorDue : Loading → Bool
  | .anchor _ r => r.limit.isExpired
  | .tables _ _ _ _ _ => false

/-- The number of a table entry: targets 0 to 63 come first, then paths 0 to 127. -/
def tableIndex : TableEntry → Fin 192
  | .target t => ⟨t.val, Nat.lt_trans t.isLt (by decide)⟩
  | .path p => ⟨64 + p.val, Nat.add_lt_add_left p.isLt 64⟩

/-- The read of a table entry has not ended, and its 50 ms have run from its own beginning (R163, log 45). -/
def Loading.tableDue (entry : TableEntry) : Loading → Bool
  | .anchor _ _ => false
  | .tables _ _ begun age got =>
      (got.get (tableIndex entry)).isNone &&
        decide (Config.tableReadBegins begun (tableIndex entry) + Config.readLimit ≤ age)

/-- R163: the 50 ms of a read in progress have run. -/
def State.readDue (s : State) (read : HostReadId) : Bool :=
  match read with
  | .ownerWord => s.phase.reads .ownerWord && s.phase.limit.isExpired
  | .record => s.phase.reads .record && s.phase.limit.isExpired
  | .payload => s.phase.reads .payload && s.phase.limit.isExpired
  | .stream n => readExpired (s.stream n).read
  | .target t => readExpired (s.target t).read
  | .path p => readExpired (s.path p).read
  | .anchor => s.loading.any (·.anchorDue)
  | .table entry => s.loading.any (·.tableDue entry)

/-- R163: data that come when the 50 ms of their read have run. The read is judged failed for want of an answer in
time, which HOST_READ_TIMEOUT reports, and the data are no answer to it (log 24). -/
def State.tooLate (s : State) (read : HostReadId) (answer : ReadAnswer) : Bool :=
  match answer with
  | .data _ => s.readDue read
  | .failed _ => false

/-- The adapter states in which the Health Monitor, the Frame Receiver and the Port Schedulers work and
notices are taken (R122, R165). -/
def AdapterState.works : AdapterState → Bool
  | .halted => false
  | .loading => false
  | .running => true
  | .quiescing => true
  | .quiesced => true
  | .faulted => false

/-- N in force (R167), 0 before the first LOADING. -/
def State.records (s : State) : Nat :=
  match s.settings with
  | none => 0
  | some c => c.records

/-- The address of an exchange record in host memory (01): base + 128 × n, on 64 bits. -/
def State.recordAddr (s : State) (n : Nat) : W64 :=
  match s.settings with
  | none => 0
  | some c => c.exchBase + BitVec.ofNat 64 (128 * n)

/-- The address of a Digest part (11). -/
def State.partAddr (s : State) (part : Part) : W64 :=
  match s.settings with
  | none => 0
  | some c => c.digestBase + BitVec.ofNat 64 (partOffset part)

/-! ### The Payload Store (R13, R18) -/

/-- What an address of the Payload Store reads when it is not listed (log 12). -/
def unlistedByte : Byte := 0

/-- The canonical form: addresses strictly rising, no listed byte equal to an unlisted one. -/
def cellsWf : List Host.Cell → Bool
  | [] => true
  | [c] => c.2 != unlistedByte
  | c :: d :: rest => c.2 != unlistedByte && decide (c.1 < d.1) && cellsWf (d :: rest)

/-- The byte at an address. -/
def readCell (a : Nat) : List Host.Cell → Byte
  | [] => unlistedByte
  | c :: rest => if c.1 = a then c.2 else readCell a rest

/-- A byte is written at an address, keeping the canonical form. -/
def writeCell (a : Nat) (b : Byte) : List Host.Cell → List Host.Cell
  | [] => if b = unlistedByte then [] else [(a, b)]
  | c :: rest =>
      if c.1 = a then (if b = unlistedByte then rest else (a, b) :: rest)
      else if a < c.1 then (if b = unlistedByte then c :: rest else (a, b) :: c :: rest)
      else c :: writeCell a b rest

/-- Bytes are written from an address upward. -/
def writeCells (a : Nat) : List Byte → List Host.Cell → List Host.Cell
  | [], m => m
  | b :: rest, m => writeCells (a + 1) rest (writeCell a b m)

/-- `n` bytes are read from an address upward. -/
def readCells (a n : Nat) (m : List Host.Cell) : List Byte :=
  (List.range n).map fun k => readCell (a + k) m

/-- The first address of the slot of context `c` (R13: context k uses slot k). -/
def slotBase (c : CtxId) : Nat :=
  c.val * Config.slotBytes

/-- Bytes are written at the start of a context's slot (R13, R94); a slot holds 4096. -/
def State.fillSlot (c : CtxId) (bytes : List Byte) (s : State) : State :=
  { s with payload := writeCells (slotBase c) (bytes.take Config.slotBytes) s.payload }

/-- The first `n` bytes of a context's slot. -/
def State.slot (s : State) (c : CtxId) (n : Nat) : List Byte :=
  readCells (slotBase c) n s.payload

/-! ### Descriptors in force -/

/-- A stream's contents in force (02, section 2.2); with none loaded, those of a descriptor of zeros,
which no taken exchange has (R11). -/
def State.streamDesc (s : State) (n : StreamId) : StreamDesc :=
  (s.stream n).contents.getD (Sys2Proof.Machine.streamDesc [])

/-- A target's contents in force; with none, those of a descriptor of zeros with an empty Path List. -/
def State.targetDesc (s : State) (t : TargetId) : TargetDesc :=
  (s.target t).contents.getD { Sys2Proof.Machine.targetDesc [] with pathList := [] }

/-- A path's contents in force; with none, those of a descriptor of zeros. -/
def State.pathDesc (s : State) (p : PathId) : PathDesc :=
  (s.path p).contents.getD (Sys2Proof.Machine.pathDesc [])

/-- The port named in a path's copy in force; an INVALID copy names none (R34, log 29). -/
def State.pathPort (s : State) (p : PathId) : Option PortId :=
  (s.path p).contents.map (·.port)

/-- The paths of a port, in increasing path number (R99). -/
def State.pathsOf (s : State) (i : PortId) : List PathId :=
  (List.finRange 128).filter fun p => s.pathPort p == some i

/-- The source index (R32): the lowest-numbered path with this port and address (log 7). -/
def State.sourcePath (s : State) (i : PortId) (addr : Mac) : Option PathId :=
  (List.finRange 128).find? fun p =>
    match (s.path p).contents with
    | none => false
    | some d => d.port == i && d.remote == addr

/-! ### One µs of the Adapter Clock (R145) -/

/-- A function applied to every entry of a vector. -/
def mapEntries {α : Type} {n : Nat} (f : α → α) (v : Vector α n) : Vector α n :=
  ⟨(v.toList.map f).toArray, by simp⟩

/-- The Host Bridge's limit on a read runs with the clock (R163). -/
def HostRead.tick (clock : W32) (r : HostRead) : HostRead :=
  { r with limit := r.limit.tick clock }

/-- The limit on a read without a use runs (R163). -/
def Orphan.tick (clock : W32) (o : Orphan) : Orphan :=
  { o with read := o.read.tick clock }

/-- The timers of a context run (R148). -/
def Context.tick (clock : W32) (x : Context) : Context :=
  { x with
    reply0 := x.reply0.tick clock
    reply1 := x.reply1.tick clock
    inquiryTimer := x.inquiryTimer.tick clock
    deadlineTimer := x.deadlineTimer.tick clock
    waitTimer := x.waitTimer.tick clock }

/-- The timers of a path run, and the limit of a read of its descriptor. -/
def PathRec.tick (clock : W32) (r : PathRec) : PathRec :=
  { r with
    read := r.read.map (·.tick clock)
    markA := r.markA.tick clock
    markB := r.markB.tick clock
    hold := r.hold.tick clock
    stability := r.stability.tick clock
    drain := r.drain.tick clock }

/-- The carrier filter timer of a port runs; at a multiple of 2^30 µs an age check is given (R146). -/
def PortRec.tick (clock : W32) (r : PortRec) : PortRec :=
  { r with
    filterTimer := r.filterTimer.tick clock
    ageDue := r.ageDue || decide (clock.toNat % Config.ageStep = 0) }

/-- The limit of a read by the Fetch Engine runs. -/
def FetchPhase.tick (clock : W32) : FetchPhase → FetchPhase
  | .idle => .idle
  | .owner r => .owner (r.tick clock)
  | .wantContext => .wantContext
  | .record c r => .record c (r.tick clock)
  | .stream c f => .stream c f
  | .payload c r => .payload c (r.tick clock)

/-- The limit of the Anchor read runs; the table reads grow older (log 45). -/
def Loading.tick (clock : W32) : Loading → Loading
  | .anchor q r => .anchor q (r.tick clock)
  | .tables q c begun age got => .tables q c begun (age + 1) got

/-- One µs passes (R145, log 1): the clock rises by 1 and every timer whose time has run falls due. -/
def State.tick (s : State) : State :=
  let clock := s.clock + 1
  { s with
    clock := clock
    loading := s.loading.map (·.tick clock)
    orphans := s.orphans.map (·.tick clock)
    phase := s.phase.tick clock
    ctxs := mapEntries (fun x => x.map (·.tick clock)) s.ctxs
    streams := mapEntries (fun e => { e with read := e.read.map (·.tick clock) }) s.streams
    targets := mapEntries (fun e => { e with read := e.read.map (·.tick clock) }) s.targets
    paths := mapEntries (·.tick clock) s.paths
    ports := mapEntries (·.tick clock) s.ports
    holdoff := s.holdoff.tick clock }

end Sys2Proof.Machine
end

