-- ==== Sys2Proof/Machine/Lanes.lean ====
section
/-!
DEFINITION. The Port Scheduler's lanes and masks (chapter 4): joining a lane (R70), removing frames with
the clearing of the masks (R74, R78), and the three-level selection (R72, R73).
-/

namespace Sys2Proof.Machine

/-- Every lane of the port is empty (R74). -/
def PortRec.lanesEmpty (r : PortRec) : Bool :=
  r.lanes.toList.all (·.isEmpty)

/-- R74: every mask of the port is clear. -/
def PortRec.clearMasks (r : PortRec) : PortRec :=
  { r with laneMasks := Vector.replicate 8 false, chit2 := false, chit3 := false }

/-- R74: with every lane empty, every mask is cleared. -/
def PortRec.settleMasks (r : PortRec) : PortRec :=
  if r.lanesEmpty then r.clearMasks else r

/-- A frame joins the tail of a lane (R70). -/
def State.enqueue (i : PortId) (lane : Fin 8) (e : LaneEntry) (s : State) : State :=
  s.modPort i fun r => { r with lanes := r.lanes.set lane.val (r.lanes.get lane ++ [e]) lane.isLt }

/-- The frames of a port that satisfy a test: REQUEST lanes 2 to 7 first, then lanes 1 and 0 (R78 lists
REQUEST before INQUIRY; log 4). -/
def PortRec.framesWhere (r : PortRec) (test : LaneEntry → Bool) : List LaneEntry :=
  ((List.finRange 8).drop 2 ++ [1, 0]).flatMap fun lane => (r.lanes.get lane).filter test

/-- The frames of a port that satisfy a test leave their lanes; the others keep their order (R70), and
masks are cleared when no frame is left (R74). -/
def PortRec.dropFrames (r : PortRec) (test : LaneEntry → Bool) : PortRec :=
  if (r.framesWhere test).isEmpty then r
  else { r with lanes := mapEntries (fun l => l.filter fun e => !test e) r.lanes }.settleMasks

/-- Frames of a port that satisfy a test leave its lanes. -/
def State.dropFrames (i : PortId) (test : LaneEntry → Bool) (s : State) : State :=
  s.modPort i (·.dropFrames test)

/-- Frames that satisfy a test leave the lanes of all four ports. -/
def State.dropFramesEverywhere (test : LaneEntry → Bool) (s : State) : State :=
  (List.finRange 4).foldl (fun s i => s.dropFrames i test) s

/-- The frame is the REQUEST or INQUIRY of a context. -/
def LaneEntry.ofCtx (c : CtxId) : LaneEntry → Bool
  | .request d _ _ _ => d == c
  | .inquiry d _ _ => d == c
  | .probe _ _ => false
  | .echo _ _ _ => false

/-- The frame is the INQUIRY of a context. -/
def LaneEntry.isInquiryOf (c : CtxId) : LaneEntry → Bool
  | .request _ _ _ _ => false
  | .inquiry d _ _ => d == c
  | .probe _ _ => false
  | .echo _ _ _ => false

/-- The frame is one attempt's REQUEST. -/
def LaneEntry.isRequestOf (c : CtxId) (id : Nat) : LaneEntry → Bool
  | .request d a _ _ => d == c && a == id
  | .inquiry _ _ _ => false
  | .probe _ _ => false
  | .echo _ _ _ => false

/-- The frame is a REQUEST or INQUIRY on a path. -/
def LaneEntry.workOn (p : PathId) : LaneEntry → Bool
  | .request _ _ q _ => q == p
  | .inquiry _ q _ => q == p
  | .probe _ _ => false
  | .echo _ _ _ => false

/-- The frame is the PROBE of a path. -/
def LaneEntry.isProbeOf (p : PathId) : LaneEntry → Bool
  | .request _ _ _ _ => false
  | .inquiry _ _ _ => false
  | .probe q _ => q == p
  | .echo _ _ _ => false

/-- The frame is the ECHO for a path. -/
def LaneEntry.isEchoOf (p : PathId) : LaneEntry → Bool
  | .request _ _ _ _ => false
  | .inquiry _ _ _ => false
  | .probe _ _ => false
  | .echo q _ _ => q == p

/-- The frame is a PROBE or an ECHO. -/
def LaneEntry.isProbeOrEcho : LaneEntry → Bool
  | .request _ _ _ _ => false
  | .inquiry _ _ _ => false
  | .probe _ _ => true
  | .echo _ _ _ => true

/-- The path a waiting frame is for. -/
def LaneEntry.pathOf : LaneEntry → PathId
  | .request _ _ p _ => p
  | .inquiry _ p _ => p
  | .probe p _ => p
  | .echo p _ _ => p

/-- R92, R70: an ECHO for a path joins lane 0, or the one that waits there takes the new Probe Sequence
and Send Time and keeps its place. -/
def State.placeEcho (i : PortId) (p : PathId) (seq : W16) (sendTime : W32) (s : State) : State :=
  if ((s.port i).lanes.get 0).any (·.isEchoOf p) then
    s.modPort i fun r =>
      { r with
        lanes := r.lanes.set 0
          ((r.lanes.get 0).map fun e => if e.isEchoOf p then .echo p seq sendTime else e) }
  else s.enqueue i 0 (.echo p seq sendTime)

/-! ### Arbitration (R71 to R73) -/

/-- The level a lane belongs to under the Lane Level Map in force (R71); lanes 0 and 1 are at level 1. -/
def State.laneLevel (s : State) (lane : Fin 8) : LaneLevel :=
  if lane.val < 2 then .level1
  else match s.settings with
    | none => .off
    | some c => c.laneLevels.get lane

/-- The lanes of a level that hold a frame, in increasing number (R72). -/
def State.requestingLanes (s : State) (i : PortId) (level : LaneLevel) : List (Fin 8) :=
  (List.finRange 8).filter fun lane =>
    s.laneLevel lane == level && !((s.port i).lanes.get lane).isEmpty

/-- Chit 3 requests when a level-3 lane holds a frame (R72). -/
def State.chit3Requests (s : State) (i : PortId) : Bool :=
  !(s.requestingLanes i .level3).isEmpty

/-- Chit 2 requests when a level-2 or level-3 lane holds a frame (R72). -/
def State.chit2Requests (s : State) (i : PortId) : Bool :=
  !(s.requestingLanes i .level2).isEmpty || s.chit3Requests i

/-- Some member of level 1 requests (R73). -/
def State.level1Requests (s : State) (i : PortId) : Bool :=
  !(s.requestingLanes i .level1).isEmpty || s.chit2Requests i

/-- R73, with the port's conditions: a grant decision is taken. -/
def State.grantEnabled (s : State) (i : PortId) : Bool :=
  s.adapter.works && (s.port i).state != .down && (s.port i).transmitter.isNone &&
    s.level1Requests i

/-- The masks of the lanes of a level are cleared. -/
def State.clearLevelMasks (s : State) (level : LaneLevel) (masks : Vector Bool 8) : Vector Bool 8 :=
  (List.finRange 8).foldl
    (fun m lane => if s.laneLevel lane = level then m.set lane.val false lane.isLt else m) masks

/-- The lane a selection chose, with the lane masks and the two chit masks after it. -/
structure Selection where
  lane : Option (Fin 8)
  masks : Vector Bool 8
  chit2 : Bool
  chit3 : Bool
deriving DecidableEq, Repr

/-- The first lane of a list whose mask is clear. -/
def firstUnmasked (masks : Vector Bool 8) (lanes : List (Fin 8)) : Option (Fin 8) :=
  lanes.find? fun lane => !masks.get lane

/-- A lane is selected and its mask set (R73, step 3). -/
def Selection.choose (sel : Selection) (lane : Fin 8) : Selection :=
  { sel with lane := some lane, masks := sel.masks.set lane.val true lane.isLt }

/-- The selection at level 3 (R73): its members are lanes alone. -/
def State.selectLevel3 (s : State) (i : PortId) (sel : Selection) : Selection :=
  let lanes := s.requestingLanes i .level3
  let sel :=
    if (firstUnmasked sel.masks lanes).isNone then
      { sel with masks := s.clearLevelMasks .level3 sel.masks }
    else sel
  match firstUnmasked sel.masks lanes with
  | some lane => sel.choose lane
  | none => sel

/-- The selection at level 2 (R73): its lanes, then chit 3. -/
def State.selectLevel2 (s : State) (i : PortId) (sel : Selection) : Selection :=
  let lanes := s.requestingLanes i .level2
  let chit := s.chit3Requests i
  let sel :=
    if (firstUnmasked sel.masks lanes).isNone && !(chit && !sel.chit3) then
      { sel with masks := s.clearLevelMasks .level2 sel.masks, chit3 := false }
    else sel
  match firstUnmasked sel.masks lanes with
  | some lane => sel.choose lane
  | none => s.selectLevel3 i { sel with chit3 := true }

/-- The selection at level 1 (R73): its lanes, then chit 2. -/
def State.selectLevel1 (s : State) (i : PortId) (sel : Selection) : Selection :=
  let lanes := s.requestingLanes i .level1
  let chit := s.chit2Requests i
  let sel :=
    if (firstUnmasked sel.masks lanes).isNone && !(chit && !sel.chit2) then
      { sel with masks := s.clearLevelMasks .level1 sel.masks, chit2 := false }
    else sel
  match firstUnmasked sel.masks lanes with
  | some lane => sel.choose lane
  | none => s.selectLevel2 i { sel with chit2 := true }

/-- The selection of a port's grant decision (R73). -/
def State.select (s : State) (i : PortId) : Selection :=
  let r := s.port i
  s.selectLevel1 i { lane := none, masks := r.laneMasks, chit2 := r.chit2, chit3 := r.chit3 }

end Sys2Proof.Machine
end

