-- ==== Sys2Proof/Machine/Probing.lean ====
section
/-!
DEFINITION. Probing (R108 to R111), the parts of a change of health state that touch no exchange (R104),
target reachability (R120), and the in-flight count of a path (R51) with the end of a fence that waited
for it (R114).
-/

namespace Sys2Proof.Machine

/-- UP or SUSPECT: the states that carry REQUEST and INQUIRY frames (R100). -/
def Health.inService : Health → Bool
  | .up => true
  | .suspect => true
  | .untried => false
  | .draining => false
  | .down => false
  | .recovering => false
  | .fenced => false

/-- The health states in which a path may be probed (R111). -/
def PathRec.probingState (r : PathRec) : Bool :=
  match r.health with
  | .up => true
  | .suspect => true
  | .untried => true
  | .recovering => true
  | .down => r.holdEnded
  | .draining => false
  | .fenced => false

/-- R111: the path's probing is active. A copy that reloads keeps its contents in force and its probing
(log 7). -/
def State.probingActive (s : State) (p : PathId) : Bool :=
  s.adapter.works && (s.path p).probingState &&
    match s.pathPort p with
    | none => false
    | some i => (s.port i).state != .down

/-- The path's PROBE leaves lane 0 of its port (R110, R111). -/
def State.dropProbe (p : PathId) (s : State) : State :=
  match s.pathPort p with
  | none => s
  | some i => s.dropFrames i (·.isProbeOf p)

/-- R111, stop: the probe timer is cancelled, both marks with it, the waiting PROBE is dropped and the
Outstanding probe cleared. -/
def State.stopProbing (p : PathId) (s : State) : State :=
  (s.dropProbe p).modPath p fun r =>
    { r with markA := .idle, markB := .idle, outstanding := none }

/-- R108: the probe interval and probe deadline of the cycle, from the copy in force and the health
state at this moment. -/
def State.loadProbeTimes (p : PathId) (s : State) : State :=
  let d := s.pathDesc p
  s.modPath p fun r =>
    let interval := if r.health = .up then d.probeInterval else d.fastInterval
    { r with
      interval := interval
      probeDeadline := if interval ≤ d.probeDeadline then interval - 1 else d.probeDeadline }

/-- R108, step 2 (R106): in SUSPECT, a Last Up Time that is a Stability Period old is discarded. -/
def State.testLastUp (p : PathId) (s : State) : State :=
  let limit := 1000 * (s.pathDesc p).stabilityPeriod
  s.modPath p fun r =>
    match r.health, r.lastUp with
    | .suspect, some t => if limit ≤ elapsed s.clock t then { r with lastUp := none } else r
    | _, _ => r

/-- R108, step 4: the waiting PROBE is adopted, or a PROBE with the Next Probe Sequence joins lane 0. -/
def State.queueProbe (p : PathId) (s : State) : State :=
  match s.pathPort p with
  | none => s
  | some i =>
      if ((s.port i).lanes.get 0).any (·.isProbeOf p) then s
      else
        (s.enqueue i 0 (.probe p (s.path p).nextSeq)).modPath p fun r =>
          { r with nextSeq := r.nextSeq + 1 }

/-- R108, steps 2 to 5 of a cycle start, with the suppression of R110. -/
def State.cycleSteps (p : PathId) (s : State) : State :=
  let s := s.testLastUp p
  let r := s.path p
  let s := if r.health = .up ∧ r.replySeen then s.dropProbe p else s.queueProbe p
  s.modPath p fun r => { r with replySeen := false, markB := .startMs s.clock r.interval }

/-- R111, start: the probe timer starts and a cycle begins at once. -/
def State.startProbing (p : PathId) (s : State) : State :=
  (s.loadProbeTimes p).cycleSteps p

/-- R111: probing starts when its conditions come to hold and stops when one ceases to hold. Mark B is
IDLE exactly while probing is not active. -/
def State.syncProbing (p : PathId) (s : State) : State :=
  if s.probingActive p then
    if (s.path p).markB.isIdle then s.startProbing p else s
  else s.stopProbing p

/-! ### Changes of health state that touch no exchange (R104) -/

/-- R104: the actions on leaving a state: UP cancels the stability timer, DOWN the hold-down timer,
DRAINING the drain limit timer. -/
def PathRec.leave (r : PathRec) : PathRec :=
  match r.health with
  | .up => { r with stability := .idle }
  | .down => { r with hold := .idle }
  | .draining => { r with drain := .idle }
  | .untried => r
  | .suspect => r
  | .recovering => r
  | .fenced => r

/-- R104: on entering FENCED strikes and proving count are 0 and every timer is cancelled. -/
def PathRec.enterFenced (r : PathRec) : PathRec :=
  { r.leave with
    health := .fenced
    strikes := 0
    proving := 0
    lastUp := none
    hold := .idle
    stability := .idle
    drain := .idle }

/-- R104: on entering UNTRIED strikes and proving count are 0. -/
def PathRec.enterUntried (r : PathRec) : PathRec :=
  { r.leave with health := .untried, strikes := 0, proving := 0, lastUp := none }

/-- R120: the reachability a Path List gives. -/
def reachOf (s : State) (paths : List PathId) : Reach :=
  if paths.any fun p => (s.path p).health == .up then .reachable
  else if paths.any fun p => (s.path p).health == .suspect then .degraded
  else .unreachable

/-- R120: a target's reachability is recomputed; a change is held and raises TARGET_CHANGE at the
rewrite of its part. -/
def State.recomputeReach (t : TargetId) (s : State) : State :=
  let now := reachOf s (s.targetDesc t).pathList
  if (s.target t).reach = now then s
  else (s.modTarget t fun e => { e with reach := now }).mark (.target t) true

/-- The targets whose Path List in force contains a path, in increasing number (R60, R104). -/
def State.targetsOf (s : State) (p : PathId) : List TargetId :=
  (List.finRange 64).filter fun t => (s.targetDesc t).pathList.contains p

/-- R104, step 3. The order among several targets, by increasing number, is the model's choice (log 41). -/
def State.recomputeTargets (p : PathId) (s : State) : State :=
  (s.targetsOf p).foldl (fun s t => s.recomputeReach t) s

/-- R104, step 5: the transitions counter rises and the summary is marked with PATH_CHANGE. -/
def State.reportHealth (p : PathId) (s : State) : State :=
  (s.modPath p fun r =>
    { r with counters := { r.counters with transitions := r.counters.transitions + 1 } }).mark
      (.path p) true

/-- A path without SENT work that carries no new work enters FENCED (R114, R116): from DRAINING when its
in-flight count has fallen to 0, and from DOWN. -/
def State.becomeFenced (p : PathId) (s : State) : State :=
  let s := s.modPath p (·.enterFenced)
  let s := s.stopProbing p
  (s.recomputeTargets p).reportHealth p

/-! ### The in-flight count of a path (R51) -/

/-- R51: raised at a transmission start. -/
def State.raiseInflight (p : PathId) (s : State) : State :=
  s.modPath p fun r => { r with inflight := r.inflight + 1 }

/-- R51: lowered when an attempt or inquiry leaves SENT. A path in DRAINING with its Fence flag set
enters FENCED when the count falls to 0 (R114). -/
def State.lowerInflight (p : PathId) (s : State) : State :=
  let r := s.path p
  let s := s.setPath p { r with inflight := r.inflight - 1 }
  if r.inflight = 1 ∧ r.health = .draining ∧ r.fence then s.becomeFenced p else s

end Sys2Proof.Machine
end

