-- ==== Sys2Proof/Machine/Route.lean ====
section
/-!
DEFINITION. The Route Selector (chapter 3): the estimate (R49), the reply timeout (R52), candidates and
tiers (R54), cost and choice (R55), placement (R56, R57) and parking (R59).
-/

namespace Sys2Proof.Machine

/-! ### The estimate (R48, R49) and the timeout (R52) -/

/-- R48: the sample of a round trip, clamped to 1–1,000,000 µs. -/
def sampleOf (now sendTime : W32) : Nat :=
  clampTo 1 Config.sampleMax (elapsed now sendTime)

/-- R49: one estimator update. -/
def PathRec.update (r : PathRec) (sample : Nat) : PathRec :=
  if r.samples = 0 then
    { r with srtt := sample, rttvar := sample / 2, samples := 1 }
  else
    let d := (r.srtt - sample) + (sample - r.srtt)
    { r with
      rttvar := r.rttvar - r.rttvar / 4 + d / 4
      srtt := r.srtt - r.srtt / 8 + sample / 8
      samples := min 255 (r.samples + 1) }

/-- R47: the estimate is cleared; the in-flight count is left alone. -/
def PathRec.clearEstimate (r : PathRec) : PathRec :=
  { r with srtt := 0, rttvar := 0, samples := 0, slow := false }

/-- R52, step 1: the base of a reply timeout, in µs. -/
def rtoBase (r : PathRec) (initialTimeoutMs : Nat) : Nat :=
  if r.samples = 0 then initialTimeoutMs * 1000 else r.srtt + max (4 * r.rttvar) Config.granularity

/-- R52: the reply timeout with backoff `k`, clamped by the stream. -/
def rto (r : PathRec) (initialTimeoutMs k minTimeout maxTimeout : Nat) : Nat :=
  clampTo minTimeout maxTimeout (rtoBase r initialTimeoutMs * 2 ^ k)

/-- R52: the limit of a timer started for a frame of a stream on a path. The Initial Timeout is that of the
target the stream names when the transmission starts, also for a frame placed before a reload changed that
target: the model's choice (log 44). -/
def State.rtoOf (s : State) (n : StreamId) (p : PathId) (k : Nat) : Nat :=
  let d := s.streamDesc n
  rto (s.path p) (s.targetDesc d.target).initialTimeout k d.minTimeout d.maxTimeout

/-! ### Candidates and cost (R54, R55) -/

/-- The candidates of a context in one health state, in the order of the Path List (R54). -/
def State.tier (s : State) (x : Context) (h : Health) : List PathId :=
  let d := s.streamDesc x.stream
  (s.targetDesc d.target).pathList.filter fun p =>
    d.permits.getLsbD p.val && (s.path p).contents.isSome && (s.path p).health == h

/-- R54: the paths that failed the exchange are set aside unless that leaves none. -/
def setAside (failed tier : List PathId) : List PathId :=
  let kept := tier.filter fun p => !failed.contains p
  if kept.isEmpty then tier else kept

/-- R55: E(p). -/
def PathRec.price (r : PathRec) : Nat :=
  let e := if r.samples = 0 then Config.noSamplePrice else r.srtt
  if r.slow then 4 * e else e

/-- R55: the cost of a path. -/
def State.cost (s : State) (p : PathId) : Nat :=
  ((s.path p).inflight + 1) * (s.path p).price

/-- R55: the path of lowest cost, the earlier one among equals. -/
def State.cheapest (s : State) : List PathId → Option PathId
  | [] => none
  | p :: rest =>
      match s.cheapest rest with
      | none => some p
      | some q => if s.cost q < s.cost p then some q else some p

/-- A chosen path, and whether it came from tier 2. -/
structure Choice where
  path : PathId
  tier2 : Bool
deriving DecidableEq, Repr

/-- R54, R55: the choice of a path for a context. -/
def State.choosePath (s : State) (x : Context) : Option Choice :=
  let up := s.tier x .up
  if up.isEmpty then
    (s.cheapest (setAside x.failed (s.tier x .suspect))).map fun p => { path := p, tier2 := true }
  else
    (s.cheapest (setAside x.failed up)).map fun p => { path := p, tier2 := false }

/-- Fabric B is P2 and P3 (00, section 5). -/
def onFabricB (i : PortId) : Bool :=
  decide (2 ≤ i.val)

/-- R57, second pick: the cheapest tier 1 candidate on the other fabric. -/
def State.chooseTwin (s : State) (x : Context) (first : PathId) : Option PathId :=
  s.cheapest ((s.tier x .up).filter fun p =>
    match s.pathPort p, s.pathPort first with
    | some i, some j => onFabricB i != onFabricB j
    | _, _ => false)

/-! ### Placement (R56) -/

/-- The port of a chosen path. A candidate has a copy in force (R54), so the default is never used. -/
def State.portFor (s : State) (p : PathId) : PortId :=
  (s.pathPort p).getD 0

/-- R56 for one attempt: a record in QUEUED at the end of the attempt list, a REQUEST frame at the tail of
the Traffic Class lane, the context in ACTIVE, and DEGRADED for a tier 2 path (R55). -/
def State.placeAttempt (c : CtxId) (x : Context) (gen : Nat) (redrive : Bool) (pick : Choice)
    (twin : Option Nat) (s : State) : State :=
  let d := s.streamDesc x.stream
  let a : Attempt :=
    { id := x.nextId
      number := none
      path := pick.path
      gen := gen
      twin := twin
      redrive := redrive
      sendTime := none
      state := .queued }
  let x' : Context :=
    { x with
      state := .active
      attempts := x.attempts ++ [a]
      parked := none
      flags := { x.flags with degraded := x.flags.degraded || pick.tier2 }
      nextId := x.nextId + 1
      lastGen := gen }
  (s.modCtx c fun _ => x').enqueue (s.portFor pick.path) d.trafficClass
    (.request c x.nextId pick.path (s.targetDesc d.target).endpoint)

/-- The target a context's requests are routed to (R54). -/
def State.targetFor (s : State) (x : Context) : TargetId :=
  (s.streamDesc x.stream).target

/-- R59: the context joins the tail of its target's park list. -/
def State.joinPark (c : CtxId) (t : TargetId) (s : State) : State :=
  s.modTarget t fun e => if e.park.contains c then e else { e with park := e.park ++ [c] }

/-- A context leaves the park list it is in (R59). -/
def State.leavePark (c : CtxId) (s : State) : State :=
  (List.finRange 64).foldl
    (fun s t =>
      if (s.target t).park.contains c then
        s.modTarget t fun e => { e with park := e.park.filter fun d => d != c }
      else s) s

/-- R59: an attempt request without a candidate parks. -/
def State.parkAttempt (c : CtxId) (x : Context) (q : ParkedRequest) (s : State) : State :=
  (s.modCtx c fun x => { x with state := .parked, parked := some q }).joinPark c (s.targetFor x)

/-- The second attempt of a pair (R57), named by the first as its twin partner. -/
def State.placeTwin (c : CtxId) (q : ParkedRequest) (p : PathId) (first : Nat) (s : State) : State :=
  match s.ctx c with
  | none => s
  | some x => s.placeAttempt c x q.gen q.redrive { path := p, tier2 := false } (some first)

/-- R53 to R59 for an attempt request, with room in the attempt list: one attempt, a pair, or parking. -/
def State.offerAttempt (c : CtxId) (q : ParkedRequest) (s : State) : State :=
  match s.ctx c with
  | none => s
  | some x =>
      if x.state = .closing then s
      else
        match s.choosePath x with
        | none => s.parkAttempt c x q
        | some pick =>
            let second :=
              if q.pair ∧ ¬pick.tier2 ∧ 2 ≤ (s.streamDesc x.stream).maxAttempts then
                s.chooseTwin x pick.path
              else none
            match second with
            | none => s.placeAttempt c x q.gen q.redrive pick none
            | some p =>
                (s.placeAttempt c x q.gen q.redrive pick (some (x.nextId + 1))).placeTwin c q p
                  x.nextId

/-- R59: an inquiry without a candidate parks. -/
def State.parkInquiry (c : CtxId) (x : Context) (q : Inquiry) (s : State) : State :=
  (s.modCtx c fun x =>
    { x with inquiry := some { q with path := none, state := some .waiting } }).joinPark c
      (s.targetFor x)

/-- R56 for an inquiry: the INQUIRY joins lane 1 of the chosen path's port, and DEGRADED is set for a
tier 2 path (R55). -/
def State.placeInquiry (c : CtxId) (x : Context) (q : Inquiry) (pick : Choice) (s : State) : State :=
  (s.modCtx c fun x =>
    { x with
      inquiry := some { q with path := some pick.path, state := some .queued }
      flags := { x.flags with degraded := x.flags.degraded || pick.tier2 } }).enqueue
        (s.portFor pick.path) 1
        (.inquiry c pick.path (s.targetDesc (s.targetFor x)).endpoint)

/-- R56, R59 for an inquiry: the INQUIRY joins lane 1 of the chosen path's port, or the inquiry parks. -/
def State.offerInquiry (c : CtxId) (s : State) : State :=
  match s.ctx c with
  | none => s
  | some x =>
      match x.inquiry with
      | none => s
      | some q =>
          if x.state = .closing then s
          else
            match s.choosePath x with
            | none => s.parkInquiry c x q
            | some pick => s.placeInquiry c x q pick

end Sys2Proof.Machine
end

