-- ==== Sys2Proof/Machine/Course.lean ====
section
/-!
DEFINITION. The course of an exchange: hand-over of a completion (R22, R154), dispatch from a stream's
pending list (R41, R42), requests for attempts and inquiries with the tests of room and limit (R127,
R142), release of park lists (R60), the decisions after each ending (R128 to R142), and the decisions a
rule puts after a whole step (R104, R126).
-/

namespace Sys2Proof.Machine

/-! ### Attempts -/

/-- A live attempt is QUEUED or SENT (R124). -/
def Attempt.live (a : Attempt) : Bool :=
  a.state == .queued || a.state == .sent

/-- An attempt in SENT (R20). -/
def Attempt.isSent (a : Attempt) : Bool :=
  a.state == .sent

/-- The attempt record with an id. -/
def Context.attempt (x : Context) (id : Nat) : Option Attempt :=
  x.attempts.find? fun a => a.id == id

/-- A change of one attempt record, from the state it must be in (R20). -/
def Context.moveAttempt (x : Context) (id : Nat) (before : AttemptState) (f : Attempt → Attempt) :
    Context :=
  { x with attempts := x.attempts.map fun a => if a.id = id ∧ a.state = before then f a else a }

/-- The number of attempts transmitted (R20). -/
def Context.transmitted (x : Context) : Nat :=
  x.attempts.countP (·.number.isSome)

/-- The attempt transmitted last: the one with the highest attempt number. -/
def Context.lastTransmitted (x : Context) : Option Attempt :=
  x.attempts.find? fun a => a.number == some x.transmitted

/-- R86: the generation in force, the highest among the attempt records and the parked request. -/
def Context.genInForce (x : Context) : Nat :=
  x.attempts.foldl (fun g a => max g a.gen)
    (match x.parked with
    | none => 0
    | some q => q.gen)

/-- The reply timer serving an attempt is cancelled (R124). -/
def Context.cancelReply (x : Context) (id : Nat) : Context :=
  { x with
    reply0 := if x.serves0 = some id then .idle else x.reply0
    serves0 := if x.serves0 = some id then none else x.serves0
    reply1 := if x.serves1 = some id then .idle else x.reply1
    serves1 := if x.serves1 = some id then none else x.serves1 }

/-- An IDLE reply timer is started for an attempt (R124). -/
def Context.startReply (x : Context) (id : Nat) (t : Timer) : Context :=
  if x.reply0.isIdle then { x with reply0 := t, serves0 := some id }
  else { x with reply1 := t, serves1 := some id }

/-- A path joins the set of failed paths (R18, R124). -/
def Context.fail (x : Context) (p : PathId) : Context :=
  if x.failed.contains p then x else { x with failed := x.failed ++ [p] }

/-- The paths that carry SENT work of a context, one entry for each SENT attempt or inquiry. -/
def Context.sentPaths (x : Context) : List PathId :=
  ((x.attempts.filter (·.isSent)).map (·.path)) ++
    (match x.inquiry with
    | none => []
    | some q => if q.state = some .sent then q.path.toList else [])

/-! ### Completion hand-over (R22, R154) -/

/-- The answer that completes an exchange: the path of the attempt or inquiry it answers (R2), whether it
crossed (R89), and the payload kept (R94). -/
structure Answer where
  path : Option PathId
  crossed : Bool
  payload : Option (List Byte)
deriving DecidableEq, Repr

/-- How an exchange completes: its status, the answer that completed it if one did, and the flags set by
the completion itself (R26). -/
structure Finish where
  status : Status
  answer : Option Answer := none
  late : Bool := false
  resolved : Bool := false
  abortTooLate : Bool := false
deriving DecidableEq, Repr

/-- The result fixed at the entry to CLOSING (R2, R154; R15 for a refusal, whose fields are those of a
context that holds nothing). -/
def Context.resultOf (x : Context) (done : W32) (f : Finish) : Result :=
  { status := f.status
    flags :=
      { x.flags with
        resolved := x.flags.resolved || f.resolved
        lateReply := x.flags.lateReply || f.late
        abortTooLate := x.flags.abortTooLate || f.abortTooLate
        crossed :=
          x.flags.crossed ||
            (match f.answer with
            | none => false
            | some a => a.crossed) }
    remote := x.lastOutcome
    replyLen :=
      match f.answer with
      | none => 0
      | some a => (a.payload.map (·.length)).getD 0
    attemptsUsed := x.transmitted
    inquiriesUsed :=
      match x.inquiry with
      | none => 0
      | some q => q.count
    finalPath :=
      match f.answer with
      | some a => a.path
      | none => x.lastTransmitted.map (·.path)
    finalGen := x.lastGen
    issue := x.issue
    taken := x.taken
    done := done }

/-- R22: what entering CLOSING does to the context itself: timers cancelled, QUEUED attempts deleted, SENT
attempts CANCELLED, the inquiry ended. -/
def Context.close (x : Context) (r : Result) : Context :=
  { x with
    state := .closing
    attempts :=
      (x.attempts.filter fun a => a.state != .queued).map fun a =>
        if a.state = .sent then { a with state := .cancelled } else a
    inquiry := x.inquiry.map fun q => { q with path := none, state := none }
    parked := none
    flags := r.flags
    reply0 := .idle
    serves0 := none
    reply1 := .idle
    serves1 := none
    inquiryTimer := .idle
    deadlineTimer := .idle
    waitTimer := .idle
    result := some r }

/-! ### Dispatch (R41, R42) -/

/-- R41, R42: the dispatch limit. After a reload to ORDERED it is 1 while the mode in force is still
UNORDERED. -/
def StreamEntry.limit (e : StreamEntry) : Nat :=
  match e.contents with
  | none => 0
  | some d => if e.mode = .ordered ∨ d.mode = .ordered then 1 else d.window

/-- R41: the entry is being read. -/
def LoadState.inRead : LoadState → Bool
  | .loading _ => true
  | .reloading => true
  | .notLoaded => false
  | .valid => false
  | .invalid => false

/-- R41: all the conditions of a dispatch decision. -/
def State.dispatchReady (s : State) (n : StreamId) : Bool :=
  let e := s.stream n
  (s.adapter == .running || s.adapter == .quiescing) && e.state == .open && !e.load.inRead &&
    !e.pendingList.isEmpty && decide (e.inflight < e.limit)

/-- R44: whether a first dispatch of this exchange seeks a pair. -/
def State.seeksPair (s : State) (c : CtxId) (n : StreamId) : Bool :=
  (s.streamDesc n).twin &&
    match s.ctx c with
    | none => false
    | some x => x.kind == .query

/-- One dispatch decision (R41): the head of the pending list goes to route selection. The mode in force
becomes that of the contents as the decision is made (R42). -/
def State.dispatchOne (n : StreamId) (s : State) : State :=
  let e := s.stream n
  match e.pendingList with
  | [] => s
  | c :: rest =>
      let pair := s.seeksPair c n
      let s :=
        s.setStream n
          { e with
            pendingList := rest
            inflight := e.inflight + 1
            mode := (s.streamDesc n).mode }
      s.offerAttempt c { gen := 0, redrive := false, pair := pair }

/-- After each decision the conditions are tested again (R41); `k` bounds the decisions. -/
def State.dispatchUpTo (n : StreamId) : Nat → State → State
  | 0, s => s
  | k + 1, s => if s.dispatchReady n then State.dispatchUpTo n k (s.dispatchOne n) else s

/-- R41: the dispatch decision of a stream is tested. -/
def State.dispatch (n : StreamId) (s : State) : State :=
  State.dispatchUpTo n (s.stream n).pendingList.length s

/-! ### The hand-over itself -/

/-- R143: the Descriptor Cache takes the completion of a context beyond PENDING: in-flight count −1, the
stall (R43), then the dispatch test. -/
def State.streamCompletion (n : StreamId) (status : Status) (s : State) : State :=
  let e := s.stream n
  let s := s.setStream n { e with inflight := e.inflight - 1 }
  let s :=
    if status = .inDoubt ∧ (s.streamDesc n).stopOnDoubt ∧ e.state = .open then
      (s.modStream n fun e => { e with state := .stalled }).raise .streamStalled
    else s
  s.dispatch n

/-- What the completion does to its stream, by the state the context leaves (R22, R40). -/
def State.leaveStream (c : CtxId) (x : Context) (status : Status) (s : State) : State :=
  match x.state with
  | .fetching => s
  | .pending =>
      s.modStream x.stream fun e => { e with pendingList := e.pendingList.filter fun d => d != c }
  | .closing => s
  | .parked => s.streamCompletion x.stream status
  | .active => s.streamCompletion x.stream status
  | .waiting => s.streamCompletion x.stream status
  | .resolving => s.streamCompletion x.stream status

/-- R94: the payload of the completing answer goes over the request in the context's slot. -/
def State.keepPayload (c : CtxId) (f : Finish) (s : State) : State :=
  match f.answer with
  | none => s
  | some a =>
      match a.payload with
      | none => s
      | some bytes => s.fillSlot c bytes

/-- R22, R154: an exchange completes. A context in CLOSING takes no further event. -/
def State.complete (c : CtxId) (f : Finish) (s : State) : State :=
  match s.ctx c with
  | none => s
  | some x =>
      if x.state = .closing then s
      else
        let s := s.keepPayload c f
        let s := s.setCtx c (some (x.close (x.resultOf s.clock f)))
        let s := s.dropFramesEverywhere (·.ofCtx c)
        let s := x.sentPaths.foldl (fun s p => s.lowerInflight p) s
        let s := s.leavePark c
        let s := { s with queue := s.queue ++ [c] }
        s.leaveStream c x f.status

/-! ### Requests for attempts and inquiries (R53, R127, R142) -/

/-- R124: the exchange has room for one more attempt. -/
def State.hasRoom (s : State) (x : Context) : Bool :=
  decide (x.attempts.length < (s.streamDesc x.stream).maxAttempts)

/-- An attempt is asked for: placed or parked with room, and completed as given without (R127). -/
def State.requestAttempt (c : CtxId) (q : ParkedRequest) (noRoom : Finish) (s : State) : State :=
  match s.ctx c with
  | none => s
  | some x => if s.hasRoom x then s.offerAttempt c q else s.complete c noRoom

/-- R127: the status of a replacement or release handed back as exhaustion: that of the ending of the
attempt transmitted last, or of a bar that came later (its request carries a higher generation). -/
def Context.exhaustedStatus (x : Context) (gen : Nat) : Status :=
  match x.lastTransmitted with
  | none => if x.kind = .query then .timeout else .notApplied
  | some a =>
      if a.state = .busy ∧ a.gen = gen then .remoteBusy
      else if x.kind = .query then .timeout
      else .notApplied

/-- R142: an inquiry is asked for: IN_DOUBT at the Inquiry Limit in force, otherwise placed or parked. -/
def State.requestInquiry (c : CtxId) (s : State) : State :=
  match s.ctx c with
  | none => s
  | some x =>
      match x.inquiry with
      | none => s
      | some q =>
          if (s.streamDesc x.stream).inquiryLimit ≤ q.count then s.complete c { status := .inDoubt }
          else s.offerInquiry c

/-- R134: a commit enters RESOLVING for a generation and asks for an inquiry. -/
def State.enterResolving (c : CtxId) (gen : Nat) (s : State) : State :=
  let s := s.modCtx c fun x =>
    let q : Inquiry :=
      x.inquiry.getD
        { count := 0
          timeouts := 0
          gen := gen
          path := none
          lastSent := none
          state := none
          bar := true }
    { x with state := .resolving, inquiry := some { q with gen := gen, path := none, state := none } }
  s.requestInquiry c

/-! ### Release of park lists (R60) -/

/-- R60: a context of a park list is offered to route selection as the request it holds. -/
def State.offerParked (c : CtxId) (s : State) : State :=
  match s.ctx c with
  | none => s
  | some x =>
      if x.state = .resolving then s.requestInquiry c
      else if x.state = .parked then
        match x.parked with
        | none => s
        | some q => s.requestAttempt c q { status := x.exhaustedStatus q.gen }
      else s

/-- R60: a target's park list is taken as it stands, emptied, and offered in list order. -/
def State.releaseTarget (t : TargetId) (s : State) : State :=
  let waiting := (s.target t).park
  waiting.foldl (fun s c => s.offerParked c) (s.modTarget t fun e => { e with park := [] })

/-- R60: the targets whose Path List contains a path are released, in increasing number. -/
def State.releaseFor (p : PathId) (s : State) : State :=
  (s.targetsOf p).foldl (fun s t => s.releaseTarget t) s

/-! ### The open inquiry (R133, R139) -/

/-- An open inquiry ends: a SENT one leaves SENT with its timer cancelled and its path's in-flight count
lowered, a QUEUED one is withdrawn uncounted, a parked one leaves its park list, a running wait is
cancelled (R133, R139). -/
def State.endInquiry (c : CtxId) (s : State) : State :=
  match s.ctx c with
  | none => s
  | some x =>
      match x.inquiry with
      | none => s
      | some q =>
          let s :=
            s.modCtx c fun x =>
              { x with
                inquiry := some { q with path := none, state := none }
                inquiryTimer := .idle
                waitTimer := .idle }
          let s := s.dropFramesEverywhere (·.isInquiryOf c)
          let s := s.leavePark c
          if q.state = some .sent then q.path.toList.foldl (fun s p => s.lowerInflight p) s else s

/-! ### Decisions (R128 to R133) -/

/-- R129: a query's attempt ended TIMED_OUT or LOST. -/
def State.courseQueryLost (c : CtxId) (s : State) : State :=
  match s.ctx c with
  | none => s
  | some x =>
      if x.attempts.any (·.live) then s
      else
        s.requestAttempt c { gen := 0, redrive := true, pair := false } { status := .timeout }

/-- R129, R132: the course after an attempt ended TIMED_OUT or LOST. -/
def State.courseLost (c : CtxId) (id : Nat) (s : State) : State :=
  match s.ctx c with
  | none => s
  | some x =>
      if x.state = .closing then s
      else
        match x.kind with
        | .query => s.courseQueryLost c
        | .commit =>
            match x.attempt id with
            | none => s
            | some a => s.enterResolving c a.gen

/-- R130: the course after an attempt ended BUSY, for a query or an unmarked commit. -/
def State.courseBusy (c : CtxId) (answer : Answer) (s : State) : State :=
  match s.ctx c with
  | none => s
  | some x =>
      if x.attempts.any (·.live) then s
      else if s.hasRoom x then
        s.modCtx c fun x =>
          { x with
            state := .waiting
            waitTimer := .startMs s.clock (s.streamDesc x.stream).pendingInterval }
      else s.complete c { status := .remoteBusy, answer := some { answer with payload := none } }

/-- R133: a bar of the commit's generation in force. -/
def State.takeBar (c : CtxId) (answer : Answer) (s : State) : State :=
  let s := s.endInquiry c
  match s.ctx c with
  | none => s
  | some x =>
      if x.abortMark then s.complete c { status := .aborted, answer := some answer }
      else
        s.requestAttempt c { gen := x.genInForce + 1, redrive := true, pair := false }
          { status := .notApplied, answer := some answer }

/-- R128, R130: a query's reply decides. -/
def State.courseQueryReply (c : CtxId) (outcome : RemoteOutcome) (late : Bool) (answer : Answer)
    (s : State) : State :=
  match outcome with
  | .ok => s.complete c { status := .ok, answer := some answer, late := late }
  | .fault => s.complete c { status := .remoteFault, answer := some answer }
  | .barred => s.complete c { status := .remoteFault, answer := some answer }
  | .busy => s.courseBusy c answer
  | .none => s
  | .applied => s
  | .pending => s

/-- R132, R141: a commit's reply decides; `late` also covers a reply accepted in RESOLVING (R26). -/
def State.courseCommitReply (c : CtxId) (outcome : RemoteOutcome) (late : Bool) (marked : Bool)
    (answer : Answer) (s : State) : State :=
  match outcome with
  | .ok => s.complete c { status := .ok, answer := some answer, late := late, abortTooLate := marked }
  | .fault => s.complete c { status := .remoteFault, answer := some answer }
  | .barred => s.takeBar c answer
  | .busy =>
      if marked then
        s.complete c { status := .aborted, answer := some { answer with payload := none } }
      else s.courseBusy c answer
  | .none => s
  | .applied => s
  | .pending => s

/-! ### Decisions after a whole step (R104, R126) -/

/-- A decision joins those that wait for the end of the step. -/
def State.defer (d : Deferred) (s : State) : State :=
  { s with deferred := s.deferred ++ [d] }

/-- One decision that waited for the end of the step. -/
def State.takeDeferred (d : Deferred) (s : State) : State :=
  match d with
  | .lostAttempt c id => s.courseLost c id
  | .lostInquiry c =>
      match s.ctx c with
      | none => s
      | some x => if x.state = .resolving then s.requestInquiry c else s
  | .replace c gen redrive =>
      match s.ctx c with
      | none => s
      | some x =>
          if x.state = .active then
            s.requestAttempt c { gen := gen, redrive := redrive, pair := false }
              { status := x.exhaustedStatus gen }
          else s
  | .reroute c =>
      match s.ctx c with
      | none => s
      | some x => if x.state = .resolving then s.requestInquiry c else s

/-- The decisions that waited are taken, in order (R104, R126, R67). -/
def State.settle (s : State) : State :=
  s.deferred.foldl (fun s d => s.takeDeferred d) { s with deferred := [] }

/-! ### Losses and withdrawals -/

/-- A SENT attempt of a context on a path ends LOST (R124, R126). -/
def State.loseAttempt (c : CtxId) (a : Attempt) (s : State) : State :=
  let s := s.modCtx c fun x =>
    ((x.moveAttempt a.id .sent fun b => { b with state := .lost }).cancelReply a.id).fail a.path
  (s.lowerInflight a.path).defer (.lostAttempt c a.id)

/-- A SENT inquiry whose path is lost (R137). -/
def State.loseInquiry (c : CtxId) (p : PathId) (s : State) : State :=
  let s := s.modCtx c fun x =>
    { x.fail p with
      inquiry := x.inquiry.map fun q => { q with path := none, state := none }
      inquiryTimer := .idle }
  (s.lowerInflight p).defer (.lostInquiry c)

/-- The SENT work of one context on a path ends LOST. -/
def State.loseWork (p : PathId) (c : CtxId) (s : State) : State :=
  match s.ctx c with
  | none => s
  | some x =>
      let s := (x.attempts.filter fun a => a.isSent && a.path == p).foldl (fun s a => s.loseAttempt c a) s
      match x.inquiry with
      | none => s
      | some q => if q.state = some .sent ∧ q.path = some p then s.loseInquiry c p else s

/-- The context has SENT work on a path. -/
def Context.sentOn (p : PathId) (x : Context) : Bool :=
  x.sentPaths.contains p

/-- R104, step 1: every SENT attempt and inquiry on a path ends LOST, by increasing context (log 4). -/
def State.loseSent (p : PathId) (s : State) : State :=
  (s.ctxsWhere (Context.sentOn p)).foldl (fun s c => s.loseWork p c) s

/-- R58: a QUEUED attempt's record is deleted, and its twin partner is alone. -/
def Context.withdraw (x : Context) (id : Nat) : Context :=
  { x with
    attempts :=
      (x.attempts.filter fun b => !(b.id == id && b.state == .queued)).map fun b =>
        if b.twin = some id then { b with twin := none } else b }

/-- R58: a QUEUED attempt withdrawn from its lane: the record is deleted; with a live twin partner no
replacement is sought and the partner is alone, otherwise a replacement is asked for after the step. -/
def State.withdrawAttempt (c : CtxId) (id : Nat) (s : State) : State :=
  match s.ctx c with
  | none => s
  | some x =>
      match x.attempt id with
      | none => s
      | some a =>
          if a.state = .queued then
            let partnerLive := x.attempts.any fun b => b.twin == some id && b.live
            let s := s.modCtx c fun x => x.withdraw id
            if partnerLive then s else s.defer (.replace c a.gen a.redrive)
          else s

/-- R58, R78: a QUEUED inquiry withdrawn from lane 1 is routed again after the step. -/
def State.withdrawInquiry (c : CtxId) (s : State) : State :=
  (s.modCtx c fun x =>
    { x with inquiry := x.inquiry.map fun q => { q with path := none, state := none } }).defer
      (.reroute c)

/-- What withdrawing one frame does beyond its lane (R78): PROBE and ECHO frames are dropped. -/
def State.withdrawFrame (s : State) (e : LaneEntry) : State :=
  match e with
  | .request c id _ _ => s.withdrawAttempt c id
  | .inquiry c _ _ => s.withdrawInquiry c
  | .probe _ _ => s
  | .echo _ _ _ => s

/-- Frames of a port that satisfy a test are withdrawn or dropped (R67, R78). -/
def State.withdrawWhere (i : PortId) (test : LaneEntry → Bool) (s : State) : State :=
  ((s.port i).framesWhere test).foldl State.withdrawFrame (s.dropFrames i test)

/-- R78: a path leaves UP and SUSPECT: its REQUEST, INQUIRY and PROBE frames leave the lanes; its ECHO
stays. -/
def State.withdrawPath (p : PathId) (s : State) : State :=
  match s.pathPort p with
  | none => s
  | some i => s.withdrawWhere i fun e => e.workOn p || e.isProbeOf p

end Sys2Proof.Machine
end

