-- ==== Sys2Proof/Machine/Health.lean ====
section
/-!
DEFINITION. The Health Monitor (chapter 6): changes of health state with their ordered hand-outs (R104),
entry to DOWN, flap level and hold-down (R105 to R107), port fault correlation (R119), strikes and
judgement (R101 to R103), good probes and proving (R112), path loss (R118), and samples with the latency
band (R48 to R50). A function here does not take the decisions that wait for the end of the step; the
meanings call `State.settle` where the rule puts them.
-/

namespace Sys2Proof.Machine

/-! ### Entry to UP and SUSPECT -/

/-- R104: the hand-outs of an entry to UP or SUSPECT: reachability, release of park lists, report. -/
def State.handOutService (p : PathId) (s : State) : State :=
  ((s.recomputeTargets p).releaseFor p).reportHealth p

/-- Entry to UP (R112): strikes 0, Reply Seen clear, Last Up Time now, the stability timer starts. -/
def State.enterUp (p : PathId) (s : State) : State :=
  let period := (s.pathDesc p).stabilityPeriod
  let s := s.modPath p fun r =>
    { r.leave with
      health := .up
      strikes := 0
      replySeen := false
      lastUp := some s.clock
      stability := .startMs s.clock period }
  (s.syncProbing p).handOutService p

/-- Entry to SUSPECT (R104): strikes as the cause left them. -/
def State.enterSuspect (p : PathId) (s : State) : State :=
  let s := s.modPath p fun r => { r.leave with health := .suspect }
  (s.syncProbing p).handOutService p

/-- R66: a SUSPECT port returns to UP when a path of it completes proving; then each SUSPECT path of the
port with 0 strikes enters UP, by increasing path number (R102; log 6). -/
def State.portProved (i : PortId) (s : State) : State :=
  if (s.port i).state = .suspect then
    let s := s.modPort i fun r => { r with state := .up }
    (s.pathsOf i).foldl
      (fun s q =>
        if (s.path q).health = .suspect ∧ (s.path q).strikes = 0 then s.enterUp q else s) s
  else s

/-- R112: a path enters UP from RECOVERING, and the entry is handed to its Link Port. -/
def State.completeProving (p : PathId) (s : State) : State :=
  let s := s.enterUp p
  match s.pathPort p with
  | none => s
  | some i => s.portProved i

/-! ### Entry to the states without work -/

/-- Entry to RECOVERING (R104, R112): proving count 1. -/
def State.enterRecovering (p : PathId) (s : State) : State :=
  let s := s.modPath p fun r => { r.leave with health := .recovering, proving := 1, lastUp := none }
  ((s.syncProbing p).recomputeTargets p).reportHealth p

/-- Entry to UNTRIED (R104): probing starts where R111 allows. -/
def State.becomeUntried (p : PathId) (s : State) : State :=
  let s := s.modPath p (·.enterUntried)
  ((s.syncProbing p).recomputeTargets p).reportHealth p

/-- R104, step 2: the frames of a path that left UP or SUSPECT are withdrawn. -/
def State.withdrawIfServed (before : Health) (p : PathId) (s : State) : State :=
  if before.inService then s.withdrawPath p else s

/-- Entry to DRAINING (R104, R113, R114): strikes 0, probing stops; `limit` starts the drain limit timer
at an advisory, and a FENCE starts none. -/
def State.enterDraining (p : PathId) (limit : Timer) (s : State) : State :=
  let before := (s.path p).health
  let s := s.modPath p fun r =>
    { r.leave with health := .draining, strikes := 0, lastUp := none, drain := limit }
  let s := s.stopProbing p
  ((s.withdrawIfServed before p).recomputeTargets p).reportHealth p

/-- Entry to FENCED from any other state (R104, R114, R115); at a DRILL the SENT work ends LOST first. -/
def State.enterFencedFrom (p : PathId) (lose : Bool) (s : State) : State :=
  let before := (s.path p).health
  let s := s.modPath p (·.enterFenced)
  let s := s.stopProbing p
  let s := if lose then s.loseSent p else s
  ((s.withdrawIfServed before p).recomputeTargets p).reportHealth p

/-! ### Port fault correlation (R119) -/

/-- The correlation list with a time added: at most eight, the oldest removed. -/
def addDownTime (now : W32) (times : List W32) : List W32 :=
  let l := times ++ [now]
  l.drop (l.length - Config.correlationPlaces)

/-- R119: how many times of the list lie within the window of the time just added. -/
def recentDowns (now : W32) (windowMs : Nat) (times : List W32) : Nat :=
  times.countP fun t => decide (elapsed now t < 1000 * windowMs)

/-- R119: each UP path of a port takes at least Suspect Threshold strikes and enters SUSPECT, by
increasing path number. -/
def State.doubtPaths (i : PortId) (s : State) : State :=
  (s.pathsOf i).foldl
    (fun s q =>
      if (s.path q).health = .up then
        let threshold := (s.pathDesc q).suspectThreshold
        (s.modPath q fun r => { r with strikes := max r.strikes threshold }).enterSuspect q
      else s) s

/-- R119, R66: a port trips. In DOWN this has no effect; from UP it enters SUSPECT and the trip is
counted; in both other states its UP paths are doubted. -/
def State.trip (i : PortId) (s : State) : State :=
  match (s.port i).state with
  | .down => s
  | .up =>
      (s.modPort i fun r =>
        { r with state := .suspect, correlationTrips := r.correlationTrips + 1 }).doubtPaths i
  | .suspect => s.doubtPaths i

/-- R119: the time of an entry to DOWN is added to the port's list, and the port is tested for a trip. -/
def State.correlate (i : PortId) (s : State) : State :=
  let times := addDownTime s.clock (s.port i).downTimes
  let s := s.modPort i fun r => { r with downTimes := times }
  match s.settings with
  | none => s
  | some c => if c.corrThreshold ≤ recentDowns s.clock c.corrWindow times then s.trip i else s

/-! ### Entry to DOWN (R105 to R107) -/

/-- The cause of an entry to DOWN (R105). -/
inductive DownCause where
  | carrier | strikes | proving
deriving DecidableEq, Repr

/-- R106: whether an entry to DOWN raises the flap level. -/
def PathRec.raisesFlap (r : PathRec) (now : W32) (periodMs : Nat) : Bool :=
  match r.health with
  | .recovering => true
  | .up | .suspect =>
      match r.lastUp with
      | none => false
      | some t => decide (elapsed now t < 1000 * periodMs)
  | .untried => false
  | .draining => false
  | .down => false
  | .fenced => false

/-- R107: the hold-down of a flap level, in ms. -/
def holdDownMs (base flap : Nat) : Nat :=
  min Config.holdDownMax (base * 2 ^ flap)

/-- R106: the flap level after an entry to DOWN. -/
def PathRec.flapAfterDown (r : PathRec) (now : W32) (periodMs : Nat) : Nat :=
  if r.raisesFlap now periodMs then min 6 (r.flap + 1) else r.flap

/-- R104 to R107: the record of a path that enters DOWN: no strikes, the flap level, and the hold-down timer
started for that level. -/
def PathRec.enterDown (r : PathRec) (now : W32) (d : PathDesc) : PathRec :=
  { r.leave with
    health := .down
    strikes := 0
    proving := 0
    holdEnded := false
    flap := r.flapAfterDown now d.stabilityPeriod
    lastUp := none
    hold := .startMs now (holdDownMs d.holdBase (r.flapAfterDown now d.stabilityPeriod)) }

/-- R119: the entry to DOWN of a path is handed to the correlation list of its port. -/
def State.correlatePath (p : PathId) (s : State) : State :=
  match s.pathPort p with
  | none => s
  | some i => s.correlate i

/-- R105: entry to DOWN, as part of the step of R104; the decisions for its losses and withdrawals wait
for the end of the step (log 5 for the place of the correlation test). -/
def State.enterDown (p : PathId) (cause : DownCause) (s : State) : State :=
  let before := (s.path p).health
  let d := s.pathDesc p
  let s := s.modPath p fun r => r.enterDown s.clock d
  let s := (s.stopProbing p).loseSent p
  let s :=
    match cause with
    | .carrier => s
    | .strikes => s.correlatePath p
    | .proving => s.correlatePath p
  ((s.withdrawIfServed before p).recomputeTargets p).reportHealth p

/-! ### Strikes and judgement (R101 to R103) -/

/-- R102: a path is judged after a change of its strikes. -/
def State.judge (p : PathId) (s : State) : State :=
  let r := s.path p
  let d := s.pathDesc p
  match r.health with
  | .up =>
      if d.downThreshold ≤ r.strikes then s.enterDown p .strikes
      else if d.suspectThreshold ≤ r.strikes then s.enterSuspect p
      else s
  | .suspect =>
      if d.downThreshold ≤ r.strikes then s.enterDown p .strikes
      else if r.strikes = 0 ∧ (s.pathPort p).map (fun i => (s.port i).state) ≠ some .suspect then
        s.enterUp p
      else s
  | .untried => s
  | .draining => s
  | .down => s
  | .recovering => s
  | .fenced => s

/-- R101: the strikes of a path in UP or SUSPECT take a new value, within 0 to 15; after a change the path
is judged. In the other states strikes are not counted. -/
def State.setStrikes (p : PathId) (n : Nat) (s : State) : State :=
  let r := s.path p
  if r.health.inService ∧ min 15 n ≠ r.strikes then
    (s.modPath p fun r => { r with strikes := min 15 n }).judge p
  else s

/-- R101: strikes rise. -/
def State.addStrikes (p : PathId) (n : Nat) (s : State) : State :=
  s.setStrikes p ((s.path p).strikes + n)

/-- R101: strikes fall by one. -/
def State.dropStrike (p : PathId) (s : State) : State :=
  s.setStrikes p ((s.path p).strikes - 1)

/-- R103: a failure in RECOVERING ends proving. -/
def State.failProving (p : PathId) (s : State) : State :=
  if (s.path p).health = .recovering then s.enterDown p .proving else s

/-- A path counter changes (R121). -/
def State.count (p : PathId) (f : PathCounters → PathCounters) (s : State) : State :=
  s.modPath p fun r => { r with counters := f r.counters }

/-- A reply timeout (R101, R103): the Timeouts counter rises, then +2 strikes or the end of proving. -/
def State.replyTimeout (p : PathId) (s : State) : State :=
  let s := s.count p fun k => { k with timeouts := k.timeouts + 1 }
  if (s.path p).health = .recovering then s.failProving p else s.addStrikes p 2

/-- A probe miss (R101, R103, R109): the miss counter rises, then +1 strike or the end of proving. -/
def State.probeMiss (p : PathId) (s : State) : State :=
  let s := s.count p fun k => { k with probeMisses := k.probeMisses + 1 }
  if (s.path p).health = .recovering then s.failProving p else s.addStrikes p 1

/-- A malformed arrival (R84, R101, R103). -/
def State.malformedArrival (p : PathId) (s : State) : State :=
  let s := s.count p fun k => { k with malformed := k.malformed + 1 }
  if (s.path p).health = .recovering then s.failProving p else s.addStrikes p 1

/-- A good reply (R101, R110): Reply Seen is set in every state, and one strike is taken back. Reply Seen is
set first, so that an entry to UP in the same event clears it (R112): the model's choice (log 43). -/
def State.goodReply (p : PathId) (s : State) : State :=
  (s.modPath p fun r => { r with replySeen := true }).dropStrike p

/-- R112: the proving count is compared with the Proving Count in force. -/
def State.testProving (p : PathId) (s : State) : State :=
  if (s.pathDesc p).provingCount ≤ (s.path p).proving then s.completeProving p else s

/-- R112: a good probe in DOWN, which reaches a path only after hold-down. -/
def State.goodProbeDown (p : PathId) (s : State) : State :=
  if (s.path p).holdEnded then
    if (s.path p).fence then s.enterFencedFrom p false else (s.enterRecovering p).testProving p
  else s

/-- A good probe (R101, R112). -/
def State.goodProbe (p : PathId) (s : State) : State :=
  match (s.path p).health with
  | .up => s.dropStrike p
  | .suspect => s.dropStrike p
  | .untried => (s.enterRecovering p).testProving p
  | .down => s.goodProbeDown p
  | .recovering => (s.modPath p fun r => { r with proving := r.proving + 1 }).testProving p
  | .draining => s
  | .fenced => s

/-! ### Samples and the latency band (R48 to R50) -/

/-- R50: SLOW after an estimator update, by the limits in force. -/
def bandAfter (slow : Bool) (srtt upper lower : Nat) : Bool :=
  if upper = 0 then false
  else if slow then decide (lower < srtt)
  else decide (upper < srtt)

/-- R48 to R50: the record of a path after one sample: estimator update, then the latency band. -/
def PathRec.takeSample (r : PathRec) (d : PathDesc) (m : Nat) : PathRec :=
  { r.update m with slow := bandAfter r.slow (r.update m).srtt d.upperLatency d.lowerLatency }

/-- R48 to R50: one sample of a path: estimator update, latency band, and a strike at SLOW entry. -/
def State.sample (p : PathId) (sendTime : W32) (s : State) : State :=
  let wasSlow := (s.path p).slow
  let d := s.pathDesc p
  let s := s.modPath p fun r => r.takeSample d (sampleOf s.clock sendTime)
  if (s.path p).slow ∧ ¬wasSlow then s.addStrikes p 1 else s

/-! ### Path loss (R118) -/

/-- R118, step 5: the state a lost path enters. -/
def PathRec.stateAfterLoss (r : PathRec) : Health :=
  match r.health with
  | .fenced => .fenced
  | .draining => if r.fence then .fenced else .untried
  | .down => if r.fence then .fenced else .untried
  | .untried => .untried
  | .up => .untried
  | .suspect => .untried
  | .recovering => .untried

/-- R118: the record of a lost path: no estimate, a health record begun anew, every timer cancelled. -/
def PathRec.lose (r : PathRec) : PathRec :=
  { r.clearEstimate with
    health := r.stateAfterLoss
    strikes := 0
    proving := 0
    flap := 0
    lastUp := none
    outstanding := none
    markA := .idle
    markB := .idle
    hold := .idle
    stability := .idle
    drain := .idle }

/-- R118: every frame of the path leaves the lanes of the port named in the copy. -/
def State.withdrawLost (p : PathId) (s : State) : State :=
  match s.pathPort p with
  | none => s
  | some i => s.withdrawWhere i fun e => e.workOn p || e.isProbeOf p || e.isEchoOf p

/-- R118, under the copy that was in force: the record is begun anew, SENT work ends LOST, and the frames
are withdrawn. -/
def State.dropPath (p : PathId) (s : State) : State :=
  ((s.modPath p (·.lose)).loseSent p).withdrawLost p

/-- The copy in force becomes `contents` (R39). -/
def State.setCopy (p : PathId) (contents : Option PathDesc) (s : State) : State :=
  s.modPath p fun r => { r with contents := contents }

/-- R118: a path loss, the copy in force becoming `contents`; a path that does not change state is not
reported as changed. -/
def State.pathLoss (p : PathId) (contents : Option PathDesc) (s : State) : State :=
  let before := (s.path p).health
  let after := (s.path p).stateAfterLoss
  let s := ((s.dropPath p).setCopy p contents).syncProbing p
  if before = after then s else (s.recomputeTargets p).reportHealth p

end Sys2Proof.Machine
end

