-- ==== Sys2Proof/Machine/Carrier.lean ====
section
/-!
DEFINITION. The Link Ports' carrier filters (R63 to R65), accepted losses and returns of carrier (R66,
R67, R117), and the age checks of the correlation lists (R146).
-/

namespace Sys2Proof.Machine

/-! ### Accepted losses and returns -/

/-- R117: an accepted loss on the port of a path. -/
def State.carrierDown (s : State) (p : PathId) : State :=
  match (s.path p).health with
  | .fenced => s
  | .down => s.syncProbing p
  | .untried => s.enterDown p .carrier
  | .up => s.enterDown p .carrier
  | .suspect => s.enterDown p .carrier
  | .draining => s.enterDown p .carrier
  | .recovering => s.enterDown p .carrier

/-- R67: an accepted loss. In HALTED, LOADING and FAULTED it changes the port state alone (R122). -/
def State.acceptLoss (i : PortId) (s : State) : State :=
  let s := s.modPort i fun r => { r with state := .down }
  if s.adapter.works then
    let s := (s.pathsOf i).foldl State.carrierDown s
    ((s.withdrawWhere i fun _ => true).modPort i (·.clearMasks)).settle
  else s

/-- R66, R117: an accepted return. In HALTED, LOADING and FAULTED it changes the port state alone. That
probing starts by increasing path number is the model's choice (log 41). -/
def State.acceptReturn (i : PortId) (s : State) : State :=
  let s := s.modPort i fun r => { r with state := .up }
  if s.adapter.works then (s.pathsOf i).foldl (fun s p => s.syncProbing p) s else s

/-! ### The carrier filter (R63 to R65) -/

/-- The filter takes a state, with its timer IDLE. -/
def State.setFilter (i : PortId) (f : CarrierFilter) (s : State) : State :=
  s.modPort i fun r => { r with filter := f, filterTimer := .idle }

/-- The filter takes a state with its timer started for a time in ms. -/
def State.startFilter (i : PortId) (f : CarrierFilter) (ms : Nat) (s : State) : State :=
  s.modPort i fun r => { r with filter := f, filterTimer := .startMs s.clock ms }

/-- R63: a present raw carrier in LOST, or at the end of HOLD (R65), waits for the return filter time. -/
def State.beginReturn (i : PortId) (s : State) : State :=
  let time := (s.port i).settings.returnTime
  if time = 0 then (s.setFilter i .present).acceptReturn i else s.startFilter i .returnPending time

/-- R63 to R65: a raw loss. -/
def State.rawLoss (i : PortId) (s : State) : State :=
  let r := s.port i
  match r.filter with
  | .present =>
      match r.settings.mode with
      | .delayed =>
          if r.settings.lossTime = 0 then (s.setFilter i .lost).acceptLoss i
          else s.startFilter i .lossPending r.settings.lossTime
      | .immediate =>
          if r.settings.lossTime = 0 then (s.setFilter i .lost).acceptLoss i
          else (s.startFilter i (.hold false) r.settings.lossTime).acceptLoss i
  | .lossPending => s
  | .hold _ => s.modPort i fun r => { r with filter := .hold false }
  | .lost => s
  | .returnPending => s.setFilter i .lost

/-- R63: a raw return. -/
def State.rawReturn (i : PortId) (s : State) : State :=
  match (s.port i).filter with
  | .present => s
  | .lossPending => s.setFilter i .present
  | .hold _ => s.modPort i fun r => { r with filter := .hold true }
  | .lost => s.beginReturn i
  | .returnPending => s

/-- R63, R65: the expiry of the carrier filter timer. -/
def State.filterExpiry (i : PortId) (s : State) : State :=
  match (s.port i).filter with
  | .present => s.setFilter i .present
  | .lossPending => (s.setFilter i .lost).acceptLoss i
  | .hold rawPresent => if rawPresent then s.beginReturn i else s.setFilter i .lost
  | .lost => s.setFilter i .lost
  | .returnPending => (s.setFilter i .present).acceptReturn i

/-- RAW_CARRIER_LOSS (R63, R64, R65). -/
def execRawCarrierLoss (i : PortId) (s : State) : Host.Outcome State Fault Refusal :=
  .next (s.rawLoss i)

/-- RAW_CARRIER_RETURN (R63). -/
def execRawCarrierReturn (i : PortId) (s : State) : Host.Outcome State Fault Refusal :=
  .next (s.rawReturn i)

/-- CARRIER_FILTER_EXPIRY (R63): it is taken when the port's filter timer has expired (log 2). -/
def execCarrierFilterExpiry (i : PortId) (s : State) : Host.Outcome State Fault Refusal :=
  .next (if (s.port i).filterTimer.isExpired then s.filterExpiry i else s)

/-! ### Age checks (R146) -/

/-- R146: the times of a correlation list that an age check leaves. -/
def youngTimes (now : W32) (times : List W32) : List W32 :=
  times.filter fun t => decide (elapsed now t < Config.ageStep)

/-- AGE_CHECK (R146), when the clock has given one to the port (log 23). -/
def execAgeCheck (i : PortId) (s : State) : Host.Outcome State Fault Refusal :=
  .next
    (if (s.port i).ageDue then
      s.modPort i fun r => { r with downTimes := youngTimes s.clock r.downTimes, ageDue := false }
    else s)

end Sys2Proof.Machine
end

