-- ==== Sys2Proof/Machine/Window.lean ====
section
/-!
DEFINITION. The register window (R174): the CONTROL commands START and STOP (R166, R170), what a warm reset drops
(R172), the cold reset (R173), writes of EVENT, EVENT_MASK, ANCHOR and FAULT_ADDRESS, and what a read returns.
-/

namespace Sys2Proof.Machine

/-! ### START (R166, R168 step 1) -/

/-- Every timer of a path is IDLE and no probe is outstanding (R111, R153). -/
def PathRec.stopTimers (r : PathRec) : PathRec :=
  { r with
    outstanding := none
    markA := .idle
    markB := .idle
    hold := .idle
    stability := .idle
    drain := .idle }

/-- R79: every lane is emptied and every mask cleared; no withdrawal follows. -/
def PortRec.emptyLanes (r : PortRec) : PortRec :=
  { r with lanes := Vector.replicate 8 [] }.clearMasks

/-- R164, at LOADING: COMPLETIONS is set first if C was above 0; then C is 0 and the holdoff timer IDLE. -/
def State.flushCompletions (s : State) : State :=
  let s := if s.coalesced = 0 then s else s.raise .completions
  { s with coalesced := 0, holdoff := .idle }

/-- The reads the Descriptor Cache and a stopped sweep have in progress (R33, R17). -/
def State.readsUnderWay (s : State) : List Orphan :=
  let owner :=
    match s.phase with
    | .owner r => [{ id := .ownerWord, read := r }]
    | .idle => []
    | .wantContext => []
    | .record _ _ => []
    | .stream _ _ => []
    | .payload _ _ => []
  owner ++
    (List.finRange 256).filterMap (fun n => (s.stream n).read.map fun r => { id := .stream n, read := r }) ++
    (List.finRange 64).filterMap (fun t => (s.target t).read.map fun r => { id := .target t, read := r }) ++
    (List.finRange 128).filterMap (fun p => (s.path p).read.map fun r => { id := .path p, read := r })

/-- R17, R168: the sweep whose Owner word read is left without a use is over; Sweep Pending, set at STOP,
begins it again. A kept run stays. -/
def State.endStoppedSweep (s : State) : State :=
  match s.phase with
  | .owner _ => { s with job := .none, phase := .idle }
  | .idle => s
  | .wantContext => s
  | .record _ _ => s
  | .stream _ _ => s
  | .payload _ _ => s

/-- R163, R168: reads in progress at an accepted START lose their use, as LOADING reads every descriptor
afresh and the Fetch Engine makes no decision in it (log 14). -/
def State.leaveReads (s : State) : State :=
  { s.endStoppedSweep with
    orphans := s.orphans ++ s.readsUnderWay
    streams := mapEntries (fun e => { e with read := none }) s.streams
    targets := mapEntries (fun e => { e with read := none }) s.targets
    paths := mapEntries (fun r => { r with read := none }) s.paths }

/-- R166, R168: an accepted START enters LOADING, and the read of the 256 bytes of the Anchor begins. -/
def State.enterLoading (fromQuiesced : Bool) (s : State) : State :=
  let s := s.flushCompletions.leaveReads
  ({ s with
    ports := mapEntries (·.emptyLanes) s.ports
    paths := mapEntries (·.stopTimers) s.paths
    loading := some (.anchor fromQuiesced (beginRead s.clock s.anchor 256)) }).enterAdapter .loading

/-- START (R166). -/
def execStart (s : State) : Host.Outcome State Fault Refusal :=
  match s.adapter with
  | .halted => .next (if s.anchor = 0 then s.misuse else s.enterLoading false)
  | .quiesced => .next (s.enterLoading true)
  | .loading => .next s.misuse
  | .running => .next s.misuse
  | .quiescing => .next s.misuse
  | .faulted => .next s.misuse

/-! ### STOP (R17, R170) -/

/-- R170: the adapter enters QUIESCED when the number of live contexts reaches 0 in QUIESCING. -/
def State.quiesceIfIdle (s : State) : State :=
  if s.adapter = .quiescing ∧ s.liveCount = 0 then s.enterAdapter .quiesced else s

/-- R17, R170: what the Fetch Engine keeps at STOP. A record fetch with its context reserved runs on; one
still waiting for a context is abandoned; a sweep stops after its record and sets Sweep Pending (log 13). -/
def State.stopFetch (s : State) : State :=
  match s.job with
  | .none => s
  | .run _ _ => if s.phase = .wantContext then { s with phase := .idle } else s
  | .sweep next _ =>
      if s.phase = .wantContext ∨ s.phase = .idle then
        { s with job := .none, phase := .idle, sweepPending := true }
      else { s with job := .sweep next true, sweepPending := true }

/-- STOP (R166, R170). -/
def execStop (s : State) : Host.Outcome State Fault Refusal :=
  .next
    (if s.adapter = .running then (s.stopFetch.enterAdapter .quiescing).quiesceIfIdle else s.misuse)

/-- CONTROL_BAD_COMBINATION (R166). -/
def execControlBadCombination (s : State) : Host.Outcome State Fault Refusal :=
  .next s.misuse

/-! ### Resets (R172, R173) -/

/-- A path at a warm reset: the copy is without meaning (R46), the in-flight count is 0 (R51), the
Outstanding probe and Reply Seen are cleared and every timer is IDLE (R123); the rest is kept, Hold-down ended, which
the table of R123 does not list, by the model's choice (log 48). -/
def PathRec.warmReset (r : PathRec) : PathRec :=
  { r.stopTimers with
    load := .notLoaded
    contents := none
    again := false
    read := none
    inflight := 0
    replySeen := false }

/-- A port at a warm reset (R79): lanes emptied, masks cleared, transmitter idle (log 33). -/
def PortRec.warmReset (r : PortRec) : PortRec :=
  { r.emptyLanes with transmitter := none }

/-- A target entry at a warm reset: the copy is without meaning (R46), the park list is emptied (R61), the
reachability is kept (R123). -/
def TargetEntry.warmReset (e : TargetEntry) : TargetEntry :=
  { reach := e.reach }

/-- R172: what every block drops at a warm reset (R27, R46, R61, R79, R123, R153, R164). -/
def State.dropAll (s : State) : State :=
  { s with
    faultCount := 0
    loading := none
    orphans := []
    armFifo := []
    sweepPending := false
    job := .none
    phase := .idle
    ctxs := Vector.replicate 512 none
    streams := Vector.replicate 256 {}
    targets := mapEntries (·.warmReset) s.targets
    paths := mapEntries (·.warmReset) s.paths
    ports := mapEntries (·.warmReset) s.ports
    queue := []
    rewrites := []
    lastIssued := none
    coalesced := 0
    holdoff := .idle
    deferred := [] }

/-- COLD_RESET (R173): every state holds its initial value, and a present raw carrier is taken as a raw
return at once (R79; log 11). The commands that wait outside the block stay, and the argument of the free
value of R27 runs on (log 42). -/
def execColdReset (raw0 raw1 raw2 raw3 : Bool) (s : State) : Host.Outcome State Fault Refusal :=
  let found := [((0 : PortId), raw0), (1, raw1), (2, raw2), (3, raw3)].filter (·.2)
  .next (found.foldl (fun s e => s.rawReturn e.1) { State.reset with pending := s.pending, resets := s.resets })

/-! ### Register writes (R161, R163, R166, R174) -/

/-- EVENT_WRITE (R161, R174): each 1 in bits 8–0 clears that bit. -/
def execEventWrite (value : W32) (s : State) : Host.Outcome State Fault Refusal :=
  .next (s.setEvents (s.event &&& ~~~(value.setWidth 9)) s.eventMask)

/-- EVENT_MASK_WRITE (R161, R174): bits 8–0 are replaced. -/
def execEventMaskWrite (value : W32) (s : State) : Host.Outcome State Fault Refusal :=
  .next (s.setEvents s.event (value.setWidth 9))

/-- The value of ANCHOR after a write to one half or the whole of it (R174); after four bytes that begin inside it
and are of neither half alone, what it holds is free (log 21). -/
def spliceHalf (old : W64) (span : RegisterSpan) (value : W64) : W64 :=
  match span with
  | .whole => value
  | .low => old.extractLsb' 32 32 ++ value.extractLsb' 0 32
  | .high => value.extractLsb' 0 32 ++ old.extractLsb' 0 32
  | .inside offset => Config.unalignedAnchor offset (value.setWidth 32) old

/-- ANCHOR_WRITE (R166, R174). -/
def execAnchorWrite (span : RegisterSpan) (value : W64) (s : State) :
    Host.Outcome State Fault Refusal :=
  .next
    (if s.adapter = .halted then { s with anchor := spliceHalf s.anchor span value } else s.misuse)

/-- FAULT_ADDRESS_WRITE (R163, R174): data bytes of 0 clear the whole register; any other write is
discarded with MISUSE. -/
def execFaultAddressWrite (value : W64) (s : State) : Host.Outcome State Fault Refusal :=
  .next (if value = 0 then { s with faultAddress := 0 } else s.misuse)

/-- OTHER_REGISTER_WRITE (R174): a write to IDENT or STATUS, to an offset of no register, or of 8 or 16
bits is discarded with MISUSE. -/
def execOtherRegisterWrite (_offset : BitVec 12) (_width : AccessWidth) (s : State) :
    Host.Outcome State Fault Refusal :=
  .next s.misuse

/-- UNMAPPED_REGISTER_READ (R174): it returns 0 and raises MISUSE. -/
def execUnmappedRegisterRead (_offset : BitVec 12) (s : State) : Host.Outcome State Fault Refusal :=
  .next s.misuse

/-! ### Register reads (R174) -/

/-- The four bytes of the window from an offset that is a multiple of 4 (R174; log 31). CONTROL, NOTICE and
the offsets of no register read 0. -/
def State.windowWord (s : State) (offset : Nat) : W32 :=
  if offset = 0x00 then Config.ident.extractLsb' 0 32
  else if offset = 0x04 then Config.ident.extractLsb' 32 32
  else if offset = 0x08 then s.anchor.extractLsb' 0 32
  else if offset = 0x0C then s.anchor.extractLsb' 32 32
  else if offset = 0x14 then s.statusWord
  else if offset = 0x1C then s.event.setWidth 32
  else if offset = 0x20 then s.eventMask.setWidth 32
  else if offset = 0x28 then s.faultAddress.extractLsb' 0 32
  else if offset = 0x2C then s.faultAddress.extractLsb' 32 32
  else 0

/-- The offset belongs to no register (R174), on a plain number; past FFFh there is none. -/
def noRegister (offset : Nat) : Bool :=
  (0x24 ≤ offset && offset < 0x28) || 0x30 ≤ offset

/-- What a 32-bit read of the window returns (R174). R174 does not say what one returns that begins inside a
register at an offset that is no multiple of 4: a free value (log 21). -/
def windowRead (s : State) (offset : Nat) : W32 :=
  if offset % 4 = 0 ∨ noRegister offset then s.windowWord offset
  else Config.unalignedRead offset s.clock

/-- A read of 64 bits (R174): two 32-bit reads, the lower address first, which for a 64-bit register give
the register. -/
def windowRead64 (s : State) (offset : Nat) : W64 :=
  windowRead s (offset + 4) ++ windowRead s offset

/-- One byte of the window, as a 32-bit read would give it (R174). -/
def State.windowByte (s : State) (offset : Nat) : Byte :=
  (s.windowWord (offset / 4 * 4)).extractLsb' (8 * (offset % 4)) 8

/-- The offset behind the register that an offset lies in: IDENT, ANCHOR and FAULT_ADDRESS have 64 bits (11,
section 11.1). -/
def registerEnd (offset : Nat) : Nat :=
  if offset < 0x10 ∨ 0x28 ≤ offset ∧ offset < 0x30 then offset / 8 * 8 + 8 else offset / 4 * 4 + 4

/-- A read of 8 or 16 bits returns the addressed bytes of the register as a 32-bit read would give them (R174);
a byte behind the register in which the read begins reads 0 (log 21). -/
def windowReadBytes (s : State) (offset bytes : Nat) : W32 :=
  let second := if 2 ≤ bytes ∧ offset + 1 < registerEnd offset then s.windowByte (offset + 1) else 0
  (second ++ s.windowByte offset).setWidth 32

end Sys2Proof.Machine
end

