-- ==== Sys2Proof/Machine/Fetch.lean ====
section
/-!
DEFINITION. The Fetch Engine (R5 to R17): current runs and sweeps, the reservation of a context, the record
read with its checks, the stream check with the first load of a stream entry (R31), the payload read and
taking (R14), and refusals (R15).
-/

namespace Sys2Proof.Machine

/-! ### The current run or sweep (R5, R7, R17) -/

/-- The record the Fetch Engine is at. -/
def Job.record : Job → Nat
  | .none => 0
  | .run next _ => next
  | .sweep next _ => next

/-- The job is a current run (R5). -/
def Job.isRun : Job → Bool
  | .none => false
  | .run _ _ => true
  | .sweep _ _ => false

/-- R7: the sweep comes to a record, and the read of its Owner word begins. -/
def State.examine (n : Nat) (s : State) : State :=
  { s with
    job := .sweep n false
    phase := .owner (beginRead s.clock (s.recordAddr n) 4) }

/-- The record at hand has been dealt with (R8, R7): the next one of the run wants a context, unless the
Fetch Engine takes no new work (R17); the sweep examines the next record or ends. -/
def State.advanceJob (s : State) : State :=
  match s.job with
  | .none => { s with phase := .idle }
  | .run next left =>
      if left ≤ 1 then { s with job := .none, phase := .idle }
      else
        { s with
          job := .run ((next + 1) % s.records) (left - 1)
          phase := if s.adapter = .running then .wantContext else .idle }
  | .sweep next stopping =>
      if stopping ∨ s.records ≤ next + 1 then { s with job := .none, phase := .idle }
      else s.examine (next + 1)

/-- RUN_START (R5): the run at the head of the Arm FIFO becomes the current run. -/
def execRunStart (s : State) : Host.Outcome State Fault Refusal :=
  match s.armFifo with
  | [] => .next s
  | r :: rest =>
      .next
        (if s.adapter = .running ∧ s.job = .none then
          { s with armFifo := rest, job := .run r.first r.len, phase := .wantContext }
        else s)

/-- SWEEP_START (R5, R6, R7): Sweep Pending is cleared, and the sweep comes to record 0. -/
def execSweepStart (s : State) : Host.Outcome State Fault Refusal :=
  .next
    (if s.adapter = .running ∧ s.job = .none ∧ s.armFifo = [] ∧ s.sweepPending then
      { s with sweepPending := false }.examine 0
    else s)

/-- R18: the live contexts that hold an exchange number. -/
def State.holders (s : State) (n : Nat) : List CtxId :=
  s.ctxsWhere fun x => x.exch == some n

/-- R7: the end of a read of an Owner word. A stopped sweep fetches no further record (log 13). -/
def State.ownerRead (r : HostRead) (answer : ReadAnswer) (s : State) : State :=
  match answer with
  | .failed requests => (s.readFailed r requests).advanceJob
  | .data bytes =>
      if ownerArmed bytes then
        if (s.holders s.job.record).isEmpty then
          match s.job with
          | .sweep _ false => { s with phase := .wantContext }
          | .sweep _ true => s.advanceJob
          | .run _ _ => s.advanceJob
          | .none => s.advanceJob
        else (s.raise .doubleArm).advanceJob
      else s.advanceJob

/-- The end of a read of an Owner word: of the sweep's own, if it has one in progress, or else of one that a
START has left without a use (log 14). -/
def State.endOwnerRead (answer : ReadAnswer) (s : State) : State :=
  match s.phase with
  | .owner r => s.ownerRead r answer
  | .idle => s.endOrphan .ownerWord answer
  | .wantContext => s.endOrphan .ownerWord answer
  | .record _ _ => s.endOrphan .ownerWord answer
  | .stream _ _ => s.endOrphan .ownerWord answer
  | .payload _ _ => s.endOrphan .ownerWord answer

/-- SWEEP_OWNER_READ_END (R7). -/
def execSweepOwnerReadEnd (answer : ReadAnswer) (s : State) : Host.Outcome State Fault Refusal :=
  .next (if s.tooLate .ownerWord answer then s else s.endOwnerRead answer)

/-! ### Reservation and release of a context (R8, R18) -/

/-- R8: the lowest-numbered free context. -/
def State.firstFree (s : State) : Option CtxId :=
  (List.finRange 512).find? fun c => (s.ctx c).isNone

/-- CONTEXT_RESERVATION (R8): the context enters FETCHING and the record read begins. -/
def execContextReservation (s : State) : Host.Outcome State Fault Refusal :=
  .next
    (if s.adapter = .running ∧ s.phase = .wantContext then
      match s.firstFree with
      | none => s
      | some c =>
          { s.setCtx c (some {}) with
            phase := .record c (beginRead s.clock (s.recordAddr s.job.record) 128) }
    else s)

/-- The context in FETCHING that the fetch works on (R8). -/
def State.fetchCtx (s : State) (c : CtxId) : Option Context :=
  (s.ctx c).filter fun x => x.state == .fetching

/-- R9: the context in FETCHING is freed. -/
def State.freeFetching (c : CtxId) (s : State) : State :=
  match s.fetchCtx c with
  | none => s
  | some _ => s.setCtx c none

/-- R9: the context in FETCHING takes the exchange number of its record. -/
def State.holdExchange (c : CtxId) (n : Nat) (s : State) : State :=
  match s.fetchCtx c with
  | none => s
  | some x => s.setCtx c (some { x with exch := some n })

/-- A fetch that ends without completion frees its context (R9), and the adapter may enter QUIESCED
(R170). -/
def State.dropFetch (c : CtxId) (s : State) : State :=
  (s.freeFetching c).advanceJob.quiesceIfIdle

/-- R15: a fetch ends in a refusal. -/
def State.refuse (c : CtxId) (status : Status) (s : State) : State :=
  (s.complete c { status := status }).advanceJob

/-! ### Stream and level checks (R11, R12) -/

/-- The address of a stream descriptor (02, section 2.1). -/
def State.streamAddr (s : State) (n : StreamId) : W64 :=
  match s.settings with
  | none => 0
  | some c => c.streamBase + BitVec.ofNat 64 (64 * n.val)

/-- A read of a stream descriptor begins, the entry in the load state given (R31, R33). -/
def State.readStream (n : StreamId) (load : LoadState) (s : State) : State :=
  s.modStream n fun e =>
    { e with load := load, read := some (beginRead s.clock (s.streamAddr n) 64) }

/-- R12: the effective level of an exchange. -/
def State.effectiveLevel (s : State) (n declared : Nat) : Nat :=
  match s.settings with
  | none => 3
  | some c => max (originLevel c.slices n) declared

/-- R1, R18: what the fetch fixes in the context once the stream and level checks have passed. -/
def Context.fixFields (x : Context) (f : RecordFields) (level defaultDeadline : Nat) : Context :=
  { x with
    kind := f.kind
    stream := f.stream
    level := level
    deadlineMs := if f.deadlineMs = 0 then defaultDeadline else f.deadlineMs
    reqLen := f.reqLen
    replyAddr := f.replyAddr
    replyCap := f.replyCap }

/-- R11, R12 with the stream entry at hand: NO_STREAM, LEVEL_DENIED, or the payload read begins (R13). -/
def State.checkStream (c : CtxId) (f : RecordFields) (s : State) : State :=
  match s.fetchCtx c with
  | none => s
  | some x =>
      let e := s.stream f.stream
      let d := s.streamDesc f.stream
      let level := s.effectiveLevel (x.exch.getD 0) f.level
      if e.load ≠ .valid ∨ ¬d.present then s.refuse c .noStream
      else if d.level < level then s.refuse c .levelDenied
      else
        { s.modCtx c fun x => x.fixFields f level d.defaultDeadline with
          phase := .payload c (beginRead s.clock f.reqAddr f.reqLen) }

/-- R11: the fetch asks for the stream's descriptor. -/
def State.askStream (c : CtxId) (f : RecordFields) (s : State) : State :=
  match (s.stream f.stream).load with
  | .valid => s.checkStream c f
  | .invalid => s.checkStream c f
  | .notLoaded => { s.readStream f.stream (.loading false) with phase := .stream c f }
  | .loading _ => { s with phase := .stream c f }
  | .reloading => { s with phase := .stream c f }

/-- R31, R33: at the end of a read of a stream entry, a fetch that waits for it goes on. -/
def State.resumeFetch (n : StreamId) (s : State) : State :=
  match s.phase with
  | .stream c f => if f.stream = n then s.checkStream c f else s
  | .idle => s
  | .owner _ => s
  | .wantContext => s
  | .record _ _ => s
  | .payload _ _ => s

/-! ### The record read (R9, R10) -/

/-- R9: an idle arm adds one to the idle arm count; a sweep passes the record over (R7). -/
def State.passOver (c : CtxId) (s : State) : State :=
  let s :=
    if s.job.isRun then { s with idleArms := s.idleArms + 1 }.mark .header false else s
  s.dropFetch c

/-- R9, R10: the end of a record read. -/
def State.recordRead (c : CtxId) (r : HostRead) (answer : ReadAnswer) (s : State) : State :=
  match answer with
  | .failed requests => (s.readFailed r requests).dropFetch c
  | .data bytes =>
      if ownerArmed bytes then
        if (s.holders s.job.record).isEmpty then
          let n := s.job.record
          let s := s.holdExchange c n
          match recordFields bytes with
          | none => s.refuse c .malformed
          | some f => s.askStream c f
        else (s.raise .doubleArm).dropFetch c
      else s.passOver c

/-- The end of a record read, if one is in progress. -/
def State.endRecordRead (answer : ReadAnswer) (s : State) : State :=
  match s.phase with
  | .record c r => s.recordRead c r answer
  | .idle => s
  | .owner _ => s
  | .wantContext => s
  | .stream _ _ => s
  | .payload _ _ => s

/-- RECORD_READ_END (R9). -/
def execRecordReadEnd (answer : ReadAnswer) (s : State) : Host.Outcome State Fault Refusal :=
  .next (if s.tooLate .record answer then s else s.endRecordRead answer)

/-! ### First load of a stream entry (R31) -/

/-- R33: one further read of a stream entry begins if Reload Again is set. -/
def State.readStreamAgain (n : StreamId) (s : State) : State :=
  if (s.stream n).again then
    let load := if (s.stream n).load = .notLoaded then LoadState.loading true else .reloading
    (s.modStream n fun e => { e with again := false }).readStream n load
  else s

/-- What follows the effects of the end of a read of a stream entry: the waiting fetch, the dispatch test
(R41), and a further read (R33; log 15). -/
def State.streamReadEnded (n : StreamId) (s : State) : State :=
  ((s.resumeFetch n).dispatch n).readStreamAgain n

/-- R31: the end of the first read of a stream entry. The mode in force is that of the contents read
(R40). -/
def State.streamLoaded (n : StreamId) (r : HostRead) (answer : ReadAnswer) (s : State) : State :=
  match answer with
  | .failed requests =>
      ((s.readFailed r requests).modStream n fun e =>
        { e with load := .notLoaded, read := none }).streamReadEnded n
  | .data bytes =>
      (s.modStream n fun e =>
        { e with
          load := .valid
          contents := some (Sys2Proof.Machine.streamDesc bytes)
          mode := (Sys2Proof.Machine.streamDesc bytes).mode
          read := none }).streamReadEnded n

/-- The end of a first load of a stream entry, if one is in progress (log 14). -/
def State.endStreamLoad (n : StreamId) (answer : ReadAnswer) (s : State) : State :=
  match (s.stream n).read with
  | none => s
  | some r =>
      if s.adapter.works ∧ (s.stream n).load = .loading false then s.streamLoaded n r answer else s

/-- STREAM_LOAD_READ_END (R31). -/
def execStreamLoadReadEnd (n : StreamId) (answer : ReadAnswer) (s : State) :
    Host.Outcome State Fault Refusal :=
  .next (if s.tooLate (.stream n) answer then s else s.endStreamLoad n answer)

/-! ### The payload read and taking (R13, R14) -/

/-- The first `n` bytes of a read; bytes the answer lacks read 0 (log 30). -/
def padTo (n : Nat) (bytes : List Byte) : List Byte :=
  (List.range n).map fun k => bytes.getD k 0

/-- R14: the exchange is taken. The writes are Issue Number, Taken Time and Owner = TAKEN, in this order
(log 28); then the deadline timer starts and the context joins its stream's pending list. -/
def State.take (c : CtxId) (x : Context) (s : State) : State :=
  let issue := s.issueNumber.getD 0 + 1
  let addr := s.recordAddr (x.exch.getD 0)
  let s := { s with issueNumber := some issue }.mark .header false
  let s :=
    ((s.hostWrite (addr + 0x4C) (leBytes issue.toNat 4)).hostWrite (addr + 0x50)
      (leBytes s.clock.toNat 4)).hostWrite addr (leBytes 2 4)
  let s :=
    s.modCtx c fun x =>
      { x with
        state := .pending
        issue := issue
        taken := s.clock
        deadlineTimer := .startMs s.clock x.deadlineMs }
  let s := s.modStream x.stream fun e => { e with pendingList := e.pendingList ++ [c] }
  s.advanceJob.dispatch x.stream

/-- R13, R14: the end of a payload read. -/
def State.payloadRead (c : CtxId) (r : HostRead) (answer : ReadAnswer) (s : State) : State :=
  match s.fetchCtx c with
  | none => s
  | some x =>
      match answer with
      | .failed requests => (s.readFailed r requests).refuse c .unreadable
      | .data bytes =>
          let s := s.fillSlot c (padTo x.reqLen bytes)
          if x.abortMark then s.refuse c .aborted else s.take c x

/-- The end of a payload read, if one is in progress. -/
def State.endPayloadRead (answer : ReadAnswer) (s : State) : State :=
  match s.phase with
  | .payload c r => s.payloadRead c r answer
  | .idle => s
  | .owner _ => s
  | .wantContext => s
  | .record _ _ => s
  | .stream _ _ => s

/-- PAYLOAD_READ_END (R13). -/
def execPayloadReadEnd (answer : ReadAnswer) (s : State) : Host.Outcome State Fault Refusal :=
  .next (if s.tooLate .payload answer then s else s.endPayloadRead answer)

end Sys2Proof.Machine
end

