-- ==== Sys2Proof/Machine/Reload.lean ====
section
/-!
DEFINITION. Reloads of descriptors at run time (R33 to R39): the three notices, the ends of their reads, the
withdrawal and re-offering of work they cause, and the further read of Reload Again.
-/

namespace Sys2Proof.Machine

/-! ### Addresses and beginnings of reads -/

/-- The address of a target descriptor (02, section 2.1). -/
def State.targetAddr (s : State) (t : TargetId) : W64 :=
  match s.settings with
  | none => 0
  | some c => c.targetBase + BitVec.ofNat 64 (16 * t.val)

/-- The address of a path descriptor (02, section 2.1). -/
def State.pathAddr (s : State) (p : PathId) : W64 :=
  match s.settings with
  | none => 0
  | some c => c.pathBase + BitVec.ofNat 64 (64 * p.val)

/-- A reload read of a target descriptor begins (R33). -/
def State.reloadTargetEntry (t : TargetId) (s : State) : State :=
  s.modTarget t fun e =>
    { e with
      load := .reloading
      again := false
      read := some (beginRead s.clock (s.targetAddr t) 16) }

/-- A reload read of a path descriptor begins (R33). -/
def State.reloadPathCopy (p : PathId) (s : State) : State :=
  s.modPath p fun r =>
    { r with
      load := .reloading
      again := false
      read := some (beginRead s.clock (s.pathAddr p) 64) }

/-! ### The notices (R33) -/

/-- RELOAD_STREAM (R33, R175). -/
def execReloadStream (entry : Byte) (s : State) : Host.Outcome State Fault Refusal :=
  let n : StreamId := entry.toFin
  .next
    (if s.adapter.works then
      match (s.stream n).load with
      | .notLoaded => s.readStream n (.loading true)
      | .valid => s.readStream n .reloading
      | .invalid => s.readStream n .reloading
      | .loading _ => s.modStream n fun e => { e with again := true }
      | .reloading => s.modStream n fun e => { e with again := true }
    else s.misuse)

/-- RELOAD_TARGET (R33, R175). A target entry is never NOT_LOADED while the adapter works (02, section
2.2); such an entry would be read as well. -/
def execReloadTarget (entry : Byte) (s : State) : Host.Outcome State Fault Refusal :=
  .next
    (if h : entry.toNat < 64 then
      let t : TargetId := ⟨entry.toNat, h⟩
      if s.adapter.works then
        match (s.target t).load with
        | .notLoaded => s.reloadTargetEntry t
        | .valid => s.reloadTargetEntry t
        | .invalid => s.reloadTargetEntry t
        | .loading _ => s.modTarget t fun e => { e with again := true }
        | .reloading => s.modTarget t fun e => { e with again := true }
      else s.misuse
    else s.misuse)

/-- RELOAD_PATH (R33, R175). -/
def execReloadPath (entry : Byte) (s : State) : Host.Outcome State Fault Refusal :=
  .next
    (if h : entry.toNat < 128 then
      let p : PathId := ⟨entry.toNat, h⟩
      if s.adapter.works then
        match (s.path p).load with
        | .notLoaded => s.reloadPathCopy p
        | .valid => s.reloadPathCopy p
        | .invalid => s.reloadPathCopy p
        | .loading _ => s.modPath p fun r => { r with again := true }
        | .reloading => s.modPath p fun r => { r with again := true }
      else s.misuse
    else s.misuse)

/-! ### Work not yet transmitted (R36 to R38) -/

/-- Every frame of the four ports that satisfies a test is withdrawn (R37, R38, R58). The rules give no order
among the ports: the model takes P0 to P3, and the lanes of each in turn (log 4). -/
def State.withdrawEverywhere (test : LaneEntry → Bool) (s : State) : State :=
  (List.finRange 4).foldl (fun s i => s.withdrawWhere i test) s

/-- The context that a REQUEST or INQUIRY frame serves. -/
def LaneEntry.ctxOf : LaneEntry → Option CtxId
  | .request c _ _ _ => some c
  | .inquiry c _ _ => some c
  | .probe _ _ => none
  | .echo _ _ _ => none

/-- R37: the frame is a REQUEST or INQUIRY of the stream on a path no longer permitted or no longer in
its target's Path List. -/
def State.misplaced (s : State) (n : StreamId) (e : LaneEntry) : Bool :=
  match e.ctxOf with
  | none => false
  | some c =>
      match s.ctx c with
      | none => false
      | some x =>
          let d := s.streamDesc n
          x.stream == n && x.state != .fetching &&
            !(d.permits.getLsbD e.pathOf.val && (s.targetDesc d.target).pathList.contains e.pathOf)

/-- R36: a stream made not present: its contexts in PENDING, in pending-list order, and then those in
PARKED complete WITHDRAWN; those in PARKED by increasing context number, which is the model's choice
(log 41). -/
def State.withdrawStream (n : StreamId) (s : State) : State :=
  let parked := s.ctxsWhere fun x => x.stream == n && x.state == .parked
  ((s.stream n).pendingList ++ parked).foldl (fun s c => s.complete c { status := .withdrawn }) s

/-- R37: a PARKED context of the stream is offered to route selection again; it leaves its park list and,
if it parks again, joins that of the target in force (R59). -/
def State.offerAgain (s : State) (c : CtxId) : State :=
  match s.ctx c with
  | none => s
  | some x => if x.state = .parked then (s.leavePark c).offerParked c else s

/-- R35, R42: the entry takes new contents. The mode in force becomes UNORDERED at the read end; a change
to ORDERED waits for the next dispatch decision. An entry that held no contents takes their mode (R40). -/
def StreamEntry.renew (e : StreamEntry) (d : StreamDesc) : StreamEntry :=
  { e with
    load := .valid
    contents := some d
    read := none
    mode := if e.contents.isNone ∨ d.mode = .unordered then d.mode else e.mode }

/-- The stream returns to OPEN (R35, R43). -/
def State.openStream (n : StreamId) (s : State) : State :=
  s.modStream n fun e => { e with state := .open }

/-- R37: what new contents do to the stream's work not yet transmitted (log 19). -/
def State.reroute (n : StreamId) (s : State) : State :=
  let parked := s.ctxsWhere fun x => x.stream == n && x.state == .parked
  let s := (s.withdrawEverywhere (s.misplaced n)).settle
  parked.foldl State.offerAgain s

/-- R34 to R37: the effects of the end of a RELOAD_STREAM read. A STALLED stream returns to OPEN after the
re-routing of R37, a choice of the model within R35's "after R36 has been applied" (log 40). -/
def State.streamReloaded (n : StreamId) (r : HostRead) (answer : ReadAnswer) (s : State) : State :=
  match answer with
  | .failed requests =>
      (((s.readFailed r requests).modStream n fun e =>
        { e with load := .invalid, read := none }).openStream n).streamReadEnded n
  | .data bytes =>
      let d := Sys2Proof.Machine.streamDesc bytes
      let s := s.modStream n (·.renew d)
      let s := if d.present then s else s.withdrawStream n
      ((s.reroute n).openStream n).streamReadEnded n

/-- The end of a reload read of a stream entry: of its own, if one is in progress, or else of one that a
START has left without a use (log 14). -/
def State.endStreamReload (n : StreamId) (answer : ReadAnswer) (s : State) : State :=
  match (s.stream n).read with
  | none => s.endOrphan (.stream n) answer
  | some r =>
      if s.adapter.works ∧ (s.stream n).load ≠ .loading false then s.streamReloaded n r answer else s

/-- RELOAD_STREAM_READ_END (R35). -/
def execReloadStreamReadEnd (n : StreamId) (answer : ReadAnswer) (s : State) :
    Host.Outcome State Fault Refusal :=
  .next (if s.tooLate (.stream n) answer then s else s.endStreamReload n answer)

/-! ### Targets (R34, R38) -/

/-- R38: the frame is a REQUEST or INQUIRY of an exchange of a stream whose Target is `t`, on a path no
longer in the list. -/
def State.offList (s : State) (t : TargetId) (e : LaneEntry) : Bool :=
  match e.ctxOf with
  | none => false
  | some c =>
      match s.ctx c with
      | none => false
      | some x =>
          x.state != .fetching && (s.streamDesc x.stream).target == t &&
            !(s.targetDesc t).pathList.contains e.pathOf

/-- R33: a further read of a target entry, if Reload Again is set. -/
def State.readTargetAgain (t : TargetId) (s : State) : State :=
  if (s.target t).again then s.reloadTargetEntry t else s

/-- R34, R38: the end of a RELOAD_TARGET read (log 20). -/
def State.targetReloaded (t : TargetId) (r : HostRead) (answer : ReadAnswer) (s : State) : State :=
  match answer with
  | .failed requests =>
      let s := (s.readFailed r requests).modTarget t fun e =>
        { e with
          load := .invalid
          contents := e.contents.map fun d => { d with pathList := [] }
          read := none }
      (s.recomputeReach t).readTargetAgain t
  | .data bytes =>
      let s := s.modTarget t fun e =>
        { e with
          load := .valid
          contents := some (Sys2Proof.Machine.targetDesc bytes)
          read := none }
      let s := (s.withdrawEverywhere (s.offList t)).settle
      ((s.recomputeReach t).releaseTarget t).readTargetAgain t

/-- The end of a reload read of a target entry: of its own, if one is in progress, or else of one that a
START has left without a use (log 14). -/
def State.endTargetReload (t : TargetId) (answer : ReadAnswer) (s : State) : State :=
  match (s.target t).read with
  | none => s.endOrphan (.target t) answer
  | some r => if s.adapter.works then s.targetReloaded t r answer else s

/-- RELOAD_TARGET_READ_END (R38, R34). -/
def execReloadTargetReadEnd (t : TargetId) (answer : ReadAnswer) (s : State) :
    Host.Outcome State Fault Refusal :=
  .next (if s.tooLate (.target t) answer then s else s.endTargetReload t answer)

/-! ### Paths (R34, R39) -/

/-- R39: whether new contents are a path loss: Port or Remote Address changed, or the copy was INVALID. -/
def isPathLoss (old : Option PathDesc) (new : PathDesc) : Bool :=
  match old with
  | none => true
  | some d => d.port != new.port || d.remote != new.remote

/-- R33: a further read of a path copy, if Reload Again is set. -/
def State.readPathAgain (p : PathId) (s : State) : State :=
  if (s.path p).again then s.reloadPathCopy p else s

/-- R34, R39: the end of a RELOAD_PATH read. -/
def State.pathReloaded (p : PathId) (r : HostRead) (answer : ReadAnswer) (s : State) : State :=
  match answer with
  | .failed requests =>
      let s := (s.readFailed r requests).modPath p fun r => { r with load := .invalid, read := none }
      ((s.pathLoss p none).settle).readPathAgain p
  | .data bytes =>
      let d := Sys2Proof.Machine.pathDesc bytes
      let lost := isPathLoss (s.path p).contents d
      let s := s.modPath p fun r => { r with load := .valid, read := none }
      let s :=
        if lost then (s.pathLoss p (some d)).settle
        else s.setCopy p (some d)
      s.readPathAgain p

/-- The end of a reload read of a path copy: of its own, if one is in progress, or else of one that a
START has left without a use (log 14). -/
def State.endPathReload (p : PathId) (answer : ReadAnswer) (s : State) : State :=
  match (s.path p).read with
  | none => s.endOrphan (.path p) answer
  | some r => if s.adapter.works then s.pathReloaded p r answer else s

/-- RELOAD_PATH_READ_END (R39, R34). -/
def execReloadPathReadEnd (p : PathId) (answer : ReadAnswer) (s : State) :
    Host.Outcome State Fault Refusal :=
  .next (if s.tooLate (.path p) answer then s else s.endPathReload p answer)

end Sys2Proof.Machine
end

