-- ==== Sys2Proof/Machine/Notices.lean ====
section
/-!
DEFINITION. The notices of the Notice Unit that are not reloads (R175): ARM and SWEEP (R4, R6), ABORT
(R24), FENCE, UNFENCE, DRILL and DRILL_END (R114 to R116), SNAPSHOT (R160), and unknown kinds.
-/

namespace Sys2Proof.Machine

/-! ### ARM and SWEEP (R4, R6) -/

/-- R4: an ARM run finds the Arm FIFO full: Sweep Pending is set, and ARM_OVERFLOW raised unless it is
already set. -/
def State.armOverflow (s : State) : State :=
  { s with sweepPending := true }.raise .armOverflow

/-- R4: a run is offered to the Arm FIFO. -/
def State.offerRun (r : Run) (s : State) : State :=
  if s.armFifo.length < Config.fifoPlaces then { s with armFifo := s.armFifo ++ [r] }
  else s.armOverflow

/-- R4, R175: the operands of an ARM notice are in range. -/
def State.armInRange (s : State) (first : BitVec 12) (len : BitVec 7) : Bool :=
  decide (first.toNat < s.records) && decide (1 ≤ len.toNat) && decide (len.toNat ≤ 64)

/-- ARM (R4). -/
def execArm (first : BitVec 12) (len : BitVec 7) (s : State) : Host.Outcome State Fault Refusal :=
  .next
    (if s.armInRange first len then
      match s.adapter with
      | .running => s.offerRun { first := first.toNat, len := len.toNat }
      | .quiescing => s
      | .quiesced => s
      | .halted => s.misuse
      | .loading => s.misuse
      | .faulted => s.misuse
    else s.misuse)

/-- SWEEP (R6). -/
def execSweep (s : State) : Host.Outcome State Fault Refusal :=
  .next
    (match s.adapter with
    | .running => { s with sweepPending := true }
    | .quiescing => s
    | .quiesced => s
    | .halted => s.misuse
    | .loading => s.misuse
    | .faulted => s.misuse)

/-! ### ABORT (R24) -/

/-- The abort mark is set (R24). -/
def State.markAbort (c : CtxId) (s : State) : State :=
  s.modCtx c fun x => { x with abortMark := true }

/-- R24: an exchange is aborted, by the state of its context. -/
def State.abortCtx (c : CtxId) (s : State) : State :=
  match s.ctx c with
  | none => s
  | some x =>
      match x.state with
      | .closing => s
      | .fetching => s.markAbort c
      | .pending => s.complete c { status := .aborted }
      | .parked => s.complete c { status := .aborted }
      | .waiting => s.complete c { status := .aborted }
      | .active =>
          if x.kind = .commit ∧ x.attempts.any (·.isSent) then s.markAbort c
          else s.complete c { status := .aborted }
      | .resolving => s.markAbort c

/-- ABORT (R24, R175). -/
def execAbort (exch : BitVec 12) (s : State) : Host.Outcome State Fault Refusal :=
  .next
    (if s.adapter.works ∧ exch.toNat < s.records then
      match s.holders exch.toNat with
      | [] => s
      | c :: _ => s.abortCtx c
    else s.misuse)

/-! ### Fencing and drills (R114 to R116) -/

/-- R114: a FENCE on a path that carries work or probes: FENCED without SENT work, else DRAINING. -/
def State.fenceInService (p : PathId) (s : State) : State :=
  if (s.path p).inflight = 0 then s.enterFencedFrom p false else s.enterDraining p .idle

/-- R114: a FENCE notice sets the Fence flag and acts by the path's state. -/
def State.fencePath (p : PathId) (s : State) : State :=
  let r := s.path p
  let s := s.modPath p fun r => { r with fence := true }
  match r.health with
  | .fenced => s
  | .draining =>
      if r.fence then s
      else
        let s := s.modPath p fun r => { r with drain := .idle }
        if r.inflight = 0 then s.enterFencedFrom p false else s
  | .down => s.enterFencedFrom p false
  | .up => s.fenceInService p
  | .suspect => s.fenceInService p
  | .untried => s.fenceInService p
  | .recovering => s.fenceInService p

/-- FENCE (R114, R175). -/
def execFence (entry : Byte) (s : State) : Host.Outcome State Fault Refusal :=
  .next
    (if h : entry.toNat < 128 then
      if s.adapter.works then (s.fencePath ⟨entry.toNat, h⟩).settle else s.misuse
    else s.misuse)

/-- R116: an UNFENCE notice clears the Fence flag and acts by the path's state. -/
def State.unfencePath (p : PathId) (s : State) : State :=
  let r := s.path p
  if r.fence then
    let s := s.modPath p fun r => { r with fence := false }
    match r.health with
    | .fenced => if r.drill then s else s.becomeUntried p
    | .draining => s.becomeUntried p
    | .down => s
    | .up => s
    | .suspect => s
    | .untried => s
    | .recovering => s
  else s

/-- UNFENCE (R116, R175). -/
def execUnfence (entry : Byte) (s : State) : Host.Outcome State Fault Refusal :=
  .next
    (if h : entry.toNat < 128 then
      if s.adapter.works then s.unfencePath ⟨entry.toNat, h⟩ else s.misuse
    else s.misuse)

/-- R115: a DRILL notice sets the Drill flag and puts the path in FENCED at once. -/
def State.drillPath (p : PathId) (s : State) : State :=
  let before := (s.path p).health
  let s := s.modPath p fun r => { r with drill := true }
  if before = .fenced then s else s.enterFencedFrom p true

/-- DRILL (R115, R175). -/
def execDrill (entry : Byte) (s : State) : Host.Outcome State Fault Refusal :=
  .next
    (if h : entry.toNat < 128 then
      if s.adapter.works then (s.drillPath ⟨entry.toNat, h⟩).settle else s.misuse
    else s.misuse)

/-- R116: a DRILL_END notice clears the Drill flag and acts by the path's state. -/
def State.endDrill (p : PathId) (s : State) : State :=
  let r := s.path p
  if r.drill then
    let s := s.modPath p fun r => { r with drill := false }
    if r.health = .fenced ∧ ¬r.fence then s.becomeUntried p else s
  else s

/-- DRILL_END (R116, R175). -/
def execDrillEnd (entry : Byte) (s : State) : Host.Outcome State Fault Refusal :=
  .next
    (if h : entry.toNat < 128 then
      if s.adapter.works then s.endDrill ⟨entry.toNat, h⟩ else s.misuse
    else s.misuse)

/-! ### SNAPSHOT and unknown kinds (R160, R175) -/

/-- R160: the order in which a SNAPSHOT adds the parts of the Digest. -/
def snapshotOrder : List Part :=
  .header :: ((List.finRange 4).map .port ++ (List.finRange 64).map .target ++
    (List.finRange 128).map .path ++ (List.finRange 64).map .group)

/-- SNAPSHOT (R160). -/
def execSnapshot (s : State) : Host.Outcome State Fault Refusal :=
  .next
    (if s.adapter.works then
      { s with rewrites := snapshotOrder.foldl (fun l part => markRewrite part false l) s.rewrites }
    else s.misuse)

/-- NOTICE_UNKNOWN_KIND (R175). -/
def execNoticeUnknownKind (_code : Byte) (s : State) : Host.Outcome State Fault Refusal :=
  .next s.misuse

end Sys2Proof.Machine
end

