-- ==== Sys2Proof/Machine/Arrival.lean ====
section
/-!
DEFINITION. FRAME_ARRIVAL: the receiver of a port (R68), path lookup (R85), well-formedness (R84), replies
(R86 to R89), verdicts (R90, R138 to R140), probes and echoes (R91, R92), and advisories (R93, R113).
-/

namespace Sys2Proof.Machine

/-! ### Codes of the link header (11, section 11.4) -/

/-- The outcome codes a REPLY may carry (R84). -/
def replyOutcome (code : Byte) : Option RemoteOutcome :=
  if code = 1 then some .ok
  else if code = 2 then some .busy
  else if code = 3 then some .fault
  else if code = 4 then some .barred
  else none

/-- The codes a VERDICT may carry (R84). -/
def verdictCode (code : Byte) : Option RemoteOutcome :=
  if code = 4 then some .barred
  else if code = 5 then some .applied
  else if code = 6 then some .pending
  else none

/-- The code of an advisory (R84, R93). -/
inductive Advisory where
  | drain | resume
deriving DecidableEq, Repr

/-- The codes an ADVISORY may carry (R84). -/
def advisoryCode (code : Byte) : Option Advisory :=
  if code = 1 then some .drain else if code = 2 then some .resume else none

/-- What a well-formed frame is (R80). -/
inductive Arrival where
  | unserved
  | reply (outcome : RemoteOutcome)
  | verdict (code : RemoteOutcome)
  | probe
  | echo
  | advisory (code : Advisory)
deriving DecidableEq, Repr

/-- R80, R84: the frame kinds, with the test of their code fields. -/
def arrivalKind (h : LinkHeader) : Option Arrival :=
  if h.kind = 1 then some .unserved
  else if h.kind = 2 then (replyOutcome h.code).map .reply
  else if h.kind = 3 then some .probe
  else if h.kind = 4 then some .echo
  else if h.kind = 5 then some .unserved
  else if h.kind = 6 then (verdictCode h.code).map .verdict
  else if h.kind = 7 then (advisoryCode h.advisory).map .advisory
  else none

/-- R84: a frame that is not malformed, by its bytes after the type field. -/
def wellFormedArrival (body : List Byte) : Option Arrival :=
  let h := parseHeader body
  if body.length < 32 ∨ headerSum body ≠ 0 ∨ 4096 < h.payloadLen.toNat ∨
      body.length < 32 + h.payloadLen.toNat then none
  else arrivalKind h

/-- The payload of a frame: Payload Length bytes after the header; what follows is ignored (R84). -/
def arrivalPayload (body : List Byte) : List Byte :=
  (body.drop 32).take (parseHeader body).payloadLen.toNat

/-! ### Matching (R86, R87, R90) -/

/-- The Adapter Id in force. -/
def State.adapterId (s : State) : W16 :=
  match s.settings with
  | none => 0
  | some c => c.adapterId

/-- R86: the context a REPLY or VERDICT names, unless the frame is stale. -/
def State.matchCtx (s : State) (h : LinkHeader) : Option CtxId :=
  if hc : h.handleCtx.toNat < 512 then
    let c : CtxId := ⟨h.handleCtx.toNat, hc⟩
    match s.ctx c with
    | none => none
    | some x =>
        if h.adapterId = s.adapterId ∧ x.state ≠ .fetching ∧ x.state ≠ .closing ∧
            h.issue = x.issue ∧ x.genInForce ≤ h.gen.toNat then some c
        else none
  else none

/-- R177: a handle number of 0, or of 9 to 15, names no attempt and no inquiry. -/
def LinkHeader.namesWork (h : LinkHeader) : Bool :=
  decide (1 ≤ h.handleNum.toNat) && decide (h.handleNum.toNat ≤ 8)

/-- R87, R177: the attempt a REPLY names. -/
def Context.named (x : Context) (h : LinkHeader) : Option Attempt :=
  x.attempts.find? fun a =>
    h.namesWork && a.number == some h.handleNum.toNat && a.gen == h.gen.toNat

/-- R87: the attempt states in which a reply is accepted. -/
def Attempt.answerable (a : Attempt) : Bool :=
  match a.state with
  | .sent => true
  | .timedOut => true
  | .lost => true
  | .queued => false
  | .answered => false
  | .busy => false
  | .cancelled => false

/-- R90, R177: a VERDICT answers the latest inquiry of a RESOLVING context. -/
def Context.answersInquiry (x : Context) (h : LinkHeader) : Bool :=
  match x.inquiry with
  | none => false
  | some q => x.state == .resolving && h.namesWork && h.handleNum.toNat == q.count && h.gen.toNat == q.gen

/-- A stale frame raises the stale counter of its arrival path (R86, R95). -/
def State.stale (p : PathId) (s : State) : State :=
  s.count p fun k => { k with stale := k.stale + 1 }

/-- An accepted REPLY or VERDICT raises the replies counter of its arrival path (R88, R95). -/
def State.countReply (p : PathId) (s : State) : State :=
  s.count p fun k => { k with replies := k.replies + 1 }

/-! ### Replies (R87 to R89) -/

/-- R48: an accepted REPLY yields a sample when it answers attempt 1 on that attempt's own path, with an
outcome other than BARRED. -/
def sampleQualifies (a : Attempt) (p : PathId) (outcome : RemoteOutcome) : Bool :=
  a.number == some 1 && a.path == p && outcome != .barred

/-- R88, step 2: the sample of a reply. -/
def State.replySample (a : Attempt) (p : PathId) (outcome : RemoteOutcome) (s : State) : State :=
  match a.sendTime with
  | none => s
  | some t => if sampleQualifies a p outcome then (s.sample p t).settle else s

/-- R87: the attempt state after an accepted reply. -/
def stateAfterReply (before : AttemptState) (outcome : RemoteOutcome) : AttemptState :=
  if outcome = .busy then (if before = .sent then .busy else before) else .answered

/-- R124, R132, R141: the course after an accepted reply; a late BUSY decides nothing (R87). -/
def State.courseReply (c : CtxId) (x : Context) (a : Attempt) (outcome : RemoteOutcome)
    (answer : Answer) (s : State) : State :=
  let isLate := a.state != .sent
  if outcome = .busy ∧ isLate then s
  else
    match x.kind with
    | .query => s.courseQueryReply c outcome isLate answer
    | .commit =>
        s.courseCommitReply c outcome (isLate || x.state == .resolving) x.abortMark answer

/-- R88, step 4: the Context Store takes the reply, by the state it then finds the attempt in (log 17). -/
def State.contextReply (c : CtxId) (id : Nat) (p : PathId) (outcome : RemoteOutcome)
    (payload : List Byte) (s : State) : State :=
  match s.ctx c with
  | none => s
  | some x =>
      match x.attempt id with
      | none => s
      | some a =>
          if x.state = .closing ∨ ¬a.answerable then s
          else
            let x' :=
              { (x.moveAttempt id a.state fun b => { b with state := stateAfterReply b.state outcome }) with
                lastOutcome := outcome }
            let s :=
              if a.isSent then (s.modCtx c fun _ => x'.cancelReply id).lowerInflight a.path
              else s.modCtx c fun _ => x'
            s.courseReply c x a outcome
              { path := some a.path, crossed := a.path != p, payload := some payload }

/-- R88: an accepted REPLY is handed on. -/
def State.acceptReply (c : CtxId) (a : Attempt) (p : PathId) (outcome : RemoteOutcome)
    (payload : List Byte) (s : State) : State :=
  let s := (s.countReply p).replySample a p outcome
  ((s.goodReply p).settle).contextReply c a.id p outcome payload

/-- R86, R87: a REPLY arrives on a path. -/
def State.takeReply (p : PathId) (h : LinkHeader) (outcome : RemoteOutcome) (payload : List Byte)
    (s : State) : State :=
  match s.matchCtx h with
  | none => s.stale p
  | some c =>
      match (s.ctx c).bind (·.named h) with
      | none => s.stale p
      | some a => if a.answerable then s.acceptReply c a p outcome payload else s.stale p

/-! ### Verdicts (R90, R138 to R140) -/

/-- R138: the path of the inquiry a verdict answers. -/
def Inquiry.answeredPath (q : Inquiry) : Option PathId :=
  if q.state = some .sent then q.path else q.lastSent

/-- R138: an APPLIED verdict completes the exchange. -/
def State.verdictApplied (c : CtxId) (x : Context) (q : Inquiry) (payload : List Byte)
    (s : State) : State :=
  s.complete c
    { status := .ok
      answer := some { path := q.answeredPath, crossed := false, payload := some payload }
      resolved := true
      abortTooLate := x.abortMark }

/-- R139: a PENDING verdict ends the open inquiry and starts the wait timer afresh. -/
def State.verdictPending (c : CtxId) (x : Context) (s : State) : State :=
  let wait := (s.streamDesc x.stream).pendingInterval
  (s.endInquiry c).modCtx c fun x =>
    { x with
      inquiry := x.inquiry.map fun q => { q with state := some .waiting }
      waitTimer := .startMs s.clock wait }

/-- R90, R138 to R140: the Resolution Unit takes a verdict (log 17). -/
def State.resolveVerdict (c : CtxId) (h : LinkHeader) (code : RemoteOutcome) (payload : List Byte)
    (s : State) : State :=
  match s.ctx c with
  | none => s
  | some x =>
      match x.inquiry with
      | none => s
      | some q =>
          if x.answersInquiry h then
            let s := s.modCtx c fun x => { x with lastOutcome := code }
            match code with
            | .applied => s.verdictApplied c x q payload
            | .pending => s.verdictPending c x
            | .barred =>
                s.takeBar c { path := q.answeredPath, crossed := false, payload := none }
            | .none => s
            | .ok => s
            | .busy => s
            | .fault => s
          else s

/-- R86, R90: a VERDICT arrives on a path. -/
def State.takeVerdict (p : PathId) (h : LinkHeader) (code : RemoteOutcome) (payload : List Byte)
    (s : State) : State :=
  match s.matchCtx h with
  | none => s.stale p
  | some c =>
      if (s.ctx c).any (·.answersInquiry h) then
        (((s.countReply p).goodReply p).settle).resolveVerdict c h code payload
      else s.stale p

/-! ### Echoes and advisories (R91, R113) -/

/-- R91, R109: the Outstanding probe ends at its echo. -/
def State.clearOutstanding (p : PathId) (s : State) : State :=
  s.modPath p fun r => { r with outstanding := none, markA := .idle }

/-- R91: an ECHO arrives on a path. With a match: sample, good probe, and the Outstanding probe is
cleared. -/
def State.takeEcho (p : PathId) (seq : W16) (s : State) : State :=
  match (s.path p).outstanding with
  | none => s
  | some o =>
      if o.seq = seq then
        let s := (s.sample p o.sendTime).settle
        let s := (s.goodProbe p).settle
        s.clearOutstanding p
      else s

/-- R113: a DRAIN advisory. -/
def State.drainPath (p : PathId) (s : State) : State :=
  let r := s.path p
  let limit := Timer.startMs s.clock (s.pathDesc p).drainLimit
  match r.health with
  | .up => s.enterDraining p limit
  | .suspect => s.enterDraining p limit
  | .untried => s.enterDraining p limit
  | .recovering => s.enterDraining p limit
  | .draining => if r.fence then s else s.modPath p fun r => { r with drain := limit }
  | .down => s
  | .fenced => s

/-- R113: a RESUME advisory. -/
def State.resumePath (p : PathId) (s : State) : State :=
  let r := s.path p
  if r.health = .draining ∧ ¬r.fence then s.becomeUntried p else s

/-- R113: an ADVISORY arrives on a path. -/
def State.takeAdvisory (p : PathId) (code : Advisory) (s : State) : State :=
  match code with
  | .drain => (s.drainPath p).settle
  | .resume => s.resumePath p

/-! ### The arrival (R68, R85) -/

/-- R85: a frame from a known path: well-formedness, then its kind. -/
def State.takeFrame (i : PortId) (p : PathId) (body : List Byte) (s : State) : State :=
  let h := parseHeader body
  match wellFormedArrival body with
  | none => (s.malformedArrival p).settle
  | some .unserved => s.stale p
  | some (.reply outcome) => s.takeReply p h outcome (arrivalPayload body)
  | some (.verdict code) => s.takeVerdict p h code (arrivalPayload body)
  | some .probe => s.placeEcho i p h.probeSeq h.sendTime
  | some .echo => s.takeEcho p h.probeSeq
  | some (.advisory code) => s.takeAdvisory p code

/-- R85: the Frame Receiver looks up the path of a frame. -/
def State.lookUp (i : PortId) (src : Mac) (body : List Byte) (s : State) : State :=
  match s.sourcePath i src with
  | none => s.modPort i fun r => { r with unknownSource := r.unknownSource + 1 }
  | some p => s.takeFrame i p body

/-- R68: a port's receiver takes a frame. -/
def State.receive (i : PortId) (f : EthFrame) (c : Settings) (s : State) : State :=
  if (s.port i).state = .down ∨ ¬f.checkOk ∨ f.dest ≠ c.portAddr.get i then s
  else if f.etype ≠ c.frameType then
    s.modPort i fun r => { r with foreignType := r.foreignType + 1 }
  else
    (s.modPort i fun r => { r with framesReceived := r.framesReceived + 1 }).lookUp i f.src f.body

/-- FRAME_ARRIVAL (R68): in HALTED, LOADING and FAULTED the frame is discarded. -/
def execFrameArrival (i : PortId) (f : EthFrame) (s : State) : Host.Outcome State Fault Refusal :=
  match s.settings with
  | none => .next s
  | some c => .next (if s.adapter.works then s.receive i f c else s)

end Sys2Proof.Machine
end

