-- ==== Sys2Proof/Machine/Timers.lean ====
section
/-!
DEFINITION. The expiries of the Timer Array (R148), each taken by its owner: reply (R125), inquiry (R136),
deadline (R23), wait (R130, R139), probe marks (R108, R109), hold-down (R107), stability (R106), drain
limit (R113) and holdoff (R162). An expiry is taken while its timer stands EXPIRED (log 2).
-/

namespace Sys2Proof.Machine

/-! ### Reply timers (R125) -/

/-- The reply timer of a context, by its number. -/
def Context.replyTimer (x : Context) (k : Fin 2) : Timer :=
  if k = 0 then x.reply0 else x.reply1

/-- The attempt a reply timer serves. -/
def Context.serves (x : Context) (k : Fin 2) : Option Nat :=
  if k = 0 then x.serves0 else x.serves1

/-- R124, R125: an attempt ends TIMED_OUT: its timer is IDLE, the backoff rises (R52), its path joins the
failed paths. -/
def Context.timeOut (x : Context) (a : Attempt) : Context :=
  let x := ((x.moveAttempt a.id .sent fun b => { b with state := .timedOut }).cancelReply a.id).fail a.path
  { x with timeouts := x.timeouts + 1 }

/-- R125: a reply timer expiry: TIMED_OUT, one reply timeout judged whole, then the course (R129, R132). -/
def State.attemptTimeout (c : CtxId) (a : Attempt) (s : State) : State :=
  let s := (s.modCtx c fun x => x.timeOut a).lowerInflight a.path
  ((s.replyTimeout a.path).settle).courseLost c a.id

/-- The SENT attempt whose reply timer has expired (R125). -/
def Context.expiredAttempt (x : Context) (k : Fin 2) : Option Attempt :=
  if (x.replyTimer k).isExpired then ((x.serves k).bind x.attempt).filter (·.isSent) else none

/-- REPLY_TIMER_EXPIRY (R125). -/
def execReplyTimerExpiry (c : CtxId) (k : Fin 2) (s : State) : Host.Outcome State Fault Refusal :=
  match s.ctx c with
  | none => .next s
  | some x =>
      match x.expiredAttempt k with
      | none => .next s
      | some a => .next (s.attemptTimeout c a)

/-! ### Inquiry timers (R136) -/

/-- R136, steps 1 to 3: the inquiry leaves SENT, its timeout count rises, its path joins the failed
paths. -/
def Context.inquiryTimeout (x : Context) (q : Inquiry) : Context :=
  let x :=
    match q.path with
    | none => x
    | some p => x.fail p
  { x with
    inquiry := some { q with timeouts := q.timeouts + 1, path := none, state := none }
    inquiryTimer := .idle }

/-- R136: the expiry of the inquiry timer. -/
def State.inquiryExpired (c : CtxId) (q : Inquiry) (s : State) : State :=
  let s := s.modCtx c fun x => x.inquiryTimeout q
  (q.path.toList.foldl (fun s p => s.lowerInflight p) s).requestInquiry c

/-- INQUIRY_TIMER_EXPIRY (R136). -/
def execInquiryTimerExpiry (c : CtxId) (s : State) : Host.Outcome State Fault Refusal :=
  match s.ctx c with
  | none => .next s
  | some x =>
      match x.inquiry with
      | none => .next s
      | some q =>
          .next
            (if x.inquiryTimer.isExpired ∧ q.state = some .sent then s.inquiryExpired c q else s)

/-! ### Deadlines (R23) -/

/-- R23: the status of an exchange at its deadline. A context in FETCHING or CLOSING has no deadline. -/
def Context.deadlineStatus (x : Context) : Option Status :=
  match x.state with
  | .fetching => none
  | .closing => none
  | .pending => some .deadline
  | .parked => some (if x.transmitted = 0 then .noPath else .deadline)
  | .active =>
      some (if x.kind = .commit ∧ x.attempts.any (·.isSent) then .inDoubt else .deadline)
  | .waiting => some .deadline
  | .resolving => some .inDoubt

/-- DEADLINE_EXPIRY (R23). -/
def execDeadlineExpiry (c : CtxId) (s : State) : Host.Outcome State Fault Refusal :=
  match s.ctx c with
  | none => .next s
  | some x =>
      match x.deadlineStatus with
      | none => .next s
      | some status =>
          .next (if x.deadlineTimer.isExpired then s.complete c { status := status } else s)

/-! ### Wait timers (R130, R139) -/

/-- R130: the end of a wait after BUSY: a re-drive of the same generation, or REMOTE_BUSY without room. -/
def State.endWait (c : CtxId) (x : Context) (s : State) : State :=
  (s.modCtx c fun x => { x with waitTimer := .idle }).requestAttempt c
    { gen := x.genInForce, redrive := true, pair := false } { status := .remoteBusy }

/-- WAIT_TIMER_EXPIRY (R130). -/
def execWaitTimerExpiry (c : CtxId) (s : State) : Host.Outcome State Fault Refusal :=
  match s.ctx c with
  | none => .next s
  | some x =>
      .next (if x.waitTimer.isExpired ∧ x.state = .waiting then s.endWait c x else s)

/-- R139: the end of a wait after PENDING: a new inquiry, or IN_DOUBT at the limit (R142). -/
def State.endPendingWait (c : CtxId) (s : State) : State :=
  (s.modCtx c fun x => { x with waitTimer := .idle }).requestInquiry c

/-- PENDING_WAIT_EXPIRY (R139). -/
def execPendingWaitExpiry (c : CtxId) (s : State) : Host.Outcome State Fault Refusal :=
  match s.ctx c with
  | none => .next s
  | some x =>
      .next (if x.waitTimer.isExpired ∧ x.state = .resolving then s.endPendingWait c else s)

/-! ### Path timers -/

/-- PROBE_MARK_A_EXPIRY (R109): the Outstanding probe is cleared and one probe miss is taken. -/
def execProbeMarkAExpiry (p : PathId) (s : State) : Host.Outcome State Fault Refusal :=
  .next
    (if (s.path p).markA.isExpired then ((s.clearOutstanding p).probeMiss p).settle else s)

/-- R108, step 1: a cycle start that finds mark A not IDLE takes the miss itself. -/
def State.missPrevious (p : PathId) (s : State) : State :=
  if (s.path p).markA.isIdle then s else ((s.clearOutstanding p).probeMiss p).settle

/-- R108: a cycle start at the expiry of mark B. The interval and deadline are loaded first (R151; log 8).
If the miss of step 1 stops probing, which cancels mark B, the cycle start ends there, and Reply Seen stays as it was:
the model's choice, as R110 clears it at each cycle start (log 47). -/
def State.cycleStart (p : PathId) (s : State) : State :=
  let missed := (s.loadProbeTimes p).missPrevious p
  if (missed.path p).markB.isExpired then missed.cycleSteps p else missed

/-- PROBE_CYCLE_START (R108). -/
def execProbeCycleStart (p : PathId) (s : State) : Host.Outcome State Fault Refusal :=
  .next (if (s.path p).markB.isExpired then s.cycleStart p else s)

/-- HOLD_DOWN_EXPIRY (R107): Hold-down ended becomes yes, and probing starts where R111 allows. -/
def execHoldDownExpiry (p : PathId) (s : State) : Host.Outcome State Fault Refusal :=
  .next
    (if (s.path p).hold.isExpired then
      (s.modPath p fun r => { r with holdEnded := true, hold := .idle }).syncProbing p
    else s)

/-- STABILITY_EXPIRY (R106): the flap level becomes 0 and the Last Up Time is discarded. -/
def execStabilityExpiry (p : PathId) (s : State) : Host.Outcome State Fault Refusal :=
  .next
    (if (s.path p).stability.isExpired then
      s.modPath p fun r => { r with flap := 0, lastUp := none, stability := .idle }
    else s)

/-- DRAIN_LIMIT_EXPIRY (R113): a DRAINING path enters UNTRIED. -/
def execDrainLimitExpiry (p : PathId) (s : State) : Host.Outcome State Fault Refusal :=
  .next
    (if (s.path p).drain.isExpired ∧ (s.path p).health = .draining then s.becomeUntried p else s)

/-! ### The holdoff timer (R162) -/

/-- R162: COMPLETIONS is set and C returns to 0, with the holdoff timer IDLE. -/
def State.setCompletions (s : State) : State :=
  { s.raise .completions with coalesced := 0, holdoff := .idle }

/-- HOLDOFF_EXPIRY (R162). -/
def execHoldoffExpiry (s : State) : Host.Outcome State Fault Refusal :=
  .next
    (if s.holdoff.isExpired then
      if s.coalesced = 0 then { s with holdoff := .idle } else s.setCompletions
    else s)

end Sys2Proof.Machine
end

