-- ==== Sys2Proof/Machine/Transmit.lean ====
section
/-!
DEFINITION. Grants and transmissions: the grant decision (R73 to R75), the link header of each frame sent
(R81 to R83), what a transmission start hands to the frame's owners (R76, R135), and the transmit end
(R77).
-/

namespace Sys2Proof.Machine

/-! ### Frames sent (R62, R81 to R83) -/

/-- The Frame Kind codes of the frames the adapter sends (11, section 11.4). -/
def requestKind : Byte := 1

/-- PROBE. -/
def probeKind : Byte := 3

/-- ECHO. -/
def echoKind : Byte := 4

/-- INQUIRY. -/
def inquiryKind : Byte := 5

/-- The COMMIT flag of the link header (11, section 11.4). -/
def commitFlag : Byte := 1

/-- The COMMIT and BAR flags (R83: every INQUIRY carries both). -/
def commitBarFlags : Byte := 3

/-- R83: the header of a REQUEST with attempt number `number`. -/
def State.requestHeader (s : State) (c : CtxId) (x : Context) (a : Attempt) (number : Nat)
    (endpoint : W16) : LinkHeader :=
  LinkHeader.withCheck
    { kind := requestKind
      flags := if x.kind = .commit then commitFlag else 0
      adapterId := s.adapterId
      endpoint := endpoint
      issue := x.issue
      gen := BitVec.ofNat 4 a.gen
      attempt := BitVec.ofNat 4 number
      handleCtx := BitVec.ofNat 12 c.val
      handleNum := BitVec.ofNat 4 number
      sendTime := s.clock
      payloadLen := BitVec.ofNat 16 x.reqLen }

/-- R83: the header of an INQUIRY whose count is `count` after this transmission. -/
def State.inquiryHeader (s : State) (c : CtxId) (x : Context) (q : Inquiry) (count : Nat)
    (endpoint : W16) : LinkHeader :=
  LinkHeader.withCheck
    { kind := inquiryKind
      flags := commitBarFlags
      adapterId := s.adapterId
      endpoint := endpoint
      issue := x.issue
      gen := BitVec.ofNat 4 q.gen
      handleCtx := BitVec.ofNat 12 c.val
      handleNum := BitVec.ofNat 4 count
      sendTime := s.clock }

/-- R83: the header of a PROBE. -/
def State.probeHeader (s : State) (seq : W16) : LinkHeader :=
  LinkHeader.withCheck
    { kind := probeKind
      adapterId := s.adapterId
      probeSeq := seq
      sendTime := s.clock }

/-- R83: the header of an ECHO, with the Probe Sequence and Send Time of the PROBE it answers. -/
def State.echoHeader (s : State) (seq : W16) (sendTime : W32) : LinkHeader :=
  LinkHeader.withCheck
    { kind := echoKind
      adapterId := s.adapterId
      probeSeq := seq
      sendTime := sendTime }

/-- R62: the Ethernet frame a port sends on a path. -/
def State.envelope (s : State) (i : PortId) (p : PathId) (h : LinkHeader) (payload : List Byte) :
    WireFrame :=
  { dest := (s.pathDesc p).remote
    src :=
      match s.settings with
      | none => 0
      | some c => c.portAddr.get i
    etype :=
      match s.settings with
      | none => 0
      | some c => c.frameType
    header := h
    payload := payload }

/-- R76: the frame is on the wire: the transmitter is busy and Frames Sent rises. -/
def State.putOnWire (i : PortId) (f : WireFrame) (s : State) : State :=
  s.modPort i fun r => { r with transmitter := some f, framesSent := r.framesSent + 1 }

/-! ### Transmission starts (R76) -/

/-- R20, R26, R52, R76: the attempt becomes SENT with its number and send time, a reply timer starts, and
REDRIVEN and TWIN are set where R26 requires. -/
def Context.startAttempt (x : Context) (a : Attempt) (clock : W32) (limit : Nat) : Context :=
  let number := x.transmitted + 1
  let partnerSent := x.attempts.any fun b => b.twin == some a.id && b.number.isSome
  let x :=
    x.moveAttempt a.id .queued fun b =>
      { b with number := some number, sendTime := some clock, state := .sent }
  let x := x.startReply a.id (.start clock limit)
  { x with
    flags :=
      { x.flags with
        redriven := x.flags.redriven || a.redrive
        twin := x.flags.twin || (a.twin.isSome && partnerSent) } }

/-- R76: the transmission start of a REQUEST. -/
def State.startRequest (i : PortId) (c : CtxId) (id : Nat) (p : PathId) (endpoint : W16)
    (s : State) : State :=
  match s.ctx c with
  | none => s
  | some x =>
      match x.attempt id with
      | none => s
      | some a =>
          let header := s.requestHeader c x a (x.transmitted + 1) endpoint
          let frame := s.envelope i p header (s.slot c x.reqLen)
          let limit := s.rtoOf x.stream p x.timeouts
          let s := s.modCtx c fun x => x.startAttempt a s.clock limit
          (((s.putOnWire i frame).raiseInflight p).count p fun k =>
            { k with requestsSent := k.requestsSent + 1 })

/-- R76, R135: the transmission start of an INQUIRY. -/
def State.startInquiry (i : PortId) (c : CtxId) (p : PathId) (endpoint : W16) (s : State) : State :=
  match s.ctx c with
  | none => s
  | some x =>
      match x.inquiry with
      | none => s
      | some q =>
          let frame := s.envelope i p (s.inquiryHeader c x q (q.count + 1) endpoint) []
          let limit := s.rtoOf x.stream p q.timeouts
          let s :=
            s.modCtx c fun x =>
              { x with
                inquiry :=
                  some
                    { q with
                      count := q.count + 1
                      path := some p
                      lastSent := some p
                      state := some .sent }
                inquiryTimer := .start s.clock limit }
          (s.putOnWire i frame).raiseInflight p

/-- R76, R108: the transmission start of a PROBE: the Outstanding probe is recorded, mark A starts with
the deadline of the cycle (R151), and probes sent rises. -/
def State.startProbe (i : PortId) (p : PathId) (seq : W16) (s : State) : State :=
  let frame := s.envelope i p (s.probeHeader seq) []
  let s := s.putOnWire i frame
  (s.modPath p fun r =>
    { r with
      outstanding := some { seq := seq, sendTime := s.clock }
      markA := .startMs s.clock r.probeDeadline }).count p fun k =>
        { k with probesSent := k.probesSent + 1 }

/-- R76: the transmission start of an ECHO. -/
def State.startEcho (i : PortId) (p : PathId) (seq : W16) (sendTime : W32) (s : State) : State :=
  s.putOnWire i (s.envelope i p (s.echoHeader seq sendTime) [])

/-! ### The grant decision (R73 to R75) -/

/-- The head of a lane leaves it; with every lane then empty the masks are cleared (R74). -/
def PortRec.popHead (r : PortRec) (lane : Fin 8) : PortRec :=
  { r with lanes := r.lanes.set lane.val (r.lanes.get lane).tail lane.isLt }.settleMasks

/-- R75: whether the head frame is granted: PROBE and ECHO always, REQUEST and INQUIRY while their path is
UP or SUSPECT. -/
def State.grantable (s : State) (e : LaneEntry) : Bool :=
  e.isProbeOrEcho || (s.path e.pathOf).health.inService

/-- R76: the frame's kind decides what its transmission start does. -/
def State.startFrame (i : PortId) (e : LaneEntry) (s : State) : State :=
  match e with
  | .request c id p endpoint => s.startRequest i c id p endpoint
  | .inquiry c p endpoint => s.startInquiry i c p endpoint
  | .probe p seq => s.startProbe i p seq
  | .echo p seq sendTime => s.startEcho i p seq sendTime

/-- R73: the decision's masks are set. -/
def State.applyMasks (i : PortId) (sel : Selection) (s : State) : State :=
  s.modPort i fun r => { r with laneMasks := sel.masks, chit2 := sel.chit2, chit3 := sel.chit3 }

/-- R73: the frame a decision chooses: the head of the selected lane. -/
def State.chosenFrame (s : State) (i : PortId) : Option (Fin 8 × LaneEntry) :=
  match (s.select i).lane with
  | none => none
  | some lane => (((s.port i).lanes.get lane).head?).map fun e => (lane, e)

/-- The chosen frame leaves its lane, and the decision's masks are set (R73, R75). -/
def State.takeHead (i : PortId) (lane : Fin 8) (s : State) : State :=
  (s.applyMasks i (s.select i)).modPort i (·.popHead lane)

/-- R73, R75: a grant decision. A head frame that may not go is withdrawn under R78, what it causes is
taken, and the decision is taken again from the start; `k` bounds the withdrawals (log 9). -/
def State.decideGrant (i : PortId) : Nat → State → State
  | 0, s => s
  | k + 1, s =>
      if s.grantEnabled i then
        match s.chosenFrame i with
        | none => s
        | some (lane, e) =>
            if s.grantable e then (s.takeHead i lane).startFrame i e
            else State.decideGrant i k (((s.takeHead i lane).withdrawFrame e).settle)
      else s

/-- The number of frames in the lanes of a port. -/
def PortRec.waiting (r : PortRec) : Nat :=
  (r.lanes.toList.map (·.length)).sum

/-- GRANT_DECISION (R73). -/
def execGrantDecision (i : PortId) (s : State) : Host.Outcome State Fault Refusal :=
  .next (s.decideGrant i ((s.port i).waiting + 1))

/-- TRANSMIT_END (R77): the transmitter is idle again. -/
def execTransmitEnd (i : PortId) (s : State) : Host.Outcome State Fault Refusal :=
  .next (s.modPort i fun r => { r with transmitter := none })

end Sys2Proof.Machine
end

