-- ==== Sys2Proof/Machine/Writer.lean ====
section
/-!
DEFINITION. The Completion Writer: the issue of a completion with moderation (R155, R156, R162), the warm
reset, which may cut one (R172, R27), and the issue of a rewrite of the Digest with its event (R159).
-/

namespace Sys2Proof.Machine

/-! ### Completions (R155) -/

/-- R155, step 1: TRUNCATED is added when the Reply Length exceeds the Reply Capacity. -/
def Result.truncate (r : Result) (capacity : Nat) : Result :=
  { r with flags := { r.flags with truncated := r.flags.truncated || decide (capacity < r.replyLen) } }

/-- The group of an exchange number (R155, step 4). -/
def groupOf (n : Nat) : Fin 64 :=
  ⟨n / 64 % 64, Nat.mod_lt _ (by decide)⟩

/-- R155, step 2: the payload write, when there are bytes to write. -/
def State.writePayload (c : CtxId) (x : Context) (r : Result) (s : State) : State :=
  let n := min r.replyLen x.replyCap
  if n = 0 then s else s.hostWrite x.replyAddr (s.slot c n)

/-- R155, step 4: the group counter rises and its new value is written to the Digest. -/
def State.countDone (n : Nat) (s : State) : State :=
  let g := groupOf n
  let v := s.groups.get g + 1
  { s with groups := s.groups.set g.val v g.isLt }.hostWrite (s.partAddr (.group g))
    (leBytes v.toNat 2)

/-- R162: a completion is counted for COMPLETIONS. -/
def State.moderate (s : State) : State :=
  match s.settings with
  | none => s
  | some cfg =>
      let count := s.coalesced + 1
      if cfg.coalesce ≤ count ∨ cfg.holdoff = 0 then s.setCompletions
      else
        { s with
          coalesced := count
          holdoff := if count = 1 then .start s.clock cfg.holdoff else s.holdoff }

/-- R155, step 1: the result fields of the record are written. -/
def State.writeResult (x : Context) (r : Result) (s : State) : State :=
  s.hostWrite (s.recordAddr (x.exch.getD 0) + 0x40) (resultBytes (r.truncate x.replyCap))

/-- R155, step 3: Owner = DONE is written. -/
def State.writeDone (x : Context) (s : State) : State :=
  s.hostWrite (s.recordAddr (x.exch.getD 0)) (leBytes 3 4)

/-- R155: the writes of one completion, and its count. -/
def State.issueCompletion (c : CtxId) (x : Context) (r : Result) (s : State) : State :=
  ((((s.writeResult x r).writePayload c x r).writeDone x).countDone (x.exch.getD 0)).moderate

/-- The first `steps` of the steps 1 to 3 of R155, which a warm reset may leave issued (R27). -/
def State.issuePart (steps : Fin 4) (c : CtxId) (x : Context) (r : Result) (s : State) : State :=
  match steps with
  | 0 => s
  | 1 => s.writeResult x r
  | 2 => (s.writeResult x r).writePayload c x r
  | 3 => ((s.writeResult x r).writePayload c x r).writeDone x

/-- The completion at the head of the queue may be issued (R159). -/
def State.completionTurn (s : State) : Bool :=
  s.rewrites.isEmpty || s.lastIssued != some .completion

/-- R155: the completion at the head is issued, leaves the queue, and its context is freed (R19); the
adapter may then enter QUIESCED (R170). -/
def State.finishHead (c : CtxId) (rest : List CtxId) (x : Context) (r : Result) (s : State) : State :=
  ({ s.issueCompletion c x r with
    queue := rest
    lastIssued := some .completion }.setCtx c none).quiesceIfIdle

/-- COMPLETION_ISSUE (R155, R159). -/
def execCompletionIssue (s : State) : Host.Outcome State Fault Refusal :=
  match s.queue with
  | [] => .next s
  | c :: rest =>
      match s.ctx c with
      | none => .next s
      | some x =>
          match x.result with
          | none => .next s
          | some r => .next (if s.completionTurn then s.finishHead c rest x r else s)

/-! ### Warm reset (R172) -/

/-- R27, R156, R164: the issue that a warm reset cuts. Of the completion whose turn it is, the steps given by
the free value have been issued; the rest is dropped with its context (log 42). -/
def State.cutCompletion (s : State) : State :=
  match s.queue with
  | [] => s
  | c :: _ =>
      match s.ctx c with
      | none => s
      | some x =>
          match x.result with
          | none => s
          | some r =>
              if s.completionTurn then s.issuePart (Config.issuedAtReset s.resets) c x r else s

/-- R172: every block drops what it drops, EVENT is cleared, and the adapter is HALTED. -/
def State.enterHalted (s : State) : State :=
  { s.dropAll.setEvents 0 s.eventMask with adapter := .halted, resets := s.resets + 1 }

/-- WARM_RESET (R172): STATE_CHANGE is raised, after EVENT has been cleared, unless the adapter was HALTED
(R164). The rewrite list stays empty (log 10). -/
def execWarmReset (s : State) : Host.Outcome State Fault Refusal :=
  let halted := s.cutCompletion.enterHalted
  .next (if s.adapter = .halted then halted else halted.raise .stateChange)

/-! ### Rewrites (R159) -/

/-- The rewrite at the head of the list may be issued (R159). -/
def State.rewriteTurn (s : State) : Bool :=
  s.adapter.works && (s.queue.isEmpty || s.lastIssued != some .rewrite)

/-- The event a rewrite raises at its issue (R159). -/
def Rewrite.raised (r : Rewrite) : Option Event :=
  match r.part with
  | .header => none
  | .group _ => none
  | .port _ => none
  | .target _ => if r.event then some .targetChange else none
  | .path _ => if r.event then some .pathChange else none

/-- R159: a rewrite is issued: the whole part from the shadow, and its event. -/
def State.issueRewrite (r : Rewrite) (rest : List Rewrite) (s : State) : State :=
  let s := s.hostWrite (s.partAddr r.part) (partBytes s r.part)
  let s := { s with rewrites := rest, lastIssued := some .rewrite }
  match r.raised with
  | none => s
  | some e => s.raise e

/-- DIGEST_REWRITE_ISSUE (R159). -/
def execDigestRewriteIssue (s : State) : Host.Outcome State Fault Refusal :=
  match s.rewrites with
  | [] => .next s
  | r :: rest => .next (if s.rewriteTurn then s.issueRewrite r rest else s)

end Sys2Proof.Machine
end

