-- ==== Sys2Proof/Machine/Bringup.lean ====
section
/-!
DEFINITION. LOADING (R167 to R169): the ends of the Anchor read and of the table reads, the settings taking
force, the health records, streams and Digest set afresh, the entry to RUNNING, and FAULTED.
-/

namespace Sys2Proof.Machine

/-! ### Step 3: the tables (R32) -/

/-- What the 192 reads of the tables have brought so far, none for a read that has not ended. -/
abbrev TablesRead := Vector (Option (List Byte)) 192

/-- No read of the tables has ended. -/
def noTablesRead : TablesRead :=
  Vector.replicate 192 none

/-- The bytes read of an entry. -/
def tableBytes (got : TablesRead) (entry : TableEntry) : List Byte :=
  (got.get (tableIndex entry)).getD []

/-- Every read of the tables has ended. -/
def allTablesRead (got : TablesRead) : Bool :=
  got.toList.all (·.isSome)

/-- R29, R32: a target entry after LOADING; its park list stays (R61), its reachability is UNREACHABLE
(R122). A Reload Again left set at a START from QUIESCED is cleared, without a further read: the model's choice
(log 46). -/
def TargetEntry.loaded (e : TargetEntry) (d : TargetDesc) : TargetEntry :=
  { load := .valid
    contents := some d
    again := false
    read := none
    park := e.park
    reach := .unreachable }

/-- R122: a health record at LOADING: FENCED if the path is not Enabled, else UNTRIED. A Reload Again of its copy left
set at a START from QUIESCED is cleared, without a further read: the model's choice (log 46). -/
def PathRec.loaded (r : PathRec) (d : PathDesc) : PathRec :=
  { r.stopTimers with
    load := .valid
    contents := some d
    again := false
    read := none
    health := if d.enabled then .untried else .fenced
    fence := !d.enabled
    drill := false
    strikes := 0
    proving := 0
    holdEnded := false
    lastUp := none
    replySeen := false }

/-- R168 step 4, R122: a port at the end of LOADING: its filter settings, and an empty correlation list. -/
def PortRec.loaded (r : PortRec) (f : FilterSettings) : PortRec :=
  { r with settings := f, downTimes := [] }

/-- A function of the index applied to every entry of a vector. -/
def mapIndexed {α : Type} {n : Nat} (f : Fin n → α → α) (v : Vector α n) : Vector α n :=
  Vector.ofFn fun k => f k (v.get k)

/-! ### Steps 4 to 10 (R168) -/

/-- R168, step 8: whether the Exchange Table changed across a LOADING from QUIESCED. -/
def State.tableChanged (s : State) (fromQuiesced : Bool) (cfg : Settings) : Bool :=
  fromQuiesced &&
    match s.settings with
    | none => false
    | some old => old.records != cfg.records || old.exchBase != cfg.exchBase

/-- R168, step 8: the Arm FIFO is emptied, the kept run is dropped and Sweep Pending is set. -/
def State.dropRuns (s : State) : State :=
  { s with armFifo := [], job := .none, phase := .idle, sweepPending := true }

/-- R168, steps 4 to 7: the settings in force, the Issue Number, the health records and the streams. -/
def State.applySettings (cfg : Settings) (got : TablesRead) (s : State) : State :=
  { s with
    settings := some cfg
    issueNumber := some (s.issueNumber.getD cfg.issueSeed)
    ports := mapIndexed (fun i r => r.loaded (cfg.filters.get i)) s.ports
    targets :=
      mapIndexed
        (fun t e => e.loaded (Sys2Proof.Machine.targetDesc (tableBytes got (.target t)))) s.targets
    paths :=
      mapIndexed (fun p r => r.loaded (Sys2Proof.Machine.pathDesc (tableBytes got (.path p)))) s.paths
    streams := Vector.replicate 256 {} }

/-- R160, R168 step 9: the counters are zeroed, the rewrite list is emptied and the whole Digest is
written (log 28). The turns of R159 begin anew. -/
def State.writeDigest (cfg : Settings) (s : State) : State :=
  let s := { s with groups := Vector.replicate 64 0, idleArms := 0, rewrites := [], lastIssued := none }
  s.hostWrite cfg.digestBase (digestBytes s)

/-- R168, step 10: a kept run goes on (R17). -/
def State.resumeRun (s : State) : State :=
  match s.job with
  | .none => s
  | .run _ _ => { s with phase := .wantContext }
  | .sweep _ _ => s

/-- R168, step 10: the entry to RUNNING. Probing starts for each UNTRIED path whose port is not DOWN (R122), by
increasing path number, which is the model's choice (log 41), and dispatch is tested for every stream. -/
def State.enterRunning (s : State) : State :=
  let s := ({ s with loading := none }.enterAdapter .running).resumeRun
  let s := (List.finRange 128).foldl (fun s p => s.syncProbing p) s
  (List.finRange 256).foldl (fun s n => s.dispatch n) s

/-- R168: the last read has succeeded. -/
def State.finishLoading (fromQuiesced : Bool) (cfg : Settings) (got : TablesRead) (s : State) : State :=
  let changed := s.tableChanged fromQuiesced cfg
  let s := s.applySettings cfg got
  let s := if changed then s.dropRuns else s
  (s.writeDigest cfg).enterRunning

/-- R169: a read of LOADING fails, and the adapter enters FAULTED. -/
def State.faultLoading (r : HostRead) (requests : List Nat) (s : State) : State :=
  ({ s.readFailed r requests with loading := none }).enterAdapter .faulted

/-! ### The ends of the reads -/

/-- R168, step 2: the Anchor has been read; the reads of the tables begin (log 45). -/
def State.anchorLoaded (fromQuiesced : Bool) (bytes : List Byte) (s : State) : State :=
  { s with
    loading := some (.tables fromQuiesced (anchorSettings bytes) s.clock 0 noTablesRead) }

/-- The end of the Anchor read, if it is in progress. -/
def State.endAnchorRead (answer : ReadAnswer) (s : State) : State :=
  match s.loading with
  | none => s
  | some (.tables _ _ _ _ _) => s
  | some (.anchor q r) =>
      match answer with
      | .data bytes => s.anchorLoaded q bytes
      | .failed requests => s.faultLoading r requests

/-- LOADING_ANCHOR_READ_END (R168, R169). -/
def execLoadingAnchorReadEnd (answer : ReadAnswer) (s : State) : Host.Outcome State Fault Refusal :=
  .next (if s.tooLate .anchor answer then s else s.endAnchorRead answer)

/-- The address of a table entry in host memory, under the Anchor read (R167). -/
def tableAddr (cfg : Settings) : TableEntry → W64
  | .target t => cfg.targetBase + BitVec.ofNat 64 (16 * t.val)
  | .path p => cfg.pathBase + BitVec.ofNat 64 (64 * p.val)

/-- The limit of R163 on a table read that began so many µs after step 3 did, as it stands `age` µs after that: none
for a read that had not begun by then (log 45). -/
def tableLimit (begun : W32) (age begins : Nat) : Timer :=
  if age < begins then .idle
  else if begins + Config.readLimit ≤ age then .expired (begun + BitVec.ofNat 32 begins) Config.readLimit
  else .running (begun + BitVec.ofNat 32 begins) Config.readLimit

/-- The read of a table entry at LOADING (R32), with what is left of its limit. -/
def tableRead (cfg : Settings) (begun : W32) (age : Nat) (entry : TableEntry) : HostRead :=
  { addr := tableAddr cfg entry
    len := entry.size
    limit := tableLimit begun age (Config.tableReadBegins begun (tableIndex entry)) }

/-- Every table entry, targets first. -/
def tableEntries : List TableEntry :=
  (List.finRange 64).map .target ++ (List.finRange 128).map .path

/-- The table reads that have not ended, but for that of one entry. -/
def otherTableReads (cfg : Settings) (begun : W32) (age : Nat) (got : TablesRead) (failed : TableEntry) : List Orphan :=
  (tableEntries.filter fun e => e != failed && (got.get (tableIndex e)).isNone).map fun e =>
    { id := .table e, read := tableRead cfg begun age e }

/-- Reads in progress lose their use. -/
def State.joinOrphans (left : List Orphan) (s : State) : State :=
  { s with orphans := s.orphans ++ left }

/-- The end of the read of one table entry. The last one with data ends step 3 (R168); the first one that fails ends
LOADING (R169), and the other reads then in progress go on without a use: each of their failures is still one
failure (R163; log 32). -/
def State.endTableRead (entry : TableEntry) (answer : ReadAnswer) (s : State) : State :=
  match s.loading with
  | none => s.endOrphan (.table entry) answer
  | some (.anchor _ _) => s.endOrphan (.table entry) answer
  | some (.tables q cfg begun age got) =>
      if (got.get (tableIndex entry)).isSome then s.endOrphan (.table entry) answer
      else
        match answer with
        | .data bytes =>
            let got := got.set (tableIndex entry).val (some bytes) (tableIndex entry).isLt
            if allTablesRead got then s.finishLoading q cfg got
            else { s with loading := some (.tables q cfg begun age got) }
        | .failed requests =>
            (s.joinOrphans (otherTableReads cfg begun age got entry)).faultLoading
              (tableRead cfg begun age entry) requests

/-- The end of the read of one table entry, whose data are no answer after its 50 ms (R163; log 24). -/
def State.takeTableEnd (s : State) (e : TableReadEnd) : State :=
  if s.tooLate (.table e.entry) e.answer then s else s.endTableRead e.entry e.answer

/-- LOADING_TABLES_READ_END (R168, R169): ends of table reads that come together, in the order given (log 32). -/
def execLoadingTablesReadEnd (ends : List TableReadEnd) (s : State) :
    Host.Outcome State Fault Refusal :=
  .next (ends.foldl (fun s e => s.takeTableEnd e) s)

end Sys2Proof.Machine
end

