-- ==== Sys2Proof/Machine/HostReads.lean ====
section
/-!
DEFINITION. HOST_READ_TIMEOUT (R163): a read that has had no answer within 50 ms is judged failed, and its
end is taken under the rule of the block that made it (log 24).
-/

namespace Sys2Proof.Machine

/-- R163: the failed end of a read, under its block's own rule. -/
def State.failedEnd (read : HostReadId) (requests : List Nat) (s : State) : State :=
  match read with
  | .ownerWord => s.endOwnerRead (.failed requests)
  | .record => s.endRecordRead (.failed requests)
  | .payload => s.endPayloadRead (.failed requests)
  | .stream n =>
      if (s.stream n).load = .loading false then s.endStreamLoad n (.failed requests)
      else s.endStreamReload n (.failed requests)
  | .target t => s.endTargetReload t (.failed requests)
  | .path p => s.endPathReload p (.failed requests)
  | .anchor => s.endAnchorRead (.failed requests)
  | .table entry => s.endTableRead entry (.failed requests)

/-- R163: the 50 ms of a read left without a use have run (logs 14, 32). -/
def State.orphanDue (s : State) (read : HostReadId) : Bool :=
  readExpired (s.orphan read)

/-- HOST_READ_TIMEOUT (R163). -/
def execHostReadTimeout (read : HostReadId) (requests : List Nat) (s : State) :
    Host.Outcome State Fault Refusal :=
  .next
    (if s.readDue read then s.failedEnd read requests
    else if s.orphanDue read then s.endOrphan read (.failed requests)
    else s)

end Sys2Proof.Machine
end

