-- ==== Sys2Proof/Machine/Dispatch.lean ====
section
/-!
DEFINITION. The meaning of every command: one arm per constructor of `Instr`, one direct call each.
-/

namespace Sys2Proof.Machine

def exec (i : Instr) (s : State) : Host.Outcome State Fault Refusal :=
  match i with
  | .start => Sys2Proof.Machine.execStart s
  | .stop => Sys2Proof.Machine.execStop s
  | .warmReset => Sys2Proof.Machine.execWarmReset s
  | .controlBadCombination => Sys2Proof.Machine.execControlBadCombination s
  | .coldReset raw0 raw1 raw2 raw3 => Sys2Proof.Machine.execColdReset raw0 raw1 raw2 raw3 s
  | .arm first len => Sys2Proof.Machine.execArm first len s
  | .sweep => Sys2Proof.Machine.execSweep s
  | .abort exch => Sys2Proof.Machine.execAbort exch s
  | .reloadStream entry => Sys2Proof.Machine.execReloadStream entry s
  | .reloadTarget entry => Sys2Proof.Machine.execReloadTarget entry s
  | .reloadPath entry => Sys2Proof.Machine.execReloadPath entry s
  | .fence entry => Sys2Proof.Machine.execFence entry s
  | .unfence entry => Sys2Proof.Machine.execUnfence entry s
  | .drill entry => Sys2Proof.Machine.execDrill entry s
  | .drillEnd entry => Sys2Proof.Machine.execDrillEnd entry s
  | .snapshot => Sys2Proof.Machine.execSnapshot s
  | .noticeUnknownKind code => Sys2Proof.Machine.execNoticeUnknownKind code s
  | .eventWrite value => Sys2Proof.Machine.execEventWrite value s
  | .eventMaskWrite value => Sys2Proof.Machine.execEventMaskWrite value s
  | .anchorWrite span value => Sys2Proof.Machine.execAnchorWrite span value s
  | .faultAddressWrite value => Sys2Proof.Machine.execFaultAddressWrite value s
  | .otherRegisterWrite offset width => Sys2Proof.Machine.execOtherRegisterWrite offset width s
  | .unmappedRegisterRead offset => Sys2Proof.Machine.execUnmappedRegisterRead offset s
  | .rawCarrierLoss port => Sys2Proof.Machine.execRawCarrierLoss port s
  | .rawCarrierReturn port => Sys2Proof.Machine.execRawCarrierReturn port s
  | .carrierFilterExpiry port => Sys2Proof.Machine.execCarrierFilterExpiry port s
  | .frameArrival port frame => Sys2Proof.Machine.execFrameArrival port frame s
  | .ageCheck port => Sys2Proof.Machine.execAgeCheck port s
  | .replyTimerExpiry ctx timer => Sys2Proof.Machine.execReplyTimerExpiry ctx timer s
  | .inquiryTimerExpiry ctx => Sys2Proof.Machine.execInquiryTimerExpiry ctx s
  | .deadlineExpiry ctx => Sys2Proof.Machine.execDeadlineExpiry ctx s
  | .waitTimerExpiry ctx => Sys2Proof.Machine.execWaitTimerExpiry ctx s
  | .pendingWaitExpiry ctx => Sys2Proof.Machine.execPendingWaitExpiry ctx s
  | .probeMarkAExpiry path => Sys2Proof.Machine.execProbeMarkAExpiry path s
  | .probeCycleStart path => Sys2Proof.Machine.execProbeCycleStart path s
  | .holdDownExpiry path => Sys2Proof.Machine.execHoldDownExpiry path s
  | .stabilityExpiry path => Sys2Proof.Machine.execStabilityExpiry path s
  | .drainLimitExpiry path => Sys2Proof.Machine.execDrainLimitExpiry path s
  | .holdoffExpiry => Sys2Proof.Machine.execHoldoffExpiry s
  | .hostReadTimeout read requests => Sys2Proof.Machine.execHostReadTimeout read requests s
  | .runStart => Sys2Proof.Machine.execRunStart s
  | .sweepStart => Sys2Proof.Machine.execSweepStart s
  | .sweepOwnerReadEnd answer => Sys2Proof.Machine.execSweepOwnerReadEnd answer s
  | .contextReservation => Sys2Proof.Machine.execContextReservation s
  | .recordReadEnd answer => Sys2Proof.Machine.execRecordReadEnd answer s
  | .streamLoadReadEnd stream answer => Sys2Proof.Machine.execStreamLoadReadEnd stream answer s
  | .payloadReadEnd answer => Sys2Proof.Machine.execPayloadReadEnd answer s
  | .reloadStreamReadEnd stream answer => Sys2Proof.Machine.execReloadStreamReadEnd stream answer s
  | .reloadTargetReadEnd target answer => Sys2Proof.Machine.execReloadTargetReadEnd target answer s
  | .reloadPathReadEnd path answer => Sys2Proof.Machine.execReloadPathReadEnd path answer s
  | .loadingAnchorReadEnd answer => Sys2Proof.Machine.execLoadingAnchorReadEnd answer s
  | .loadingTablesReadEnd ends => Sys2Proof.Machine.execLoadingTablesReadEnd ends s
  | .grantDecision port => Sys2Proof.Machine.execGrantDecision port s
  | .transmitEnd port => Sys2Proof.Machine.execTransmitEnd port s
  | .completionIssue => Sys2Proof.Machine.execCompletionIssue s
  | .digestRewriteIssue => Sys2Proof.Machine.execDigestRewriteIssue s

end Sys2Proof.Machine
end

