-- ==== Sys2Proof/Safety.lean ====
section
/-!
DEFINITION. What a safe run keeps: the ranges the descriptors, the Anchor's settings, the estimates and the
health records are held in (R28 to R30, R47, R99, R167), the laws of the registers, ports, streams,
contexts and the completion queue (R5, R18, R41, R74, R154, R161, R163), what no event short of its
freeing undoes in a live context (R18, R20, R22, R26), and what strikes, falls of paths, routes and stale
answers are in terms of the state alone (R54, R55, R86, R87, R90, R101 to R107, R119), with what dispatch, the
completion of an exchange, lost attempts and inquiries, withdrawn frames, the hand-outs of a change of health, an
accepted loss or return, a path loss, a sample and its credit, the end of a read, a withdrawal at a reload and a
selection among lanes leave (R11, R33, R37, R38, R40 to R44, R48 to R50, R58, R60, R67, R73, R78, R117, R118, R120,
R126, R137, R158).
-/

namespace Sys2Proof.Machine

/-! ### Ranges of interpreted contents -/

/-- R28: the ranges of an interpreted stream descriptor. -/
structure StreamDesc.InRange (d : StreamDesc) : Prop where
  level : d.level ≤ 3
  window : 1 ≤ d.window ∧ d.window ≤ 32
  trafficClass : 2 ≤ d.trafficClass.val
  maxAttempts : 1 ≤ d.maxAttempts ∧ d.maxAttempts ≤ 8
  inquiryLimit : 1 ≤ d.inquiryLimit ∧ d.inquiryLimit ≤ 8
  minTimeout : 500 ≤ d.minTimeout ∧ d.minTimeout ≤ 1000000
  maxTimeout : 1000 ≤ d.maxTimeout ∧ d.maxTimeout ≤ 10000000
  ordered : d.minTimeout ≤ d.maxTimeout
  defaultDeadline : 1 ≤ d.defaultDeadline ∧ d.defaultDeadline ≤ 60000
  pendingInterval : 1 ≤ d.pendingInterval ∧ d.pendingInterval ≤ 1000

/-- R29: the ranges of an interpreted target descriptor; the Path List holds 0 to 4 distinct paths. -/
structure TargetDesc.InRange (d : TargetDesc) : Prop where
  paths : d.pathList.length ≤ 4
  distinct : d.pathList.Nodup
  initialTimeout : 1 ≤ d.initialTimeout ∧ d.initialTimeout ≤ 10000

/-- R30: the ranges of an interpreted path descriptor. -/
structure PathDesc.InRange (d : PathDesc) : Prop where
  suspect : 1 ≤ d.suspectThreshold ∧ d.suspectThreshold ≤ 14
  down : d.suspectThreshold < d.downThreshold ∧ d.downThreshold ≤ 15
  proving : 1 ≤ d.provingCount ∧ d.provingCount ≤ 15
  probeInterval : 10 ≤ d.probeInterval ∧ d.probeInterval ≤ 10000
  fastInterval : 5 ≤ d.fastInterval ∧ d.fastInterval ≤ 1000
  probeDeadline : 1 ≤ d.probeDeadline ∧ d.probeDeadline ≤ 1000
  holdBase : 100 ≤ d.holdBase ∧ d.holdBase ≤ 60000
  stability : 1000 ≤ d.stabilityPeriod ∧ d.stabilityPeriod ≤ 600000
  drain : 1000 ≤ d.drainLimit ∧ d.drainLimit ≤ 600000
  upper : d.upperLatency ≤ 1000000
  lower : d.lowerLatency ≤ 1000000 ∧ (d.upperLatency ≠ 0 → d.lowerLatency < d.upperLatency)

/-- R167: the ranges of the interpreted Anchor. -/
structure Settings.InRange (c : Settings) : Prop where
  records : c.records % 64 = 0 ∧ 64 ≤ c.records ∧ c.records ≤ 4096
  slices : ∀ l ∈ c.slices, l.level ≤ 3
  corrWindow : 10 ≤ c.corrWindow ∧ c.corrWindow ≤ 10000
  corrThreshold : 2 ≤ c.corrThreshold ∧ c.corrThreshold ≤ 8
  coalesce : 1 ≤ c.coalesce ∧ c.coalesce ≤ 256
  holdoff : c.holdoff ≤ 10000
  lossTime : ∀ i : PortId, (c.filters.get i).lossTime ≤ 1000
  returnTime : ∀ i : PortId, (c.filters.get i).returnTime ≤ 10000

/-! ### Paths -/

/-- R47, R49: SRTT and RTTVAR are 0 without a sample; with one they lie within 1 to 1,000,000 µs and 0 to
1,000,000 µs. -/
structure PathRec.EstimateOk (r : PathRec) : Prop where
  samples : r.samples ≤ 255
  cleared : r.samples = 0 → r.srtt = 0 ∧ r.rttvar = 0
  held : r.samples ≠ 0 → 1 ≤ r.srtt ∧ r.srtt ≤ 1000000 ∧ r.rttvar ≤ 1000000

/-- R30, R47, R99: a path's copy, estimate, strikes and flap level are in range. -/
structure PathRec.Ok (r : PathRec) : Prop where
  contents : ∀ d, r.contents = some d → d.InRange
  estimate : r.EstimateOk
  strikes : r.strikes ≤ 15
  flap : r.flap ≤ 6

/-- Every path record is in range. -/
def State.PathsOk (s : State) : Prop :=
  ∀ p : PathId, (s.path p).Ok

/-! ### Ports -/

/-- R74, R119: with every lane empty every mask is clear; the correlation list holds at most 8 times. -/
structure PortRec.Ok (r : PortRec) : Prop where
  masks : r.lanesEmpty = true → (∀ l : Fin 8, r.laneMasks.get l = false) ∧ r.chit2 = false ∧ r.chit3 = false
  downTimes : r.downTimes.length ≤ 8

/-- Every port record keeps its laws. -/
def State.PortsOk (s : State) : Prop :=
  ∀ i : PortId, (s.port i).Ok

/-! ### Streams and targets -/

/-- R40, R42: the mode in force is ORDERED only under contents that say ORDERED. -/
def StreamEntry.InForce (e : StreamEntry) : Prop :=
  e.mode = .ordered → ∀ d, e.contents = some d → d.mode = .ordered

/-- R28, R41, R42: the contents of a stream entry are in range; an entry that no read has filled has none and
nothing in flight; a stream whose mode in force is ORDERED never has more than one exchange beyond
PENDING, and the contents it is under say ORDERED. -/
structure StreamEntry.Ok (e : StreamEntry) : Prop where
  contents : ∀ d, e.contents = some d → d.InRange
  unread : e.load = .notLoaded ∨ (∃ b, e.load = .loading b) → e.contents = none
  empty : e.contents = none → e.inflight = 0
  oneAtATime : e.mode = .ordered → e.inflight ≤ 1
  inForce : e.InForce

/-- Every stream entry keeps its laws. -/
def State.StreamsOk (s : State) : Prop :=
  ∀ n : StreamId, (s.stream n).Ok

/-- R29: every target's contents are in range. -/
def State.TargetsOk (s : State) : Prop :=
  ∀ t : TargetId, ∀ d, (s.target t).contents = some d → d.InRange

/-! ### Exchanges -/

/-- R18: at most one live context holds any exchange number. -/
def State.OneHolder (s : State) : Prop :=
  ∀ c d : CtxId, ∀ x y : Context, ∀ n : Nat,
    s.ctx c = some x → s.ctx d = some y → x.exch = some n → y.exch = some n → c = d

/-- R154: the completion queue holds each context in CLOSING once, with its result fixed, and no other. -/
structure State.QueueOk (s : State) : Prop where
  distinct : s.queue.Nodup
  closing : ∀ c : CtxId, c ∈ s.queue ↔ ∃ x, s.ctx c = some x ∧ x.state = .closing
  fixed : ∀ c : CtxId, ∀ x : Context, s.ctx c = some x → x.state = .closing → x.result.isSome = true

/-! ### Registers -/

/-- R5, R161, R163, R168 and the model's own fields: the interrupt is asserted exactly while a bit is set
in both EVENT and EVENT_MASK; counts are within their ranges; the settings in force are in range; the
adapter is LOADING exactly while a LOADING is in progress; the Payload Store is in its canonical form; and
no decision is left waiting between commands. -/
structure State.RegistersOk (s : State) : Prop where
  interrupt : s.interrupt = assertion s.event s.eventMask
  faults : s.faultCount ≤ 255
  fifo : s.armFifo.length ≤ 32
  runs : ∀ r ∈ s.armFifo, 1 ≤ r.len ∧ r.len ≤ 64
  settings : ∀ c, s.settings = some c → c.InRange
  reading : ∀ q c begun age got, s.loading = some (.tables q c begun age got) → c.InRange
  loading : s.loading.isSome = true ↔ s.adapter = .loading
  coalesced : s.coalesced ≤ 255
  payload : cellsWf s.payload = true
  settled : s.deferred = []

/-! ### What a live context never loses -/

/-- R20: the states a transmitted attempt may later be found in. -/
def AttemptState.later : AttemptState → List AttemptState
  | .queued => [.queued, .sent, .answered, .timedOut, .lost, .busy, .cancelled]
  | .sent => [.sent, .answered, .timedOut, .lost, .busy, .cancelled]
  | .timedOut => [.timedOut, .answered]
  | .lost => [.lost, .answered]
  | .answered => [.answered]
  | .busy => [.busy]
  | .cancelled => [.cancelled]

/-- R20: an attempt record goes on as `b`: the same attempt, further along. -/
structure Attempt.GoesOn (a b : Attempt) : Prop where
  id : b.id = a.id
  number : b.number = a.number
  path : b.path = a.path
  gen : b.gen = a.gen
  sendTime : b.sendTime = a.sendTime
  redrive : b.redrive = a.redrive
  state : b.state ∈ a.state.later

/-- R26: a flag once set stays set. -/
structure ResultFlags.Kept (f g : ResultFlags) : Prop where
  resolved : f.resolved = true → g.resolved = true
  lateReply : f.lateReply = true → g.lateReply = true
  redriven : f.redriven = true → g.redriven = true
  degraded : f.degraded = true → g.degraded = true
  twin : f.twin = true → g.twin = true
  truncated : f.truncated = true → g.truncated = true
  abortTooLate : f.abortTooLate = true → g.abortTooLate = true
  crossed : f.crossed = true → g.crossed = true

/-- What no event takes from a context that stays live once its fetch has ended (R18, R20, R22, R24, R26):
what the fetch fixed, the abort mark, the flags, the failed paths, and every transmitted attempt. A
context in CLOSING takes no further event, and none returns to FETCHING. -/
structure Context.Kept (x y : Context) : Prop where
  exch : y.exch = x.exch
  kind : y.kind = x.kind
  stream : y.stream = x.stream
  level : y.level = x.level
  issue : y.issue = x.issue
  taken : y.taken = x.taken
  deadlineMs : y.deadlineMs = x.deadlineMs
  reqLen : y.reqLen = x.reqLen
  replyAddr : y.replyAddr = x.replyAddr
  replyCap : y.replyCap = x.replyCap
  abortMark : x.abortMark = true → y.abortMark = true
  flags : x.flags.Kept y.flags
  failed : ∀ p ∈ x.failed, p ∈ y.failed
  attempts : ∀ a ∈ x.attempts, a.state ≠ .queued → ∃ b ∈ y.attempts, a.GoesOn b
  closing : x.state = .closing → y = x
  begun : x.state ≠ .fetching → y.state ≠ .fetching

/-- A context before and after: free throughout, or live throughout and kept. -/
def CtxKept (a b : Option Context) : Prop :=
  (a = none ∧ b = none) ∨ ∃ x y, a = some x ∧ b = some y ∧ x.Kept y

/-! ### What the work in progress leaves as it is -/

/-- The copy of a stream entry and the reading of it. -/
structure StreamEntry.Same (a b : StreamEntry) : Prop where
  load : b.load = a.load
  contents : b.contents = a.contents
  again : b.again = a.again
  read : b.read = a.read

/-- The copy of a target entry and the reading of it. -/
structure TargetEntry.Same (a b : TargetEntry) : Prop where
  load : b.load = a.load
  contents : b.contents = a.contents
  again : b.again = a.again
  read : b.read = a.read

/-- The copy of a path descriptor and the reading of it. -/
structure PathRec.Same (a b : PathRec) : Prop where
  load : b.load = a.load
  contents : b.contents = a.contents
  again : b.again = a.again
  read : b.read = a.read

/-- A port's carrier filter and its age check. -/
structure PortRec.Same (a b : PortRec) : Prop where
  settings : b.settings = a.settings
  filter : b.filter = a.filter
  filterTimer : b.filterTimer = a.filterTimer
  ageDue : b.ageDue = a.ageDue

/-- R13, R94: a byte of the Payload Store changes only in the slot of a context that enters CLOSING. -/
def SlotsKept (s t : State) : Prop :=
  ∀ a : Nat, readCell a t.payload = readCell a s.payload ∨
    ∃ c x y, s.ctx c = some x ∧ x.state ≠ .closing ∧ t.ctx c = some y ∧ y.state = .closing ∧
      slotBase c ≤ a ∧ a < slotBase c + Config.slotBytes

/-- What the course of exchanges, probing, the health of paths and arbitration leave as it is: the
registers but for event bits set and what they assert, host memory, the adapter's state and settings, the
Fetch Engine, the clock, the Completion Writer's counts, every copy of a descriptor, every carrier filter;
live contexts are kept, and the completion queue only grows. -/
structure OnlyWork (s t : State) : Prop where
  pending : t.pending = s.pending
  anchor : t.anchor = s.anchor
  eventMask : t.eventMask = s.eventMask
  faultAddress : t.faultAddress = s.faultAddress
  faultCount : t.faultCount = s.faultCount
  adapter : t.adapter = s.adapter
  loading : t.loading = s.loading
  orphans : t.orphans = s.orphans
  settings : t.settings = s.settings
  issueNumber : t.issueNumber = s.issueNumber
  armFifo : t.armFifo = s.armFifo
  sweepPending : t.sweepPending = s.sweepPending
  job : t.job = s.job
  phase : t.phase = s.phase
  clock : t.clock = s.clock
  lastIssued : t.lastIssued = s.lastIssued
  groups : t.groups = s.groups
  idleArms : t.idleArms = s.idleArms
  coalesced : t.coalesced = s.coalesced
  holdoff : t.holdoff = s.holdoff
  resets : t.resets = s.resets
  event : s.event &&& t.event = s.event
  interrupt : s.interrupt = assertion s.event s.eventMask → t.interrupt = assertion t.event t.eventMask
  outbound : ∃ l, t.outbound = s.outbound ++ l ∧ ∀ o ∈ l, o = .interrupt
  queue : ∃ l, t.queue = s.queue ++ l
  slots : SlotsKept s t
  ctxs : ∀ c, CtxKept (s.ctx c) (t.ctx c)
  streams : ∀ n, (s.stream n).Same (t.stream n)
  targets : ∀ u, (s.target u).Same (t.target u)
  paths : ∀ p, (s.path p).Same (t.path p)
  ports : ∀ i, (s.port i).Same (t.port i)

/-- What the course of exchanges leaves of a path: all but its in-flight count, and the end of a fence that
waited for it (R51, R114). -/
def PathRec.Coursed (a b : PathRec) : Prop :=
  b = { a with inflight := b.inflight } ∨
    (a.health = .draining ∧ a.fence = true ∧ b.health = .fenced ∧
      b = { a with
        health := .fenced
        inflight := b.inflight
        strikes := 0
        proving := 0
        lastUp := none
        outstanding := none
        markA := .idle
        markB := .idle
        hold := .idle
        stability := .idle
        drain := .idle
        counters := { a.counters with transitions := b.counters.transitions } })

/-- What the course of exchanges leaves of a port: all but its lanes and masks. -/
def PortRec.Coursed (a b : PortRec) : Prop :=
  b = { a with lanes := b.lanes, laneMasks := b.laneMasks, chit2 := b.chit2, chit3 := b.chit3 }

/-! ### Routes (R54, R55) -/

/-- The Path List in force for a context's stream (R54). -/
def State.routeList (s : State) (x : Context) : List PathId :=
  (s.targetDesc (s.streamDesc x.stream).target).pathList

/-- R54: the candidates of a selection. -/
structure State.Candidate (s : State) (x : Context) (p : PathId) : Prop where
  listed : p ∈ s.routeList x
  permitted : (s.streamDesc x.stream).permits.getLsbD p.val = true
  copied : (s.path p).contents.isSome = true
  served : (s.path p).health = .up ∨ (s.path p).health = .suspect

/-- R54: the tier in use: the candidates in UP, and with none those in SUSPECT. -/
def State.InTier (s : State) (x : Context) (p : PathId) : Prop :=
  s.Candidate x p ∧ ((∃ q, s.Candidate x q ∧ (s.path q).health = .up) → (s.path p).health = .up)

/-- R54: what is priced: the tier in use without the exchange's failed paths, and the whole tier where they are
all of it. -/
def State.Priced (s : State) (x : Context) (p : PathId) : Prop :=
  s.InTier x p ∧ (p ∈ x.failed → ∀ q, s.InTier x q → q ∈ x.failed)

/-- R55: the price of a path, in-flight work included. -/
def PathRec.routeCost (r : PathRec) : Nat :=
  (r.inflight + 1) * ((if r.samples = 0 then 1000000 else r.srtt) * if r.slow then 4 else 1)

/-- R55: of the paths that `allowed` names, `p` has the lowest cost, and of those with that cost it stands first
in the Path List. -/
def State.Best (s : State) (x : Context) (allowed : PathId → Prop) (p : PathId) : Prop :=
  allowed p ∧ ∀ q, allowed q → (s.path p).routeCost ≤ (s.path q).routeCost ∧
    ((s.path q).routeCost = (s.path p).routeCost → (s.routeList x).idxOf p ≤ (s.routeList x).idxOf q)

/-! ### Dispatch (R40 to R44) -/

/-- R41, R42: how many dispatch decisions a test of a stream makes in turn: none where a condition fails, and
otherwise as many as its pending list and its dispatch limit allow. -/
def StreamEntry.decisions (e : StreamEntry) (a : AdapterState) : Nat :=
  match e.contents with
  | none => 0
  | some d =>
      if (a = .running ∨ a = .quiescing) ∧ e.state = .open ∧ e.load ≠ .reloading ∧
          e.load ≠ .loading false ∧ e.load ≠ .loading true then
        min e.pendingList.length
          ((if e.mode = .ordered ∨ d.mode = .ordered then 1 else d.window) - e.inflight)
      else 0

/-- R57: a path in UP that context `y` may use, of the fabric that path `first` is not of. -/
def State.OtherFabric (t : State) (y : Context) (first q : PathId) : Prop :=
  t.Candidate y q ∧ (t.path q).health = .up ∧
    ∃ i j, t.pathPort q = some i ∧ t.pathPort first = some j ∧ (2 ≤ i.val ↔ j.val < 2)

/-- R41, R44, R55 to R57, R59: a dispatch decision has handed context `c`, now `y`, to route selection: it is ACTIVE
with a first attempt QUEUED on the path of lowest cost, one of a pair where one is sought and found, or without a
candidate PARKED, with what was to be placed kept. -/
structure FirstDispatched (t : State) (c : CtxId) (y : Context) : Prop where
  placed : (∃ p, t.Candidate y p) → y.state = .active ∧ y.parked = none ∧
    ∃ a ∈ y.attempts, a.state = .queued ∧ a.gen = 0 ∧ a.redrive = false ∧ a.number = none ∧
      t.Best y (t.Priced y) a.path ∧
      (∃ i lane endpoint, .request c a.id a.path endpoint ∈ (t.port i).lanes.get lane) ∧
      ((t.streamDesc y.stream).twin = true ∧ y.kind = .query ∧ 2 ≤ (t.streamDesc y.stream).maxAttempts ∧
          (t.path a.path).health = .up ∧ (∃ q, t.OtherFabric y a.path q) →
        ∃ b ∈ y.attempts, a.twin = some b.id ∧ b.twin = some a.id ∧ b.state = .queued ∧
          t.OtherFabric y a.path b.path) ∧
      ((t.streamDesc y.stream).twin = false ∨ y.kind = .commit ∨ (t.streamDesc y.stream).maxAttempts < 2 ∨
          (t.path a.path).health ≠ .up ∨ (∀ q, ¬t.OtherFabric y a.path q) → a.twin = none)
  parked : (∀ p, ¬t.Candidate y p) → y.state = .parked ∧
    y.parked = some
      { gen := 0, redrive := false, pair := (t.streamDesc y.stream).twin && y.kind == .query } ∧
    c ∈ (t.target (t.streamDesc y.stream).target).park

/-- R40 to R42: stream `n`, whose entry the dispatch test found as `e`, stands as its decisions leave it: so many heads
have left the pending list, each counts in flight and has been handed to route selection, and the mode in force is that
of the contents once a decision has been made. The contexts named stand in `s`. -/
structure Dispatched (s t : State) (n : StreamId) (e : StreamEntry) : Prop where
  list : (t.stream n).pendingList = e.pendingList.drop (e.decisions t.adapter)
  inflight : (t.stream n).inflight = e.inflight + e.decisions t.adapter
  held : e.decisions t.adapter = 0 → (t.stream n).mode = e.mode
  mode : ∀ d, e.contents = some d → 0 < e.decisions t.adapter → (t.stream n).mode = d.mode
  state : (t.stream n).state = e.state
  taken : ∀ c ∈ e.pendingList.take (e.decisions t.adapter), ∀ x, s.ctx c = some x → x.state = .pending →
    x.stream = n → ∃ y, t.ctx c = some y ∧ x.Kept y ∧ FirstDispatched t c y

/-- R40, R41, R43: what the completion of context `c`, live as `x` in `s`, with a status does to its stream: a PENDING
context leaves the list; one beyond it no longer counts in flight, IN_DOUBT with Stop On Doubt stalls the stream, with
STREAM_STALLED raised where it was OPEN, and the dispatch decision is tested. -/
structure StreamLeft (s t : State) (c : CtxId) (x : Context) (status : Status) : Prop where
  pending : x.state = .pending → t.event = s.event ∧ t.stream x.stream =
    { s.stream x.stream with pendingList := (s.stream x.stream).pendingList.filter fun d => decide (d ≠ c) }
  beyond : x.state ≠ .pending → (s.stream x.stream).InForce → Dispatched s t x.stream
    { s.stream x.stream with
      inflight := (s.stream x.stream).inflight - 1
      state :=
        if status = .inDoubt ∧ (s.streamDesc x.stream).stopOnDoubt = true then .stalled
        else (s.stream x.stream).state }
  event : x.state ≠ .pending → t.event = (s.event |||
    if status = .inDoubt ∧ (s.streamDesc x.stream).stopOnDoubt = true ∧ (s.stream x.stream).state = .open then
      0x008
    else 0)
  others : ∀ m, m ≠ x.stream → t.stream m = s.stream m

/-- R43, R41: an exchange of stream `n` has completed IN_DOUBT, among all that a command has done: with Stop On Doubt
the stream is STALLED, with STREAM_STALLED raised where it was OPEN, and without it its state stands; no dispatch
decision is left to make. -/
structure Doubted (s t : State) (n : StreamId) : Prop where
  stalled : (s.streamDesc n).stopOnDoubt = true →
    (t.stream n).state = .stalled ∧ ((s.stream n).state = .open → t.event &&& 0x008 = 0x008)
  unstalled : (s.streamDesc n).stopOnDoubt = false → (t.stream n).state = (s.stream n).state
  tested : (t.stream n).decisions t.adapter = 0

/-! ### Completions and arrivals -/

/-- R2, R22, R41, R154: context `c`, live as `x`, has entered CLOSING as `y` with result `r`: its times and counts
fixed, its timers cancelled, no attempt QUEUED or SENT, and its place in the completion queue taken; where it was
beyond PENDING, its stream is left with no dispatch decision to make. -/
structure Completed (s t : State) (c : CtxId) (x y : Context) (r : Result) : Prop where
  before : s.ctx c = some x
  after : t.ctx c = some y
  kept : x.Kept y
  closing : y.state = .closing
  result : y.result = some r
  done : r.done = s.clock
  issue : r.issue = x.issue
  taken : r.taken = x.taken
  used : r.attemptsUsed = x.attempts.countP (·.number.isSome)
  finalGen : r.finalGen = x.lastGen
  timers : y.reply0 = .idle ∧ y.reply1 = .idle ∧ y.inquiryTimer = .idle ∧ y.deadlineTimer = .idle ∧
    y.waitTimer = .idle
  attempts : ∀ b ∈ y.attempts, b.state ≠ .queued ∧ b.state ≠ .sent
  queued : ∃ l, t.queue = s.queue ++ l ∧ c ∈ l
  tested : x.state ≠ .fetching → x.state ≠ .pending → (t.stream x.stream).decisions t.adapter = 0

/-- R68, R85: port `i` takes frame `f` and finds path `p` by its source. -/
structure TakenFor (s : State) (i : PortId) (f : EthFrame) (p : PathId) : Prop where
  works : s.adapter.works = true
  port : (s.port i).state ≠ .down
  check : f.checkOk = true
  accepted : ∃ cfg, s.settings = some cfg ∧ f.dest = cfg.portAddr.get i ∧ f.etype = cfg.frameType
  source : s.sourcePath i f.src = some p

/-- R69: the state with Frames Received of port `i` raised. -/
def State.counted (s : State) (i : PortId) : State :=
  s.modPort i fun r => { r with framesReceived := r.framesReceived + 1 }

/-! ### Inquiries and their limit (R134, R137, R142) -/

/-- R142, R56, R59, R43: an inquiry of generation `gen` has been asked for from `x`, whose record stands at the counts
given: at the Inquiry Limit the exchange completes IN_DOUBT, and below it the inquiry is QUEUED or parked. -/
def Asked (s t : State) (c : CtxId) (x y : Context) (count timeouts gen : Nat) : Prop :=
  ((s.streamDesc x.stream).inquiryLimit ≤ count →
    (∃ r, Completed s t c x y r ∧ r.status = .inDoubt) ∧ Doubted s t x.stream) ∧
  (count < (s.streamDesc x.stream).inquiryLimit → y.state = .resolving ∧ ∃ w, y.inquiry = some w ∧
    w.count = count ∧ w.timeouts = timeouts ∧ w.gen = gen ∧
    (w.state = some .queued ∨ w.state = some .waiting ∧ w.path = none))

/-- R137: each SENT inquiry on path `p` ends with the loss of the path: its timer is cancelled, its timeout count is
not raised, the path joins the failed paths, and the next inquiry is asked for. `own` names the exchange whose own
answer or expiry is the event being taken, if one is: its course follows that event. (A context in RESOLVING has no
live attempt, stands in no pending list and, its inquiry SENT, has no frame in a lane in any state a run reaches,
R132, R40, R21.) -/
def InquiriesLost (s t : State) (p : PathId) (own : Option CtxId) : Prop :=
  ∀ c x q, s.ctx c = some x → own ≠ some c → x.state = .resolving →
    (∀ a ∈ x.attempts, a.state ≠ .queued ∧ a.state ≠ .sent) → (∀ m, c ∉ (s.stream m).pendingList) →
    (∀ i lane, ∀ e ∈ (s.port i).lanes.get lane, e.ctxOf ≠ some c) →
    x.inquiry = some q → q.state = some .sent → q.path = some p →
    ∃ y, t.ctx c = some y ∧ p ∈ y.failed ∧ y.inquiryTimer = .idle ∧ Asked s t c x y q.count q.timeouts q.gen

/-! ### Attempts that end LOST (R124, R126, R127, R129, R132, R134) -/

/-- R54, R56, R59: an attempt of generation `gen` has been offered for context `c`, which held `n` attempt records and
is now `y`: with a candidate for `x` it is QUEUED on one, and without it waits in the park list of its target. -/
structure Offered (t : State) (c : CtxId) (x y : Context) (n gen : Nat) (redrive : Bool) : Prop where
  placed : (∃ q, t.Candidate x q) → y.state = .active ∧ y.parked = none ∧ y.attempts.length = n + 1 ∧
    ∃ b, y.attempts.getLast? = some b ∧ b.state = .queued ∧ b.number = none ∧ b.twin = none ∧ b.gen = gen ∧
      b.redrive = redrive ∧ t.Candidate x b.path
  parked : (∀ q, ¬t.Candidate x q) → y.state = .parked ∧ y.attempts.length = n ∧
    y.parked = some { gen := gen, redrive := redrive, pair := false } ∧
    c ∈ (t.target (t.streamDesc x.stream).target).park

/-- No frame of context `c` waits in a lane of the port that path `p` names. -/
def State.FrameFree (s : State) (c : CtxId) (p : PathId) : Prop :=
  ∀ i, s.pathPort p = some i → ∀ lane, ∀ e ∈ (s.port i).lanes.get lane, e.ctxOf ≠ some c

/-- R124, R126: the SENT attempts on path `p` have ended LOST with it. Each has its state, its path joins the failed
paths, its reply timer is cancelled, and the count k of R52 is not raised. R129, R127: then a query is left to its
live twin, re-driven with generation 0, or without room completed TIMEOUT. R132, R134, R142: a commit enters RESOLVING
and asks for an inquiry about the generation of that attempt, or completes IN_DOUBT. `own` is as in InquiriesLost. (In
every state a run reaches the ids of a context's attempts differ, a context with a SENT attempt is ACTIVE, stands in
no pending list and has no frame in a lane of that attempt's port, a pair being on two fabrics.) -/
structure AttemptsLost (s t : State) (p : PathId) (own : Option CtxId) : Prop where
  lost : ∀ c x a, s.ctx c = some x → own ≠ some c → x.state ≠ .closing → a ∈ x.attempts → a.state = .sent →
    a.path = p → ∃ y b, t.ctx c = some y ∧ p ∈ y.failed ∧ y.timeouts = x.timeouts ∧ b ∈ y.attempts ∧ a.GoesOn b ∧
      b.state = .lost ∧ (x.serves0 = some a.id → y.reply0 = .idle) ∧ (x.serves1 = some a.id → y.reply1 = .idle)
  twin : ∀ c x a, s.ctx c = some x → own ≠ some c → x.state = .active → x.kind = .query →
    x.attempt a.id = some a → a.state = .sent → a.path = p → (∃ b ∈ x.attempts, b ≠ a ∧ b.live = true) →
    (∀ b ∈ x.attempts, b.live = true → b ≠ a → b.id ≠ a.id ∧ s.pathPort b.path ≠ s.pathPort p) →
    (∀ m, c ∉ (s.stream m).pendingList) → s.FrameFree c p → ∃ y, t.ctx c = some y ∧ y.state = .active ∧
      y.attempts = x.attempts.map fun b => if b.id = a.id ∧ b.state = .sent then { b with state := .lost } else b
  alone : ∀ c x a, s.ctx c = some x → own ≠ some c → x.state = .active → x.attempt a.id = some a →
    a.state = .sent → a.path = p → x.attempts.countP (·.live) = 1 → (∀ m, c ∉ (s.stream m).pendingList) →
    s.FrameFree c p → ∃ y, t.ctx c = some y ∧
      (x.kind = .query → x.attempts.length < (s.streamDesc x.stream).maxAttempts →
        Offered t c x y x.attempts.length 0 true) ∧
      (x.kind = .query → (s.streamDesc x.stream).maxAttempts ≤ x.attempts.length →
        ∃ r, Completed s t c x y r ∧ r.status = .timeout) ∧
      (x.kind = .commit → Asked s t c x y ((x.inquiry.map (·.count)).getD 0)
        ((x.inquiry.map (·.timeouts)).getD 0) a.gen)

/-! ### Frames withdrawn from a path that leaves service (R58, R78) -/

/-- R78, R104: path `p` has left its state for one without work: its PROBE is gone from the lanes of its port and, where
it left UP or SUSPECT, its REQUEST and INQUIRY frames are. -/
def FramesGone (s t : State) (p : PathId) : Prop :=
  ∀ i, s.pathPort p = some i → ∀ lane, ∀ e ∈ (t.port i).lanes.get lane,
    e.isProbeOf p = false ∧ ((s.path p).health.inService = true → e.workOn p = false)

/-- R58, R78, R127, R137, R142: path `p` has left UP or SUSPECT, and what waited in its lanes has been withdrawn. An
attempt whose twin partner is live is deleted, and the partner goes on alone; any other is replaced, with its
generation and its re-drive mark, where a candidate is left, or parked, and without room for the replacement its
exchange completes. An inquiry is routed again, its count as it was, or at the Inquiry Limit its exchange completes
IN_DOUBT. `own` is as in InquiriesLost. (In every state a run reaches the ids of a context's attempts differ, a pair is
on two fabrics, a context beyond PENDING stands in no pending list, and one in RESOLVING has no live attempt.) -/
structure Replaced (s t : State) (p : PathId) (own : Option CtxId) : Prop where
  partner : ∀ i c x a lane endpoint, (s.path p).health.inService = true → s.pathPort p = some i →
    .request c a.id p endpoint ∈ (s.port i).lanes.get lane →
    (∀ l, ∀ e ∈ (s.port i).lanes.get l, e.ctxOf = some c → ∃ w, e = .request c a.id p w) →
    s.ctx c = some x → own ≠ some c → x.state = .active → x.attempt a.id = some a → a.state = .queued →
    (∃ b ∈ x.attempts, b.twin = some a.id ∧ b.live = true) →
    (∀ b ∈ x.attempts, b.live = true → b ≠ a → b.id ≠ a.id ∧ s.pathPort b.path ≠ s.pathPort p) →
    (∀ m, c ∉ (s.stream m).pendingList) → ∃ y, t.ctx c = some y ∧ y.state = .active ∧
      y.attempts = (x.attempts.filter fun b => !(b.id == a.id && b.state == .queued)).map fun b =>
        if b.twin = some a.id then { b with twin := none } else b
  attempt : ∀ i c x a lane endpoint, (s.path p).health.inService = true → s.pathPort p = some i →
    .request c a.id p endpoint ∈ (s.port i).lanes.get lane → s.ctx c = some x → own ≠ some c → x.state = .active →
    x.attempt a.id = some a → a.state = .queued → a.twin ≠ some a.id → x.attempts.countP (·.live) = 1 →
    (∀ m, c ∉ (s.stream m).pendingList) → ∃ y, t.ctx c = some y ∧
      (x.attempts.length ≤ (s.streamDesc x.stream).maxAttempts →
        Offered t c x y (x.attempts.length - 1) a.gen a.redrive) ∧
      ((s.streamDesc x.stream).maxAttempts < x.attempts.length → ∃ r, Completed s t c x y r)
  inquiry : ∀ i c x w lane endpoint, (s.path p).health.inService = true → s.pathPort p = some i →
    .inquiry c p endpoint ∈ (s.port i).lanes.get lane → s.ctx c = some x → own ≠ some c → x.state = .resolving →
    x.inquiry = some w → w.state = some .queued → w.path = some p → (∀ a ∈ x.attempts, a.live = false) →
    (∀ m, c ∉ (s.stream m).pendingList) → ∃ y, t.ctx c = some y ∧ Asked s t c x y w.count w.timeouts w.gen ∧
      (w.count < (s.streamDesc x.stream).inquiryLimit → ∃ v, y.inquiry = some v ∧
        ((∃ q, t.Candidate x q) → v.state = some .queued ∧ ∃ q, v.path = some q ∧ t.Candidate x q) ∧
        ((∀ q, ¬t.Candidate x q) → v.state = some .waiting ∧
          c ∈ (t.target (t.streamDesc x.stream).target).park))

/-- R113, R114, R137: path `p` drains or is fenced without a loss: its SENT attempts and inquiries stay SENT, but those
of an exchange that completes among the decisions of the step. (A SENT inquiry has no frame in a lane in any state a
run reaches, R21.) -/
structure SentStays (s t : State) (p : PathId) : Prop where
  attempts : ∀ c x a, s.ctx c = some x → a ∈ x.attempts → a.state = .sent → a.path = p → ∃ y, t.ctx c = some y ∧
    (y.state = .closing ∨ ∃ b ∈ y.attempts, a.GoesOn b ∧ b.state = .sent)
  inquiries : ∀ c x w, s.ctx c = some x → x.inquiry = some w → w.state = some .sent → w.path = some p →
    s.FrameFree c p → ∃ y, t.ctx c = some y ∧ (y.state = .closing ∨ y.inquiry = some w)

/-! ### Hand-outs of a change of health (R60, R104, R120, R158) -/

/-- R120: the reachability `r` that the health states of the paths of a list give. -/
structure ReachIs (t : State) (paths : List PathId) (r : Reach) : Prop where
  reachable : r = .reachable ↔ ∃ p ∈ paths, (t.path p).health = .up
  degraded : r = .degraded ↔
    (∀ p ∈ paths, (t.path p).health ≠ .up) ∧ ∃ p ∈ paths, (t.path p).health = .suspect

/-- R104, R120, R158: a change of the health state of path `p` has been handed out: the path's part of the Digest
waits with an event mark, which raises PATH_CHANGE at its rewrite (R159); each target whose list holds the path has
its reachability recomputed, and the part of one whose reachability changed waits with an event mark, which raises
TARGET_CHANGE. -/
structure HandedOut (s t : State) (p : PathId) : Prop where
  reported : { part := .path p, event := true } ∈ t.rewrites
  reach : ∀ u, p ∈ (s.targetDesc u).pathList → ReachIs t (s.targetDesc u).pathList (t.target u).reach
  changed : ∀ u, p ∈ (s.targetDesc u).pathList → (t.target u).reach ≠ (s.target u).reach →
    { part := .target u, event := true } ∈ t.rewrites

/-- R59: context `c`, live as `x`, waits in the park list of target `u`, to which it is routed and whose list holds
path `p`. (It then stands in no pending list, has no live attempt and no frame in a lane, in any state a run reaches,
R40, R59, R132.) -/
structure State.WaitsFor (s : State) (p : PathId) (u : TargetId) (c : CtxId) (x : Context) : Prop where
  listed : p ∈ (s.targetDesc u).pathList
  parked : c ∈ (s.target u).park
  live : s.ctx c = some x
  routed : (s.streamDesc x.stream).target = u
  unlisted : ∀ m, c ∉ (s.stream m).pendingList
  idle : ∀ a ∈ x.attempts, a.state ≠ .queued ∧ a.state ≠ .sent
  frameless : ∀ i lane, ∀ e ∈ (s.port i).lanes.get lane, e.ctxOf ≠ some c

/-- R60, R53, R127, R142: path `p` has entered UP or SUSPECT and the park lists of its targets have been released: each
exchange that waited there, but `own` (as in InquiriesLost), is placed where it has a candidate, and else waits there
again; one without room, or at the Inquiry Limit, completes. -/
structure Released (s t : State) (p : PathId) (own : Option CtxId) : Prop where
  attempts : ∀ u c x q, s.WaitsFor p u c x → own ≠ some c → x.state = .parked → x.parked = some q → ∃ y, t.ctx c = some y ∧
    (x.attempts.length < (s.streamDesc x.stream).maxAttempts →
      ((∃ p', t.Candidate x p') → y.state = .active ∧ y.parked = none ∧ ∃ b ∈ y.attempts,
        b.state = .queued ∧ b.gen = q.gen ∧ b.redrive = q.redrive ∧ t.Candidate x b.path) ∧
      ((∀ p', ¬t.Candidate x p') → y.state = .parked ∧ y.parked = some q ∧ c ∈ (t.target u).park)) ∧
    ((s.streamDesc x.stream).maxAttempts ≤ x.attempts.length → ∃ r, Completed s t c x y r)
  inquiries : ∀ u c x w, s.WaitsFor p u c x → own ≠ some c → x.state = .resolving → x.inquiry = some w → ∃ y, t.ctx c = some y ∧
    ((s.streamDesc x.stream).inquiryLimit ≤ w.count →
      (∃ r, Completed s t c x y r ∧ r.status = .inDoubt) ∧ Doubted s t x.stream) ∧
    (w.count < (s.streamDesc x.stream).inquiryLimit → y.state = .resolving ∧ ∃ v, y.inquiry = some v ∧
      v.count = w.count ∧ v.gen = w.gen ∧
      ((∃ p', t.Candidate x p') → v.state = some .queued ∧ ∃ p', v.path = some p' ∧ t.Candidate x p') ∧
      ((∀ p', ¬t.Candidate x p') → v.state = some .waiting ∧ v.path = none ∧ c ∈ (t.target u).park))

/-! ### Strikes and falls (R101 to R107, R119) -/

/-- R102: the state of a path in UP or SUSPECT once its strikes have changed to `n`. -/
def State.judged (s : State) (p : PathId) (n : Nat) : Health :=
  if (s.pathDesc p).downThreshold ≤ n then .down
  else if (s.path p).health = .up then
    if (s.pathDesc p).suspectThreshold ≤ n then .suspect else .up
  else if n = 0 ∧ ∀ i, s.pathPort p = some i → (s.port i).state ≠ .suspect then .up
  else .suspect

/-- R106: an entry of path `p` to DOWN raises its flap level. -/
def State.FlapRises (s : State) (p : PathId) : Prop :=
  (s.path p).health = .recovering ∨
    (s.path p).health.inService = true ∧ ∃ u, (s.path p).lastUp = some u ∧
      (s.clock - u).toNat < 1000 * (s.pathDesc p).stabilityPeriod

/-- R104 to R107: path `p` of `s` has entered DOWN in `t`: begun anew, hold-down started for its flap level,
its flags and estimate kept, the change counted and handed out, no live exchange with a SENT attempt on it, its SENT
attempts and inquiries lost with what follows, and its waiting frames withdrawn and replaced (`own` is as in
InquiriesLost). -/
structure Fallen (s t : State) (p : PathId) (own : Option CtxId) : Prop where
  health : (t.path p).health = .down
  strikes : (t.path p).strikes = 0
  proving : (t.path p).proving = 0
  ended : (t.path p).holdEnded = false
  lastUp : (t.path p).lastUp = none
  outstanding : (t.path p).outstanding = none
  probing : (t.path p).markA = .idle ∧ (t.path p).markB = .idle
  stability : (s.path p).health = .up → (t.path p).stability = .idle
  flags : (t.path p).fence = (s.path p).fence ∧ (t.path p).drill = (s.path p).drill
  raised : s.FlapRises p → (t.path p).flap = min 6 ((s.path p).flap + 1)
  level : ¬s.FlapRises p → (t.path p).flap = (s.path p).flap
  hold : (t.path p).hold =
    .running s.clock (1000 * min 64000 ((s.pathDesc p).holdBase * 2 ^ (t.path p).flap))
  lost : ∀ c x a, t.ctx c = some x → x.state ≠ .closing → a ∈ x.attempts → a.path = p → a.state ≠ .sent
  attempts : AttemptsLost s t p own
  inquiries : InquiriesLost s t p own
  lanes : FramesGone s t p
  replaced : Replaced s t p own
  counted : (t.path p).counters.transitions = (s.path p).counters.transitions + 1
  handed : HandedOut s t p

/-- R119: port `i` trips at an entry to DOWN at the clock of `s`: it is not DOWN, and the correlation list with
that time in it holds the Correlation Threshold of times within the window. -/
def State.Trips (s : State) (i : PortId) : Prop :=
  (s.port i).state ≠ .down ∧ ∃ cfg, s.settings = some cfg ∧
    cfg.corrThreshold ≤
      (((s.port i).downTimes ++ [s.clock]).drop ((s.port i).downTimes.length - 7)).countP
        fun u => decide ((s.clock - u).toNat < 1000 * cfg.corrWindow)

/-- R119, R66: what an entry of path `p` of port `i` to DOWN, with cause STRIKES or PROVING, does to the
correlation list of the port, to its state, and to its other paths, each change handed out (R158) and each entry to
SUSPECT releasing park lists (R60). -/
structure Correlated (s t : State) (i : PortId) (p : PathId) (own : Option CtxId) : Prop where
  times : (t.port i).downTimes =
    ((s.port i).downTimes ++ [s.clock]).drop ((s.port i).downTimes.length - 7)
  trip : s.Trips i → (t.port i).state = .suspect ∧
    (t.port i).correlationTrips =
      (s.port i).correlationTrips + (if (s.port i).state = .up then 1 else 0) ∧
    ((s.port i).state = .up → ∃ b, { part := .port i, event := b } ∈ t.rewrites) ∧
    ∀ q, q ≠ p → s.pathPort q = some i → (s.path q).health = .up →
      (t.path q).health = .suspect ∧ (t.path q).flap = (s.path q).flap ∧
      (t.path q).strikes = max (s.path q).strikes (s.pathDesc q).suspectThreshold ∧
      HandedOut s t q ∧ Released s t q own
  noTrip : ¬s.Trips i → (t.port i).state = (s.port i).state ∧
    (t.port i).correlationTrips = (s.port i).correlationTrips
  others : ∀ q, q ≠ p → (s.path q).health ≠ .draining →
    (s.Trips i → ¬(s.pathPort q = some i ∧ (s.path q).health = .up)) →
    (t.path q).health = (s.path q).health ∧ (t.path q).strikes = (s.path q).strikes

/-- R102, R105: path `p`, in UP or SUSPECT in `s`, has taken the strikes `n` and been judged. Its summary waits for its
rewrite (R158); a move between UP and SUSPECT is handed out and releases park lists (R60). -/
structure StrikesBecome (s t : State) (p : PathId) (n : Nat) (own : Option CtxId) : Prop where
  same : n = (s.path p).strikes →
    (t.path p).health = (s.path p).health ∧ (t.path p).strikes = n
  kept : n ≠ (s.path p).strikes → s.judged p n ≠ .down →
    (t.path p).health = s.judged p n ∧ (t.path p).strikes = n ∧
    (∃ b, { part := .path p, event := b } ∈ t.rewrites) ∧
    (s.judged p n ≠ (s.path p).health → HandedOut s t p ∧ Released s t p own)
  fell : n ≠ (s.path p).strikes → s.judged p n = .down →
    Fallen s t p own ∧ ∀ i, s.pathPort p = some i → Correlated s t i p own

/-- R101, R103: path `p` has taken a strike event of amount `n`, a probe miss, a malformed arrival or a reply
timeout. -/
structure Struck (s t : State) (p : PathId) (n : Nat) (own : Option CtxId) : Prop where
  served : (s.path p).health.inService = true →
    StrikesBecome s t p (min 15 ((s.path p).strikes + n)) own
  proving : (s.path p).health = .recovering →
    Fallen s t p own ∧ ∀ i, s.pathPort p = some i → Correlated s t i p own
  unmoved : (s.path p).health = .untried ∨ (s.path p).health = .down ∨ (s.path p).health = .fenced →
    (t.path p).health = (s.path p).health ∧ (t.path p).strikes = (s.path p).strikes

/-! ### Accepted losses (R66, R67, R117) -/

/-- R67, R117: the loss of carrier on port `i` has been accepted in a state in which the adapter works: the port is
DOWN with empty lanes and clear masks, no correlation list changes, and each path of the port that is not FENCED is
DOWN, one already there with its hold-down as it was. -/
structure CarrierLost (s t : State) (i : PortId) : Prop where
  port : (t.port i).state = .down
  reported : (s.port i).state ≠ .down → ∃ b, { part := .port i, event := b } ∈ t.rewrites
  lanes : ∀ lane, (t.port i).lanes.get lane = []
  masks : (∀ lane, (t.port i).laneMasks.get lane = false) ∧ (t.port i).chit2 = false ∧ (t.port i).chit3 = false
  times : ∀ j, (t.port j).downTimes = (s.port j).downTimes
  fenced : ∀ p, s.pathPort p = some i → (s.path p).health = .fenced → (t.path p).health = .fenced
  fell : ∀ p, s.pathPort p = some i → (s.path p).health ≠ .fenced → (s.path p).health ≠ .down → Fallen s t p none
  down : ∀ p, s.pathPort p = some i → (s.path p).health = .down →
    (t.path p).health = .down ∧ (t.path p).hold = (s.path p).hold ∧ (t.path p).flap = (s.path p).flap
  kept : ∀ p, (t.path p).fence = (s.path p).fence ∧ (t.path p).srtt = (s.path p).srtt

/-- R66, R117, R111: carrier's return on port `i` has been accepted: the port is UP, and where the adapter works
probing has begun on each path of the port that is UNTRIED, or DOWN past its hold-down, and on no other path that was
not probed before. No path changes its state, and no exchange changes. -/
structure CarrierReturned (s t : State) (i : PortId) : Prop where
  port : (t.port i).state = .up ∧ (t.port i).filter = .present ∧ (t.port i).filterTimer = .idle
  reported : (s.port i).state ≠ .up → ∃ b, { part := .port i, event := b } ∈ t.rewrites
  halted : s.adapter.works = false →
    t = s.setPort i { s.port i with state := .up, filter := .present, filterTimer := .idle }
  begins : s.adapter.works = true → ∀ p, s.pathPort p = some i → (s.path p).markB = .idle →
    (s.path p).health = .untried ∨ (s.path p).health = .down ∧ (s.path p).holdEnded = true →
    (t.path p).markB = .running s.clock (1000 * (s.pathDesc p).fastInterval) ∧
      ((t.port i).lanes.get 0).any (·.isProbeOf p) = true
  waits : ∀ p, (s.path p).markB = .idle → s.pathPort p ≠ some i ∨ (s.path p).health = .draining ∨
    (s.path p).health = .fenced ∨ (s.path p).health = .down ∧ (s.path p).holdEnded = false →
    (t.path p).markB = .idle
  kept : t.ctxs = s.ctxs ∧ ∀ p, (t.path p).health = (s.path p).health

/-! ### Path losses (R118) -/

/-- R118, R105, R137: path `p` is lost, the contents of its copy in `t` being those now in force: no estimate, a health
record begun anew, every timer cancelled, no correlation list changed; its SENT work ends LOST, its frames, the ECHO
too, leave the lanes of the port named before, and what waited there is replaced. It is FENCED or UNTRIED, and probed
from the start where it is UNTRIED and the port now named is not DOWN; a path that stays in its state is not reported as
changed. -/
structure PathLost (s t : State) (p : PathId) : Prop where
  estimate : (t.path p).samples = 0 ∧ (t.path p).srtt = 0 ∧ (t.path p).rttvar = 0 ∧ (t.path p).slow = false
  record : (t.path p).strikes = 0 ∧ (t.path p).proving = 0 ∧ (t.path p).flap = 0 ∧ (t.path p).lastUp = none ∧
    (t.path p).outstanding = none
  timers : (t.path p).markA = .idle ∧ (t.path p).hold = .idle ∧ (t.path p).stability = .idle ∧
    (t.path p).drain = .idle
  flags : (t.path p).fence = (s.path p).fence ∧ (t.path p).drill = (s.path p).drill
  health : (t.path p).health =
    (if (s.path p).health = .fenced ∨
        ((s.path p).health = .draining ∨ (s.path p).health = .down) ∧ (s.path p).fence = true then .fenced
    else .untried)
  times : ∀ i, (t.port i).downTimes = (s.port i).downTimes
  attempts : AttemptsLost s t p none
  inquiries : InquiriesLost s t p none
  lanes : ∀ i, s.pathPort p = some i → ∀ lane, ∀ e ∈ (t.port i).lanes.get lane,
    e.workOn p = false ∧ e.isEchoOf p = false ∧
      (e.isProbeOf p = true → t.pathPort p = some i ∧ e = .probe p (s.path p).nextSeq)
  replaced : Replaced s t p none
  probed : ∀ i, t.pathPort p = some i → (s.port i).state ≠ .down → (t.path p).health = .untried →
    (t.path p).markB = .running s.clock (1000 * (t.pathDesc p).fastInterval) ∧
      ((t.port i).lanes.get 0).any (·.isProbeOf p) = true
  unprobed : (t.path p).health = .fenced ∨ t.pathPort p = none ∨
    (∃ i, t.pathPort p = some i ∧ (s.port i).state = .down) → (t.path p).markB = .idle
  changed : (t.path p).health ≠ (s.path p).health → HandedOut s t p
  unchanged : (t.path p).health = (s.path p).health →
    (t.path p).counters.transitions = (s.path p).counters.transitions

/-! ### Answers taken by a path (R48, R50, R101) -/

/-- R48 to R50: path `p` has taken the sample `m`: one estimator update, and the latency band tested. -/
structure Sampled (s t : State) (p : PathId) (m : Nat) : Prop where
  samples : (t.path p).samples = ((s.path p).update m).samples
  srtt : (t.path p).srtt = ((s.path p).update m).srtt
  rttvar : (t.path p).rttvar = ((s.path p).update m).rttvar
  slow : (t.path p).slow = (if (s.pathDesc p).upperLatency = 0 then false
    else if (s.path p).slow then decide ((s.pathDesc p).lowerLatency < ((s.path p).update m).srtt)
    else decide ((s.pathDesc p).upperLatency < ((s.path p).update m).srtt))

/-- No sample of path `p` has been taken. -/
def Unsampled (s t : State) (p : PathId) : Prop :=
  (t.path p).samples = (s.path p).samples ∧ (t.path p).srtt = (s.path p).srtt ∧
    (t.path p).rttvar = (s.path p).rttvar ∧ (t.path p).slow = (s.path p).slow

/-- R101, R102, R50: path `p` has taken the credit of a good reply, one strike less and the judgement, after the strike
of a SLOW entry where its sample gave one; in the other states its strikes and its state stand, but that a path
DRAINING for its fence may have become FENCED with its last SENT work (R114). `own` is the exchange answered. -/
structure Credited (s t : State) (p : PathId) (own : Option CtxId) : Prop where
  credit : (t.path p).slow = false ∨ (s.path p).slow = true → (s.path p).health.inService = true →
    StrikesBecome s t p (min 15 ((s.path p).strikes - 1)) own
  slowed : (t.path p).slow = true → (s.path p).slow = false → (s.path p).health.inService = true →
    ∃ u, OnlyWork s u ∧ OnlyWork u t ∧ StrikesBecome s u p (min 15 ((s.path p).strikes + 1)) own ∧
      ((u.path p).health.inService = true → StrikesBecome u t p (min 15 ((u.path p).strikes - 1)) own) ∧
      ((u.path p).health = .down → (t.path p).health = .down)
  unmoved : (s.path p).health.inService = false → (s.path p).strikes = 0 ∨ (s.path p).health ≠ .draining →
    (t.path p).strikes = (s.path p).strikes ∧ ((t.path p).health = (s.path p).health ∨
      (s.path p).health = .draining ∧ (s.path p).fence = true ∧ (t.path p).health = .fenced)

/-! ### The record that the Fetch Engine is at (R5, R7, R17, R170) -/

/-- R5, R7, R17: `next` is what the Fetch Engine goes on to after record `n` of a run (`run`) or of a sweep: the run's
next record, for which it waits while the adapter takes no new work; the Owner word of the sweep's next record; or
nothing, at the last record and in a sweep that STOP has stopped. -/
def State.GoesTo (s : State) (n : Nat) (run : Bool) (next : State → State) : Prop :=
  (∃ left, s.job = .run n left ∧ run = true ∧ ∀ u : State, next u =
    if left ≤ 1 then { u with job := .none, phase := .idle }
    else { u with
      job := .run ((n + 1) % s.records) (left - 1)
      phase := if s.adapter = .running then .wantContext else .idle }) ∨
  ∃ stopped, s.job = .sweep n stopped ∧ run = false ∧ ∀ u : State, next u =
    if stopped = true ∨ s.records ≤ n + 1 then { u with job := .none, phase := .idle }
    else { u with
      job := .sweep (n + 1) false
      phase := .owner { addr := s.recordAddr (n + 1), len := 4, limit := .running s.clock 50000 } }

/-- R170: `close` is what follows the freeing of a context: in QUIESCING the last live one makes the adapter
QUIESCED. -/
def ClosesQuiescing (close : State → State) : Prop :=
  ∀ u : State, close u = if u.adapter = .quiescing ∧ u.liveCount = 0 then u.enterAdapter .quiesced else u

/-! ### The fetch that waits for a stream (R11, R12, R31, R33) -/

/-- R15: the fetch of context `c` has ended in a refusal. -/
def FetchRefused (t : State) (c : CtxId) (status : Status) : Prop :=
  (∀ d g, t.phase ≠ .stream d g) ∧ ∃ y res, t.ctx c = some y ∧ y.state = .closing ∧
    y.result = some res ∧ res.status = status

/-- R11, R12: at the end of a read of stream entry `n`, a fetch that waits for it goes on, under the contents `found`,
which are none after a failed read: NO_STREAM, LEVEL_DENIED, or the payload read (its limit is R163's as log 24 reads
it). A fetch that waits for another entry, and every other phase, stays. (A context in FETCHING stands in no pending
list, R40.) -/
structure FetchGoesOn (s t : State) (n : StreamId) (found : Option StreamDesc) : Prop where
  unasked : (∀ c f, s.phase = .stream c f → f.stream ≠ n) → t.phase = s.phase ∧ t.job = s.job
  refused : ∀ c f x, s.phase = .stream c f → f.stream = n → s.ctx c = some x → x.state = .fetching →
    (s.stream n).load = .loading false ∨ (∀ m, c ∉ (s.stream m).pendingList) →
    (∀ d, found = some d → d.present = false) → FetchRefused t c .noStream
  denied : ∀ c f x d, s.phase = .stream c f → f.stream = n → s.ctx c = some x → x.state = .fetching →
    (s.stream n).load = .loading false ∨ (∀ m, c ∉ (s.stream m).pendingList) →
    found = some d → d.present = true → d.level < s.effectiveLevel (x.exch.getD 0) f.level →
    FetchRefused t c .levelDenied
  fetched : ∀ c f x d, s.phase = .stream c f → f.stream = n → s.ctx c = some x → x.state = .fetching →
    (s.stream n).load = .loading false ∨ (∀ m, c ∉ (s.stream m).pendingList) →
    found = some d → d.present = true → s.effectiveLevel (x.exch.getD 0) f.level ≤ d.level →
    t.job = s.job ∧
    t.phase = .payload c { addr := f.reqAddr, len := f.reqLen, limit := .running s.clock 50000 } ∧
    (c ∉ (s.stream n).pendingList → t.ctx c = some
      { x with
        kind := f.kind
        stream := f.stream
        level := s.effectiveLevel (x.exch.getD 0) f.level
        deadlineMs := if f.deadlineMs = 0 then d.defaultDeadline else f.deadlineMs
        reqLen := f.reqLen
        replyAddr := f.replyAddr
        replyCap := f.replyCap })

/-! ### Reads that go on (R33) -/

/-- R33: the read of stream entry `n` has ended with the load state given; with Reload Again set the flag is cleared
and one more read has begun, its limit of R163 as log 24 reads it. -/
structure StreamReadOn (s t : State) (n : StreamId) (ended : LoadState) : Prop where
  cleared : (t.stream n).again = false
  once : (s.stream n).again = false → (t.stream n).load = ended ∧ (t.stream n).read = none
  more : (s.stream n).again = true →
    (t.stream n).load = (if ended = .notLoaded then .loading true else .reloading) ∧
    (t.stream n).read = some { addr := s.streamAddr n, len := 64, limit := .running s.clock 50000 }

/-- The same for a target entry. -/
structure TargetReadOn (s t : State) (u : TargetId) (ended : LoadState) : Prop where
  cleared : (t.target u).again = false
  once : (s.target u).again = false → (t.target u).load = ended ∧ (t.target u).read = none
  more : (s.target u).again = true → (t.target u).load = .reloading ∧
    (t.target u).read = some { addr := s.targetAddr u, len := 16, limit := .running s.clock 50000 }

/-- The same for a path copy. -/
structure PathReadOn (s t : State) (p : PathId) (ended : LoadState) : Prop where
  cleared : (t.path p).again = false
  once : (s.path p).again = false → (t.path p).load = ended ∧ (t.path p).read = none
  more : (s.path p).again = true → (t.path p).load = .reloading ∧
    (t.path p).read = some { addr := s.pathAddr p, len := 64, limit := .running s.clock 50000 }

/-! ### Work not yet transmitted at a reload (R37, R38, R58 to R60) -/

/-- R54 under new contents: some path can take work, of those that `fits` names. Health states and path copies do not
change at the end of a read of a stream or a target. -/
def State.CanPlace (s : State) (fits : PathId → Prop) : Prop :=
  ∃ p, fits p ∧ (s.path p).contents.isSome = true ∧ ((s.path p).health = .up ∨ (s.path p).health = .suspect)

/-- R37, R38, R58, R60: what the end of a reload read does to context `c`, live as `x` in `s` and routed to target `u`,
where `fits` names the paths the contents in force let it use and `stays` those whose waiting frames are left in their
lanes. `held` says that a request it has parked is offered again. (A context beyond PENDING stands in no pending list,
R40, and one in RESOLVING has no QUEUED attempt, R132.) -/
structure Reoffered (s t : State) (c : CtxId) (x : Context) (u : TargetId) (fits stays : PathId → Prop)
    (held : Prop) : Prop where
  requests : ∀ i lane id p endpoint, .request c id p endpoint ∈ (t.port i).lanes.get lane → stays p
  inquiries : ∀ i lane p endpoint, .inquiry c p endpoint ∈ (t.port i).lanes.get lane → stays p
  sent : ∀ a ∈ x.attempts, a.state = .sent → ∃ y, t.ctx c = some y ∧
    (y.state = .closing ∨ ∃ b ∈ y.attempts, b.id = a.id ∧ b.path = a.path ∧ b.state = .sent)
  attempt : ∀ a, x.state = .active → x.attempts = [a] → a.state = .queued → a.twin = none → ¬stays a.path →
    0 < (t.streamDesc x.stream).maxAttempts → (∀ m, c ∉ (s.stream m).pendingList) →
    (∃ i lane endpoint, .request c a.id a.path endpoint ∈ (s.port i).lanes.get lane) → ∃ y, t.ctx c = some y ∧
      (s.CanPlace fits → y.state = .active ∧ ∃ b, y.attempts = [b] ∧ b.state = .queued ∧ b.gen = a.gen ∧
        b.redrive = a.redrive ∧ fits b.path) ∧
      (¬s.CanPlace fits → y.state = .parked ∧ y.attempts = [] ∧
        y.parked = some { gen := a.gen, redrive := a.redrive, pair := false } ∧ c ∈ (t.target u).park)
  parked : ∀ q, x.state = .parked → x.parked = some q → held → (∀ m, c ∉ (s.stream m).pendingList) →
    x.attempts.length < (t.streamDesc x.stream).maxAttempts → ∃ y, t.ctx c = some y ∧
      (s.CanPlace fits → y.state = .active ∧ y.parked = none ∧ ∃ b ∈ y.attempts, b.state = .queued ∧
        b.gen = q.gen ∧ b.redrive = q.redrive ∧ fits b.path) ∧
      (¬s.CanPlace fits → y.state = .parked ∧ y.parked = some q ∧ c ∈ (t.target u).park)
  inquiry : ∀ w p, x.state = .resolving → x.inquiry = some w → w.state = some .queued → w.path = some p → ¬stays p →
    (∀ a ∈ x.attempts, a.state ≠ .queued) → (∀ m, c ∉ (s.stream m).pendingList) →
    (∃ i lane endpoint, .inquiry c p endpoint ∈ (s.port i).lanes.get lane) → ∃ y, t.ctx c = some y ∧
      ((t.streamDesc x.stream).inquiryLimit ≤ w.count → ∃ r, Completed s t c x y r ∧ r.status = .inDoubt) ∧
      (w.count < (t.streamDesc x.stream).inquiryLimit → y.state = .resolving ∧ ∃ v, y.inquiry = some v ∧
        v.count = w.count ∧ v.gen = w.gen ∧ v.timeouts = w.timeouts ∧
        (s.CanPlace fits → v.state = some .queued ∧ ∃ p', v.path = some p' ∧ fits p') ∧
        (¬s.CanPlace fits → v.state = some .waiting ∧ v.path = none ∧ c ∈ (t.target u).park))

/-! ### Selection among lanes (R72, R73) -/

/-- R72: a lane of a level requests: it holds a frame. -/
def State.Requests (s : State) (i : PortId) (level : LaneLevel) (lane : Fin 8) : Prop :=
  s.laneLevel lane = level ∧ (s.port i).lanes.get lane ≠ []

/-- R73, steps 1 to 3, at one level whose chit requests or not: from the masks of lanes and chit to those after it, the
lane selected, or none for the chit. -/
def State.Selects (s : State) (i : PortId) (level : LaneLevel) (chit : Bool) (masks after : Vector Bool 8)
    (mask maskAfter : Bool) (pick : Option (Fin 8)) : Prop :=
  ∃ (round : Vector Bool 8) (chitRound : Bool),
    ((∀ l, s.Requests i level l → masks.get l = true) ∧ (chit = true → mask = true) →
      (∀ l, round.get l = if s.laneLevel l = level then false else masks.get l) ∧ chitRound = false) ∧
    (¬((∀ l, s.Requests i level l → masks.get l = true) ∧ (chit = true → mask = true)) →
      round = masks ∧ chitRound = mask) ∧
    match pick with
    | some l => s.Requests i level l ∧ round.get l = false ∧
        (∀ m, m < l → s.Requests i level m → round.get m = true) ∧
        (∀ m, after.get m = if m = l then true else round.get m) ∧ maskAfter = chitRound
    | none => (∀ l, s.Requests i level l → round.get l = true) ∧ chit = true ∧ chitRound = false ∧
        after = round ∧ maskAfter = true

/-- R72, R73: the selection of a grant decision of port `i`, down the levels: the lane chosen, and the masks of lanes
and chits after it. -/
def State.Arbitrates (s : State) (i : PortId) (lane : Fin 8) (masks : Vector Bool 8) (chit2 chit3 : Bool) : Prop :=
  ∃ (two three : Bool), (three = true ↔ ∃ l, s.Requests i .level3 l) ∧
    (two = true ↔ three = true ∨ ∃ l, s.Requests i .level2 l) ∧
    (s.Selects i .level1 two (s.port i).laneMasks masks (s.port i).chit2 chit2 (some lane) ∧
        chit3 = (s.port i).chit3 ∨
      ∃ first, s.Selects i .level1 two (s.port i).laneMasks first (s.port i).chit2 chit2 none ∧
        (s.Selects i .level2 three first masks (s.port i).chit3 chit3 (some lane) ∨
          ∃ second a b, s.Selects i .level2 three first second (s.port i).chit3 chit3 none ∧
            s.Selects i .level3 false second masks a b (some lane)))

/-! ### Re-drives (R130, R133) -/

/-- R56, R59: a re-drive of generation `gen` has been asked for from `x`: it is placed as one more QUEUED attempt
with the re-drive mark, or parked as such a request. -/
def Context.Redriven (y x : Context) (gen : Nat) : Prop :=
  (y.state = .active ∧ y.parked = none ∧ y.attempts.length = x.attempts.length + 1 ∧
    ∃ a, y.attempts.getLast? = some a ∧ a.state = .queued ∧ a.redrive = true ∧ a.gen = gen ∧
      a.number = none ∧ a.twin = none) ∨
  (y.state = .parked ∧ y.attempts.length = x.attempts.length ∧
    y.parked = some { gen := gen, redrive := true, pair := false })

/-! ### Answers (R86, R87, R90) -/

/-- R86: a REPLY or VERDICT header that names no context it may answer. -/
def State.NoContext (s : State) (h : LinkHeader) : Prop :=
  ∀ (c : CtxId) (x : Context), c.val = h.handleCtx.toNat → s.ctx c = some x →
    h.adapterId ≠ s.adapterId ∨ x.state = .fetching ∨ x.state = .closing ∨ h.issue ≠ x.issue ∨
      (∃ a ∈ x.attempts, h.gen.toNat < a.gen) ∨ ∃ q, x.parked = some q ∧ h.gen.toNat < q.gen

/-- R87, R177: a REPLY header that names, in context `x`, no attempt whose answer is still accepted. -/
def Context.NoAttempt (x : Context) (h : LinkHeader) : Prop :=
  h.handleNum = 0 ∨ 8 < h.handleNum.toNat ∨
    ∀ a ∈ x.attempts, a.number = some h.handleNum.toNat → a.gen = h.gen.toNat →
      a.state ≠ .sent ∧ a.state ≠ .timedOut ∧ a.state ≠ .lost

/-- R90, R177: a VERDICT header that does not answer the latest inquiry of context `x`. -/
def Context.NoInquiry (x : Context) (h : LinkHeader) : Prop :=
  x.state ≠ .resolving ∨ h.handleNum = 0 ∨ 8 < h.handleNum.toNat ∨
    ∀ q, x.inquiry = some q → q.count ≠ h.handleNum.toNat ∨ q.gen ≠ h.gen.toNat

end Sys2Proof.Machine
end

