-- ==== Sys2Proof/Certificates/Slice0/Obligations.lean ====
section
/-!
DEFINITION. The statements about the CB4410 for the provers, one definition each. A docstring names the rules
of spec/ a statement formalises, and where it rests on a choice of the model, the log entry.
-/

open Sys2Proof Sys2Proof.Machine

/-! ### One step -/

/-- R22, R145 aside, the model's own step: the command at the front of the queue is taken, with the queue's
rest. -/
def Obligations.StepRunsFrontCommand : Prop :=
  ∀ (s : State) (c : Instr) (rest : List Instr), s.pending = c :: rest →
    step s = exec c { s with pending := rest }

/-- Every command of the table completes from every state, leaves the queue to `step`, and leaves no
decision waiting (log 2: a command whose event cannot occur in the state leaves it unchanged). -/
def Obligations.EveryCommandCompletes : Prop :=
  ∀ (c : Instr) (s : State), s.deferred = [] →
    ∃ t, exec c s = .next t ∧ t.pending = s.pending ∧ t.deferred = []

/-- R145, R147, R148 as the model's step on an empty queue (log 1): the clock rises by one µs, every timer
runs, and nothing else changes. That each read has one limit of R163 from its start is log 24, that of a read
without a use log 14, that the table reads of LOADING are timed from the start of their step log 45, and that the flag
of an age check stands in State log 23. -/
def Obligations.EmptyQueueTicksTheClock : Prop :=
  ∀ s : State, s.pending = [] → ∃ t, step s = .next t ∧ t.clock = s.clock + 1 ∧
    (∀ start limit, Timer.tick t.clock (.running start limit) =
      if limit ≤ (t.clock - start).toNat then .expired start limit else .running start limit) ∧
    Timer.tick t.clock .idle = .idle ∧
    (∀ start limit, Timer.tick t.clock (.expired start limit) = .expired start limit) ∧
    t.phase =
      (match s.phase with
      | .idle => .idle
      | .owner r => .owner { r with limit := r.limit.tick t.clock }
      | .wantContext => .wantContext
      | .record c r => .record c { r with limit := r.limit.tick t.clock }
      | .stream c f => .stream c f
      | .payload c r => .payload c { r with limit := r.limit.tick t.clock }) ∧
    t.loading =
      (match s.loading with
      | none => none
      | some (.anchor q r) => some (.anchor q { r with limit := r.limit.tick t.clock })
      | some (.tables q cfg begun age got) => some (.tables q cfg begun (age + 1) got)) ∧
    t.orphans =
      s.orphans.map (fun o => { o with read := { o.read with limit := o.read.limit.tick t.clock } }) ∧
    t.holdoff = s.holdoff.tick t.clock ∧
    (∀ c, t.ctx c = (s.ctx c).map fun x =>
      { x with
        reply0 := x.reply0.tick t.clock
        reply1 := x.reply1.tick t.clock
        inquiryTimer := x.inquiryTimer.tick t.clock
        deadlineTimer := x.deadlineTimer.tick t.clock
        waitTimer := x.waitTimer.tick t.clock }) ∧
    (∀ p, t.path p =
      { s.path p with
        read := (s.path p).read.map fun r => { r with limit := r.limit.tick t.clock }
        markA := (s.path p).markA.tick t.clock
        markB := (s.path p).markB.tick t.clock
        hold := (s.path p).hold.tick t.clock
        stability := (s.path p).stability.tick t.clock
        drain := (s.path p).drain.tick t.clock }) ∧
    (∀ i, t.port i =
      { s.port i with
        filterTimer := (s.port i).filterTimer.tick t.clock
        ageDue := (s.port i).ageDue || decide (t.clock.toNat % 2 ^ 30 = 0) }) ∧
    (∀ n, t.stream n =
      { s.stream n with
        read := (s.stream n).read.map fun r => { r with limit := r.limit.tick t.clock } }) ∧
    (∀ u, t.target u =
      { s.target u with
        read := (s.target u).read.map fun r => { r with limit := r.limit.tick t.clock } }) ∧
    t = { s with
      clock := t.clock, loading := t.loading, orphans := t.orphans, phase := t.phase, ctxs := t.ctxs,
      streams := t.streams, targets := t.targets, paths := t.paths, ports := t.ports
      holdoff := t.holdoff }

/-! ### Resets -/

/-- R173 with R27, R46, R61, R79, R123, R153 and R164: what a cold reset with no raw carrier leaves. -/
def Obligations.ResetState : Prop :=
  State.reset.adapter = .halted ∧ State.reset.anchor = 0 ∧ State.reset.event = 0 ∧
    State.reset.eventMask = 0 ∧ State.reset.interrupt = false ∧ State.reset.faultAddress = 0 ∧
    State.reset.faultCount = 0 ∧ State.reset.settings = none ∧ State.reset.issueNumber = none ∧
    State.reset.armFifo = [] ∧ State.reset.sweepPending = false ∧ State.reset.job = .none ∧
    State.reset.clock = 0 ∧ State.reset.queue = [] ∧ State.reset.rewrites = [] ∧
    State.reset.loading = none ∧ State.reset.phase = .idle ∧ State.reset.orphans = [] ∧
    State.reset.idleArms = 0 ∧ State.reset.coalesced = 0 ∧ State.reset.holdoff = .idle ∧
    (∀ c, State.reset.ctx c = none) ∧
    (∀ n, (State.reset.stream n).load = .notLoaded ∧ (State.reset.stream n).state = .open ∧
      (State.reset.stream n).pendingList = [] ∧ (State.reset.stream n).inflight = 0) ∧
    (∀ u, (State.reset.target u).park = [] ∧ (State.reset.target u).reach = .unreachable) ∧
    (∀ p, (State.reset.path p).health = .untried ∧ (State.reset.path p).samples = 0 ∧
      (State.reset.path p).srtt = 0 ∧ (State.reset.path p).rttvar = 0 ∧
      (State.reset.path p).inflight = 0 ∧ (State.reset.path p).strikes = 0 ∧
      (State.reset.path p).flap = 0 ∧ (State.reset.path p).fence = false ∧
      (State.reset.path p).drill = false ∧ (State.reset.path p).counters = {}) ∧
    (∀ i, (State.reset.port i).filter = .lost ∧ (State.reset.port i).state = .down ∧
      (State.reset.port i).settings = { mode := .delayed, lossTime := 5, returnTime := 200 } ∧
      (State.reset.port i).lanesEmpty = true ∧ (State.reset.port i).transmitter = none ∧
      (State.reset.port i).downTimes = [])

/-- Every law that a step keeps holds after reset. -/
def Obligations.LawsHoldAtReset : Prop :=
  State.reset.PathsOk ∧ State.reset.PortsOk ∧ State.reset.StreamsOk ∧ State.reset.TargetsOk ∧
    State.reset.OneHolder ∧ State.reset.QueueOk ∧ State.reset.RegistersOk

/-- R173, R79: a cold reset gives every state its initial value, and a port that finds a raw carrier takes
a raw return at once (log 11: the carriers are operands, and the waiting commands stay; log 42: the count of warm
resets runs on). R172 with R27, R46, R51, R61, R79, R123, R153 and R164: what a warm reset drops and what it keeps.
Of the completion at the head of the queue, if it is its turn, the first 0 to 3 of the steps 1 to 3 of R155 have
been issued (R27, R156): how many is free (log 42). The slots' bytes, without meaning after it, stay (log 12); the
copies, without meaning, are empty (log 26); Hold-down ended, which the table of R123 does not list, stays (log 48); the
rewrite list is left empty (log 10) and the transmitter idle
(log 33). -/
def Obligations.ColdAndWarmReset : Prop :=
  (∀ (raw0 raw1 raw2 raw3 : Bool) (s : State), ∃ t, exec (.coldReset raw0 raw1 raw2 raw3) s = .next t ∧
     (∀ i : PortId, t.port i =
       if #v[raw0, raw1, raw2, raw3].get i then
         { PortRec.initial with filter := .returnPending, filterTimer := .running 0 200000 }
       else PortRec.initial) ∧
     t = { State.reset with pending := s.pending, resets := s.resets, ports := t.ports }) ∧
  (∀ s : State, ∃ t, exec .warmReset s = .next t ∧
     t.adapter = .halted ∧ t.event = (if s.adapter = .halted then 0 else 0x080) ∧
     t.interrupt = (t.event &&& s.eventMask != 0) ∧ t.faultCount = 0 ∧ t.loading = none ∧
     t.orphans = [] ∧ t.armFifo = [] ∧ t.sweepPending = false ∧ t.job = .none ∧ t.phase = .idle ∧
     t.queue = [] ∧ t.coalesced = 0 ∧ t.holdoff = .idle ∧ t.rewrites = [] ∧
     (∃ cut : List HostOut,
       t.outbound = s.outbound ++ cut ++ (if t.interrupt then [.interrupt] else []) ∧
       (s.queue = [] ∨ s.rewrites ≠ [] ∧ s.lastIssued = some .completion → cut = []) ∧
       ∀ c rest x r n, s.queue = c :: rest → s.ctx c = some x → x.result = some r → x.exch = some n →
         s.rewrites = [] ∨ s.lastIssued ≠ some .completion → ∃ k, k ≤ 3 ∧
           cut =
             (if 1 ≤ k then
               [.write (s.recordAddr n + 0x40)
                 (resultBytes { r with
                   flags := { r.flags with
                     truncated := r.flags.truncated || decide (x.replyCap < r.replyLen) } })]
             else []) ++
             (if 2 ≤ k ∧ min r.replyLen x.replyCap ≠ 0 then
               [.write x.replyAddr (s.slot c (min r.replyLen x.replyCap))]
             else []) ++
             (if k = 3 then [.write (s.recordAddr n) (leBytes 3 4)] else [])) ∧
     (∀ c, t.ctx c = none) ∧ (∀ n, t.stream n = {}) ∧
     (∀ u, t.target u = { reach := (s.target u).reach }) ∧
     (∀ p, t.path p =
       { s.path p with
         load := .notLoaded, contents := none, again := false, read := none, inflight := 0
         outstanding := none, replySeen := false, markA := .idle, markB := .idle, hold := .idle
         stability := .idle, drain := .idle }) ∧
     (∀ i, t.port i =
       { s.port i with
         lanes := Vector.replicate 8 [], laneMasks := Vector.replicate 8 false, chit2 := false
         chit3 := false, transmitter := none }) ∧
     t.pending = s.pending ∧ t.anchor = s.anchor ∧ t.eventMask = s.eventMask ∧
     t.faultAddress = s.faultAddress ∧ t.settings = s.settings ∧ t.issueNumber = s.issueNumber ∧
     t.clock = s.clock ∧ t.groups = s.groups ∧ t.idleArms = s.idleArms ∧ t.payload = s.payload)

/-! ### The register window -/

/-- R166: how a CONTROL write is taken as one command. 11, section 11.2: the NOTICE word of every kind decodes to its
command, whatever the bits it does not use hold, and every other kind code is an unknown kind (R175). R174: what a
write and a read of the window are taken as, by offset and width, and what a read returns; 11, section 11.1: the
fields of STATUS. An unaligned 32-bit write inside ANCHOR or FAULT_ADDRESS is a write of that register (log 21). What
lies past FFFh is outside the window, and a 32-bit write to which R174 gives no effect spells no command (log 21).
That IDENT reads with its byte 0 as the least significant is the model's choice (log 31). -/
def Obligations.WindowWordsDecode : Prop :=
  (∀ word : W32,
     (word.getLsbD 2 = true → decodeControl word = .warmReset) ∧
     (word.getLsbD 2 = false →
       (word.getLsbD 0 = true → word.getLsbD 1 = false → decodeControl word = .start) ∧
       (word.getLsbD 0 = false → word.getLsbD 1 = true → decodeControl word = .stop) ∧
       (word.getLsbD 0 = word.getLsbD 1 → decodeControl word = .controlBadCombination))) ∧
  ((∀ (pad : BitVec 5) (len : BitVec 7) (exch : BitVec 12),
     decodeNotice (pad ++ len ++ exch ++ 1#8) = .arm exch len) ∧
   (∀ (pad : BitVec 12) (exch : BitVec 12), decodeNotice (pad ++ exch ++ 2#8) = .abort exch) ∧
   (∀ pad : BitVec 24, decodeNotice (pad ++ 3#8) = .sweep) ∧
   (∀ (pad : BitVec 16) (entry : Byte),
     decodeNotice (pad ++ entry ++ 4#8) = .reloadStream entry ∧
     decodeNotice (pad ++ entry ++ 5#8) = .reloadTarget entry ∧
     decodeNotice (pad ++ entry ++ 6#8) = .reloadPath entry ∧
     decodeNotice (pad ++ entry ++ 7#8) = .fence entry ∧
     decodeNotice (pad ++ entry ++ 8#8) = .unfence entry ∧
     decodeNotice (pad ++ entry ++ 9#8) = .drill entry ∧
     decodeNotice (pad ++ entry ++ 10#8) = .drillEnd entry) ∧
   (∀ pad : BitVec 24, decodeNotice (pad ++ 11#8) = .snapshot) ∧
   (∀ (pad : BitVec 24) (code : Byte), code = 0 ∨ 12 ≤ code.toNat →
     decodeNotice (pad ++ code) = .noticeUnknownKind code)) ∧
  (∀ (offset : BitVec 12) (data : W64),
     decodeWindowWrite offset .w8 data = [.otherRegisterWrite offset .w8] ∧
     decodeWindowWrite offset .w16 data = [.otherRegisterWrite offset .w16] ∧
     (offset.toNat < 0x08 ∨ 0x14 ≤ offset.toNat ∧ offset.toNat < 0x18 ∨
         0x24 ≤ offset.toNat ∧ offset.toNat < 0x28 ∨ 0x30 ≤ offset.toNat →
       decodeWindowWrite offset .w32 data = [.otherRegisterWrite offset .w32]) ∧
     (0x08 < offset.toNat → offset.toNat < 0x10 → offset ≠ 0x0C →
       decodeWindowWrite offset .w32 data =
         [.anchorWrite (.inside offset) ((data.setWidth 32).setWidth 64)]) ∧
     (0x28 ≤ offset.toNat → offset.toNat < 0x30 →
       decodeWindowWrite offset .w32 data = [.faultAddressWrite ((data.setWidth 32).setWidth 64)]) ∧
     (offset ≠ 0x00 → offset ≠ 0x08 → offset ≠ 0x28 → offset.toNat + 4 < 4096 →
       decodeWindowWrite offset .w64 data =
         decodeWindowWrite offset .w32 data ++ decodeWindowWrite (offset + 4) .w32 (data >>> 32)) ∧
     (∀ width, width ≠ .w64 → decodeWindowRead offset width =
       if 0x24 ≤ offset.toNat ∧ offset.toNat < 0x28 ∨ 0x30 ≤ offset.toNat then
         [.unmappedRegisterRead offset]
       else []) ∧
     (offset.toNat + 4 < 4096 → decodeWindowRead offset .w64 =
       decodeWindowRead offset .w32 ++ decodeWindowRead (offset + 4) .w32)) ∧
  (∀ data : W64,
     decodeWindowWrite 0x00 .w64 data = [.otherRegisterWrite 0x00 .w64] ∧
     decodeWindowWrite 0x08 .w64 data = [.anchorWrite .whole data] ∧
     decodeWindowWrite 0x28 .w64 data = [.faultAddressWrite data] ∧
     ∀ word : W32, word = data.setWidth 32 →
       decodeWindowWrite 0x08 .w32 data = [.anchorWrite .low (word.setWidth 64)] ∧
       decodeWindowWrite 0x0C .w32 data = [.anchorWrite .high (word.setWidth 64)] ∧
       decodeWindowWrite 0x10 .w32 data = [decodeControl word] ∧
       decodeWindowWrite 0x18 .w32 data = [decodeNotice word] ∧
       decodeWindowWrite 0x1C .w32 data = [.eventWrite word] ∧
       decodeWindowWrite 0x20 .w32 data = [.eventMaskWrite word] ∧
       decodeWindowWrite 0x28 .w32 data = [.faultAddressWrite (word.setWidth 64)] ∧
       decodeWindowWrite 0x2C .w32 data = [.faultAddressWrite (word.setWidth 64)]) ∧
  (∀ s : State,
     windowRead64 s 0x00 = 0x0000000144101C4A ∧ windowRead64 s 0x08 = s.anchor ∧
     windowRead64 s 0x28 = s.faultAddress ∧
     windowRead s 0x10 = 0 ∧ windowRead s 0x18 = 0 ∧
     windowRead s 0x1C = s.event.setWidth 32 ∧ windowRead s 0x20 = s.eventMask.setWidth 32 ∧
     (∀ offset, 0x30 ≤ offset ∨ 0x24 ≤ offset ∧ offset < 0x28 → windowRead s offset = 0) ∧
     (∀ offset, windowRead64 s offset = windowRead s (offset + 4) ++ windowRead s offset) ∧
     (∀ offset b, b < 4 → windowReadBytes s (4 * offset + b) 1 =
       ((windowRead s (4 * offset)).extractLsb' (8 * b) 8).setWidth 32) ∧
     (∀ offset, windowReadBytes s (4 * offset) 2 =
       ((windowRead s (4 * offset)).extractLsb' 0 16).setWidth 32 ∧
       windowReadBytes s (4 * offset + 1) 2 =
         ((windowRead s (4 * offset)).extractLsb' 8 16).setWidth 32 ∧
       windowReadBytes s (4 * offset + 2) 2 =
         ((windowRead s (4 * offset)).extractLsb' 16 16).setWidth 32) ∧
     (∀ offset, offset = 0x00 ∨ offset = 0x08 ∨ offset = 0x28 → windowReadBytes s (offset + 3) 2 =
       ((windowRead64 s offset).extractLsb' 24 16).setWidth 32) ∧
     (s.faultCount ≤ 255 → s.armFifo.length ≤ 32 →
       (windowRead s 0x14).extractLsb' 28 4 = 0 ∧
       ((windowRead s 0x14).extractLsb' 20 8).toNat = s.faultCount ∧
       ((windowRead s 0x14).extractLsb' 14 6).toNat = s.armFifo.length ∧
       ((windowRead s 0x14).extractLsb' 4 10).toNat = s.liveCount ∧
       ((windowRead s 0x14).extractLsb' 3 1).toNat = s.sweepPending.toNat ∧
       ((windowRead s 0x14).extractLsb' 0 3).toNat =
         (match s.adapter with
         | .halted => 0 | .loading => 1 | .running => 2 | .quiescing => 3 | .quiesced => 4
         | .faulted => 5)))

/-- R166, R174, R175: the four commands that are refused whatever the state raise MISUSE, and change
nothing else. R175: in HALTED, LOADING and FAULTED, and with an operand out of range, every notice is ignored
with MISUSE. -/
def Obligations.RefusedCommandsRaiseMisuse : Prop :=
  (∀ (c : Instr) (s : State),
     (c = .controlBadCombination ∨ (∃ code, c = .noticeUnknownKind code) ∨
       (∃ offset width, c = .otherRegisterWrite offset width) ∨ (∃ offset, c = .unmappedRegisterRead offset)) →
     exec c s = .next
       { s with
         event := s.event ||| 0x100
         interrupt := ((s.event ||| 0x100) &&& s.eventMask) != 0
         outbound :=
           if ((s.event ||| 0x100) &&& s.eventMask) != 0 && !s.interrupt then s.outbound ++ [.interrupt]
           else s.outbound }) ∧
  (∀ (c : Instr) (s : State) (first exch : BitVec 12) (len : BitVec 7) (entry : Byte),
     (s.adapter = .halted ∨ s.adapter = .loading ∨ s.adapter = .faulted) ∧
         (c = .arm first len ∨ c = .sweep ∨ c = .abort exch ∨ c = .reloadStream entry ∨
           c = .reloadTarget entry ∨ c = .reloadPath entry ∨ c = .fence entry ∨ c = .unfence entry ∨
           c = .drill entry ∨ c = .drillEnd entry ∨ c = .snapshot) ∨
       (s.records ≤ first.toNat ∨ len.toNat = 0 ∨ 64 < len.toNat) ∧ c = .arm first len ∨
       s.records ≤ exch.toNat ∧ c = .abort exch ∨
       64 ≤ entry.toNat ∧ c = .reloadTarget entry ∨
       128 ≤ entry.toNat ∧
         (c = .reloadPath entry ∨ c = .fence entry ∨ c = .unfence entry ∨ c = .drill entry ∨
           c = .drillEnd entry) →
     exec c s = .next (s.raise .misuse))

/-- R161, R174: a write of EVENT clears the bits written 1, a write of EVENT_MASK replaces the mask, and each
re-evaluates the interrupt. R166, R174: ANCHOR takes a write in HALTED alone, the half or the whole the write covers;
in every other state the write is discarded with MISUSE. What four bytes that begin at neither half leave in it is a
free value (log 21). R163, R174: FAULT_ADDRESS is cleared by data bytes of 0, and any other write of it is discarded
with MISUSE. -/
def Obligations.RegisterWrites : Prop :=
  (∀ (value : W32) (s : State),
     exec (.eventWrite value) s = .next
       { s with
         event := s.event &&& ~~~(value.setWidth 9)
         interrupt := (s.event &&& ~~~(value.setWidth 9) &&& s.eventMask) != 0
         outbound :=
           if (s.event &&& ~~~(value.setWidth 9) &&& s.eventMask) != 0 && !s.interrupt then
             s.outbound ++ [.interrupt]
           else s.outbound } ∧
     exec (.eventMaskWrite value) s = .next
       { s with
         eventMask := value.setWidth 9
         interrupt := (s.event &&& value.setWidth 9) != 0
         outbound :=
           if (s.event &&& value.setWidth 9) != 0 && !s.interrupt then s.outbound ++ [.interrupt]
           else s.outbound }) ∧
  (∀ (span : RegisterSpan) (value : W64) (s : State),
     (s.adapter = .halted →
       exec (.anchorWrite span value) s = .next
         { s with
           anchor :=
             match span with
             | .whole => value
             | .low => s.anchor.extractLsb' 32 32 ++ value.extractLsb' 0 32
             | .high => value.extractLsb' 0 32 ++ s.anchor.extractLsb' 0 32
             | .inside offset => Config.unalignedAnchor offset (value.setWidth 32) s.anchor }) ∧
     (s.adapter ≠ .halted → exec (.anchorWrite span value) s = .next (s.raise .misuse)) ∧
     (value = 0 → exec (.faultAddressWrite value) s = .next { s with faultAddress := 0 }) ∧
     (value ≠ 0 → exec (.faultAddressWrite value) s = .next (s.raise .misuse)))

/-- R166, R168 step 1: where START is accepted, and what entering LOADING does. R166, R170, R17: STOP in RUNNING
enters QUIESCING, and QUIESCED at once when no context is live; a record that waits for a context is not fetched, and
a sweep sets Sweep Pending (log 13). Elsewhere each is ignored with MISUSE. The one limit on the read of the Anchor,
from its start, is R163's as log 24 reads it. What START makes of reads in progress, which LOADING leaves without a
use, is the model's choice (log 14). -/
def Obligations.StartAndStop : Prop :=
  (∀ s : State, ∃ t, exec .start s = .next t ∧
     (s.adapter = .halted ∧ s.anchor ≠ 0 ∨ s.adapter = .quiesced →
       t.adapter = .loading ∧
       t.loading = some (.anchor (decide (s.adapter = .quiesced))
         { addr := s.anchor, len := 256, limit := .running s.clock 50000 }) ∧
       t.event = (s.event ||| if s.coalesced = 0 then 0x080 else 0x081) ∧
       t.coalesced = 0 ∧ t.holdoff = .idle ∧
       (∀ i, t.port i =
         { s.port i with
           lanes := Vector.replicate 8 [], laneMasks := Vector.replicate 8 false, chit2 := false
           chit3 := false }) ∧
       (∀ p, t.path p =
         { s.path p with
           read := none, outstanding := none, markA := .idle, markB := .idle, hold := .idle
           stability := .idle, drain := .idle }) ∧
       (∀ n, t.stream n = { s.stream n with read := none }) ∧
       (∀ u, t.target u = { s.target u with read := none }) ∧
       (∀ o, o ∈ t.orphans ↔ o ∈ s.orphans ∨
         (∃ r, s.phase = .owner r ∧ o = { id := .ownerWord, read := r }) ∨
         (∃ n r, (s.stream n).read = some r ∧ o = { id := .stream n, read := r }) ∨
         (∃ u r, (s.target u).read = some r ∧ o = { id := .target u, read := r }) ∨
         ∃ p r, (s.path p).read = some r ∧ o = { id := .path p, read := r }) ∧
       ((∀ r, s.phase ≠ .owner r) → t.job = s.job ∧ t.phase = s.phase) ∧
       (∀ r, s.phase = .owner r → t.job = .none ∧ t.phase = .idle) ∧
       t = { s with
         adapter := t.adapter, loading := t.loading, event := t.event, interrupt := t.interrupt
         outbound := t.outbound, coalesced := t.coalesced, holdoff := t.holdoff, ports := t.ports
         paths := t.paths, streams := t.streams, targets := t.targets, orphans := t.orphans
         job := t.job, phase := t.phase, rewrites := t.rewrites }) ∧
     (¬(s.adapter = .halted ∧ s.anchor ≠ 0 ∨ s.adapter = .quiesced) → t = s.raise .misuse)) ∧
  (∀ s : State, ∃ t, exec .stop s = .next t ∧
     (s.adapter = .running →
       t.adapter = (if s.liveCount = 0 then .quiesced else .quiescing) ∧
       t.event = (s.event ||| 0x080) ∧
       (∀ next left, s.job = .run next left →
         t.job = s.job ∧ t.sweepPending = s.sweepPending ∧
           t.phase = (if s.phase = .wantContext then .idle else s.phase)) ∧
       (s.job = .none → t.job = .none ∧ t.phase = s.phase ∧ t.sweepPending = s.sweepPending) ∧
       (∀ next stopping, s.job = .sweep next stopping → t.sweepPending = true ∧
         (s.phase = .wantContext ∨ s.phase = .idle → t.job = .none ∧ t.phase = .idle) ∧
         (s.phase ≠ .wantContext → s.phase ≠ .idle →
           t.job = .sweep next true ∧ t.phase = s.phase)) ∧
       t = { s with
         adapter := t.adapter, event := t.event, interrupt := t.interrupt, outbound := t.outbound
         rewrites := t.rewrites, job := t.job, phase := t.phase, sweepPending := t.sweepPending }) ∧
     (s.adapter ≠ .running → t = s.raise .misuse))

/-! ### Notices -/

/-- R4, R5, R6: an ARM notice, by its operands, the adapter state and the room of the Arm FIFO; a SWEEP notice, by the
adapter state; how the stored runs are served, each as it was written and each record by its successor modulo N, in
RUNNING alone and with neither a run nor a sweep in progress; the sweep that follows, under the same conditions, once
the FIFO has emptied; and Sweep Pending, cleared at the start of a sweep, and the FIFO's occupancy, both shown in
STATUS. -/
def Obligations.ArmAndSweepNotices : Prop :=
  (∀ (first : BitVec 12) (len : BitVec 7) (s : State), ∃ t, exec (.arm first len) s = .next t ∧
     (s.records ≤ first.toNat ∨ len.toNat = 0 ∨ 64 < len.toNat → t = s.raise .misuse) ∧
     (first.toNat < s.records → 1 ≤ len.toNat → len.toNat ≤ 64 →
       (s.adapter = .running → s.armFifo.length < 32 →
         t = { s with armFifo := s.armFifo ++ [{ first := first.toNat, len := len.toNat }] }) ∧
       (s.adapter = .running → 32 ≤ s.armFifo.length →
         t = State.raise .armOverflow { s with sweepPending := true }) ∧
       (s.adapter = .quiescing ∨ s.adapter = .quiesced → t = s) ∧
       (s.adapter = .halted ∨ s.adapter = .loading ∨ s.adapter = .faulted → t = s.raise .misuse))) ∧
  (∀ s : State, ∃ t, exec .sweep s = .next t ∧
     (s.adapter = .running → t = { s with sweepPending := true }) ∧
     (s.adapter = .quiescing ∨ s.adapter = .quiesced → t = s) ∧
     (s.adapter = .halted ∨ s.adapter = .loading ∨ s.adapter = .faulted → t = s.raise .misuse)) ∧
  (∀ s : State,
     (∀ r rest, s.adapter = .running → s.job = .none → s.armFifo = r :: rest →
       exec .runStart s = .next
         { s with armFifo := rest, job := .run r.first r.len, phase := .wantContext }) ∧
     (∀ next left, s.job = .run next left → s.advanceJob.job =
       if left ≤ 1 then .none else .run ((next + 1) % s.records) (left - 1)) ∧
     (s.adapter = .running → s.job = .none → s.armFifo = [] → s.sweepPending = true →
       ∃ t, exec .sweepStart s = .next t ∧ t.job = .sweep 0 false ∧ t.sweepPending = false) ∧
     (∀ t, exec .runStart s = .next t → t.job ≠ s.job ∨ t.armFifo ≠ s.armFifo →
       s.adapter = .running ∧ s.job = .none ∧ s.armFifo ≠ []) ∧
     (∀ t, exec .sweepStart s = .next t → t.job ≠ s.job ∨ t.sweepPending ≠ s.sweepPending →
       s.adapter = .running ∧ s.job = .none ∧ s.armFifo = [] ∧ s.sweepPending = true ∧
         t.sweepPending = false) ∧
     ((windowRead s 0x14).extractLsb' 3 1).toNat = s.sweepPending.toNat ∧
     (s.armFifo.length ≤ 32 → s.faultCount ≤ 255 →
       ((windowRead s 0x14).extractLsb' 14 6).toNat = s.armFifo.length))

/-- R24: what an ABORT notice does to the one live context that holds the number, by its state: it completes
ABORTED with Attempts Used as transmitted, its stream left as R40 and R41 say, or takes the abort mark and nothing else
changes. -/
def Obligations.AbortNotice : Prop :=
  ∀ (exch : BitVec 12) (s : State), s.adapter.works = true → exch.toNat < s.records → s.OneHolder →
    ∃ t, exec (.abort exch) s = .next t ∧ OnlyWork s t ∧
      ((∀ c x, s.ctx c = some x → x.exch ≠ some exch.toNat) → t = s) ∧
      ∀ c x, s.ctx c = some x → x.exch = some exch.toNat →
        (x.state = .closing → t = s) ∧
        (x.state = .fetching ∨ x.state = .resolving ∨
            x.state = .active ∧ x.kind = .commit ∧ (∃ a ∈ x.attempts, a.state = .sent) →
          t = s.setCtx c (some { x with abortMark := true })) ∧
        (x.state = .pending ∨ x.state = .parked ∨ x.state = .waiting ∨
            x.state = .active ∧ (x.kind = .query ∨ ∀ a ∈ x.attempts, a.state ≠ .sent) →
          ∃ y r, t.ctx c = some y ∧ y.state = .closing ∧ y.result = some r ∧ r.status = .aborted ∧
            r.remote = x.lastOutcome ∧ r.replyLen = 0 ∧ r.done = s.clock ∧
            r.attemptsUsed = x.attempts.countP (·.number.isSome) ∧
            (∀ a ∈ x.attempts, a.state = .sent → ∃ b ∈ y.attempts, b.id = a.id ∧ b.state = .cancelled) ∧
            (∀ b ∈ y.attempts, b.state ≠ .queued ∧ b.state ≠ .sent) ∧
            StreamLeft s t c x .aborted ∧ ∃ later, t.queue = s.queue ++ c :: later)

/-- R33: a reload notice begins a read of the entry, or sets Reload Again while one is in progress. That the read's
limit of R163 runs from its start is log 24. -/
def Obligations.ReloadNotices : Prop :=
  ∀ (entry : Byte) (s : State), s.adapter.works = true →
    (∀ n : StreamId, n.val = entry.toNat → ∃ e, exec (.reloadStream entry) s = .next (s.setStream n e) ∧
      (((s.stream n).load = .reloading ∨ ∃ b, (s.stream n).load = .loading b) →
        e = { s.stream n with again := true }) ∧
      ((s.stream n).load = .notLoaded ∨ (s.stream n).load = .valid ∨ (s.stream n).load = .invalid →
        e = { s.stream n with
          load := if (s.stream n).load = .notLoaded then .loading true else .reloading
          read := some
            { addr := s.streamAddr n, len := 64, limit := .running s.clock 50000 } })) ∧
    (∀ u : TargetId, u.val = entry.toNat → ∃ e, exec (.reloadTarget entry) s = .next (s.setTarget u e) ∧
      ((s.target u).load = .reloading → e = { s.target u with again := true }) ∧
      ((s.target u).load = .valid ∨ (s.target u).load = .invalid →
        e = { s.target u with
          load := .reloading
          again := false
          read := some
            { addr := s.targetAddr u, len := 16, limit := .running s.clock 50000 } })) ∧
    (∀ p : PathId, p.val = entry.toNat → ∃ r, exec (.reloadPath entry) s = .next (s.setPath p r) ∧
      ((s.path p).load = .reloading → r = { s.path p with again := true }) ∧
      ((s.path p).load = .valid ∨ (s.path p).load = .invalid →
        r = { s.path p with
          load := .reloading
          again := false
          read := some
            { addr := s.pathAddr p, len := 64, limit := .running s.clock 50000 } }))

/-- R114: a FENCE notice sets the Fence flag, and the path then carries no new work: it is FENCED without
SENT work and DRAINING otherwise, as long as its in-flight count is not 0. Its SENT attempts and inquiries stay SENT
(R113, R137); its waiting frames leave the lanes where it left UP or SUSPECT (R78), and are replaced or routed again
(R58, R137). On a FENCED path, and on a DRAINING one already fenced, nothing else changes. A change of state is handed
out (R104, R120, R158). -/
def Obligations.FenceNotice : Prop :=
  ∀ (entry : Byte) (p : PathId) (s : State), s.adapter.works = true → p.val = entry.toNat →
    s.deferred = [] →
    ∃ t, exec (.fence entry) s = .next t ∧ OnlyWork s t ∧
      (t.path p).fence = true ∧ (t.path p).drill = (s.path p).drill ∧
      (t.path p).flap = (s.path p).flap ∧
      ((s.path p).health = .fenced ∨ (s.path p).health = .draining ∧ (s.path p).fence = true →
        t = s.modPath p fun r => { r with fence := true }) ∧
      ((s.path p).health = .down ∨ (s.path p).health ≠ .fenced ∧ (s.path p).inflight = 0 ∧
          ¬((s.path p).health = .draining ∧ (s.path p).fence = true) →
        (t.path p).health = .fenced) ∧
      ((s.path p).health ≠ .down → (s.path p).inflight ≠ 0 →
        (t.path p).health = .draining ∨ (t.path p).health = .fenced) ∧
      ((s.path p).health ≠ .down → (s.path p).health ≠ .fenced → (s.path p).inflight ≠ 0 →
        (t.path p).inflight ≠ 0 → (t.path p).health = .draining) ∧
      SentStays s t p ∧
      ((t.path p).health ≠ (s.path p).health → HandedOut s t p ∧ FramesGone s t p ∧ Replaced s t p none)

/-- R116: UNFENCE and DRILL_END clear their flag; a path they set free enters UNTRIED, to probe and prove afresh, with
its estimate and flap level kept and its SENT work staying SENT; in every other state, and with the flag already
clear, the path stays as it is. Probing begins anew: mark B runs for the fast interval and a PROBE waits in lane 0,
where the port is not DOWN (R104, R108, R111; the premise that no cycle ran before holds in FENCED and DRAINING,
R104). A change of state is handed out (R120, R158). That it probes with a copy being reloaded too is log 7. -/
def Obligations.UnfenceAndDrillEndNotices : Prop :=
  ∀ (entry : Byte) (p : PathId) (s : State), s.adapter.works = true → p.val = entry.toNat →
    (∃ t, exec (.unfence entry) s = .next t ∧ OnlyWork s t ∧ t.ctxs = s.ctxs ∧
      ((s.path p).fence = false → t = s) ∧
      ((s.path p).fence = true →
        (t.path p).fence = false ∧ (t.path p).flap = (s.path p).flap ∧
        (t.path p).samples = (s.path p).samples ∧ (t.path p).srtt = (s.path p).srtt ∧
        (t.path p).rttvar = (s.path p).rttvar ∧ (t.path p).slow = (s.path p).slow ∧
        (t.path p).inflight = (s.path p).inflight ∧
        ((s.path p).health ≠ .untried → (t.path p).health = .untried →
          (t.path p).strikes = 0 ∧ (t.path p).proving = 0 ∧
          ((s.path p).markB = .idle → ∀ i, s.pathPort p = some i → (s.port i).state ≠ .down →
            (t.path p).markB = .running s.clock (1000 * (s.pathDesc p).fastInterval) ∧
            ((t.port i).lanes.get 0).any (·.isProbeOf p) = true)) ∧
        (t.path p).health =
          (if (s.path p).health = .fenced ∧ (s.path p).drill = false ∨ (s.path p).health = .draining then
            .untried
          else (s.path p).health)) ∧
      ((t.path p).health ≠ (s.path p).health → HandedOut s t p)) ∧
    (∃ t, exec (.drillEnd entry) s = .next t ∧ OnlyWork s t ∧ t.ctxs = s.ctxs ∧
      ((s.path p).drill = false → t = s) ∧
      ((s.path p).drill = true →
        (t.path p).drill = false ∧ (t.path p).flap = (s.path p).flap ∧
        (t.path p).samples = (s.path p).samples ∧ (t.path p).srtt = (s.path p).srtt ∧
        (t.path p).rttvar = (s.path p).rttvar ∧ (t.path p).slow = (s.path p).slow ∧
        (t.path p).inflight = (s.path p).inflight ∧
        ((s.path p).health ≠ .untried → (t.path p).health = .untried →
          (t.path p).strikes = 0 ∧ (t.path p).proving = 0 ∧
          ((s.path p).markB = .idle → ∀ i, s.pathPort p = some i → (s.port i).state ≠ .down →
            (t.path p).markB = .running s.clock (1000 * (s.pathDesc p).fastInterval) ∧
            ((t.port i).lanes.get 0).any (·.isProbeOf p) = true)) ∧
        (t.path p).health =
          (if (s.path p).health = .fenced ∧ (s.path p).fence = false then .untried
          else (s.path p).health)) ∧
      ((t.path p).health ≠ (s.path p).health → HandedOut s t p))

/-- R115, R104, R126, R137: a DRILL notice sets the Drill flag and puts the path in FENCED at once; the flap level is
unchanged, no timer of the path runs, no correlation list changes, its SENT attempts and inquiries are lost, and its
work and its PROBE leave the lanes if it left UP or SUSPECT (R78), its PROBE in any case. Each query is re-driven, left
to its twin or ended TIMEOUT, each commit enters resolution (R129, R132, R134), and what was withdrawn is replaced or
routed again (R58). The change of state is handed out (R120, R158). -/
def Obligations.DrillNotice : Prop :=
  ∀ (entry : Byte) (p : PathId) (s : State), s.adapter.works = true → p.val = entry.toNat →
    s.deferred = [] →
    ∃ t, exec (.drill entry) s = .next t ∧ OnlyWork s t ∧
      (t.path p).drill = true ∧ (t.path p).fence = (s.path p).fence ∧ (t.path p).health = .fenced ∧
      (t.path p).flap = (s.path p).flap ∧
      (∀ i, (t.port i).downTimes = (s.port i).downTimes) ∧
      ((s.path p).health = .fenced → t = s.modPath p fun r => { r with drill := true }) ∧
      ((s.path p).health ≠ .fenced →
        (t.path p).markA = .idle ∧ (t.path p).markB = .idle ∧ (t.path p).hold = .idle ∧
        (t.path p).stability = .idle ∧ (t.path p).drain = .idle ∧
        HandedOut s t p ∧ AttemptsLost s t p none ∧ InquiriesLost s t p none ∧ FramesGone s t p ∧
        Replaced s t p none ∧
        ∀ c x a, t.ctx c = some x → x.state ≠ .closing → a ∈ x.attempts → a.path = p →
          a.state ≠ .sent)

/-- R160: a SNAPSHOT adds every part of the Digest not yet in the rewrite list to its tail, without an event
mark, in the order given; the parts already there keep their places. -/
def Obligations.SnapshotNotice : Prop :=
  ∀ s : State, s.adapter.works = true →
    exec .snapshot s = .next
      { s with
        rewrites :=
          s.rewrites ++
            ((Part.header :: ((List.finRange 4).map Part.port ++ (List.finRange 64).map Part.target ++
                (List.finRange 128).map Part.path ++ (List.finRange 64).map Part.group)).filter
              fun part => !s.rewrites.any fun r => r.part == part).map
                fun part => { part := part, event := false } }

/-! ### The Fetch Engine -/

/-- R5, R6, R7: an idle Fetch Engine in RUNNING takes the run at the head of the Arm FIFO; with the FIFO
empty and Sweep Pending set it begins a sweep at record 0, clearing the flag. Otherwise neither begins. R8: a
record that wants a context gets the lowest-numbered free one, which enters FETCHING, and its 128 bytes are
read; with none free the Fetch Engine waits. That the commands change nothing where they may not be taken is log 2;
that each read has one limit from its start is R163 as log 24 reads it. -/
def Obligations.FetchStartsAndReserves : Prop :=
  (∀ s : State,
     (∃ t, exec .runStart s = .next t ∧
       (∀ r rest, s.armFifo = r :: rest → s.adapter = .running → s.job = .none →
         t = { s with armFifo := rest, job := .run r.first r.len, phase := .wantContext }) ∧
       (s.armFifo = [] ∨ s.adapter ≠ .running ∨ s.job ≠ .none → t = s)) ∧
     (∃ t, exec .sweepStart s = .next t ∧
       (s.adapter = .running → s.job = .none → s.armFifo = [] → s.sweepPending = true →
         t = { s with
           sweepPending := false
           job := .sweep 0 false
           phase := .owner { addr := s.recordAddr 0, len := 4, limit := .running s.clock 50000 } }) ∧
       (s.adapter ≠ .running ∨ s.job ≠ .none ∨ s.armFifo ≠ [] ∨ s.sweepPending = false → t = s))) ∧
  (∀ s : State, ∃ t, exec .contextReservation s = .next t ∧
     (∀ c, s.adapter = .running → s.phase = .wantContext → s.ctx c = none →
       (∀ d : CtxId, d < c → s.ctx d ≠ none) →
       t = { s.setCtx c (some {}) with
         phase := .record c
           { addr := s.recordAddr s.job.record, len := 128, limit := .running s.clock 50000 } }) ∧
     ((∀ c, s.ctx c ≠ none) ∨ s.adapter ≠ .running ∨ s.phase ≠ .wantContext → t = s))

/-- R7: what a sweep does at the end of the read of an Owner word: only an ARMED record that no live context holds is
fetched; otherwise the sweep goes on to the next record, or ends after record N − 1. A sweep that STOP has stopped ends
with that read: the record is not fetched, and no other is examined (R17 as log 13 reads it). R163: data that come
after the 50 ms are no answer. The limit of each read runs from its start (log 24). -/
def Obligations.SweepOwnerReads : Prop :=
  ∀ (s : State) (r : HostRead) (n : Nat) (stopped : Bool) (next : State → State), s.phase = .owner r →
    s.job = .sweep n stopped →
    (∀ u : State, next u =
      if stopped = true ∨ s.records ≤ n + 1 then { u with job := .none, phase := .idle }
      else { u with
        job := .sweep (n + 1) false
        phase := .owner
          { addr := s.recordAddr (n + 1), len := 4, limit := .running s.clock 50000 } }) →
    (∀ requests, exec (.sweepOwnerReadEnd (.failed requests)) s = .next (next (s.readFailed r requests))) ∧
    (∀ bytes : List Byte, r.limit.isExpired = true → exec (.sweepOwnerReadEnd (.data bytes)) s = .next s) ∧
    ∀ bytes : List Byte, r.limit.isExpired = false →
      (leAt bytes 0 4 ≠ 1 → exec (.sweepOwnerReadEnd (.data bytes)) s = .next (next s)) ∧
      (leAt bytes 0 4 = 1 → (∃ c x, s.ctx c = some x ∧ x.exch = some n) →
        exec (.sweepOwnerReadEnd (.data bytes)) s = .next (next (s.raise .doubleArm))) ∧
      (leAt bytes 0 4 = 1 → (∀ c x, s.ctx c = some x → x.exch ≠ some n) →
        exec (.sweepOwnerReadEnd (.data bytes)) s =
          .next (if stopped = true then next s else { s with phase := .wantContext }))

/-- R9, R10, R7, R15, R170: the end of a record read. After a read failure, an idle arm or a double arm the context is
freed and the run or the sweep goes on; only a run counts the idle arm. A malformed record completes MALFORMED with the
fields of R15. While the adapter does not take new work a run waits after the record (R17; log 13), a sweep that STOP
has stopped ends with it, and the last live context to be freed in QUIESCING makes the adapter QUIESCED. R163: data
that come after the 50 ms are no answer. The limit of each read runs from its start (log 24). -/
def Obligations.RecordReadsOfARun : Prop :=
  ∀ (s : State) (c : CtxId) (r : HostRead) (n : Nat) (run : Bool) (next close : State → State),
    s.phase = .record c r → s.ctx c = some {} →
    s.GoesTo n run next → ClosesQuiescing close →
    (∀ requests, exec (.recordReadEnd (.failed requests)) s =
      .next (close (next ((s.readFailed r requests).setCtx c none)))) ∧
    (∀ bytes : List Byte, r.limit.isExpired = true → exec (.recordReadEnd (.data bytes)) s = .next s) ∧
    ∀ bytes : List Byte, r.limit.isExpired = false →
      (leAt bytes 0 4 ≠ 1 → exec (.recordReadEnd (.data bytes)) s =
        .next (close (next
          (if run = true then
            (({ s with idleArms := s.idleArms + 1 } : State).mark .header false |>.setCtx c none)
          else s.setCtx c none)))) ∧
      (leAt bytes 0 4 = 1 → (∃ d x, s.ctx d = some x ∧ x.exch = some n) →
        exec (.recordReadEnd (.data bytes)) s =
          .next (close (next ((s.raise .doubleArm).setCtx c none)))) ∧
      (leAt bytes 0 4 = 1 → (∀ d x, s.ctx d = some x → x.exch ≠ some n) →
        ¬((leAt bytes 4 1 = 1 ∨ leAt bytes 4 1 = 2) ∧ 1 ≤ leAt bytes 0x0A 2 ∧ leAt bytes 0x0A 2 ≤ 4096 ∧
          leAt bytes 0x06 2 < 256) →
        ∃ t y res, exec (.recordReadEnd (.data bytes)) s = .next (next t) ∧
          Completed (s.setCtx c (some { exch := some n })) t c { exch := some n } y res ∧
          res.status = .malformed ∧ res.flags = {} ∧ res.remote = .none ∧ res.replyLen = 0 ∧
          res.attemptsUsed = 0 ∧ res.inquiriesUsed = 0 ∧ res.finalPath = none ∧ res.issue = 0 ∧
          res.taken = 0 ∧ OnlyWork (s.setCtx c (some { exch := some n })) t)

/-- R11, R12, R31: a record whose fields pass the checks asks for its stream: NO_STREAM, LEVEL_DENIED, the
payload read, or the wait for a read of the stream's descriptor, which begins where none has been made. A record of a
run and one of a sweep are taken alike, in RUNNING and after STOP (R17). The one limit of each read, from its start, is
R163 as log 24 reads it. -/
def Obligations.StreamChecks : Prop :=
  ∀ (s : State) (c : CtxId) (r : HostRead) (n left : Nat) (stopped : Bool) (bytes : List Byte)
      (f : RecordFields) (held : State),
    s.phase = .record c r → r.limit.isExpired = false →
    s.job = .run n left ∨ s.job = .sweep n stopped → s.ctx c = some {} → leAt bytes 0 4 = 1 →
    (∀ d x, s.ctx d = some x → x.exch ≠ some n) → recordFields bytes = some f →
    held = s.setCtx c (some { exch := some n }) →
    ∃ t, exec (.recordReadEnd (.data bytes)) s = .next t ∧
      ((s.stream f.stream).load = .valid → (s.streamDesc f.stream).present = true →
        s.effectiveLevel n f.level ≤ (s.streamDesc f.stream).level →
        t = { s.setCtx c (some
            { exch := some n
              kind := f.kind
              stream := f.stream
              level := s.effectiveLevel n f.level
              deadlineMs :=
                if f.deadlineMs = 0 then (s.streamDesc f.stream).defaultDeadline else f.deadlineMs
              reqLen := f.reqLen
              replyAddr := f.replyAddr
              replyCap := f.replyCap }) with
          phase := .payload c
            { addr := f.reqAddr, len := f.reqLen, limit := .running s.clock 50000 } }) ∧
      ((s.stream f.stream).load = .valid → (s.streamDesc f.stream).present = true →
        (s.streamDesc f.stream).level < s.effectiveLevel n f.level →
        ∃ m y res, t = m.advanceJob ∧ Completed held m c { exch := some n } y res ∧
          res.status = .levelDenied ∧ OnlyWork held m) ∧
      ((s.stream f.stream).load = .invalid ∨
          (s.stream f.stream).load = .valid ∧ (s.streamDesc f.stream).present = false →
        ∃ m y res, t = m.advanceJob ∧ Completed held m c { exch := some n } y res ∧
          res.status = .noStream ∧ OnlyWork held m) ∧
      ((s.stream f.stream).load = .notLoaded →
        t = { (s.setCtx c (some { exch := some n })).setStream f.stream
            { s.stream f.stream with
              load := .loading false
              read := some
                { addr := s.streamAddr f.stream, len := 64, limit := .running s.clock 50000 } } with
          phase := .stream c f }) ∧
      ((s.stream f.stream).load = .reloading ∨ (∃ b, (s.stream f.stream).load = .loading b) →
        t = { s.setCtx c (some { exch := some n }) with phase := .stream c f })

/-- R1, R12: the fields a well-formed record gives, each clamped, and the origin level of its number: the
greatest level of the slices that contain it, and 3 where none does. -/
def Obligations.RecordFieldsAndLevels : Prop :=
  (∀ (bytes : List Byte) (f : RecordFields), recordFields bytes = some f →
    f.kind = (if leAt bytes 4 1 = 1 then .query else .commit) ∧
    f.level = min 3 (leAt bytes 5 1) ∧ f.stream.val = leAt bytes 6 2 ∧
    f.deadlineMs = min 60000 (leAt bytes 8 2) ∧ f.reqLen = leAt bytes 0x0A 2 ∧
    f.replyCap = min 4096 (leAt bytes 0x0C 2) ∧ f.reqAddr.toNat = leAt bytes 0x10 8 ∧
    f.replyAddr.toNat = leAt bytes 0x18 8 ∧ 1 ≤ f.reqLen ∧ f.reqLen ≤ 4096) ∧
  (∀ (slices : List Slice) (n : Nat),
    ((∀ l ∈ slices, ¬(l.first ≤ n ∧ n ≤ l.last)) → originLevel slices n = 3) ∧
    (∀ l ∈ slices, l.first ≤ n → n ≤ l.last → l.level ≤ originLevel slices n ∧
      ∃ m ∈ slices, m.first ≤ n ∧ n ≤ m.last ∧ originLevel slices n = m.level))

/-- R31, R33, R40, R41: the end of the first read of a stream entry makes it VALID with the contents read, whose mode is
the mode in force, or NOT_LOADED after a failure, which is reported (R163). With Reload Again set one more read
begins. The fetch that waits for it goes on before that (log 15), as R11 and R12 say: NO_STREAM, LEVEL_DENIED, or the
payload read, whose limit is R163's as log 24 reads it; after the failure NO_STREAM. A fetch that waits for another
entry, and every other phase, stays. The dispatch decision is tested. Data that come after the 50 ms are no answer
(log 24). -/
def Obligations.StreamLoadReadEnd : Prop :=
  ∀ (s : State) (n : StreamId) (r : HostRead), s.adapter.works = true → (s.stream n).read = some r →
    (s.stream n).load = .loading false →
    (∀ bytes : List Byte, r.limit.isExpired = true → exec (.streamLoadReadEnd n (.data bytes)) s = .next s) ∧
    (∀ (bytes : List Byte) (d : StreamDesc), r.limit.isExpired = false → d = streamDesc bytes →
      ∃ t, exec (.streamLoadReadEnd n (.data bytes)) s = .next t ∧
        StreamReadOn s t n .valid ∧ (t.stream n).contents = some d ∧ (t.stream n).mode = d.mode ∧
        (∀ m, m ≠ n → (s.stream m).Same (t.stream m)) ∧ FetchGoesOn s t n (some d) ∧
        Dispatched s t n
          { s.stream n with load := .valid, contents := some d, mode := d.mode, read := none }) ∧
    (∀ requests, ∃ t, exec (.streamLoadReadEnd n (.failed requests)) s = .next t ∧
      StreamReadOn s t n .notLoaded ∧
      t.faultCount = (s.readFailed r requests).faultCount ∧
      t.faultAddress = (s.readFailed r requests).faultAddress ∧ t.event &&& 0x040 = 0x040 ∧
      (∀ m, m ≠ n → (s.stream m).Same (t.stream m)) ∧ FetchGoesOn s t n none ∧
      ((s.stream n).InForce → Dispatched s t n { s.stream n with load := .notLoaded, read := none }))

/-- R13, R14, R15, R24: the end of the payload read. A failed read completes UNREADABLE, and an exchange
marked by ABORT completes ABORTED; otherwise the exchange is taken: the next Issue Number, the three writes
of the taking in their order, the request in the context's slot, the deadline timer started, and its place at the tail
of its stream's pending list. R41, R42, R44: the dispatch decision is then tested: where the stream is STALLED, its
entry is being read, or its in-flight count is not below its limit, the exchange stays PENDING there; alone in the list
of a stream that dispatches it is ACTIVE or PARKED. Data that come after the 50 ms of R163 are no answer (log 24). That
the taking makes three writes, the first two in this order, is log 28; that bytes an answer lacks read 0 is log 30. -/
def Obligations.PayloadReadEnd : Prop :=
  ∀ (s : State) (c : CtxId) (r : HostRead) (x : Context) (e : StreamEntry), s.phase = .payload c r →
    s.ctx c = some x → x.state = .fetching → x.reqLen ≤ 4096 → cellsWf s.payload = true →
    e = s.stream x.stream →
    (∀ requests, ∃ t y res, exec (.payloadReadEnd (.failed requests)) s = .next t ∧
      t.ctx c = some y ∧ y.state = .closing ∧ y.result = some res ∧ res.status = .unreadable ∧
      res.done = s.clock ∧ t.faultCount = (s.readFailed r requests).faultCount) ∧
    (∀ bytes : List Byte, r.limit.isExpired = true → exec (.payloadReadEnd (.data bytes)) s = .next s) ∧
    (∀ bytes : List Byte, r.limit.isExpired = false → x.abortMark = true → ∃ t y res,
      exec (.payloadReadEnd (.data bytes)) s = .next t ∧ t.ctx c = some y ∧ y.state = .closing ∧
      y.result = some res ∧ res.status = .aborted ∧ t.issueNumber = s.issueNumber ∧
      t.streams = s.streams) ∧
    (∀ bytes : List Byte, r.limit.isExpired = false → x.abortMark = false →
      ∃ t y issue taken,
      exec (.payloadReadEnd (.data bytes)) s = .next t ∧ issue = s.issueNumber.getD 0 + 1 ∧
      t.issueNumber = some issue ∧ t.ctx c = some y ∧
      taken = { x with
        state := .pending, issue := issue, taken := s.clock
        deadlineTimer := .running s.clock (1000 * x.deadlineMs) } ∧
      taken.Kept y ∧ y.deadlineTimer = taken.deadlineTimer ∧
      (y.state = .pending ∨ y.state = .active ∨ y.state = .parked) ∧
      (e.InForce → Dispatched (s.setCtx c (some taken)) t x.stream
        { e with pendingList := e.pendingList ++ [c] }) ∧
      (∀ m, m ≠ x.stream → t.stream m = s.stream m) ∧
      (e.state = .stalled ∨ e.load.inRead = true ∨ e.limit ≤ e.inflight ∨
          s.adapter ≠ .running ∧ s.adapter ≠ .quiescing →
        y = taken ∧ t.stream x.stream = { e with pendingList := e.pendingList ++ [c] }) ∧
      (e.InForce → c ∉ e.pendingList →
        ({ e with pendingList := e.pendingList ++ [c] } : StreamEntry).decisions t.adapter ≤
          e.pendingList.length → y = taken) ∧
      (e.pendingList = [] → e.state = .open → e.load.inRead = false → e.inflight < e.limit →
        s.adapter = .running ∨ s.adapter = .quiescing →
        FirstDispatched t c y ∧ t.stream x.stream =
          { e with inflight := e.inflight + 1, mode := (s.streamDesc x.stream).mode }) ∧
      t.outbound = s.outbound ++
        [.write (s.recordAddr (x.exch.getD 0) + 0x4C) (leBytes issue.toNat 4),
          .write (s.recordAddr (x.exch.getD 0) + 0x50) (leBytes s.clock.toNat 4),
          .write (s.recordAddr (x.exch.getD 0)) (leBytes 2 4)] ∧
      (∀ k, k < x.reqLen → readCell (4096 * c.val + k) t.payload = bytes.getD k 0) ∧
      (∀ a, a < 4096 * c.val ∨ 4096 * c.val + x.reqLen ≤ a → readCell a t.payload = readCell a s.payload))
/-! ### Reloads, LOADING and failed reads -/

/-- R33 to R37, R41 to R43: the end of a RELOAD_STREAM read: the entry takes the new contents, or is INVALID after a
failure, and with Reload Again set one more read begins; the stream is OPEN again, and the dispatch decision is
tested. That it is OPEN also where an exchange completes IN_DOUBT in the re-routing of R37 is the model's choice (log
40). Contents that are not present withdraw what waits undispatched. The mode in force follows R42. What waits on a
path the new contents do not let the stream use goes back to route selection, and PARKED exchanges are offered again
(R37, R58, R59); SENT work is untouched. R11, R12: a fetch that waits for the read goes on: NO_STREAM, LEVEL_DENIED or
the payload read. With Reload Again set, that the fetch and the dispatch test go on before the further read is log 15.
Data that come after the 50 ms of R163 are no answer, and the limit of a further read runs from its start (log 24). -/
def Obligations.ReloadStreamReadEnd : Prop :=
  ∀ (s : State) (n : StreamId) (r : HostRead), s.adapter.works = true → (s.stream n).read = some r →
    (s.stream n).load ≠ .loading false → s.deferred = [] →
    (∀ bytes : List Byte, r.limit.isExpired = true → exec (.reloadStreamReadEnd n (.data bytes)) s = .next s) ∧
    (∀ (bytes : List Byte) (d : StreamDesc) (fits : PathId → Prop), r.limit.isExpired = false →
      d = streamDesc bytes →
      (∀ p, fits p ↔ d.permits.getLsbD p.val = true ∧ p ∈ (s.targetDesc d.target).pathList) →
      ∃ t, exec (.reloadStreamReadEnd n (.data bytes)) s = .next t ∧
        StreamReadOn s t n .valid ∧ (t.stream n).contents = some d ∧ (t.stream n).state = .open ∧
        (d.mode = .unordered ∨ (s.stream n).contents = none → (t.stream n).mode = d.mode) ∧
        (d.mode = .ordered → (s.stream n).contents ≠ none → (s.stream n).pendingList = [] →
          (t.stream n).mode = (s.stream n).mode) ∧
        (d.mode = .ordered → (t.stream n).mode = (s.stream n).mode ∨ (t.stream n).mode = .ordered) ∧
        FetchGoesOn s t n (some d) ∧ (t.stream n).decisions t.adapter = 0 ∧
        (d.present = true → (∀ c x, s.ctx c = some x → x.stream = n → x.state ≠ .parked ∧ x.state ≠ .active ∧
            x.state ≠ .waiting ∧ x.state ≠ .resolving) →
          Dispatched s t n
            { s.stream n with
              load := .valid, contents := some d, read := none, state := .open
              mode := if (s.stream n).contents = none ∨ d.mode = .unordered then d.mode
                else (s.stream n).mode }) ∧
        (d.present = false → ∀ c x, s.ctx c = some x → x.state ≠ .closing →
          c ∈ (s.stream n).pendingList ∨ x.stream = n ∧ x.state = .parked →
          ∃ y res, t.ctx c = some y ∧ y.state = .closing ∧ y.result = some res ∧
            res.status = .withdrawn) ∧
        ∀ c x, s.ctx c = some x → x.stream = n → x.state ≠ .fetching →
          Reoffered s t c x d.target fits fits (d.present = true)) ∧
    (∀ requests, ∃ t, exec (.reloadStreamReadEnd n (.failed requests)) s = .next t ∧
      StreamReadOn s t n .invalid ∧ (t.stream n).contents = (s.stream n).contents ∧
      (t.stream n).state = .open ∧ FetchGoesOn s t n none ∧
      ((s.stream n).InForce → Dispatched s t n
        { s.stream n with load := .invalid, read := none, state := .open }) ∧
      t.faultCount = (s.readFailed r requests).faultCount)

/-- R33, R34, R38, R60, R120: the end of a RELOAD_TARGET read: the entry takes the new contents and its reachability
follows them; after a failure it is INVALID with an empty Path List, and UNREACHABLE. With Reload Again set one more
read begins. What waits on a path no longer listed goes back to route selection, and the target's park list is
released (R37, R58, R59); after a failure no exchange changes. R158: a changed reachability waits with an event mark.
Data that come after the 50 ms of R163 are no answer, and the limit of a further read runs from its start (log 24). -/
def Obligations.ReloadTargetReadEnd : Prop :=
  ∀ (s : State) (u : TargetId) (r : HostRead), s.adapter.works = true → (s.target u).read = some r →
    s.deferred = [] →
    (∀ bytes : List Byte, r.limit.isExpired = true → exec (.reloadTargetReadEnd u (.data bytes)) s = .next s) ∧
    (∀ (bytes : List Byte) (listed : PathId → Prop), r.limit.isExpired = false →
      (∀ p, listed p ↔ p ∈ (targetDesc bytes).pathList) →
      ∃ t, exec (.reloadTargetReadEnd u (.data bytes)) s = .next t ∧
        OnlyWork (s.setTarget u
          { s.target u with
            load := (t.target u).load, contents := some (targetDesc bytes), read := (t.target u).read
            again := false }) t ∧
        TargetReadOn s t u .valid ∧ (t.target u).contents = some (targetDesc bytes) ∧
        (t.target u).reach = reachOf s (targetDesc bytes).pathList ∧
        ((t.target u).reach ≠ (s.target u).reach → { part := .target u, event := true } ∈ t.rewrites) ∧
        ∀ c x, s.ctx c = some x → (s.streamDesc x.stream).target = u → x.state ≠ .fetching →
          Reoffered s t c x u (fun p => listed p ∧ (s.streamDesc x.stream).permits.getLsbD p.val = true)
            listed (c ∈ (s.target u).park)) ∧
    (∀ requests, ∃ t, exec (.reloadTargetReadEnd u (.failed requests)) s = .next t ∧
      TargetReadOn s t u .invalid ∧ (t.target u).reach = .unreachable ∧
      ((s.target u).reach ≠ .unreachable → { part := .target u, event := true } ∈ t.rewrites) ∧
      (∀ d, (t.target u).contents = some d → d.pathList = []) ∧
      t.ctxs = s.ctxs ∧ t.faultCount = (s.readFailed r requests).faultCount)

/-- R33, R34, R39, R118: the end of a RELOAD_PATH read; with Reload Again set one more begins, whose limit from its
start is log 24. New contents that keep Port and Remote Address change the copy alone; any other, and a failure, are a
path loss: no estimate, no strikes, flap level 0, and a state begun anew, whose change is handed out (R120, R158). Its
SENT work ends LOST, with the course that follows (R126, R129, R132, R137), its frames leave the lanes of the port named
before (R78), what waited there is replaced (R58), and under new contents it is probed from the start where its port is
not DOWN; after a failure it is not. Data that come after the 50 ms of R163 are no answer (log 24). That it is probed
while one more read of its copy is in progress is log 7. -/
def Obligations.ReloadPathReadEnd : Prop :=
  ∀ (s : State) (p : PathId) (r : HostRead), s.adapter.works = true → (s.path p).read = some r →
    s.deferred = [] →
    (∀ bytes : List Byte, r.limit.isExpired = true → exec (.reloadPathReadEnd p (.data bytes)) s = .next s) ∧
    (∀ bytes : List Byte, r.limit.isExpired = false → ∃ t, exec (.reloadPathReadEnd p (.data bytes)) s = .next t ∧
      PathReadOn s t p .valid ∧ (t.path p).contents = some (pathDesc bytes) ∧
      (∀ d, (s.path p).contents = some d → d.port = (pathDesc bytes).port →
        d.remote = (pathDesc bytes).remote →
        t = s.setPath p
          { s.path p with
            load := (t.path p).load, read := (t.path p).read, again := false
            contents := some (pathDesc bytes) }) ∧
      ((∀ d, (s.path p).contents = some d →
          d.port ≠ (pathDesc bytes).port ∨ d.remote ≠ (pathDesc bytes).remote) → PathLost s t p)) ∧
    (∀ requests, ∃ t, exec (.reloadPathReadEnd p (.failed requests)) s = .next t ∧
      PathReadOn s t p .invalid ∧ (t.path p).contents = none ∧ PathLost s t p ∧
      t.faultCount = (s.readFailed r requests).faultCount ∧
      t.faultAddress = (s.readFailed r requests).faultAddress)

/-- R168, R169: the end of the Anchor read: the tables are read under the Anchor's interpretation, or the
adapter enters FAULTED. R168 steps 3 to 10, R16, R122, R160: the end of the last read of LOADING: the settings are in
force, every target and path holds its descriptor, every path is UNTRIED or, not Enabled, FENCED, the counters of the
Digest start from 0, the whole Digest is written first, in one write (log 28), as it stands before the entry to
RUNNING, and the adapter is RUNNING. A changed Exchange Table across a LOADING from QUIESCED drops the runs for a
sweep; under an unchanged one a kept run goes on (R17). Each of the 192 table reads ends for itself; ends that come
together are taken in the order given (log 32). R163: data that come after the 50 ms of their read are no
answer. The model's choices: when each limit begins (log 24, and log 45 for
the table reads, whose beginnings are free), and the stream entries without contents, whose mode in force stands
UNORDERED until contents are read (log 26). -/
def Obligations.LoadingReads : Prop :=
  (∀ (s : State) (q : Bool) (r : HostRead), s.loading = some (.anchor q r) →
     (∀ bytes : List Byte, exec (.loadingAnchorReadEnd (.data bytes)) s = .next
       (if r.limit.isExpired then s
       else { s with loading := some (.tables q (anchorSettings bytes) s.clock 0 (Vector.replicate 192 none)) })) ∧
     (∀ requests, exec (.loadingAnchorReadEnd (.failed requests)) s = .next
       (State.enterAdapter .faulted { s.readFailed r requests with loading := none }))) ∧
  (∀ s : State, exec (.loadingTablesReadEnd []) s = .next s ∧
     ∀ e ends, ∃ t, exec (.loadingTablesReadEnd [e]) s = .next t ∧
       exec (.loadingTablesReadEnd (e :: ends)) s = exec (.loadingTablesReadEnd ends) t) ∧
  (∀ (s : State) (q : Bool) (cfg : Settings) (begun : W32) (age : Nat) (got : TablesRead) (e : TableEntry)
      (bytes : List Byte), s.loading = some (.tables q cfg begun age got) → got.get (tableIndex e) = none →
     (Config.tableReadBegins begun (tableIndex e) + 50000 ≤ age →
       exec (.loadingTablesReadEnd [{ entry := e, answer := .data bytes }]) s = .next s) ∧
     (age < Config.tableReadBegins begun (tableIndex e) + 50000 →
       (∃ other, other ≠ e ∧ got.get (tableIndex other) = none) →
       exec (.loadingTablesReadEnd [{ entry := e, answer := .data bytes }]) s = .next
         { s with
           loading :=
             some (.tables q cfg begun age (got.set (tableIndex e).val (some bytes) (tableIndex e).isLt)) })) ∧
  (∀ (s : State) (q : Bool) (cfg : Settings) (begun : W32) (age : Nat) (got : TablesRead) (e : TableEntry)
      (bytes : List Byte) (read : TableEntry → List Byte),
     s.loading = some (.tables q cfg begun age got) → got.get (tableIndex e) = none →
     age < Config.tableReadBegins begun (tableIndex e) + 50000 → read e = bytes →
     (∀ other, other ≠ e → got.get (tableIndex other) = some (read other)) →
     ∃ t, exec (.loadingTablesReadEnd [{ entry := e, answer := .data bytes }]) s = .next t ∧
       t.adapter = .running ∧ t.loading = none ∧ t.settings = some cfg ∧
       t.event = (s.event ||| 0x080) ∧
       t.issueNumber = some (s.issueNumber.getD cfg.issueSeed) ∧ t.idleArms = 0 ∧
       (∀ g, t.groups.get g = 0) ∧
       (∀ u, (t.target u).load = .valid ∧ (t.target u).reach = .unreachable ∧
         (t.target u).contents = some (targetDesc (read (.target u)))) ∧
       (∀ p, (t.path p).load = .valid ∧ (t.path p).strikes = 0 ∧ (t.path p).drill = false ∧
         (t.path p).contents = some (pathDesc (read (.path p))) ∧
         (t.path p).health =
           (if (pathDesc (read (.path p))).enabled then .untried else .fenced) ∧
         (t.path p).fence = !(pathDesc (read (.path p))).enabled ∧
         (t.path p).flap = (s.path p).flap ∧ (t.path p).srtt = (s.path p).srtt) ∧
       (∀ i, (t.port i).settings = cfg.filters.get i ∧ (t.port i).downTimes = [] ∧
         (t.port i).state = (s.port i).state) ∧
       (digestBytes { t with adapter := s.adapter }).length = 4448 ∧
       t.outbound[s.outbound.length]? =
         some (.write cfg.digestBase (digestBytes { t with adapter := s.adapter })) ∧
       (∃ later, t.outbound.drop (s.outbound.length + 1) = later ∧ ∀ o ∈ later, o = .interrupt) ∧
       (∀ n, t.stream n = {}) ∧ (∀ u, (t.target u).park = (s.target u).park) ∧ t.ctxs = s.ctxs ∧
       (q = true → (∃ old, s.settings = some old ∧
           (old.records ≠ cfg.records ∨ old.exchBase ≠ cfg.exchBase)) →
         t.armFifo = [] ∧ t.job = .none ∧ t.phase = .idle ∧ t.sweepPending = true) ∧
       (q = false ∨ (∀ old, s.settings = some old →
           old.records = cfg.records ∧ old.exchBase = cfg.exchBase) →
         t.armFifo = s.armFifo ∧ t.job = s.job ∧ t.sweepPending = s.sweepPending ∧
         ((∃ next left, s.job = .run next left) → t.phase = .wantContext) ∧
         ((∀ next left, s.job ≠ .run next left) → t.phase = s.phase)))

/-- R163, R169: each failed request of a read records the first fault address, raises the fault count to at
most 255 and sets MEMORY_FAULT; the first table read that fails at LOADING ends in FAULTED. The other table reads that
have not ended go on without a use there, each with what is left of its limit (log 32), from a beginning that is free
(log 45): HostReadTimeouts says that their failures are reported. -/
def Obligations.MemoryFaults : Prop :=
  (∀ (s : State) (addr : W64), ∃ t, s.memoryFault addr = t ∧
    t.faultAddress = (if s.faultAddress = 0 then addr else s.faultAddress) ∧
    t.faultCount = min 255 (s.faultCount + 1) ∧ t.event = (s.event ||| 0x040) ∧
    t = { s with
      faultAddress := t.faultAddress, faultCount := t.faultCount, event := t.event
      interrupt := t.interrupt, outbound := t.outbound }) ∧
  (∀ (s : State) (r : HostRead) (requests : List Nat),
    (∀ k ∈ requests, k < (r.addr.toNat % 4096 + r.len + 4095) / 4096) → requests ≠ [] →
    s.readFailed r requests =
      requests.foldl
        (fun u k =>
          u.memoryFault
            (if k = 0 then r.addr else BitVec.ofNat 64 ((r.addr.toNat / 4096 + k) * 4096))) s) ∧
  (∀ (s : State) (q : Bool) (cfg : Settings) (begun : W32) (age : Nat) (got : TablesRead) (e : TableEntry)
      (requests : List Nat) (read : TableEntry → HostRead),
    s.loading = some (.tables q cfg begun age got) → got.get (tableIndex e) = none →
    (∀ u : TargetId, (read (.target u)).addr = cfg.targetBase + BitVec.ofNat 64 (16 * u.val) ∧
      (read (.target u)).len = 16) →
    (∀ p : PathId, (read (.path p)).addr = cfg.pathBase + BitVec.ofNat 64 (64 * p.val) ∧
      (read (.path p)).len = 64) →
    (∀ (other : TableEntry) (begins : Nat), begins = Config.tableReadBegins begun (tableIndex other) →
      (read other).limit =
        if age < begins then .idle
        else if begins + 50000 ≤ age then .expired (begun + BitVec.ofNat 32 begins) 50000
        else .running (begun + BitVec.ofNat 32 begins) 50000) →
    ∃ left, exec (.loadingTablesReadEnd [{ entry := e, answer := .failed requests }]) s = .next
      (State.enterAdapter .faulted
        { s.readFailed (read e) requests with loading := none, orphans := s.orphans ++ left }) ∧
      (left.map (·.id)).Nodup ∧
      ∀ o, o ∈ left ↔ ∃ other, other ≠ e ∧ got.get (tableIndex other) = none ∧
        o = { id := .table other, read := read other })

/-- R163: a read that has had no answer when its 50 ms have run is judged failed: its requests are reported, and its
end is taken under the rule of its block (R7, R9, R13, R31, R33, R34, R118, R169). A record read that times out frees
its context, and the run or the sweep goes on from its next record, or, STOP having been taken, waits or ends there
(R17; log 13), the last live context making the adapter QUIESCED (R170). A read whose time has not run goes on,
and with none due nothing changes (log 2). One limit for each read from its start is log 24; when each table read of
LOADING begins is free (log 45). A read left without a use, by a START from QUIESCED (log 14) or by another table read
that failed (log 32), is reported and ends, the oldest first, at its timeout and at its end alike; its data have no
effect, and none at all when they come after its limit (log 24). That a fetch waiting for a stream goes on before a
further read is log 15. -/
def Obligations.HostReadTimeouts : Prop :=
  (∀ (s : State) (requests : List Nat) (r : HostRead), r.limit.isExpired = true →
     (∀ n left, s.phase = .owner r → s.job = .sweep n left →
       ∃ t, exec (.hostReadTimeout .ownerWord requests) s = .next t ∧
         (left = true ∨ s.records ≤ n + 1 →
           t = { s.readFailed r requests with job := .none, phase := .idle }) ∧
         (left = false → n + 1 < s.records →
           t = { s.readFailed r requests with
             job := .sweep (n + 1) false
             phase := .owner
               { addr := s.recordAddr (n + 1), len := 4, limit := .running s.clock 50000 } })) ∧
     (∀ c x n run next close, s.phase = .record c r → s.ctx c = some x → x.state = .fetching →
       s.GoesTo n run next → ClosesQuiescing close →
       exec (.hostReadTimeout .record requests) s =
         .next (close (next ((s.readFailed r requests).setCtx c none)))) ∧
     (∀ c x, s.phase = .payload c r → s.ctx c = some x → x.state = .fetching →
       ∃ t y res, exec (.hostReadTimeout .payload requests) s = .next t ∧
         t.faultCount = (s.readFailed r requests).faultCount ∧
         t.faultAddress = (s.readFailed r requests).faultAddress ∧ t.event &&& 0x040 = 0x040 ∧
         t.ctx c = some y ∧ y.state = .closing ∧ y.result = some res ∧ res.status = .unreadable) ∧
     (∀ n, s.adapter.works = true → (s.stream n).read = some r →
       ∃ t, exec (.hostReadTimeout (.stream n) requests) s = .next t ∧ FetchGoesOn s t n none ∧
         t.faultCount = (s.readFailed r requests).faultCount ∧
         t.faultAddress = (s.readFailed r requests).faultAddress ∧ t.event &&& 0x040 = 0x040 ∧
         (t.stream n).contents = (s.stream n).contents ∧
         ((s.stream n).load = .loading false → StreamReadOn s t n .notLoaded) ∧
         ((s.stream n).load ≠ .loading false →
           StreamReadOn s t n .invalid ∧ (t.stream n).state = .open)) ∧
     (∀ u, s.adapter.works = true → (s.target u).read = some r →
       ∃ t, exec (.hostReadTimeout (.target u) requests) s = .next t ∧
         t.faultCount = (s.readFailed r requests).faultCount ∧
         t.faultAddress = (s.readFailed r requests).faultAddress ∧ t.event &&& 0x040 = 0x040 ∧
         TargetReadOn s t u .invalid ∧ (t.target u).reach = .unreachable ∧
         ∀ d, (t.target u).contents = some d → d.pathList = []) ∧
     (∀ p, s.adapter.works = true → (s.path p).read = some r → s.deferred = [] →
       ∃ t, exec (.hostReadTimeout (.path p) requests) s = .next t ∧
         t.faultCount = (s.readFailed r requests).faultCount ∧
         t.faultAddress = (s.readFailed r requests).faultAddress ∧ t.event &&& 0x040 = 0x040 ∧
         PathReadOn s t p .invalid ∧ (t.path p).contents = none ∧ PathLost s t p ∧
         (t.path p).health.inService = false) ∧
     (∀ q, s.loading = some (.anchor q r) →
       exec (.hostReadTimeout .anchor requests) s = .next
         (State.enterAdapter .faulted { s.readFailed r requests with loading := none })) ∧
     (∀ q cfg begun age got e, s.loading = some (.tables q cfg begun age got) → got.get (tableIndex e) = none →
       Config.tableReadBegins begun (tableIndex e) + 50000 ≤ age →
       exec (.hostReadTimeout (.table e) requests) s =
           exec (.loadingTablesReadEnd [{ entry := e, answer := .failed requests }]) s ∧
         ∃ t, exec (.hostReadTimeout (.table e) requests) s = .next t ∧ t.adapter = .faulted ∧
           t.loading = none ∧ t.event &&& 0x0C0 = 0x0C0)) ∧
  (∀ (s : State) (id : HostReadId) (requests : List Nat) (due : Bool),
     due = (match id with
       | .ownerWord => (match s.phase with | .owner r => r.limit.isExpired | _ => false)
       | .record => (match s.phase with | .record _ r => r.limit.isExpired | _ => false)
       | .payload => (match s.phase with | .payload _ r => r.limit.isExpired | _ => false)
       | .stream n => (s.stream n).read.any fun r => r.limit.isExpired
       | .target u => (s.target u).read.any fun r => r.limit.isExpired
       | .path p => (s.path p).read.any fun r => r.limit.isExpired
       | .anchor => (match s.loading with | some (.anchor _ r) => r.limit.isExpired | _ => false)
       | .table e => (match s.loading with
         | some (.tables _ _ begun age got) => (got.get (tableIndex e)).isNone &&
             decide (Config.tableReadBegins begun (tableIndex e) + 50000 ≤ age)
         | _ => false)) →
     due = false →
     ((∀ o ∈ s.orphans, o.id = id → o.read.limit.isExpired = false) →
       exec (.hostReadTimeout id requests) s = .next s) ∧
     ∀ l o m, s.orphans = l ++ o :: m → o.id = id → (∀ e ∈ l, e.id ≠ id) →
       o.read.limit.isExpired = true →
       exec (.hostReadTimeout id requests) s = .next
         (State.readFailed o.read requests { s with orphans := l ++ m })) ∧
  (∀ (s : State) (l m : List Orphan) (o : Orphan) (answer : ReadAnswer) (t : State),
     s.orphans = l ++ o :: m → (∀ e ∈ l, e.id ≠ o.id) →
     t = (match answer with
       | .data _ => if o.read.limit.isExpired then s else { s with orphans := l ++ m }
       | .failed requests => State.readFailed o.read requests { s with orphans := l ++ m }) →
     (o.id = .ownerWord → (∀ r, s.phase ≠ .owner r) →
       exec (.sweepOwnerReadEnd answer) s = .next t) ∧
     (∀ n, o.id = .stream n → (s.stream n).read = none →
       exec (.reloadStreamReadEnd n answer) s = .next t) ∧
     (∀ u, o.id = .target u → (s.target u).read = none →
       exec (.reloadTargetReadEnd u answer) s = .next t) ∧
     (∀ p, o.id = .path p → (s.path p).read = none →
       exec (.reloadPathReadEnd p answer) s = .next t) ∧
     ∀ e, o.id = .table e → s.loading = none →
       exec (.loadingTablesReadEnd [{ entry := e, answer := answer }]) s = .next t)

/-! ### Carrier filters and age checks -/

/-- R63, R64, R65, with the port state of R66: how a carrier filter takes a raw loss, a raw return, and the expiry of
its timer: its next state, its timer, and whether a loss or a return is accepted at once. R66, R117, R111: an accepted
return has the port UP, and where the adapter works probing begins on its UNTRIED paths and on its DOWN ones past
hold-down: mark B runs for the fast interval and a PROBE waits in lane 0 (the premise that no cycle ran before holds of
every path of a DOWN port in a state that a run reaches). That such a path is probed with its copy being reloaded too is
log 7. That an expiry command without an expired timer changes nothing is log 2. -/
def Obligations.CarrierFilterTakesRawChanges : Prop :=
  (∀ (i : PortId) (s : State), ∃ t, exec (.rawCarrierLoss i) s = .next t ∧
     ((s.port i).filter = .present → (s.port i).settings.mode = .delayed →
       (s.port i).settings.lossTime ≠ 0 →
       t = s.setPort i
         { s.port i with
           filter := .lossPending
           filterTimer := .running s.clock (1000 * (s.port i).settings.lossTime) }) ∧
     ((s.port i).filter = .present →
       (s.port i).settings.mode = .immediate ∨ (s.port i).settings.lossTime = 0 →
       (t.port i).state = .down ∧
       (t.port i).filter = (if (s.port i).settings.lossTime = 0 then .lost else .hold false) ∧
       (t.port i).filterTimer =
         (if (s.port i).settings.lossTime = 0 then .idle
         else .running s.clock (1000 * (s.port i).settings.lossTime))) ∧
     ((s.port i).filter = .lossPending ∨ (s.port i).filter = .lost → t = s) ∧
     (∀ raw, (s.port i).filter = .hold raw →
       t = s.setPort i { s.port i with filter := .hold false }) ∧
     ((s.port i).filter = .returnPending →
       t = s.setPort i { s.port i with filter := .lost, filterTimer := .idle })) ∧
  (∀ (i : PortId) (s : State),
     (∃ t, exec (.rawCarrierReturn i) s = .next t ∧
       ((s.port i).filter = .present ∨ (s.port i).filter = .returnPending → t = s) ∧
       ((s.port i).filter = .lossPending →
         t = s.setPort i { s.port i with filter := .present, filterTimer := .idle }) ∧
       (∀ raw, (s.port i).filter = .hold raw →
         t = s.setPort i { s.port i with filter := .hold true }) ∧
       ((s.port i).filter = .lost → (s.port i).settings.returnTime ≠ 0 →
         t = s.setPort i
           { s.port i with
             filter := .returnPending
             filterTimer := .running s.clock (1000 * (s.port i).settings.returnTime) }) ∧
       ((s.port i).filter = .lost → (s.port i).settings.returnTime = 0 → CarrierReturned s t i)) ∧
     (∃ t, exec (.carrierFilterExpiry i) s = .next t ∧
       ((s.port i).filterTimer.isExpired = false → t = s) ∧
       ((s.port i).filterTimer.isExpired = true →
         ((s.port i).filter = .lossPending →
           (t.port i).filter = .lost ∧ (t.port i).state = .down ∧ (t.port i).filterTimer = .idle) ∧
         ((s.port i).filter = .hold false →
           t = s.setPort i { s.port i with filter := .lost, filterTimer := .idle }) ∧
         ((s.port i).filter = .hold true → (s.port i).settings.returnTime ≠ 0 →
           t = s.setPort i
             { s.port i with
               filter := .returnPending
               filterTimer := .running s.clock (1000 * (s.port i).settings.returnTime) }) ∧
         ((s.port i).filter = .hold true → (s.port i).settings.returnTime = 0 → CarrierReturned s t i) ∧
         ((s.port i).filter = .returnPending → CarrierReturned s t i))))

/-- R64 to R67, R117, R105 to R107, R126, R137: an accepted loss, at the end of LOSS_PENDING or given by a raw loss in
IMMEDIATE mode or with loss filter time 0: the port is DOWN, its lanes empty and its masks clear, and every path of
the port that is not FENCED is DOWN, with the Fence flag and the estimate kept, its flap level and hold-down as R106
and R107 give, its SENT attempts and inquiries lost, with the course that follows: a query left to its twin, re-driven
or TIMEOUT, a commit in resolution or IN_DOUBT (R127, R129, R132, R134). What waited in its lanes is replaced or routed
again (R58, R78), and its change handed out (R120, R158); a path already DOWN keeps its hold-down. In
HALTED, LOADING and FAULTED it changes the port state and the filter alone. -/
def Obligations.AcceptedLossTakesPathsDown : Prop :=
  ∀ (i : PortId) (s : State), s.deferred = [] →
    ((s.port i).filterTimer.isExpired = true → (s.port i).filter = .lossPending →
      ∃ t, exec (.carrierFilterExpiry i) s = .next t ∧
        (s.adapter.works = false →
          t = s.setPort i
            { s.port i with filter := .lost, filterTimer := .idle, state := .down }) ∧
        (s.adapter.works = true → CarrierLost s t i)) ∧
    ((s.port i).filter = .present →
      (s.port i).settings.mode = .immediate ∨ (s.port i).settings.lossTime = 0 →
      ∃ t, exec (.rawCarrierLoss i) s = .next t ∧
        (s.adapter.works = false →
          t = s.setPort i
            { s.port i with
              filter := if (s.port i).settings.lossTime = 0 then .lost else .hold false
              filterTimer :=
                if (s.port i).settings.lossTime = 0 then .idle
                else .running s.clock (1000 * (s.port i).settings.lossTime)
              state := .down }) ∧
        (s.adapter.works = true → CarrierLost s t i))

/-- R146: an age check leaves the times of the port's correlation list that are younger than 2³⁰ µs, and
changes nothing else; without one given (log 23), nothing changes. R162: at the expiry of the holdoff timer,
completions counted and not yet reported set COMPLETIONS; before the expiry nothing changes (log 2). -/
def Obligations.AgeChecksAndHoldoff : Prop :=
  (∀ (i : PortId) (s : State),
     ((s.port i).ageDue = true → exec (.ageCheck i) s = .next
       (s.setPort i
         { s.port i with
           downTimes := (s.port i).downTimes.filter fun x => decide ((s.clock - x).toNat < 2 ^ 30)
           ageDue := false })) ∧
     ((s.port i).ageDue = false → exec (.ageCheck i) s = .next s)) ∧
  (∀ s : State, ∃ t, exec .holdoffExpiry s = .next t ∧
     (s.holdoff.isExpired = false → t = s) ∧
     (s.holdoff.isExpired = true →
       (s.coalesced = 0 → t = { s with holdoff := .idle }) ∧
       (s.coalesced ≠ 0 →
         t = { s.raise .completions with coalesced := 0, holdoff := .idle } ∧
         t.event = (s.event ||| 0x001))))

/-! ### Frame arrivals -/

/-- R68: which frames a port discards, and what each arrival counts. (A state that works without settings in force is
one that no run reaches, R168.) -/
def Obligations.FramesDiscarded : Prop :=
  ∀ (i : PortId) (f : EthFrame) (s : State), ∃ t, exec (.frameArrival i f) s = .next t ∧
    (s.settings = none ∨ s.adapter.works = false ∨ (s.port i).state = .down ∨ f.checkOk = false → t = s) ∧
    (∀ cfg, s.settings = some cfg → s.adapter.works = true → (s.port i).state ≠ .down →
      f.checkOk = true →
      (f.dest ≠ cfg.portAddr.get i → t = s) ∧
      (f.dest = cfg.portAddr.get i → f.etype ≠ cfg.frameType →
        t = s.setPort i { s.port i with foreignType := (s.port i).foreignType + 1 }) ∧
      (f.dest = cfg.portAddr.get i → f.etype = cfg.frameType →
        (t.port i).framesReceived = (s.port i).framesReceived + 1 ∧
        (t.port i).foreignType = (s.port i).foreignType ∧
        (s.sourcePath i f.src = none →
          t = s.setPort i
            { s.port i with
              framesReceived := (s.port i).framesReceived + 1
              unknownSource := (s.port i).unknownSource + 1 }) ∧
        (s.sourcePath i f.src ≠ none → (t.port i).unknownSource = (s.port i).unknownSource))) ∧
    ∀ j, j ≠ i → (t.port j).framesReceived = (s.port j).framesReceived ∧
      (t.port j).foreignType = (s.port j).foreignType ∧ (t.port j).unknownSource = (s.port j).unknownSource

/-- R84, R86, R87, R90, R92, R95, R177: a frame from a known path that is malformed raises that counter and, in
service or RECOVERING, is a strike (R101, R103); a REQUEST or an INQUIRY, and a REPLY or VERDICT that names no
context, no attempt still to be answered or not the latest inquiry, is stale; a PROBE is answered by one ECHO in lane
0, which carries its Probe Sequence and Send Time. R91, R48, R101, R112: an ECHO that matches the Outstanding probe is
a sample and a good probe; any other is ignored. R60, R120, R158: each change of state is handed out, and an entry to
UP releases the park lists of the path's targets, for the path and for each that follows its port. That a good probe
does nothing in DOWN before hold-down has ended is log 39. -/
def Obligations.ProbesStaleAndMalformedFrames : Prop :=
  ∀ (i : PortId) (f : EthFrame) (p : PathId) (s : State) (h : LinkHeader), TakenFor s i f p →
    h = parseHeader f.body →
    (wellFormedArrival f.body = some .unserved ∨
        (∃ code, wellFormedArrival f.body = some (.reply code)) ∧
          (s.NoContext h ∨ ∃ c x, c.val = h.handleCtx.toNat ∧ s.ctx c = some x ∧ x.NoAttempt h) ∨
        (∃ code, wellFormedArrival f.body = some (.verdict code)) ∧
          (s.NoContext h ∨ ∃ c x, c.val = h.handleCtx.toNat ∧ s.ctx c = some x ∧ x.NoInquiry h) →
      exec (.frameArrival i f) s = .next
        ((s.counted i).modPath p fun r =>
          { r with counters := { r.counters with stale := r.counters.stale + 1 } })) ∧
    (wellFormedArrival f.body = none → s.deferred = [] →
      ∃ t, exec (.frameArrival i f) s = .next t ∧ OnlyWork s t ∧ Struck s t p 1 none ∧
        (t.path p).counters.malformed = (s.path p).counters.malformed + 1 ∧
        ((s.path p).health.inService = false → (s.path p).health ≠ .recovering →
          t = (s.counted i).modPath p fun r =>
            { r with counters := { r.counters with malformed := r.counters.malformed + 1 } })) ∧
    (wellFormedArrival f.body = some .probe → ∃ t, exec (.frameArrival i f) s = .next t ∧
      OnlyWork s t ∧ t.ctxs = s.ctxs ∧ t.paths = s.paths ∧
      (((s.port i).lanes.get 0).any (·.isEchoOf p) = false →
        (t.port i).lanes.get 0 = (s.port i).lanes.get 0 ++ [.echo p h.probeSeq h.sendTime]) ∧
      (((s.port i).lanes.get 0).any (·.isEchoOf p) = true →
        (t.port i).lanes.get 0 = ((s.port i).lanes.get 0).map fun e =>
          if e.isEchoOf p then .echo p h.probeSeq h.sendTime else e) ∧
      ∀ lane : Fin 8, lane ≠ 0 → (t.port i).lanes.get lane = (s.port i).lanes.get lane) ∧
    (wellFormedArrival f.body = some .echo →
      ((∀ o, (s.path p).outstanding = some o → o.seq ≠ h.probeSeq) →
        exec (.frameArrival i f) s = .next (s.counted i)) ∧
      ∀ o m d, (s.path p).outstanding = some o → o.seq = h.probeSeq → s.deferred = [] →
        m = max 1 (min 1000000 (s.clock - o.sendTime).toNat) → d = s.pathDesc p →
        ∃ t, exec (.frameArrival i f) s = .next t ∧ OnlyWork s t ∧
          (t.path p).outstanding = none ∧ (t.path p).markA = .idle ∧
          (t.path p).samples = ((s.path p).update m).samples ∧
          (t.path p).srtt = ((s.path p).update m).srtt ∧
          (t.path p).rttvar = ((s.path p).update m).rttvar ∧
          (t.path p).slow = (if d.upperLatency = 0 then false
            else if (s.path p).slow then decide (d.lowerLatency < ((s.path p).update m).srtt)
            else decide (d.upperLatency < ((s.path p).update m).srtt)) ∧
          ((t.path p).slow = true → (s.path p).slow = false → (s.path p).health.inService = true →
            s.judged p (min 15 ((s.path p).strikes + 1)) = .down →
            min 15 ((s.path p).strikes + 1) ≠ (s.path p).strikes → Fallen s t p none) ∧
          ((t.path p).slow = false ∨ (s.path p).slow = true → (s.path p).health.inService = true →
            StrikesBecome s t p (min 15 ((s.path p).strikes - 1)) none) ∧
          ((s.path p).health = .untried ∨
              (s.path p).health = .down ∧ (s.path p).holdEnded = true ∧ (s.path p).fence = false →
            (1 < d.provingCount → (t.path p).health = .recovering ∧ (t.path p).proving = 1) ∧
            (d.provingCount ≤ 1 → (t.path p).health = .up)) ∧
          ((s.path p).health = .down → (s.path p).holdEnded = true → (s.path p).fence = true →
            (t.path p).health = .fenced) ∧
          ((s.path p).health = .recovering →
            ((s.path p).proving + 1 < d.provingCount →
              (t.path p).health = .recovering ∧ (t.path p).proving = (s.path p).proving + 1) ∧
            (d.provingCount ≤ (s.path p).proving + 1 → (t.path p).health = .up)) ∧
          ((s.path p).health.inService = false → (t.path p).health = .up →
            (t.path p).strikes = 0 ∧ (t.path p).replySeen = false ∧
            (t.path p).lastUp = some s.clock ∧
            (t.path p).stability = .running s.clock (1000 * d.stabilityPeriod) ∧
            (t.port i).state = .up ∧
            ((s.port i).state = .suspect → ∀ q, q ≠ p → s.pathPort q = some i →
              (s.path q).health = .suspect → (s.path q).strikes = 0 → (t.path q).health = .up)) ∧
          ((s.path p).health = .draining ∨ (s.path p).health = .fenced ∨
              (s.path p).health = .down ∧ (s.path p).holdEnded = false →
            (t.path p).health = (s.path p).health ∧ (t.path p).strikes = (s.path p).strikes) ∧
          ((t.path p).health ≠ (s.path p).health → HandedOut s t p) ∧
          ((s.path p).health.inService = false → (t.path p).health = .up → Released s t p none ∧
            ((s.port i).state = .suspect → ∀ q, q ≠ p → s.pathPort q = some i →
              (s.path q).health = .suspect → (s.path q).strikes = 0 →
              HandedOut s t q ∧ Released s t q none)))

/-- R87, R88, R94, R128, R2: a REPLY of outcome OK to a query's attempt completes the exchange OK, on a path
whose strikes and latency band the reply does not move: the result names the attempt's path, the payload
stands in the context's slot, and no byte outside that slot changes. R26, R87, R128, R130, R132, R133, R141: and how
an accepted reply of every outcome decides, to a SENT, TIMED_OUT or LOST attempt of a query and of a commit. R48 to R50,
R88, R101, R102: an accepted reply of any outcome but BARRED to attempt 1, on time or late, on that attempt's own path
is a sample of it, and no other is one; every accepted reply takes one strike from its arrival path, after the strike of
a SLOW entry, with the judgement of each and what follows from it. -/
def Obligations.QueryReplyCompletes : Prop :=
  (∀ (i : PortId) (f : EthFrame) (p : PathId) (c : CtxId) (x : Context) (a : Attempt) (s : State),
     TakenFor s i f p → wellFormedArrival f.body = some (.reply .ok) →
     s.matchCtx (parseHeader f.body) = some c → s.ctx c = some x →
     x.named (parseHeader f.body) = some a → x.attempt a.id = some a → a.state = .sent →
     x.kind = .query → x.state = .active → (s.path p).strikes = 0 → (s.pathDesc p).upperLatency = 0 →
     s.deferred = [] → cellsWf s.payload = true →
     ∃ t y r, exec (.frameArrival i f) s = .next t ∧ OnlyWork s t ∧ Completed s t c x y r ∧
       r.status = .ok ∧ r.remote = .ok ∧ r.finalPath = some a.path ∧
       r.replyLen = (arrivalPayload f.body).length ∧
       r.flags.lateReply = x.flags.lateReply ∧ r.flags.crossed = (x.flags.crossed || a.path != p) ∧
       (t.path p).replySeen = true ∧ (t.path p).counters.replies = (s.path p).counters.replies + 1 ∧
       (∀ k, (h : k < (arrivalPayload f.body).length) →
         readCell (slotBase c + k) t.payload = (arrivalPayload f.body)[k]) ∧
       (∀ k, k < slotBase c ∨ slotBase c + (arrivalPayload f.body).length ≤ k →
         readCell k t.payload = readCell k s.payload)) ∧
  (∀ (i : PortId) (f : EthFrame) (p : PathId) (c : CtxId) (x : Context) (a : Attempt)
      (outcome : RemoteOutcome) (late room : Bool) (s : State),
    TakenFor s i f p → wellFormedArrival f.body = some (.reply outcome) →
    s.matchCtx (parseHeader f.body) = some c → s.ctx c = some x →
    x.named (parseHeader f.body) = some a → x.attempt a.id = some a →
    (late = false ∧ a.state = .sent ∨ late = true ∧ (a.state = .timedOut ∨ a.state = .lost)) →
    (room = true ↔ x.attempts.length < (s.streamDesc x.stream).maxAttempts) →
    (s.path p).strikes = 0 → (s.pathDesc p).upperLatency = 0 → s.deferred = [] →
    ∃ t y, exec (.frameArrival i f) s = .next t ∧ OnlyWork s t ∧ t.ctx c = some y ∧ x.Kept y ∧
      (t.path p).counters.replies = (s.path p).counters.replies + 1 ∧
      (t.path p).replySeen = true ∧
      (outcome = .ok → ∃ r, Completed s t c x y r ∧ r.status = .ok ∧ r.remote = .ok ∧
        r.finalPath = some a.path ∧ r.replyLen = (arrivalPayload f.body).length ∧
        r.flags.crossed = (x.flags.crossed || a.path != p) ∧
        r.flags.lateReply =
          (x.flags.lateReply || late || x.kind == .commit && x.state == .resolving) ∧
        r.flags.abortTooLate = (x.flags.abortTooLate || x.kind == .commit && x.abortMark)) ∧
      (outcome = .fault ∨ outcome = .barred ∧ x.kind = .query → ∃ r, Completed s t c x y r ∧
        r.status = .remoteFault ∧ r.remote = outcome ∧ r.finalPath = some a.path ∧
        r.replyLen = (arrivalPayload f.body).length) ∧
      (outcome = .barred → x.kind = .commit →
        (x.abortMark = true → ∃ r, Completed s t c x y r ∧ r.status = .aborted ∧ r.remote = .barred) ∧
        (x.abortMark = false → room = false → ∃ r, Completed s t c x y r ∧
          r.status = .notApplied ∧ r.remote = .barred) ∧
        (x.abortMark = false → room = true → y.Redriven x (x.genInForce + 1))) ∧
      (outcome = .busy → late = true → y = { x with lastOutcome := .busy }) ∧
      (outcome = .busy → late = false →
        (x.kind = .commit → x.abortMark = true → ∃ r, Completed s t c x y r ∧
          r.status = .aborted ∧ r.remote = .busy ∧ r.replyLen = 0) ∧
        (x.kind = .query ∨ x.abortMark = false →
          ((∃ b ∈ x.attempts, b.id ≠ a.id ∧ (b.state = .queued ∨ b.state = .sent)) →
            y.state = x.state ∧ ∃ b ∈ y.attempts, b.id = a.id ∧ b.state = .busy) ∧
          ((∀ b ∈ x.attempts, b.state = .queued ∨ b.state = .sent → b.id = a.id ∧ b.state = .sent) →
            (room = true → y.state = .waiting ∧ y.waitTimer =
              .running s.clock (1000 * (s.streamDesc x.stream).pendingInterval)) ∧
            (room = false → ∃ r, Completed s t c x y r ∧ r.status = .remoteBusy ∧
              r.remote = .busy ∧ r.replyLen = 0))))) ∧
  (∀ (i : PortId) (f : EthFrame) (p : PathId) (c : CtxId) (x : Context) (a : Attempt)
      (outcome : RemoteOutcome) (s : State),
    TakenFor s i f p → wellFormedArrival f.body = some (.reply outcome) →
    s.matchCtx (parseHeader f.body) = some c → s.ctx c = some x →
    x.named (parseHeader f.body) = some a → x.attempt a.id = some a →
    a.state = .sent ∨ a.state = .timedOut ∨ a.state = .lost → s.deferred = [] →
    ∃ t, exec (.frameArrival i f) s = .next t ∧ OnlyWork s t ∧
      (t.path p).counters.replies = (s.path p).counters.replies + 1 ∧
      (∀ sendTime, a.number = some 1 → a.path = p → outcome ≠ .barred → a.sendTime = some sendTime →
        Sampled s t p (max 1 (min 1000000 (s.clock - sendTime).toNat))) ∧
      (a.number ≠ some 1 ∨ a.path ≠ p ∨ outcome = .barred → Unsampled s t p) ∧ Credited s t p (some c))

/-- R90, R138, R26: an APPLIED verdict for the latest inquiry of a commit completes it OK with RESOLVED, on the
path of that inquiry. R139: a PENDING verdict ends the open inquiry, keeps its count, and starts the wait timer afresh.
R133, R140: a BARRED verdict completes a marked exchange ABORTED, one without room NOT_APPLIED, and else asks for a
re-drive of the next generation. R48, R101, R102: an accepted verdict is no sample, and takes one strike from its
arrival path, with the judgement and what follows from it. -/
def Obligations.AppliedVerdictCompletes : Prop :=
  (∀ (i : PortId) (f : EthFrame) (p : PathId) (c : CtxId) (x : Context) (q : Inquiry) (s : State),
     TakenFor s i f p → wellFormedArrival f.body = some (.verdict .applied) →
     s.matchCtx (parseHeader f.body) = some c → s.ctx c = some x → x.inquiry = some q →
     x.answersInquiry (parseHeader f.body) = true → (s.path p).strikes = 0 → s.deferred = [] →
     ∃ t y r, exec (.frameArrival i f) s = .next t ∧ OnlyWork s t ∧ Completed s t c x y r ∧
       r.status = .ok ∧ r.remote = .applied ∧ r.flags.resolved = true ∧
       r.flags.abortTooLate = (x.flags.abortTooLate || x.abortMark) ∧
       r.inquiriesUsed = q.count ∧
       r.finalPath = (if q.state = some .sent then q.path else q.lastSent) ∧
       r.replyLen = (arrivalPayload f.body).length) ∧
  (∀ (i : PortId) (f : EthFrame) (p : PathId) (c : CtxId) (x : Context) (q : Inquiry)
      (code : RemoteOutcome) (s : State),
    TakenFor s i f p → wellFormedArrival f.body = some (.verdict code) →
    s.matchCtx (parseHeader f.body) = some c → s.ctx c = some x → x.inquiry = some q →
    x.answersInquiry (parseHeader f.body) = true → (s.path p).strikes = 0 → s.deferred = [] →
    ∃ t y, exec (.frameArrival i f) s = .next t ∧ OnlyWork s t ∧ t.ctx c = some y ∧ x.Kept y ∧
      (t.path p).counters.replies = (s.path p).counters.replies + 1 ∧
      (code = .pending → y.state = .resolving ∧ y.lastOutcome = .pending ∧
        y.inquiry = some { q with path := none, state := some .waiting } ∧
        y.inquiryTimer = .idle ∧
        y.waitTimer = .running s.clock (1000 * (s.streamDesc x.stream).pendingInterval)) ∧
      (code = .barred →
        (x.abortMark = true → ∃ r, Completed s t c x y r ∧ r.status = .aborted ∧
          r.remote = .barred ∧ r.replyLen = 0) ∧
        (x.abortMark = false → (s.streamDesc x.stream).maxAttempts ≤ x.attempts.length →
          ∃ r, Completed s t c x y r ∧ r.status = .notApplied ∧ r.remote = .barred ∧
            r.inquiriesUsed = q.count) ∧
        (x.abortMark = false → x.attempts.length < (s.streamDesc x.stream).maxAttempts →
          y.Redriven x (x.genInForce + 1) ∧
          ∃ w, y.inquiry = some w ∧ w.count = q.count ∧ w.state = none))) ∧
  (∀ (i : PortId) (f : EthFrame) (p : PathId) (c : CtxId) (x : Context) (code : RemoteOutcome) (s : State),
    TakenFor s i f p → wellFormedArrival f.body = some (.verdict code) →
    s.matchCtx (parseHeader f.body) = some c → s.ctx c = some x →
    x.answersInquiry (parseHeader f.body) = true → s.deferred = [] →
    ∃ t, exec (.frameArrival i f) s = .next t ∧ OnlyWork s t ∧
      (t.path p).counters.replies = (s.path p).counters.replies + 1 ∧ Unsampled s t p ∧
      Credited s t p (some c))

/-- R113: a DRAIN advisory drains a path that is not DOWN, FENCED or draining for a fence, with the drain limit timer
started. Its SENT attempts and inquiries stay SENT (R137); its waiting frames leave the lanes where it left UP or
SUSPECT (R78), and are replaced or routed again (R58). A RESUME advisory ends a drain that no fence holds. Each change
of state is handed out (R104, R120, R158). -/
def Obligations.AdvisoriesDrainAndResume : Prop :=
  ∀ (i : PortId) (f : EthFrame) (p : PathId) (s : State), TakenFor s i f p → s.deferred = [] →
    (wellFormedArrival f.body = some (.advisory .drain) →
      ∃ t, exec (.frameArrival i f) s = .next t ∧ OnlyWork s t ∧
        ((s.path p).health = .down ∨ (s.path p).health = .fenced ∨
            (s.path p).health = .draining ∧ (s.path p).fence = true → t = s.counted i) ∧
        ((s.path p).health ≠ .down → (s.path p).health ≠ .fenced → (s.path p).fence = false →
          (t.path p).health = .draining ∧
          (t.path p).drain = .running s.clock (1000 * (s.pathDesc p).drainLimit)) ∧
        SentStays s t p ∧
        ((t.path p).health ≠ (s.path p).health → HandedOut s t p ∧ FramesGone s t p ∧ Replaced s t p none)) ∧
    (wellFormedArrival f.body = some (.advisory .resume) →
      ∃ t, exec (.frameArrival i f) s = .next t ∧ OnlyWork s t ∧ t.ctxs = s.ctxs ∧
        (t.path p).health =
          (if (s.path p).health = .draining ∧ (s.path p).fence = false then .untried
          else (s.path p).health) ∧
        ((t.path p).health ≠ (s.path p).health → HandedOut s t p))

/-! ### Expiries -/

/-- R124, R125: the expiry of a reply timer ends its SENT attempt TIMED_OUT, its path joins the exchange's failed
paths, and the count of such endings, which is k of R52, rises. R101, R102, R103: on the path it is one reply timeout,
two strikes in service and the end of proving in RECOVERING; the estimate stays. R105 to R107, R119: where the path
falls, its hold-down runs and its port may trip. R60, R120, R158: each change of health is handed out, and an entry to
SUSPECT releases park lists. R127, R129: then a query is left to its live twin, re-driven, or completed TIMEOUT
without room. R132, R134, R142: a commit enters RESOLVING and asks for an inquiry about the generation of that
attempt, or completes IN_DOUBT at the Inquiry Limit. (The premises on that course hold in every state a run reaches: a
context with a SENT attempt is ACTIVE, in no pending list, and a pair is on two paths.) Without an expired timer of a
SENT attempt nothing changes (log 2). -/
def Obligations.ReplyTimerExpiry : Prop :=
  ∀ (c : CtxId) (k : Fin 2) (s : State), s.deferred = [] →
    ∃ t, exec (.replyTimerExpiry c k) s = .next t ∧ OnlyWork s t ∧
      ((∀ x, s.ctx c = some x → x.expiredAttempt k = none) → t = s) ∧
      ∀ x a, s.ctx c = some x → x.state ≠ .closing → x.expiredAttempt k = some a →
        (∃ y, t.ctx c = some y ∧ x.Kept y ∧ a.path ∈ y.failed ∧ y.timeouts = x.timeouts + 1 ∧
          ∃ b ∈ y.attempts, a.GoesOn b ∧ b.state ∈ AttemptState.timedOut.later) ∧
        Struck s t a.path 2 (some c) ∧ (t.path a.path).srtt = (s.path a.path).srtt ∧
        (t.path a.path).counters.timeouts = (s.path a.path).counters.timeouts + 1 ∧
        (x.state = .active → (∀ m, c ∉ (s.stream m).pendingList) → ∃ y, t.ctx c = some y ∧
          (x.kind = .query → (∃ b ∈ x.attempts, b.id ≠ a.id ∧ (b.state = .queued ∨ b.state = .sent)) →
            (∀ b ∈ x.attempts, b.state = .queued ∨ b.state = .sent → b.id ≠ a.id → b.path ≠ a.path) →
            (∀ i lane id endpoint, .request c id a.path endpoint ∉ (s.port i).lanes.get lane) →
            y.state = .active ∧ y.attempts = x.attempts.map fun b =>
              if b.id = a.id ∧ b.state = .sent then { b with state := .timedOut } else b) ∧
          ((∀ b ∈ x.attempts, b.state = .queued ∨ b.state = .sent → b.id = a.id ∧ b.state = .sent) →
            (x.kind = .query → x.attempts.length < (s.streamDesc x.stream).maxAttempts →
              y.Redriven x 0) ∧
            (x.kind = .query → (s.streamDesc x.stream).maxAttempts ≤ x.attempts.length →
              ∃ r, Completed s t c x y r ∧ r.status = .timeout) ∧
            (x.kind = .commit → Asked s t c x y ((x.inquiry.map (·.count)).getD 0)
              ((x.inquiry.map (·.timeouts)).getD 0) a.gen)))

/-- R136, R142: the expiry of an inquiry timer ends the inquiry's time on its path, which joins the failed
paths; the next inquiry is asked for, or the exchange completes IN_DOUBT at the Inquiry Limit. R40, R41, R43: the
completion lowers the in-flight count of its stream, stalls it with Stop On Doubt, and else dispatches the next heads
as the limit allows. Before the expiry, and
without a SENT inquiry, nothing changes (log 2). -/
def Obligations.InquiryTimerExpiry : Prop :=
  ∀ (c : CtxId) (s : State) (x : Context) (q : Inquiry) (p : PathId), s.ctx c = some x →
    x.state = .resolving → x.inquiry = some q → q.path = some p →
    ∃ t, exec (.inquiryTimerExpiry c) s = .next t ∧ OnlyWork s t ∧ t.deferred = s.deferred ∧
      (x.inquiryTimer.isExpired = false ∨ q.state ≠ some .sent → t = s) ∧
      (x.inquiryTimer.isExpired = true → q.state = some .sent →
        ∃ y, t.ctx c = some y ∧ p ∈ y.failed ∧ y.inquiryTimer = .idle ∧
          ((s.streamDesc x.stream).inquiryLimit ≤ q.count →
            StreamLeft s t c x .inDoubt ∧ ∃ r, Completed s t c x y r ∧ r.status = .inDoubt) ∧
          (q.count < (s.streamDesc x.stream).inquiryLimit →
            y.state = .resolving ∧ ∃ w, y.inquiry = some w ∧ w.count = q.count ∧
              w.timeouts = q.timeouts + 1 ∧ w.gen = q.gen ∧
              (w.state = some .queued ∨ w.state = some .waiting ∧ w.path = none)))

/-- R23: the status of an exchange at its deadline, by the state of its context and its Kind. R40, R41, R43: what its
completion does to its stream: a PENDING context leaves the pending list; one beyond it no longer counts in flight,
IN_DOUBT stalls a stream with Stop On Doubt and raises STREAM_STALLED where it was OPEN, and a stream that is OPEN
dispatches its next heads while the in-flight count is below its limit. Before the expiry, and
without a context that has a deadline, nothing changes (log 2). -/
def Obligations.DeadlineExpiry : Prop :=
  ∀ (c : CtxId) (s : State),
    ∃ t, exec (.deadlineExpiry c) s = .next t ∧ OnlyWork s t ∧
      (s.ctx c = none → t = s) ∧
      ∀ x, s.ctx c = some x →
        (x.deadlineTimer.isExpired = false ∨ x.state = .fetching ∨ x.state = .closing → t = s) ∧
        (x.deadlineTimer.isExpired = true → x.state ≠ .fetching → x.state ≠ .closing →
          ∃ y r, Completed s t c x y r ∧ StreamLeft s t c x r.status ∧ r.replyLen = 0 ∧
            r.remote = x.lastOutcome ∧
            (x.state = .pending ∨ x.state = .waiting → r.status = .deadline) ∧
            (x.state = .parked → (∀ a ∈ x.attempts, a.number = none) → r.status = .noPath) ∧
            (x.state = .parked → (∃ a ∈ x.attempts, a.number ≠ none) → r.status = .deadline) ∧
            (x.state = .active → x.kind = .query → r.status = .deadline) ∧
            (x.state = .active → (∀ a ∈ x.attempts, a.state ≠ .sent) → r.status = .deadline) ∧
            (x.state = .active → x.kind = .commit → (∃ a ∈ x.attempts, a.state = .sent) →
              r.status = .inDoubt) ∧
            (x.state = .resolving → r.status = .inDoubt))

/-- R130, R127, R139, R142: the end of a wait. After BUSY a re-drive of the same generation is placed or
parked, or the exchange completes REMOTE_BUSY without room; after PENDING the next inquiry is placed or
parked, or the exchange completes IN_DOUBT at the Inquiry Limit. R40, R41, R43: each completion leaves the exchange's
stream as they say: in flight one less, STALLED at IN_DOUBT with Stop On Doubt, and else dispatching. -/
def Obligations.WaitsEnd : Prop :=
  ∀ (c : CtxId) (s : State) (x : Context), s.ctx c = some x → x.waitTimer.isExpired = true →
    (x.state = .waiting → ∃ t y, exec (.waitTimerExpiry c) s = .next t ∧ OnlyWork s t ∧
      t.ctx c = some y ∧ y.waitTimer = .idle ∧
      ((s.streamDesc x.stream).maxAttempts ≤ x.attempts.length →
        StreamLeft s t c x .remoteBusy ∧ ∃ r, Completed s t c x y r ∧ r.status = .remoteBusy) ∧
      (x.attempts.length < (s.streamDesc x.stream).maxAttempts →
        (y.state = .active ∧ ∃ a, y.attempts = x.attempts ++ [a] ∧ a.state = .queued ∧
          a.redrive = true ∧ a.gen = x.genInForce) ∨
        (y.state = .parked ∧ y.attempts = x.attempts ∧
          y.parked = some { gen := x.genInForce, redrive := true, pair := false }))) ∧
    (∀ q, x.state = .resolving → x.inquiry = some q →
      ∃ t y, exec (.pendingWaitExpiry c) s = .next t ∧ OnlyWork s t ∧ t.ctx c = some y ∧
        y.waitTimer = .idle ∧
        ((s.streamDesc x.stream).inquiryLimit ≤ q.count →
          StreamLeft s t c x .inDoubt ∧ ∃ r, Completed s t c x y r ∧ r.status = .inDoubt) ∧
        (q.count < (s.streamDesc x.stream).inquiryLimit →
          y.state = .resolving ∧ ∃ w, y.inquiry = some w ∧ w.count = q.count ∧ w.gen = q.gen ∧
            (w.state = some .queued ∨ w.state = some .waiting ∧ w.path = none)))

/-- R108, R109, R110: mark A of a probe is a miss, which clears the Outstanding probe; so is a cycle start that finds
mark A not IDLE. R101 to R103, R105 to R107, R119: a miss is one strike in service and the end of proving in
RECOVERING, each change of health handed out with its releases (R60, R120, R158). A cycle start at mark B clears Reply
Seen, starts mark B again with the interval of the health state, and, but for an UP path that saw a reply, has one
PROBE in lane 0 of the path's port. That a mark not expired changes nothing is log 2. -/
def Obligations.ProbeMarks : Prop :=
  ∀ (p : PathId) (s : State), s.deferred = [] →
    (∃ t, exec (.probeMarkAExpiry p) s = .next t ∧ OnlyWork s t ∧
      ((s.path p).markA.isExpired = false → t = s) ∧
      ((s.path p).markA.isExpired = true → Struck s t p 1 none ∧ (t.path p).outstanding = none ∧
        (t.path p).counters.probeMisses = (s.path p).counters.probeMisses + 1) ∧
      ((s.path p).markA.isExpired = true → (s.path p).health.inService = false →
        (s.path p).health ≠ .recovering →
        t = s.setPath p
          { s.path p with
            markA := .idle
            outstanding := none
            counters :=
              { (s.path p).counters with probeMisses := (s.path p).counters.probeMisses + 1 } })) ∧
    (∃ t, exec (.probeCycleStart p) s = .next t ∧ OnlyWork s t ∧
      ((s.path p).markB.isExpired = false → t = s) ∧
      ((s.path p).markB.isExpired = true → (s.path p).markA ≠ .idle →
        Struck s t p 1 none ∧ (t.path p).outstanding = none ∧ (t.path p).markA = .idle ∧
        (t.path p).counters.probeMisses = (s.path p).counters.probeMisses + 1) ∧
      ∀ i, (s.path p).markB.isExpired = true → (s.path p).markA = .idle → s.pathPort p = some i →
        (t.path p).replySeen = false ∧ (t.path p).health = (s.path p).health ∧
        (t.path p).markB = .running s.clock
          (1000 * (if (s.path p).health = .up then (s.pathDesc p).probeInterval
            else (s.pathDesc p).fastInterval)) ∧
        (t.path p).probeDeadline <
          max 1 (if (s.path p).health = .up then (s.pathDesc p).probeInterval
            else (s.pathDesc p).fastInterval) ∧
        (((s.path p).health = .up ∧ (s.path p).replySeen = true →
            ((t.port i).lanes.get 0).any (·.isProbeOf p) = false ∧
            (t.path p).nextSeq = (s.path p).nextSeq) ∧
          (¬((s.path p).health = .up ∧ (s.path p).replySeen = true) →
            if ((s.port i).lanes.get 0).any (·.isProbeOf p) then
              (t.port i).lanes.get 0 = (s.port i).lanes.get 0 ∧
              (t.path p).nextSeq = (s.path p).nextSeq
            else
              (t.port i).lanes.get 0 =
                (s.port i).lanes.get 0 ++ [.probe p (s.path p).nextSeq] ∧
              (t.path p).nextSeq = (s.path p).nextSeq + 1)))

/-- R106, R107, R113: the expiries of a path's hold-down, stability and drain limit timers. That each changes nothing
before its expiry, and a drain limit nothing outside DRAINING, is log 2. The end of a drain is handed out (R120,
R158). That a path whose copy is being reloaded is probed after its hold-down like one with a VALID copy (R111) is log
7. -/
def Obligations.PathTimerExpiries : Prop :=
  ∀ (p : PathId) (s : State),
    (∃ t, exec (.holdDownExpiry p) s = .next t ∧ OnlyWork s t ∧ t.ctxs = s.ctxs ∧
      ((s.path p).hold.isExpired = false → t = s) ∧
      ((s.path p).hold.isExpired = true →
        (t.path p).holdEnded = true ∧ (t.path p).hold = .idle ∧
        (t.path p).health = (s.path p).health ∧ (t.path p).flap = (s.path p).flap ∧
        ((s.path p).health = .down → (s.path p).markB = .idle → s.adapter.works = true →
          (∀ i, s.pathPort p = some i → (s.port i).state ≠ .down →
            (t.path p).markB = .running s.clock (1000 * (s.pathDesc p).fastInterval)) ∧
          (∀ i, s.pathPort p = some i → (s.port i).state = .down → (t.path p).markB = .idle)))) ∧
    (∃ t, exec (.stabilityExpiry p) s = .next t ∧
      ((s.path p).stability.isExpired = false → t = s) ∧
      ((s.path p).stability.isExpired = true →
        t = s.setPath p { s.path p with flap := 0, lastUp := none, stability := .idle })) ∧
    (∃ t, exec (.drainLimitExpiry p) s = .next t ∧ OnlyWork s t ∧ t.ctxs = s.ctxs ∧
      ((s.path p).drain.isExpired = false ∨ (s.path p).health ≠ .draining → t = s) ∧
      ((s.path p).drain.isExpired = true → (s.path p).health = .draining →
        (t.path p).health = .untried ∧ (t.path p).strikes = 0 ∧ (t.path p).proving = 0 ∧
        (t.path p).drain = .idle ∧ (t.path p).srtt = (s.path p).srtt ∧
        (t.path p).inflight = (s.path p).inflight ∧ HandedOut s t p))

/-! ### Route selection -/

/-- R45, R54 to R57, R59: a selection finds none exactly where there is no candidate; otherwise it chooses, of the
tier in use without the failed paths (or with them, where they are all of it), the path of lowest cost, the earlier in
the Path List among equals, and DEGRADED is set for a SUSPECT one, for an attempt and for an inquiry. R56, R59: the
work then joins the lane of the path's port, or the target's park list. R57: the second pick of a pair is the best of
the UP candidates on the other fabric, and sets no flag. -/
def Obligations.RouteSelection : Prop :=
  (∀ (s : State) (x : Context),
     (s.choosePath x = none ↔ ∀ p, ¬s.Candidate x p) ∧
     (∀ pick, s.choosePath x = some pick → s.Best x (s.Priced x) pick.path ∧
       (pick.tier2 = true ↔ (s.path pick.path).health = .suspect)) ∧
     (∀ first p, s.chooseTwin x first = some p → s.Best x
       (fun q => s.Candidate x q ∧ (s.path q).health = .up ∧
         ∃ i j, s.pathPort q = some i ∧ s.pathPort first = some j ∧ (2 ≤ i.val ↔ j.val < 2)) p)) ∧
  (∀ (s : State) (c : CtxId) (x : Context) (q : ParkedRequest) (u : TargetId), s.ctx c = some x →
     x.state ≠ .closing → u = (s.streamDesc x.stream).target →
     (s.choosePath x = none → ∃ t, s.offerAttempt c q = t ∧ OnlyWork s t ∧
       t.ctx c = some { x with state := .parked, parked := some q } ∧ c ∈ (t.target u).park ∧
       (c ∉ (s.target u).park → (t.target u).park = (s.target u).park ++ [c])) ∧
     (∀ pick, s.choosePath x = some pick →
       q.pair = false ∨ pick.tier2 = true ∨ (s.streamDesc x.stream).maxAttempts < 2 ∨
         s.chooseTwin x pick.path = none →
       ∃ t a i, s.offerAttempt c q = t ∧ OnlyWork s t ∧ s.pathPort pick.path = some i ∧
         a.number = none ∧ a.path = pick.path ∧ a.gen = q.gen ∧ a.twin = none ∧
         a.redrive = q.redrive ∧ a.sendTime = none ∧ a.state = .queued ∧
         (t.port i).lanes.get (s.streamDesc x.stream).trafficClass =
           (s.port i).lanes.get (s.streamDesc x.stream).trafficClass ++
             [.request c a.id pick.path (s.targetDesc u).endpoint] ∧
         t.ctx c = some
           { x with
             state := .active
             attempts := x.attempts ++ [a]
             parked := none
             flags := { x.flags with degraded := x.flags.degraded || pick.tier2 }
             nextId := x.nextId + 1
             lastGen := q.gen }) ∧
     (∀ pick p, s.choosePath x = some pick → q.pair = true → pick.tier2 = false →
       2 ≤ (s.streamDesc x.stream).maxAttempts → s.chooseTwin x pick.path = some p →
       ∃ t y a b, s.offerAttempt c q = t ∧ OnlyWork s t ∧ t.ctx c = some y ∧ y.state = .active ∧
         y.attempts = x.attempts ++ [a, b] ∧ y.flags = x.flags ∧ a.path = pick.path ∧ b.path = p ∧
         a.twin = some b.id ∧ b.twin = some a.id ∧ a.state = .queued ∧ b.state = .queued) ∧
     ∀ w, x.inquiry = some w →
       (s.choosePath x = none → ∃ t, s.offerInquiry c = t ∧ OnlyWork s t ∧
         t.ctx c = some { x with inquiry := some { w with path := none, state := some .waiting } } ∧
         c ∈ (t.target u).park) ∧
       ∀ pick, s.choosePath x = some pick → ∃ t i, s.offerInquiry c = t ∧ OnlyWork s t ∧
         s.pathPort pick.path = some i ∧
         (t.port i).lanes.get 1 =
           (s.port i).lanes.get 1 ++ [.inquiry c pick.path (s.targetDesc u).endpoint] ∧
         t.ctx c = some
           { x with
             inquiry := some { w with path := some pick.path, state := some .queued }
             flags := { x.flags with degraded := x.flags.degraded || pick.tier2 } })

/-! ### Arbitration and transmission -/

/-- R72 to R75: while a port may take a grant decision, one is taken: the chosen frame is the head of a lane that holds
a frame, selected down the levels with the masks of R73; a level-1 lane whose mask is clear is served first, the
lowest-numbered one. A PROBE or an ECHO, and work on a path in UP or SUSPECT, is granted: it leaves its lane, and with
every lane empty every mask is clear. Other work is withdrawn, and the decision is taken again from the start with the
masks of the abandoned one. That what the withdrawal causes is taken before the second decision is the model's choice
(log 9). -/
def Obligations.GrantDecisionChooses : Prop :=
  ∀ (i : PortId) (s : State), s.grantEnabled i = true →
    (∃ lane e masks chit2 chit3 v empty, s.chosenFrame i = some (lane, e) ∧
      ((s.port i).lanes.get lane).head? = some e ∧ s.laneLevel lane ≠ .off ∧
      s.Arbitrates i lane masks chit2 chit3 ∧
      (empty = true ↔ ∀ l : Fin 8,
        (if l = lane then ((s.port i).lanes.get l).tail else (s.port i).lanes.get l) = []) ∧
      v = s.setPort i
        { s.port i with
          lanes := (s.port i).lanes.set lane.val ((s.port i).lanes.get lane).tail lane.isLt
          laneMasks := if empty then Vector.replicate 8 false else masks
          chit2 := if empty then false else chit2
          chit3 := if empty then false else chit3 } ∧
      (e.isProbeOrEcho = true ∨ (s.path e.pathOf).health.inService = true →
        ∃ t, exec (.grantDecision i) s = .next t ∧ (t.port i).lanes = (v.port i).lanes ∧
          (t.port i).laneMasks = (v.port i).laneMasks ∧ (t.port i).chit2 = (v.port i).chit2 ∧
          (t.port i).chit3 = (v.port i).chit3) ∧
      (e.isProbeOrEcho = false → (s.path e.pathOf).health.inService = false → s.deferred = [] →
        ∃ u, u = (v.withdrawFrame e).settle ∧ OnlyWork s u ∧
          (u.grantEnabled i = false → exec (.grantDecision i) s = .next u) ∧
          ∀ l f, u.grantEnabled i = true → u.chosenFrame i = some (l, f) →
            f.isProbeOrEcho = true ∨ (u.path f.pathOf).health.inService = true →
            exec (.grantDecision i) s = exec (.grantDecision i) u)) ∧
    ∀ lane : Fin 8, s.laneLevel lane = .level1 → (s.port i).lanes.get lane ≠ [] →
      (s.port i).laneMasks.get lane = false →
      (∀ l : Fin 8, l < lane → s.laneLevel l = .level1 → (s.port i).lanes.get l ≠ [] →
        (s.port i).laneMasks.get l = true) →
      ∃ e, s.chosenFrame i = some (lane, e)

/-- R75, R76, R83, R108: the grant of a PROBE or an ECHO: the frame is on the wire with its header, Frames Sent
rises, and a PROBE becomes the Outstanding probe with mark A started for the deadline of its cycle. Where the
port may take no decision (R73) the command changes nothing (log 2). R77: at the transmit end the transmitter is idle
again. -/
def Obligations.ProbeAndEchoTransmissions : Prop :=
  ∀ (i : PortId) (s : State),
    (s.grantEnabled i = false → exec (.grantDecision i) s = .next s) ∧
    (exec (.transmitEnd i) s = .next (s.setPort i { s.port i with transmitter := none })) ∧
    (∀ lane p seq, s.grantEnabled i = true → s.chosenFrame i = some (lane, .probe p seq) →
      ∃ t h, exec (.grantDecision i) s = .next t ∧ OnlyWork s t ∧ t.ctxs = s.ctxs ∧
        (t.port i).transmitter = some (s.envelope i p h []) ∧
        h.kind = 3 ∧ h.probeSeq = seq ∧ h.sendTime = s.clock ∧ h.adapterId = s.adapterId ∧
        h.payloadLen = 0 ∧ headerSum (headerBytes h) = 0 ∧
        (t.port i).framesSent = (s.port i).framesSent + 1 ∧
        (t.port i).lanes.get lane = ((s.port i).lanes.get lane).tail ∧
        t.path p = { s.path p with
          outstanding := some { seq := seq, sendTime := s.clock }
          markA := .running s.clock (1000 * (s.path p).probeDeadline)
          counters :=
            { (s.path p).counters with probesSent := (s.path p).counters.probesSent + 1 } }) ∧
    (∀ lane p seq time, s.grantEnabled i = true → s.chosenFrame i = some (lane, .echo p seq time) →
      ∃ t h, exec (.grantDecision i) s = .next t ∧ OnlyWork s t ∧ t.ctxs = s.ctxs ∧
        t.paths = s.paths ∧ (t.port i).transmitter = some (s.envelope i p h []) ∧
        h.kind = 4 ∧ h.probeSeq = seq ∧ h.sendTime = time ∧ headerSum (headerBytes h) = 0 ∧
        (t.port i).framesSent = (s.port i).framesSent + 1)

/-- R75, R76, R83, R52, R20, R51, R135: the grant of a REQUEST or an INQUIRY on a path in service: the frame is
on the wire, the attempt or inquiry is SENT with its number and its timer, the second reply timer where the first is in
use (R124), and its path carries one more. R26: a re-drive sets REDRIVEN, and the second of a pair to go out sets TWIN.
The timeout of R52 is formed with the Initial Timeout of the target the stream names at this start (log 44). -/
def Obligations.RequestAndInquiryTransmissions : Prop :=
  ∀ (i : PortId) (s : State) (lane : Fin 8) (c : CtxId) (x : Context) (p : PathId) (endpoint : W16),
    s.grantEnabled i = true → (s.path p).health.inService = true → s.ctx c = some x →
    x.state ≠ .closing →
    (∀ id a, s.chosenFrame i = some (lane, .request c id p endpoint) → x.attempt id = some a →
      a.state = .queued →
      ∃ t y h b, exec (.grantDecision i) s = .next t ∧ OnlyWork s t ∧ t.ctx c = some y ∧
        (t.port i).transmitter = some (s.envelope i p h (s.slot c x.reqLen)) ∧
        h.kind = 1 ∧ h.flags = (if x.kind = .commit then 1 else 0) ∧ h.adapterId = s.adapterId ∧
        h.endpoint = endpoint ∧ h.issue = x.issue ∧ h.gen = BitVec.ofNat 4 a.gen ∧
        h.attempt = BitVec.ofNat 4 (x.attempts.countP (·.number.isSome) + 1) ∧
        h.handleCtx = BitVec.ofNat 12 c.val ∧
        h.handleNum = BitVec.ofNat 4 (x.attempts.countP (·.number.isSome) + 1) ∧
        h.sendTime = s.clock ∧ h.payloadLen = BitVec.ofNat 16 x.reqLen ∧
        headerSum (headerBytes h) = 0 ∧
        y.attempt id = some b ∧ b.state = .sent ∧ b.sendTime = some s.clock ∧ b.path = a.path ∧
        b.number = some (x.attempts.countP (·.number.isSome) + 1) ∧
        (x.reply0 = .idle → y.reply0 = .running s.clock (s.rtoOf x.stream p x.timeouts) ∧
          y.serves0 = some id ∧ y.reply1 = x.reply1 ∧ y.serves1 = x.serves1) ∧
        (x.reply0 ≠ .idle → y.reply1 = .running s.clock (s.rtoOf x.stream p x.timeouts) ∧
          y.serves1 = some id ∧ y.reply0 = x.reply0 ∧ y.serves0 = x.serves0) ∧
        y.flags = { x.flags with
          redriven := x.flags.redriven || a.redrive
          twin := x.flags.twin || y.flags.twin } ∧
        (y.flags.twin = true ↔ x.flags.twin = true ∨
          a.twin.isSome = true ∧ ∃ q ∈ x.attempts, q.twin = some a.id ∧ q.number.isSome = true) ∧
        (t.path p).inflight = (s.path p).inflight + 1 ∧
        (t.path p).counters.requestsSent = (s.path p).counters.requestsSent + 1) ∧
    (∀ q, s.chosenFrame i = some (lane, .inquiry c p endpoint) → x.inquiry = some q →
      ∃ t y h, exec (.grantDecision i) s = .next t ∧ OnlyWork s t ∧ t.ctx c = some y ∧
        (t.port i).transmitter = some (s.envelope i p h []) ∧
        h.kind = 5 ∧ h.flags = 3 ∧ h.issue = x.issue ∧ h.gen = BitVec.ofNat 4 q.gen ∧
        h.handleCtx = BitVec.ofNat 12 c.val ∧ h.handleNum = BitVec.ofNat 4 (q.count + 1) ∧
        h.payloadLen = 0 ∧ headerSum (headerBytes h) = 0 ∧
        y.inquiry = some
          { q with count := q.count + 1, path := some p, lastSent := some p, state := some .sent } ∧
        y.inquiryTimer = .running s.clock (s.rtoOf x.stream p q.timeouts) ∧
        (t.path p).inflight = (s.path p).inflight + 1 ∧ (t.path p).counters = (s.path p).counters)

/-- R49: one estimator update. R47: the bounds it keeps. R52: the reply timeout with its backoff and its clamp. -/
def Obligations.EstimatorAndTimeout : Prop :=
  (∀ (r : PathRec) (m : Nat),
    (r.samples = 0 → r.update m = { r with srtt := m, rttvar := m / 2, samples := 1 }) ∧
    (r.samples ≠ 0 → r.update m = { r with
      rttvar := r.rttvar - r.rttvar / 4 + (max r.srtt m - min r.srtt m) / 4
      srtt := r.srtt - r.srtt / 8 + m / 8
      samples := min 255 (r.samples + 1) })) ∧
  (∀ (r : PathRec) (m : Nat), r.EstimateOk → 1 ≤ m → m ≤ 1000000 → (r.update m).EstimateOk) ∧
  (∀ (r : PathRec) (initial k lo hi : Nat), lo ≤ hi →
    lo ≤ rto r initial k lo hi ∧ rto r initial k lo hi ≤ hi ∧
    ∀ base, base = (if r.samples = 0 then 1000 * initial else r.srtt + max (4 * r.rttvar) 200) →
      (lo ≤ base * 2 ^ k → base * 2 ^ k ≤ hi → rto r initial k lo hi = base * 2 ^ k) ∧
      (base * 2 ^ k < lo → rto r initial k lo hi = lo) ∧
      (hi < base * 2 ^ k → rto r initial k lo hi = hi))

/-- R82: the header as sent is the header with its Header Check set so that its sixteen words sum to 0; the
payload has no part in the sum; and a frame whose header has another sum is malformed (R84). -/
def Obligations.HeaderCheck : Prop :=
  (∀ h : LinkHeader, headerSum (headerBytes h.withCheck) = 0 ∧
    h.withCheck = { h with check := 0 - headerSum (headerBytes { h with check := 0 }) }) ∧
  (∀ (h : LinkHeader) (payload : List Byte),
    headerSum (headerBytes h ++ payload) = headerSum (headerBytes h)) ∧
  (∀ body : List Byte, headerSum body ≠ 0 → wellFormedArrival body = none)

/-- 11, section 11.4: the header parsed from the bytes a header is sent as is that header: no field of the
format is dropped or laid over another. -/
def Obligations.LinkHeaderRoundTrip : Prop :=
  ∀ (h : LinkHeader) (payload : List Byte), parseHeader (headerBytes h ++ payload) = h

/-! ### The Completion Writer -/

/-- R155, R156, R162, R19: the issue of the completion at the head of the queue: the result fields, in one write of
64 bytes (log 28), the payload, Owner = DONE and the group counter, written in this order; the context is freed, and
the completion is counted for COMPLETIONS. Out of its turn, and with an empty queue, the command changes nothing
(log 2). -/
def Obligations.CompletionIssue : Prop :=
  ∀ (s : State),
    (s.queue = [] → exec .completionIssue s = .next s) ∧
    ∀ (c : CtxId) (rest : List CtxId) (x : Context) (r : Result) (n : Nat) (cfg : Settings),
      s.queue = c :: rest → s.ctx c = some x → x.result = some r → x.exch = some n →
      s.settings = some cfg →
      (s.rewrites ≠ [] → s.lastIssued = some .completion → exec .completionIssue s = .next s) ∧
      (s.rewrites = [] ∨ s.lastIssued ≠ some .completion →
        ∃ t g, exec .completionIssue s = .next t ∧ t.ctx c = none ∧
          (∀ d, d ≠ c → t.ctx d = s.ctx d) ∧ t.queue = rest ∧ t.lastIssued = some .completion ∧
          g = (s.groups.get ⟨n / 64 % 64, Nat.mod_lt _ (by decide)⟩ + 1 : W16) ∧
          t.groups.get ⟨n / 64 % 64, Nat.mod_lt _ (by decide)⟩ = g ∧
          (∃ later, t.outbound = s.outbound ++
            [.write (s.recordAddr n + 0x40)
              (resultBytes { r with
                flags := { r.flags with
                  truncated := r.flags.truncated || decide (x.replyCap < r.replyLen) } })] ++
            (if min r.replyLen x.replyCap = 0 then []
              else [.write x.replyAddr (s.slot c (min r.replyLen x.replyCap))]) ++
            [.write (s.recordAddr n) (leBytes 3 4),
              .write (cfg.digestBase + BitVec.ofNat 64 (0x20 + 2 * (n / 64 % 64)))
                (leBytes g.toNat 2)] ++ later ∧ ∀ o ∈ later, o = .interrupt) ∧
          (cfg.coalesce ≤ s.coalesced + 1 ∨ cfg.holdoff = 0 →
            t.coalesced = 0 ∧ t.holdoff = .idle ∧
              t.event = (s.event ||| 0x001 ||| if t.adapter = s.adapter then 0 else 0x080)) ∧
          (s.coalesced + 1 < cfg.coalesce → cfg.holdoff ≠ 0 →
            t.event = (s.event ||| if t.adapter = s.adapter then 0 else 0x080) ∧
            t.coalesced = s.coalesced + 1 ∧
            t.holdoff =
              (if s.coalesced = 0 then .running s.clock cfg.holdoff else s.holdoff)) ∧
          t.streams = s.streams ∧ t.targets = s.targets ∧ t.paths = s.paths ∧ t.ports = s.ports ∧
          t.payload = s.payload ∧
          t.clock = s.clock ∧ t.issueNumber = s.issueNumber ∧
          t.adapter = (if s.adapter = .quiescing ∧ t.liveCount = 0 then .quiesced else s.adapter))

/-- R159: the issue of a rewrite: the whole part as it stands, its place in the list, and the event its mark
carries; a completion goes first where the last issue was a rewrite. With an empty list, outside the working states
and out of its turn, the command changes nothing (log 2). -/
def Obligations.DigestRewriteIssue : Prop :=
  ∀ (s : State),
    (s.rewrites = [] ∨ s.adapter.works = false ∨ s.queue ≠ [] ∧ s.lastIssued = some .rewrite →
      exec .digestRewriteIssue s = .next s) ∧
    ∀ (w : Rewrite) (rest : List Rewrite), s.rewrites = w :: rest → s.adapter.works = true →
      s.queue = [] ∨ s.lastIssued ≠ some .rewrite →
      ∃ t e, exec .digestRewriteIssue s = .next t ∧
        t = { s with
          rewrites := rest, lastIssued := some .rewrite, event := t.event, interrupt := t.interrupt
          outbound := t.outbound } ∧
        t.event = (s.event ||| e) ∧
        (∀ p, w = { part := .path p, event := true } → e = 0x002) ∧
        (∀ u, w = { part := .target u, event := true } → e = 0x004) ∧
        (w.event = false ∨ w.part = .header ∨ (∃ g, w.part = .group g) ∨ (∃ i, w.part = .port i) →
          e = 0 ∧ t.outbound = s.outbound ++ [.write (s.partAddr w.part) (partBytes s w.part)]) ∧
        ∃ later, t.outbound =
          s.outbound ++ [.write (s.partAddr w.part) (partBytes s w.part)] ++ later ∧
          ∀ o ∈ later, o = .interrupt

/-! ### What every step keeps -/

/-- R30, R47, R99: every step keeps every path's copy, estimate, strikes and flap level in range. R74, R119:
every step keeps the masks of a port with empty lanes clear, and its correlation list within eight times. -/
def Obligations.StepKeepsPathsAndPorts : Prop :=
  (∀ s t : State, step s = .next t → s.PathsOk → t.PathsOk) ∧
  (∀ s t : State, step s = .next t → s.PortsOk → t.PortsOk)

/-- R28, R40, R42: every step keeps every stream's contents in range, and the in-flight count of R40 at most one for a
stream whose mode in force is ORDERED, which its contents then say; and (R29) every target's contents in range. -/
def Obligations.StepKeepsOrderedStreams : Prop :=
  ∀ s t : State, step s = .next t → (s.StreamsOk → t.StreamsOk) ∧ (s.TargetsOk → t.TargetsOk)

/-- R18: every step keeps that at most one live context holds any exchange number. R154: every step keeps
that the completion queue holds the contexts in CLOSING, each once, with their results fixed, and no others. -/
def Obligations.StepKeepsHoldersAndQueue : Prop :=
  (∀ s t : State, step s = .next t → s.OneHolder → t.OneHolder) ∧
  (∀ s t : State, step s = .next t → s.QueueOk → t.QueueOk)

/-- R5, R13, R161, R162, R163, R165, R168: every step keeps the registers' laws: the interrupt is asserted exactly
while a masked event is set, counts stay in range, LOADING is in progress exactly in the state LOADING. -/
def Obligations.StepKeepsRegisterLaws : Prop :=
  ∀ s t : State, step s = .next t → s.RegistersOk → t.RegistersOk

/-- R18, R19, R20, R22, R26: what no event takes from an exchange. A context past FETCHING stays live, with what
its fetch fixed, its abort mark, its flags, its failed paths and every transmitted attempt, each attempt
moving only as R20 lets it, and unchanged once in CLOSING; only the issue of its completion, in CLOSING at
the head of the queue, or a reset frees it. -/
def Obligations.ExchangesAreNeverLost : Prop :=
  ∀ (cmd : Instr) (s t : State) (c : CtxId) (x : Context), exec cmd s = .next t → s.QueueOk →
    s.ctx c = some x → x.state ≠ .fetching →
    (∃ y, t.ctx c = some y ∧ x.Kept y) ∨
      t.ctx c = none ∧
        (cmd = .warmReset ∨ (∃ a b d e, cmd = .coldReset a b d e) ∨
          cmd = .completionIssue ∧ x.state = .closing ∧ s.queue.head? = some c)

/-- R165, R166, R168 to R172: the changes of adapter state, each by its own commands. -/
def Obligations.AdapterStateChanges : Prop :=
  ∀ (cmd : Instr) (s t : State), exec cmd s = .next t → s.RegistersOk → t.adapter ≠ s.adapter →
    (∃ a b d e, cmd = .coldReset a b d e) ∧ t.adapter = .halted ∨
    t.event &&& 0x080 = 0x080 ∧
      (cmd = .warmReset ∧ t.adapter = .halted ∨
        cmd = .start ∧ (s.adapter = .halted ∨ s.adapter = .quiesced) ∧ t.adapter = .loading ∨
        cmd = .stop ∧ s.adapter = .running ∧ (t.adapter = .quiescing ∨ t.adapter = .quiesced) ∨
        s.adapter = .loading ∧ t.adapter = .running ∧
          (∃ a, cmd = .loadingTablesReadEnd a) ∨
        s.adapter = .loading ∧ t.adapter = .faulted ∧
          ((∃ a, cmd = .loadingAnchorReadEnd a) ∨ (∃ a, cmd = .loadingTablesReadEnd a) ∨
            ∃ read requests, cmd = .hostReadTimeout read requests) ∨
        s.adapter = .quiescing ∧ t.adapter = .quiesced ∧ t.liveCount = 0 ∧
          (cmd = .completionIssue ∨ (∃ a, cmd = .recordReadEnd a) ∨
            ∃ read requests, cmd = .hostReadTimeout read requests))

/-- R16, R145, R157, R161, R166: what the registers never do: no command but a cold reset moves the clock or
takes back what was issued to the host link; an event bit falls only by a write of EVENT or a reset; ANCHOR
changes only by its write in HALTED or a cold reset; and the Issue Number moves only by one at a taking, and
from its seed at LOADING. -/
def Obligations.RegistersMoveOnlyByTheirCommands : Prop :=
  ∀ (cmd : Instr) (s t : State), exec cmd s = .next t →
    (∀ a b d e, cmd ≠ .coldReset a b d e) →
    t.clock = s.clock ∧ (∃ l, t.outbound = s.outbound ++ l) ∧
      (cmd ≠ .warmReset → (∀ v, cmd ≠ .eventWrite v) → s.event &&& t.event = s.event) ∧
      ((∀ v, cmd ≠ .eventMaskWrite v) → t.eventMask = s.eventMask) ∧
      (t.anchor ≠ s.anchor → s.adapter = .halted ∧ ∃ span v, cmd = .anchorWrite span v) ∧
      (t.issueNumber = s.issueNumber ∨
        t.issueNumber = some (s.issueNumber.getD 0 + 1) ∧ (∃ a, cmd = .payloadReadEnd a) ∨
        s.issueNumber = none ∧ t.issueNumber = t.settings.map (·.issueSeed) ∧
          ∃ a, cmd = .loadingTablesReadEnd a)
end

