-- ==== Sys2Proof/Laws/Payload.lean ====
section
/-!
SUPPORT. The Payload Store as a byte memory (R13): every write keeps the canonical form, a read after a write
gives the byte written, and every other byte reads as before.
-/

namespace Sys2Proof.Machine

/-- The canonical form, at the head of a list. -/
theorem cellsWf_cons (c : Host.Cell) (m : List Host.Cell) :
    cellsWf (c :: m) = true ↔ c.2 ≠ unlistedByte ∧ (∀ d ∈ m, c.1 < d.1) ∧ cellsWf m = true := by
  induction m generalizing c with
  | nil => simp [cellsWf]
  | cons e m ih =>
    have step : cellsWf (c :: e :: m) = (c.2 != unlistedByte && decide (c.1 < e.1) && cellsWf (e :: m)) :=
      rfl
    rw [step, Bool.and_eq_true, Bool.and_eq_true, bne_iff_ne, decide_eq_true_eq]
    constructor
    · rintro ⟨⟨h, k⟩, w⟩
      refine ⟨h, fun d hd => ?_, w⟩
      rcases List.mem_cons.mp hd with rfl | hd
      · exact k
      · exact Nat.lt_trans k (((ih e).mp w).2.1 d hd)
    · rintro ⟨h, k, w⟩
      exact ⟨⟨h, k e List.mem_cons_self⟩, w⟩

theorem mem_writeCell {a : Nat} {b : Byte} {m : List Host.Cell} {d : Host.Cell}
    (h : d ∈ writeCell a b m) : d = (a, b) ∨ d ∈ m := by
  induction m with
  | nil =>
    unfold writeCell at h
    split at h
    · cases h
    · exact .inl (List.mem_singleton.mp h)
  | cons c m ih =>
    unfold writeCell at h
    split at h
    · split at h
      · exact .inr (List.mem_cons_of_mem _ h)
      · rcases List.mem_cons.mp h with h | h
        · exact .inl h
        · exact .inr (List.mem_cons_of_mem _ h)
    · split at h
      · split at h
        · exact .inr h
        · rcases List.mem_cons.mp h with h | h
          · exact .inl h
          · exact .inr h
      · rcases List.mem_cons.mp h with h | h
        · exact .inr (h ▸ List.mem_cons_self)
        · rcases ih h with h | h
          · exact .inl h
          · exact .inr (List.mem_cons_of_mem _ h)

/-- A write keeps the canonical form. -/
theorem writeCell_wf (a : Nat) (b : Byte) (m : List Host.Cell) (h : cellsWf m = true) :
    cellsWf (writeCell a b m) = true := by
  induction m with
  | nil =>
    unfold writeCell
    split
    · rfl
    · rename_i hb
      exact (cellsWf_cons _ _).mpr ⟨hb, by simp, rfl⟩
  | cons c m ih =>
    obtain ⟨hc, hm, hw⟩ := (cellsWf_cons c m).mp h
    unfold writeCell
    split
    · rename_i e
      split
      · exact hw
      · rename_i hb
        exact (cellsWf_cons _ _).mpr ⟨hb, fun d hd => e ▸ hm d hd, hw⟩
    · rename_i e
      split
      · rename_i l
        split
        · exact h
        · rename_i hb
          refine (cellsWf_cons _ _).mpr ⟨hb, fun d hd => ?_, h⟩
          rcases List.mem_cons.mp hd with rfl | hd
          · exact l
          · exact Nat.lt_trans l (hm d hd)
      · rename_i l
        refine (cellsWf_cons _ _).mpr ⟨hc, fun d hd => ?_, ih hw⟩
        rcases mem_writeCell hd with rfl | hd
        · show c.1 < a
          omega
        · exact hm d hd

theorem writeCells_wf (a : Nat) (bytes : List Byte) (m : List Host.Cell) (h : cellsWf m = true) :
    cellsWf (writeCells a bytes m) = true := by
  induction bytes generalizing a m with
  | nil => exact h
  | cons b rest ih => exact ih _ _ (writeCell_wf a b m h)

/-- An address below every listed one reads as an unlisted byte. -/
theorem readCell_absent {a : Nat} {m : List Host.Cell} (h : ∀ d ∈ m, a < d.1) :
    readCell a m = unlistedByte := by
  induction m with
  | nil => rfl
  | cons c m ih =>
    have hc := h c List.mem_cons_self
    unfold readCell
    rw [if_neg (by omega)]
    exact ih fun d hd => h d (List.mem_cons_of_mem _ hd)

/-- A read after a write of the same address gives the byte written. -/
theorem readCell_writeCell_same (a : Nat) (b : Byte) (m : List Host.Cell) (h : cellsWf m = true) :
    readCell a (writeCell a b m) = b := by
  induction m with
  | nil =>
    unfold writeCell
    split
    · rename_i hb; rw [hb]; rfl
    · simp [readCell]
  | cons c m ih =>
    obtain ⟨-, hm, hw⟩ := (cellsWf_cons c m).mp h
    unfold writeCell
    split
    · rename_i e
      split
      · rename_i hb
        rw [hb]
        exact readCell_absent fun d hd => e ▸ hm d hd
      · simp [readCell]
    · rename_i e
      split
      · rename_i l
        split
        · rename_i hb
          rw [hb]
          refine readCell_absent fun d hd => ?_
          rcases List.mem_cons.mp hd with rfl | hd
          · exact l
          · exact Nat.lt_trans l (hm d hd)
        · simp [readCell]
      · simp [readCell, e, ih hw]

/-- Every other address reads as before. -/
theorem readCell_writeCell_other {a k : Nat} (b : Byte) (m : List Host.Cell) (h : k ≠ a) :
    readCell k (writeCell a b m) = readCell k m := by
  induction m with
  | nil =>
    unfold writeCell
    split
    · rfl
    · simp [readCell, h.symm]
  | cons c m ih =>
    unfold writeCell
    split
    · rename_i e
      have hk : ¬c.1 = k := by omega
      split
      · simp [readCell, hk]
      · simp [readCell, h.symm, hk]
    · split
      · split
        · rfl
        · simp [readCell, h.symm]
      · simp only [readCell, ih]

theorem readCell_writeCells_below {a k : Nat} (bytes : List Byte) (m : List Host.Cell) (h : k < a) :
    readCell k (writeCells a bytes m) = readCell k m := by
  induction bytes generalizing a m with
  | nil => rfl
  | cons b rest ih =>
    rw [writeCells, ih _ (by omega), readCell_writeCell_other b m (by omega)]

/-- A read of a byte written by a run of writes gives the byte written. -/
theorem readCell_writeCells_inside (a k : Nat) (bytes : List Byte) (m : List Host.Cell)
    (h : cellsWf m = true) (hk : k < bytes.length) :
    readCell (a + k) (writeCells a bytes m) = bytes[k] := by
  induction bytes generalizing a k m with
  | nil => cases hk
  | cons b rest ih =>
    rw [writeCells]
    cases k with
    | zero =>
      rw [Nat.add_zero, readCell_writeCells_below _ _ (Nat.lt_succ_self a),
        readCell_writeCell_same a b m h]
      rfl
    | succ k =>
      have := ih (a + 1) k (writeCell a b m) (writeCell_wf a b m h) (by simpa using hk)
      rw [Nat.add_right_comm, Nat.add_assoc] at this
      simpa using this

/-- Every byte outside a run of writes reads as before. -/
theorem readCell_writeCells_outside (a k : Nat) (bytes : List Byte) (m : List Host.Cell)
    (h : k < a ∨ a + bytes.length ≤ k) :
    readCell k (writeCells a bytes m) = readCell k m := by
  induction bytes generalizing a m with
  | nil => rfl
  | cons b rest ih =>
    simp only [List.length_cons] at h
    rw [writeCells, ih _ _ (by omega), readCell_writeCell_other b m (by omega)]

/-- What a run of writes wrote reads back (R13). -/
theorem readCells_writeCells (a : Nat) (bytes : List Byte) (m : List Host.Cell)
    (h : cellsWf m = true) : readCells a bytes.length (writeCells a bytes m) = bytes := by
  refine List.ext_getElem (by simp [readCells]) fun k h1 h2 => ?_
  simp only [readCells, List.getElem_map, List.getElem_range]
  exact readCell_writeCells_inside a k bytes m h h2

/-- R13: filling a slot keeps the canonical form. -/
theorem State.fillSlot_wf (c : CtxId) (bytes : List Byte) (s : State) (h : cellsWf s.payload = true) :
    cellsWf (s.fillSlot c bytes).payload = true :=
  writeCells_wf _ _ _ h

/-- R13: filling the slot of one context leaves every byte outside that slot as it was. -/
theorem State.fillSlot_outside (c : CtxId) (bytes : List Byte) (s : State) (k : Nat)
    (h : k < slotBase c ∨ slotBase c + Config.slotBytes ≤ k) :
    readCell k (s.fillSlot c bytes).payload = readCell k s.payload := by
  refine readCell_writeCells_outside _ _ _ _ ?_
  rw [List.length_take]
  omega

end Sys2Proof.Machine
end

