-- ==== Sys2Proof/Laws/State.lean ====
section
/-!
SUPPORT. What each update of the state leaves: one lemma per field per update, true by `rfl`, so that no
later proof unfolds a record update; and the entry lookups after an entry update.
-/

namespace Sys2Proof.Machine

/-! ### Contexts -/

@[simp] theorem State.setCtx_pending (c : CtxId) (x : Option Context) (s : State) :
    (s.setCtx c x).pending = s.pending := rfl

@[simp] theorem State.setCtx_anchor (c : CtxId) (x : Option Context) (s : State) :
    (s.setCtx c x).anchor = s.anchor := rfl

@[simp] theorem State.setCtx_event (c : CtxId) (x : Option Context) (s : State) :
    (s.setCtx c x).event = s.event := rfl

@[simp] theorem State.setCtx_eventMask (c : CtxId) (x : Option Context) (s : State) :
    (s.setCtx c x).eventMask = s.eventMask := rfl

@[simp] theorem State.setCtx_interrupt (c : CtxId) (x : Option Context) (s : State) :
    (s.setCtx c x).interrupt = s.interrupt := rfl

@[simp] theorem State.setCtx_faultAddress (c : CtxId) (x : Option Context) (s : State) :
    (s.setCtx c x).faultAddress = s.faultAddress := rfl

@[simp] theorem State.setCtx_faultCount (c : CtxId) (x : Option Context) (s : State) :
    (s.setCtx c x).faultCount = s.faultCount := rfl

@[simp] theorem State.setCtx_outbound (c : CtxId) (x : Option Context) (s : State) :
    (s.setCtx c x).outbound = s.outbound := rfl

@[simp] theorem State.setCtx_adapter (c : CtxId) (x : Option Context) (s : State) :
    (s.setCtx c x).adapter = s.adapter := rfl

@[simp] theorem State.setCtx_loading (c : CtxId) (x : Option Context) (s : State) :
    (s.setCtx c x).loading = s.loading := rfl

@[simp] theorem State.setCtx_orphans (c : CtxId) (x : Option Context) (s : State) :
    (s.setCtx c x).orphans = s.orphans := rfl

@[simp] theorem State.setCtx_resets (c : CtxId) (x : Option Context) (s : State) :
    (s.setCtx c x).resets = s.resets := rfl

@[simp] theorem State.setCtx_settings (c : CtxId) (x : Option Context) (s : State) :
    (s.setCtx c x).settings = s.settings := rfl

@[simp] theorem State.setCtx_issueNumber (c : CtxId) (x : Option Context) (s : State) :
    (s.setCtx c x).issueNumber = s.issueNumber := rfl

@[simp] theorem State.setCtx_armFifo (c : CtxId) (x : Option Context) (s : State) :
    (s.setCtx c x).armFifo = s.armFifo := rfl

@[simp] theorem State.setCtx_sweepPending (c : CtxId) (x : Option Context) (s : State) :
    (s.setCtx c x).sweepPending = s.sweepPending := rfl

@[simp] theorem State.setCtx_job (c : CtxId) (x : Option Context) (s : State) :
    (s.setCtx c x).job = s.job := rfl

@[simp] theorem State.setCtx_phase (c : CtxId) (x : Option Context) (s : State) :
    (s.setCtx c x).phase = s.phase := rfl

@[simp] theorem State.setCtx_payload (c : CtxId) (x : Option Context) (s : State) :
    (s.setCtx c x).payload = s.payload := rfl

@[simp] theorem State.setCtx_streams (c : CtxId) (x : Option Context) (s : State) :
    (s.setCtx c x).streams = s.streams := rfl

@[simp] theorem State.setCtx_targets (c : CtxId) (x : Option Context) (s : State) :
    (s.setCtx c x).targets = s.targets := rfl

@[simp] theorem State.setCtx_paths (c : CtxId) (x : Option Context) (s : State) :
    (s.setCtx c x).paths = s.paths := rfl

@[simp] theorem State.setCtx_ports (c : CtxId) (x : Option Context) (s : State) :
    (s.setCtx c x).ports = s.ports := rfl

@[simp] theorem State.setCtx_clock (c : CtxId) (x : Option Context) (s : State) :
    (s.setCtx c x).clock = s.clock := rfl

@[simp] theorem State.setCtx_queue (c : CtxId) (x : Option Context) (s : State) :
    (s.setCtx c x).queue = s.queue := rfl

@[simp] theorem State.setCtx_rewrites (c : CtxId) (x : Option Context) (s : State) :
    (s.setCtx c x).rewrites = s.rewrites := rfl

@[simp] theorem State.setCtx_lastIssued (c : CtxId) (x : Option Context) (s : State) :
    (s.setCtx c x).lastIssued = s.lastIssued := rfl

@[simp] theorem State.setCtx_groups (c : CtxId) (x : Option Context) (s : State) :
    (s.setCtx c x).groups = s.groups := rfl

@[simp] theorem State.setCtx_idleArms (c : CtxId) (x : Option Context) (s : State) :
    (s.setCtx c x).idleArms = s.idleArms := rfl

@[simp] theorem State.setCtx_coalesced (c : CtxId) (x : Option Context) (s : State) :
    (s.setCtx c x).coalesced = s.coalesced := rfl

@[simp] theorem State.setCtx_holdoff (c : CtxId) (x : Option Context) (s : State) :
    (s.setCtx c x).holdoff = s.holdoff := rfl

@[simp] theorem State.setCtx_deferred (c : CtxId) (x : Option Context) (s : State) :
    (s.setCtx c x).deferred = s.deferred := rfl

/-! ### Streams -/

@[simp] theorem State.setStream_pending (n : StreamId) (e : StreamEntry) (s : State) :
    (s.setStream n e).pending = s.pending := rfl

@[simp] theorem State.setStream_anchor (n : StreamId) (e : StreamEntry) (s : State) :
    (s.setStream n e).anchor = s.anchor := rfl

@[simp] theorem State.setStream_event (n : StreamId) (e : StreamEntry) (s : State) :
    (s.setStream n e).event = s.event := rfl

@[simp] theorem State.setStream_eventMask (n : StreamId) (e : StreamEntry) (s : State) :
    (s.setStream n e).eventMask = s.eventMask := rfl

@[simp] theorem State.setStream_interrupt (n : StreamId) (e : StreamEntry) (s : State) :
    (s.setStream n e).interrupt = s.interrupt := rfl

@[simp] theorem State.setStream_faultAddress (n : StreamId) (e : StreamEntry) (s : State) :
    (s.setStream n e).faultAddress = s.faultAddress := rfl

@[simp] theorem State.setStream_faultCount (n : StreamId) (e : StreamEntry) (s : State) :
    (s.setStream n e).faultCount = s.faultCount := rfl

@[simp] theorem State.setStream_outbound (n : StreamId) (e : StreamEntry) (s : State) :
    (s.setStream n e).outbound = s.outbound := rfl

@[simp] theorem State.setStream_adapter (n : StreamId) (e : StreamEntry) (s : State) :
    (s.setStream n e).adapter = s.adapter := rfl

@[simp] theorem State.setStream_loading (n : StreamId) (e : StreamEntry) (s : State) :
    (s.setStream n e).loading = s.loading := rfl

@[simp] theorem State.setStream_orphans (n : StreamId) (e : StreamEntry) (s : State) :
    (s.setStream n e).orphans = s.orphans := rfl

@[simp] theorem State.setStream_resets (n : StreamId) (e : StreamEntry) (s : State) :
    (s.setStream n e).resets = s.resets := rfl

@[simp] theorem State.setStream_settings (n : StreamId) (e : StreamEntry) (s : State) :
    (s.setStream n e).settings = s.settings := rfl

@[simp] theorem State.setStream_issueNumber (n : StreamId) (e : StreamEntry) (s : State) :
    (s.setStream n e).issueNumber = s.issueNumber := rfl

@[simp] theorem State.setStream_armFifo (n : StreamId) (e : StreamEntry) (s : State) :
    (s.setStream n e).armFifo = s.armFifo := rfl

@[simp] theorem State.setStream_sweepPending (n : StreamId) (e : StreamEntry) (s : State) :
    (s.setStream n e).sweepPending = s.sweepPending := rfl

@[simp] theorem State.setStream_job (n : StreamId) (e : StreamEntry) (s : State) :
    (s.setStream n e).job = s.job := rfl

@[simp] theorem State.setStream_phase (n : StreamId) (e : StreamEntry) (s : State) :
    (s.setStream n e).phase = s.phase := rfl

@[simp] theorem State.setStream_ctxs (n : StreamId) (e : StreamEntry) (s : State) :
    (s.setStream n e).ctxs = s.ctxs := rfl

@[simp] theorem State.setStream_payload (n : StreamId) (e : StreamEntry) (s : State) :
    (s.setStream n e).payload = s.payload := rfl

@[simp] theorem State.setStream_targets (n : StreamId) (e : StreamEntry) (s : State) :
    (s.setStream n e).targets = s.targets := rfl

@[simp] theorem State.setStream_paths (n : StreamId) (e : StreamEntry) (s : State) :
    (s.setStream n e).paths = s.paths := rfl

@[simp] theorem State.setStream_ports (n : StreamId) (e : StreamEntry) (s : State) :
    (s.setStream n e).ports = s.ports := rfl

@[simp] theorem State.setStream_clock (n : StreamId) (e : StreamEntry) (s : State) :
    (s.setStream n e).clock = s.clock := rfl

@[simp] theorem State.setStream_queue (n : StreamId) (e : StreamEntry) (s : State) :
    (s.setStream n e).queue = s.queue := rfl

@[simp] theorem State.setStream_rewrites (n : StreamId) (e : StreamEntry) (s : State) :
    (s.setStream n e).rewrites = s.rewrites := rfl

@[simp] theorem State.setStream_lastIssued (n : StreamId) (e : StreamEntry) (s : State) :
    (s.setStream n e).lastIssued = s.lastIssued := rfl

@[simp] theorem State.setStream_groups (n : StreamId) (e : StreamEntry) (s : State) :
    (s.setStream n e).groups = s.groups := rfl

@[simp] theorem State.setStream_idleArms (n : StreamId) (e : StreamEntry) (s : State) :
    (s.setStream n e).idleArms = s.idleArms := rfl

@[simp] theorem State.setStream_coalesced (n : StreamId) (e : StreamEntry) (s : State) :
    (s.setStream n e).coalesced = s.coalesced := rfl

@[simp] theorem State.setStream_holdoff (n : StreamId) (e : StreamEntry) (s : State) :
    (s.setStream n e).holdoff = s.holdoff := rfl

@[simp] theorem State.setStream_deferred (n : StreamId) (e : StreamEntry) (s : State) :
    (s.setStream n e).deferred = s.deferred := rfl

/-! ### Targets -/

@[simp] theorem State.setTarget_pending (t : TargetId) (e : TargetEntry) (s : State) :
    (s.setTarget t e).pending = s.pending := rfl

@[simp] theorem State.setTarget_anchor (t : TargetId) (e : TargetEntry) (s : State) :
    (s.setTarget t e).anchor = s.anchor := rfl

@[simp] theorem State.setTarget_event (t : TargetId) (e : TargetEntry) (s : State) :
    (s.setTarget t e).event = s.event := rfl

@[simp] theorem State.setTarget_eventMask (t : TargetId) (e : TargetEntry) (s : State) :
    (s.setTarget t e).eventMask = s.eventMask := rfl

@[simp] theorem State.setTarget_interrupt (t : TargetId) (e : TargetEntry) (s : State) :
    (s.setTarget t e).interrupt = s.interrupt := rfl

@[simp] theorem State.setTarget_faultAddress (t : TargetId) (e : TargetEntry) (s : State) :
    (s.setTarget t e).faultAddress = s.faultAddress := rfl

@[simp] theorem State.setTarget_faultCount (t : TargetId) (e : TargetEntry) (s : State) :
    (s.setTarget t e).faultCount = s.faultCount := rfl

@[simp] theorem State.setTarget_outbound (t : TargetId) (e : TargetEntry) (s : State) :
    (s.setTarget t e).outbound = s.outbound := rfl

@[simp] theorem State.setTarget_adapter (t : TargetId) (e : TargetEntry) (s : State) :
    (s.setTarget t e).adapter = s.adapter := rfl

@[simp] theorem State.setTarget_loading (t : TargetId) (e : TargetEntry) (s : State) :
    (s.setTarget t e).loading = s.loading := rfl

@[simp] theorem State.setTarget_orphans (t : TargetId) (e : TargetEntry) (s : State) :
    (s.setTarget t e).orphans = s.orphans := rfl

@[simp] theorem State.setTarget_resets (t : TargetId) (e : TargetEntry) (s : State) :
    (s.setTarget t e).resets = s.resets := rfl

@[simp] theorem State.setTarget_settings (t : TargetId) (e : TargetEntry) (s : State) :
    (s.setTarget t e).settings = s.settings := rfl

@[simp] theorem State.setTarget_issueNumber (t : TargetId) (e : TargetEntry) (s : State) :
    (s.setTarget t e).issueNumber = s.issueNumber := rfl

@[simp] theorem State.setTarget_armFifo (t : TargetId) (e : TargetEntry) (s : State) :
    (s.setTarget t e).armFifo = s.armFifo := rfl

@[simp] theorem State.setTarget_sweepPending (t : TargetId) (e : TargetEntry) (s : State) :
    (s.setTarget t e).sweepPending = s.sweepPending := rfl

@[simp] theorem State.setTarget_job (t : TargetId) (e : TargetEntry) (s : State) :
    (s.setTarget t e).job = s.job := rfl

@[simp] theorem State.setTarget_phase (t : TargetId) (e : TargetEntry) (s : State) :
    (s.setTarget t e).phase = s.phase := rfl

@[simp] theorem State.setTarget_ctxs (t : TargetId) (e : TargetEntry) (s : State) :
    (s.setTarget t e).ctxs = s.ctxs := rfl

@[simp] theorem State.setTarget_payload (t : TargetId) (e : TargetEntry) (s : State) :
    (s.setTarget t e).payload = s.payload := rfl

@[simp] theorem State.setTarget_streams (t : TargetId) (e : TargetEntry) (s : State) :
    (s.setTarget t e).streams = s.streams := rfl

@[simp] theorem State.setTarget_paths (t : TargetId) (e : TargetEntry) (s : State) :
    (s.setTarget t e).paths = s.paths := rfl

@[simp] theorem State.setTarget_ports (t : TargetId) (e : TargetEntry) (s : State) :
    (s.setTarget t e).ports = s.ports := rfl

@[simp] theorem State.setTarget_clock (t : TargetId) (e : TargetEntry) (s : State) :
    (s.setTarget t e).clock = s.clock := rfl

@[simp] theorem State.setTarget_queue (t : TargetId) (e : TargetEntry) (s : State) :
    (s.setTarget t e).queue = s.queue := rfl

@[simp] theorem State.setTarget_rewrites (t : TargetId) (e : TargetEntry) (s : State) :
    (s.setTarget t e).rewrites = s.rewrites := rfl

@[simp] theorem State.setTarget_lastIssued (t : TargetId) (e : TargetEntry) (s : State) :
    (s.setTarget t e).lastIssued = s.lastIssued := rfl

@[simp] theorem State.setTarget_groups (t : TargetId) (e : TargetEntry) (s : State) :
    (s.setTarget t e).groups = s.groups := rfl

@[simp] theorem State.setTarget_idleArms (t : TargetId) (e : TargetEntry) (s : State) :
    (s.setTarget t e).idleArms = s.idleArms := rfl

@[simp] theorem State.setTarget_coalesced (t : TargetId) (e : TargetEntry) (s : State) :
    (s.setTarget t e).coalesced = s.coalesced := rfl

@[simp] theorem State.setTarget_holdoff (t : TargetId) (e : TargetEntry) (s : State) :
    (s.setTarget t e).holdoff = s.holdoff := rfl

@[simp] theorem State.setTarget_deferred (t : TargetId) (e : TargetEntry) (s : State) :
    (s.setTarget t e).deferred = s.deferred := rfl

/-! ### Paths -/

@[simp] theorem State.setPath_pending (p : PathId) (r : PathRec) (s : State) :
    (s.setPath p r).pending = s.pending := rfl

@[simp] theorem State.setPath_anchor (p : PathId) (r : PathRec) (s : State) :
    (s.setPath p r).anchor = s.anchor := rfl

@[simp] theorem State.setPath_event (p : PathId) (r : PathRec) (s : State) :
    (s.setPath p r).event = s.event := rfl

@[simp] theorem State.setPath_eventMask (p : PathId) (r : PathRec) (s : State) :
    (s.setPath p r).eventMask = s.eventMask := rfl

@[simp] theorem State.setPath_interrupt (p : PathId) (r : PathRec) (s : State) :
    (s.setPath p r).interrupt = s.interrupt := rfl

@[simp] theorem State.setPath_faultAddress (p : PathId) (r : PathRec) (s : State) :
    (s.setPath p r).faultAddress = s.faultAddress := rfl

@[simp] theorem State.setPath_faultCount (p : PathId) (r : PathRec) (s : State) :
    (s.setPath p r).faultCount = s.faultCount := rfl

@[simp] theorem State.setPath_outbound (p : PathId) (r : PathRec) (s : State) :
    (s.setPath p r).outbound = s.outbound := rfl

@[simp] theorem State.setPath_adapter (p : PathId) (r : PathRec) (s : State) :
    (s.setPath p r).adapter = s.adapter := rfl

@[simp] theorem State.setPath_loading (p : PathId) (r : PathRec) (s : State) :
    (s.setPath p r).loading = s.loading := rfl

@[simp] theorem State.setPath_orphans (p : PathId) (r : PathRec) (s : State) :
    (s.setPath p r).orphans = s.orphans := rfl

@[simp] theorem State.setPath_resets (p : PathId) (r : PathRec) (s : State) :
    (s.setPath p r).resets = s.resets := rfl

@[simp] theorem State.setPath_settings (p : PathId) (r : PathRec) (s : State) :
    (s.setPath p r).settings = s.settings := rfl

@[simp] theorem State.setPath_issueNumber (p : PathId) (r : PathRec) (s : State) :
    (s.setPath p r).issueNumber = s.issueNumber := rfl

@[simp] theorem State.setPath_armFifo (p : PathId) (r : PathRec) (s : State) :
    (s.setPath p r).armFifo = s.armFifo := rfl

@[simp] theorem State.setPath_sweepPending (p : PathId) (r : PathRec) (s : State) :
    (s.setPath p r).sweepPending = s.sweepPending := rfl

@[simp] theorem State.setPath_job (p : PathId) (r : PathRec) (s : State) :
    (s.setPath p r).job = s.job := rfl

@[simp] theorem State.setPath_phase (p : PathId) (r : PathRec) (s : State) :
    (s.setPath p r).phase = s.phase := rfl

@[simp] theorem State.setPath_ctxs (p : PathId) (r : PathRec) (s : State) :
    (s.setPath p r).ctxs = s.ctxs := rfl

@[simp] theorem State.setPath_payload (p : PathId) (r : PathRec) (s : State) :
    (s.setPath p r).payload = s.payload := rfl

@[simp] theorem State.setPath_streams (p : PathId) (r : PathRec) (s : State) :
    (s.setPath p r).streams = s.streams := rfl

@[simp] theorem State.setPath_targets (p : PathId) (r : PathRec) (s : State) :
    (s.setPath p r).targets = s.targets := rfl

@[simp] theorem State.setPath_ports (p : PathId) (r : PathRec) (s : State) :
    (s.setPath p r).ports = s.ports := rfl

@[simp] theorem State.setPath_clock (p : PathId) (r : PathRec) (s : State) :
    (s.setPath p r).clock = s.clock := rfl

@[simp] theorem State.setPath_queue (p : PathId) (r : PathRec) (s : State) :
    (s.setPath p r).queue = s.queue := rfl

@[simp] theorem State.setPath_lastIssued (p : PathId) (r : PathRec) (s : State) :
    (s.setPath p r).lastIssued = s.lastIssued := rfl

@[simp] theorem State.setPath_groups (p : PathId) (r : PathRec) (s : State) :
    (s.setPath p r).groups = s.groups := rfl

@[simp] theorem State.setPath_idleArms (p : PathId) (r : PathRec) (s : State) :
    (s.setPath p r).idleArms = s.idleArms := rfl

@[simp] theorem State.setPath_coalesced (p : PathId) (r : PathRec) (s : State) :
    (s.setPath p r).coalesced = s.coalesced := rfl

@[simp] theorem State.setPath_holdoff (p : PathId) (r : PathRec) (s : State) :
    (s.setPath p r).holdoff = s.holdoff := rfl

@[simp] theorem State.setPath_deferred (p : PathId) (r : PathRec) (s : State) :
    (s.setPath p r).deferred = s.deferred := rfl

/-! ### Ports -/

@[simp] theorem State.setPort_pending (i : PortId) (r : PortRec) (s : State) :
    (s.setPort i r).pending = s.pending := rfl

@[simp] theorem State.setPort_anchor (i : PortId) (r : PortRec) (s : State) :
    (s.setPort i r).anchor = s.anchor := rfl

@[simp] theorem State.setPort_event (i : PortId) (r : PortRec) (s : State) :
    (s.setPort i r).event = s.event := rfl

@[simp] theorem State.setPort_eventMask (i : PortId) (r : PortRec) (s : State) :
    (s.setPort i r).eventMask = s.eventMask := rfl

@[simp] theorem State.setPort_interrupt (i : PortId) (r : PortRec) (s : State) :
    (s.setPort i r).interrupt = s.interrupt := rfl

@[simp] theorem State.setPort_faultAddress (i : PortId) (r : PortRec) (s : State) :
    (s.setPort i r).faultAddress = s.faultAddress := rfl

@[simp] theorem State.setPort_faultCount (i : PortId) (r : PortRec) (s : State) :
    (s.setPort i r).faultCount = s.faultCount := rfl

@[simp] theorem State.setPort_outbound (i : PortId) (r : PortRec) (s : State) :
    (s.setPort i r).outbound = s.outbound := rfl

@[simp] theorem State.setPort_adapter (i : PortId) (r : PortRec) (s : State) :
    (s.setPort i r).adapter = s.adapter := rfl

@[simp] theorem State.setPort_loading (i : PortId) (r : PortRec) (s : State) :
    (s.setPort i r).loading = s.loading := rfl

@[simp] theorem State.setPort_orphans (i : PortId) (r : PortRec) (s : State) :
    (s.setPort i r).orphans = s.orphans := rfl

@[simp] theorem State.setPort_resets (i : PortId) (r : PortRec) (s : State) :
    (s.setPort i r).resets = s.resets := rfl

@[simp] theorem State.setPort_settings (i : PortId) (r : PortRec) (s : State) :
    (s.setPort i r).settings = s.settings := rfl

@[simp] theorem State.setPort_issueNumber (i : PortId) (r : PortRec) (s : State) :
    (s.setPort i r).issueNumber = s.issueNumber := rfl

@[simp] theorem State.setPort_armFifo (i : PortId) (r : PortRec) (s : State) :
    (s.setPort i r).armFifo = s.armFifo := rfl

@[simp] theorem State.setPort_sweepPending (i : PortId) (r : PortRec) (s : State) :
    (s.setPort i r).sweepPending = s.sweepPending := rfl

@[simp] theorem State.setPort_job (i : PortId) (r : PortRec) (s : State) :
    (s.setPort i r).job = s.job := rfl

@[simp] theorem State.setPort_phase (i : PortId) (r : PortRec) (s : State) :
    (s.setPort i r).phase = s.phase := rfl

@[simp] theorem State.setPort_ctxs (i : PortId) (r : PortRec) (s : State) :
    (s.setPort i r).ctxs = s.ctxs := rfl

@[simp] theorem State.setPort_payload (i : PortId) (r : PortRec) (s : State) :
    (s.setPort i r).payload = s.payload := rfl

@[simp] theorem State.setPort_streams (i : PortId) (r : PortRec) (s : State) :
    (s.setPort i r).streams = s.streams := rfl

@[simp] theorem State.setPort_targets (i : PortId) (r : PortRec) (s : State) :
    (s.setPort i r).targets = s.targets := rfl

@[simp] theorem State.setPort_paths (i : PortId) (r : PortRec) (s : State) :
    (s.setPort i r).paths = s.paths := rfl

@[simp] theorem State.setPort_clock (i : PortId) (r : PortRec) (s : State) :
    (s.setPort i r).clock = s.clock := rfl

@[simp] theorem State.setPort_queue (i : PortId) (r : PortRec) (s : State) :
    (s.setPort i r).queue = s.queue := rfl

@[simp] theorem State.setPort_lastIssued (i : PortId) (r : PortRec) (s : State) :
    (s.setPort i r).lastIssued = s.lastIssued := rfl

@[simp] theorem State.setPort_groups (i : PortId) (r : PortRec) (s : State) :
    (s.setPort i r).groups = s.groups := rfl

@[simp] theorem State.setPort_idleArms (i : PortId) (r : PortRec) (s : State) :
    (s.setPort i r).idleArms = s.idleArms := rfl

@[simp] theorem State.setPort_coalesced (i : PortId) (r : PortRec) (s : State) :
    (s.setPort i r).coalesced = s.coalesced := rfl

@[simp] theorem State.setPort_holdoff (i : PortId) (r : PortRec) (s : State) :
    (s.setPort i r).holdoff = s.holdoff := rfl

@[simp] theorem State.setPort_deferred (i : PortId) (r : PortRec) (s : State) :
    (s.setPort i r).deferred = s.deferred := rfl

/-! ### Marks of the rewrite list -/

@[simp] theorem State.mark_pending (part : Part) (event : Bool) (s : State) :
    (s.mark part event).pending = s.pending := rfl

@[simp] theorem State.mark_anchor (part : Part) (event : Bool) (s : State) :
    (s.mark part event).anchor = s.anchor := rfl

@[simp] theorem State.mark_event (part : Part) (event : Bool) (s : State) :
    (s.mark part event).event = s.event := rfl

@[simp] theorem State.mark_eventMask (part : Part) (event : Bool) (s : State) :
    (s.mark part event).eventMask = s.eventMask := rfl

@[simp] theorem State.mark_interrupt (part : Part) (event : Bool) (s : State) :
    (s.mark part event).interrupt = s.interrupt := rfl

@[simp] theorem State.mark_faultAddress (part : Part) (event : Bool) (s : State) :
    (s.mark part event).faultAddress = s.faultAddress := rfl

@[simp] theorem State.mark_faultCount (part : Part) (event : Bool) (s : State) :
    (s.mark part event).faultCount = s.faultCount := rfl

@[simp] theorem State.mark_outbound (part : Part) (event : Bool) (s : State) :
    (s.mark part event).outbound = s.outbound := rfl

@[simp] theorem State.mark_adapter (part : Part) (event : Bool) (s : State) :
    (s.mark part event).adapter = s.adapter := rfl

@[simp] theorem State.mark_loading (part : Part) (event : Bool) (s : State) :
    (s.mark part event).loading = s.loading := rfl

@[simp] theorem State.mark_orphans (part : Part) (event : Bool) (s : State) :
    (s.mark part event).orphans = s.orphans := rfl

@[simp] theorem State.mark_resets (part : Part) (event : Bool) (s : State) :
    (s.mark part event).resets = s.resets := rfl

@[simp] theorem State.mark_settings (part : Part) (event : Bool) (s : State) :
    (s.mark part event).settings = s.settings := rfl

@[simp] theorem State.mark_issueNumber (part : Part) (event : Bool) (s : State) :
    (s.mark part event).issueNumber = s.issueNumber := rfl

@[simp] theorem State.mark_armFifo (part : Part) (event : Bool) (s : State) :
    (s.mark part event).armFifo = s.armFifo := rfl

@[simp] theorem State.mark_sweepPending (part : Part) (event : Bool) (s : State) :
    (s.mark part event).sweepPending = s.sweepPending := rfl

@[simp] theorem State.mark_job (part : Part) (event : Bool) (s : State) :
    (s.mark part event).job = s.job := rfl

@[simp] theorem State.mark_phase (part : Part) (event : Bool) (s : State) :
    (s.mark part event).phase = s.phase := rfl

@[simp] theorem State.mark_ctxs (part : Part) (event : Bool) (s : State) :
    (s.mark part event).ctxs = s.ctxs := rfl

@[simp] theorem State.mark_payload (part : Part) (event : Bool) (s : State) :
    (s.mark part event).payload = s.payload := rfl

@[simp] theorem State.mark_streams (part : Part) (event : Bool) (s : State) :
    (s.mark part event).streams = s.streams := rfl

@[simp] theorem State.mark_targets (part : Part) (event : Bool) (s : State) :
    (s.mark part event).targets = s.targets := rfl

@[simp] theorem State.mark_paths (part : Part) (event : Bool) (s : State) :
    (s.mark part event).paths = s.paths := rfl

@[simp] theorem State.mark_ports (part : Part) (event : Bool) (s : State) :
    (s.mark part event).ports = s.ports := rfl

@[simp] theorem State.mark_clock (part : Part) (event : Bool) (s : State) :
    (s.mark part event).clock = s.clock := rfl

@[simp] theorem State.mark_queue (part : Part) (event : Bool) (s : State) :
    (s.mark part event).queue = s.queue := rfl

@[simp] theorem State.mark_lastIssued (part : Part) (event : Bool) (s : State) :
    (s.mark part event).lastIssued = s.lastIssued := rfl

@[simp] theorem State.mark_groups (part : Part) (event : Bool) (s : State) :
    (s.mark part event).groups = s.groups := rfl

@[simp] theorem State.mark_idleArms (part : Part) (event : Bool) (s : State) :
    (s.mark part event).idleArms = s.idleArms := rfl

@[simp] theorem State.mark_coalesced (part : Part) (event : Bool) (s : State) :
    (s.mark part event).coalesced = s.coalesced := rfl

@[simp] theorem State.mark_holdoff (part : Part) (event : Bool) (s : State) :
    (s.mark part event).holdoff = s.holdoff := rfl

@[simp] theorem State.mark_deferred (part : Part) (event : Bool) (s : State) :
    (s.mark part event).deferred = s.deferred := rfl

/-! ### Posted writes -/

@[simp] theorem State.hostWrite_pending (addr : W64) (bytes : List Byte) (s : State) :
    (s.hostWrite addr bytes).pending = s.pending := rfl

@[simp] theorem State.hostWrite_anchor (addr : W64) (bytes : List Byte) (s : State) :
    (s.hostWrite addr bytes).anchor = s.anchor := rfl

@[simp] theorem State.hostWrite_event (addr : W64) (bytes : List Byte) (s : State) :
    (s.hostWrite addr bytes).event = s.event := rfl

@[simp] theorem State.hostWrite_eventMask (addr : W64) (bytes : List Byte) (s : State) :
    (s.hostWrite addr bytes).eventMask = s.eventMask := rfl

@[simp] theorem State.hostWrite_interrupt (addr : W64) (bytes : List Byte) (s : State) :
    (s.hostWrite addr bytes).interrupt = s.interrupt := rfl

@[simp] theorem State.hostWrite_faultAddress (addr : W64) (bytes : List Byte) (s : State) :
    (s.hostWrite addr bytes).faultAddress = s.faultAddress := rfl

@[simp] theorem State.hostWrite_faultCount (addr : W64) (bytes : List Byte) (s : State) :
    (s.hostWrite addr bytes).faultCount = s.faultCount := rfl

@[simp] theorem State.hostWrite_adapter (addr : W64) (bytes : List Byte) (s : State) :
    (s.hostWrite addr bytes).adapter = s.adapter := rfl

@[simp] theorem State.hostWrite_loading (addr : W64) (bytes : List Byte) (s : State) :
    (s.hostWrite addr bytes).loading = s.loading := rfl

@[simp] theorem State.hostWrite_orphans (addr : W64) (bytes : List Byte) (s : State) :
    (s.hostWrite addr bytes).orphans = s.orphans := rfl

@[simp] theorem State.hostWrite_resets (addr : W64) (bytes : List Byte) (s : State) :
    (s.hostWrite addr bytes).resets = s.resets := rfl

@[simp] theorem State.hostWrite_settings (addr : W64) (bytes : List Byte) (s : State) :
    (s.hostWrite addr bytes).settings = s.settings := rfl

@[simp] theorem State.hostWrite_issueNumber (addr : W64) (bytes : List Byte) (s : State) :
    (s.hostWrite addr bytes).issueNumber = s.issueNumber := rfl

@[simp] theorem State.hostWrite_armFifo (addr : W64) (bytes : List Byte) (s : State) :
    (s.hostWrite addr bytes).armFifo = s.armFifo := rfl

@[simp] theorem State.hostWrite_sweepPending (addr : W64) (bytes : List Byte) (s : State) :
    (s.hostWrite addr bytes).sweepPending = s.sweepPending := rfl

@[simp] theorem State.hostWrite_job (addr : W64) (bytes : List Byte) (s : State) :
    (s.hostWrite addr bytes).job = s.job := rfl

@[simp] theorem State.hostWrite_phase (addr : W64) (bytes : List Byte) (s : State) :
    (s.hostWrite addr bytes).phase = s.phase := rfl

@[simp] theorem State.hostWrite_ctxs (addr : W64) (bytes : List Byte) (s : State) :
    (s.hostWrite addr bytes).ctxs = s.ctxs := rfl

@[simp] theorem State.hostWrite_payload (addr : W64) (bytes : List Byte) (s : State) :
    (s.hostWrite addr bytes).payload = s.payload := rfl

@[simp] theorem State.hostWrite_streams (addr : W64) (bytes : List Byte) (s : State) :
    (s.hostWrite addr bytes).streams = s.streams := rfl

@[simp] theorem State.hostWrite_targets (addr : W64) (bytes : List Byte) (s : State) :
    (s.hostWrite addr bytes).targets = s.targets := rfl

@[simp] theorem State.hostWrite_paths (addr : W64) (bytes : List Byte) (s : State) :
    (s.hostWrite addr bytes).paths = s.paths := rfl

@[simp] theorem State.hostWrite_ports (addr : W64) (bytes : List Byte) (s : State) :
    (s.hostWrite addr bytes).ports = s.ports := rfl

@[simp] theorem State.hostWrite_clock (addr : W64) (bytes : List Byte) (s : State) :
    (s.hostWrite addr bytes).clock = s.clock := rfl

@[simp] theorem State.hostWrite_queue (addr : W64) (bytes : List Byte) (s : State) :
    (s.hostWrite addr bytes).queue = s.queue := rfl

@[simp] theorem State.hostWrite_rewrites (addr : W64) (bytes : List Byte) (s : State) :
    (s.hostWrite addr bytes).rewrites = s.rewrites := rfl

@[simp] theorem State.hostWrite_lastIssued (addr : W64) (bytes : List Byte) (s : State) :
    (s.hostWrite addr bytes).lastIssued = s.lastIssued := rfl

@[simp] theorem State.hostWrite_groups (addr : W64) (bytes : List Byte) (s : State) :
    (s.hostWrite addr bytes).groups = s.groups := rfl

@[simp] theorem State.hostWrite_idleArms (addr : W64) (bytes : List Byte) (s : State) :
    (s.hostWrite addr bytes).idleArms = s.idleArms := rfl

@[simp] theorem State.hostWrite_coalesced (addr : W64) (bytes : List Byte) (s : State) :
    (s.hostWrite addr bytes).coalesced = s.coalesced := rfl

@[simp] theorem State.hostWrite_holdoff (addr : W64) (bytes : List Byte) (s : State) :
    (s.hostWrite addr bytes).holdoff = s.holdoff := rfl

@[simp] theorem State.hostWrite_deferred (addr : W64) (bytes : List Byte) (s : State) :
    (s.hostWrite addr bytes).deferred = s.deferred := rfl

/-! ### Events -/

@[simp] theorem State.setEvents_pending (event mask : BitVec 9) (s : State) :
    (s.setEvents event mask).pending = s.pending := rfl

@[simp] theorem State.setEvents_anchor (event mask : BitVec 9) (s : State) :
    (s.setEvents event mask).anchor = s.anchor := rfl

@[simp] theorem State.setEvents_faultAddress (event mask : BitVec 9) (s : State) :
    (s.setEvents event mask).faultAddress = s.faultAddress := rfl

@[simp] theorem State.setEvents_faultCount (event mask : BitVec 9) (s : State) :
    (s.setEvents event mask).faultCount = s.faultCount := rfl

@[simp] theorem State.setEvents_adapter (event mask : BitVec 9) (s : State) :
    (s.setEvents event mask).adapter = s.adapter := rfl

@[simp] theorem State.setEvents_loading (event mask : BitVec 9) (s : State) :
    (s.setEvents event mask).loading = s.loading := rfl

@[simp] theorem State.setEvents_orphans (event mask : BitVec 9) (s : State) :
    (s.setEvents event mask).orphans = s.orphans := rfl

@[simp] theorem State.setEvents_resets (event mask : BitVec 9) (s : State) :
    (s.setEvents event mask).resets = s.resets := rfl

@[simp] theorem State.setEvents_settings (event mask : BitVec 9) (s : State) :
    (s.setEvents event mask).settings = s.settings := rfl

@[simp] theorem State.setEvents_issueNumber (event mask : BitVec 9) (s : State) :
    (s.setEvents event mask).issueNumber = s.issueNumber := rfl

@[simp] theorem State.setEvents_armFifo (event mask : BitVec 9) (s : State) :
    (s.setEvents event mask).armFifo = s.armFifo := rfl

@[simp] theorem State.setEvents_sweepPending (event mask : BitVec 9) (s : State) :
    (s.setEvents event mask).sweepPending = s.sweepPending := rfl

@[simp] theorem State.setEvents_job (event mask : BitVec 9) (s : State) :
    (s.setEvents event mask).job = s.job := rfl

@[simp] theorem State.setEvents_phase (event mask : BitVec 9) (s : State) :
    (s.setEvents event mask).phase = s.phase := rfl

@[simp] theorem State.setEvents_ctxs (event mask : BitVec 9) (s : State) :
    (s.setEvents event mask).ctxs = s.ctxs := rfl

@[simp] theorem State.setEvents_payload (event mask : BitVec 9) (s : State) :
    (s.setEvents event mask).payload = s.payload := rfl

@[simp] theorem State.setEvents_streams (event mask : BitVec 9) (s : State) :
    (s.setEvents event mask).streams = s.streams := rfl

@[simp] theorem State.setEvents_targets (event mask : BitVec 9) (s : State) :
    (s.setEvents event mask).targets = s.targets := rfl

@[simp] theorem State.setEvents_paths (event mask : BitVec 9) (s : State) :
    (s.setEvents event mask).paths = s.paths := rfl

@[simp] theorem State.setEvents_ports (event mask : BitVec 9) (s : State) :
    (s.setEvents event mask).ports = s.ports := rfl

@[simp] theorem State.setEvents_clock (event mask : BitVec 9) (s : State) :
    (s.setEvents event mask).clock = s.clock := rfl

@[simp] theorem State.setEvents_queue (event mask : BitVec 9) (s : State) :
    (s.setEvents event mask).queue = s.queue := rfl

@[simp] theorem State.setEvents_rewrites (event mask : BitVec 9) (s : State) :
    (s.setEvents event mask).rewrites = s.rewrites := rfl

@[simp] theorem State.setEvents_lastIssued (event mask : BitVec 9) (s : State) :
    (s.setEvents event mask).lastIssued = s.lastIssued := rfl

@[simp] theorem State.setEvents_groups (event mask : BitVec 9) (s : State) :
    (s.setEvents event mask).groups = s.groups := rfl

@[simp] theorem State.setEvents_idleArms (event mask : BitVec 9) (s : State) :
    (s.setEvents event mask).idleArms = s.idleArms := rfl

@[simp] theorem State.setEvents_coalesced (event mask : BitVec 9) (s : State) :
    (s.setEvents event mask).coalesced = s.coalesced := rfl

@[simp] theorem State.setEvents_holdoff (event mask : BitVec 9) (s : State) :
    (s.setEvents event mask).holdoff = s.holdoff := rfl

@[simp] theorem State.setEvents_deferred (event mask : BitVec 9) (s : State) :
    (s.setEvents event mask).deferred = s.deferred := rfl

@[simp] theorem State.setEvents_event (event mask : BitVec 9) (s : State) :
    (s.setEvents event mask).event = event := rfl

@[simp] theorem State.setEvents_eventMask (event mask : BitVec 9) (s : State) :
    (s.setEvents event mask).eventMask = mask := rfl

@[simp] theorem State.setEvents_interrupt (event mask : BitVec 9) (s : State) :
    (s.setEvents event mask).interrupt = assertion event mask := rfl

/-! ### Raises -/

@[simp] theorem State.raise_pending (e : Event) (s : State) :
    (s.raise e).pending = s.pending := rfl

@[simp] theorem State.raise_anchor (e : Event) (s : State) :
    (s.raise e).anchor = s.anchor := rfl

@[simp] theorem State.raise_eventMask (e : Event) (s : State) :
    (s.raise e).eventMask = s.eventMask := rfl

@[simp] theorem State.raise_faultAddress (e : Event) (s : State) :
    (s.raise e).faultAddress = s.faultAddress := rfl

@[simp] theorem State.raise_faultCount (e : Event) (s : State) :
    (s.raise e).faultCount = s.faultCount := rfl

@[simp] theorem State.raise_adapter (e : Event) (s : State) :
    (s.raise e).adapter = s.adapter := rfl

@[simp] theorem State.raise_loading (e : Event) (s : State) :
    (s.raise e).loading = s.loading := rfl

@[simp] theorem State.raise_orphans (e : Event) (s : State) :
    (s.raise e).orphans = s.orphans := rfl

@[simp] theorem State.raise_resets (e : Event) (s : State) :
    (s.raise e).resets = s.resets := rfl

@[simp] theorem State.raise_settings (e : Event) (s : State) :
    (s.raise e).settings = s.settings := rfl

@[simp] theorem State.raise_issueNumber (e : Event) (s : State) :
    (s.raise e).issueNumber = s.issueNumber := rfl

@[simp] theorem State.raise_armFifo (e : Event) (s : State) :
    (s.raise e).armFifo = s.armFifo := rfl

@[simp] theorem State.raise_sweepPending (e : Event) (s : State) :
    (s.raise e).sweepPending = s.sweepPending := rfl

@[simp] theorem State.raise_job (e : Event) (s : State) :
    (s.raise e).job = s.job := rfl

@[simp] theorem State.raise_phase (e : Event) (s : State) :
    (s.raise e).phase = s.phase := rfl

@[simp] theorem State.raise_ctxs (e : Event) (s : State) :
    (s.raise e).ctxs = s.ctxs := rfl

@[simp] theorem State.raise_payload (e : Event) (s : State) :
    (s.raise e).payload = s.payload := rfl

@[simp] theorem State.raise_streams (e : Event) (s : State) :
    (s.raise e).streams = s.streams := rfl

@[simp] theorem State.raise_targets (e : Event) (s : State) :
    (s.raise e).targets = s.targets := rfl

@[simp] theorem State.raise_paths (e : Event) (s : State) :
    (s.raise e).paths = s.paths := rfl

@[simp] theorem State.raise_ports (e : Event) (s : State) :
    (s.raise e).ports = s.ports := rfl

@[simp] theorem State.raise_clock (e : Event) (s : State) :
    (s.raise e).clock = s.clock := rfl

@[simp] theorem State.raise_queue (e : Event) (s : State) :
    (s.raise e).queue = s.queue := rfl

@[simp] theorem State.raise_rewrites (e : Event) (s : State) :
    (s.raise e).rewrites = s.rewrites := rfl

@[simp] theorem State.raise_lastIssued (e : Event) (s : State) :
    (s.raise e).lastIssued = s.lastIssued := rfl

@[simp] theorem State.raise_groups (e : Event) (s : State) :
    (s.raise e).groups = s.groups := rfl

@[simp] theorem State.raise_idleArms (e : Event) (s : State) :
    (s.raise e).idleArms = s.idleArms := rfl

@[simp] theorem State.raise_coalesced (e : Event) (s : State) :
    (s.raise e).coalesced = s.coalesced := rfl

@[simp] theorem State.raise_holdoff (e : Event) (s : State) :
    (s.raise e).holdoff = s.holdoff := rfl

@[simp] theorem State.raise_deferred (e : Event) (s : State) :
    (s.raise e).deferred = s.deferred := rfl

@[simp] theorem State.raise_event (e : Event) (s : State) :
    (s.raise e).event = s.event ||| eventBit e := rfl

@[simp] theorem State.raise_interrupt (e : Event) (s : State) :
    (s.raise e).interrupt = assertion (s.event ||| eventBit e) s.eventMask := rfl

/-! ### The Payload Store -/

@[simp] theorem State.fillSlot_pending (c : CtxId) (bytes : List Byte) (s : State) :
    (s.fillSlot c bytes).pending = s.pending := rfl

@[simp] theorem State.fillSlot_anchor (c : CtxId) (bytes : List Byte) (s : State) :
    (s.fillSlot c bytes).anchor = s.anchor := rfl

@[simp] theorem State.fillSlot_event (c : CtxId) (bytes : List Byte) (s : State) :
    (s.fillSlot c bytes).event = s.event := rfl

@[simp] theorem State.fillSlot_eventMask (c : CtxId) (bytes : List Byte) (s : State) :
    (s.fillSlot c bytes).eventMask = s.eventMask := rfl

@[simp] theorem State.fillSlot_interrupt (c : CtxId) (bytes : List Byte) (s : State) :
    (s.fillSlot c bytes).interrupt = s.interrupt := rfl

@[simp] theorem State.fillSlot_faultAddress (c : CtxId) (bytes : List Byte) (s : State) :
    (s.fillSlot c bytes).faultAddress = s.faultAddress := rfl

@[simp] theorem State.fillSlot_faultCount (c : CtxId) (bytes : List Byte) (s : State) :
    (s.fillSlot c bytes).faultCount = s.faultCount := rfl

@[simp] theorem State.fillSlot_outbound (c : CtxId) (bytes : List Byte) (s : State) :
    (s.fillSlot c bytes).outbound = s.outbound := rfl

@[simp] theorem State.fillSlot_adapter (c : CtxId) (bytes : List Byte) (s : State) :
    (s.fillSlot c bytes).adapter = s.adapter := rfl

@[simp] theorem State.fillSlot_loading (c : CtxId) (bytes : List Byte) (s : State) :
    (s.fillSlot c bytes).loading = s.loading := rfl

@[simp] theorem State.fillSlot_orphans (c : CtxId) (bytes : List Byte) (s : State) :
    (s.fillSlot c bytes).orphans = s.orphans := rfl

@[simp] theorem State.fillSlot_resets (c : CtxId) (bytes : List Byte) (s : State) :
    (s.fillSlot c bytes).resets = s.resets := rfl

@[simp] theorem State.fillSlot_settings (c : CtxId) (bytes : List Byte) (s : State) :
    (s.fillSlot c bytes).settings = s.settings := rfl

@[simp] theorem State.fillSlot_issueNumber (c : CtxId) (bytes : List Byte) (s : State) :
    (s.fillSlot c bytes).issueNumber = s.issueNumber := rfl

@[simp] theorem State.fillSlot_armFifo (c : CtxId) (bytes : List Byte) (s : State) :
    (s.fillSlot c bytes).armFifo = s.armFifo := rfl

@[simp] theorem State.fillSlot_sweepPending (c : CtxId) (bytes : List Byte) (s : State) :
    (s.fillSlot c bytes).sweepPending = s.sweepPending := rfl

@[simp] theorem State.fillSlot_job (c : CtxId) (bytes : List Byte) (s : State) :
    (s.fillSlot c bytes).job = s.job := rfl

@[simp] theorem State.fillSlot_phase (c : CtxId) (bytes : List Byte) (s : State) :
    (s.fillSlot c bytes).phase = s.phase := rfl

@[simp] theorem State.fillSlot_ctxs (c : CtxId) (bytes : List Byte) (s : State) :
    (s.fillSlot c bytes).ctxs = s.ctxs := rfl

@[simp] theorem State.fillSlot_streams (c : CtxId) (bytes : List Byte) (s : State) :
    (s.fillSlot c bytes).streams = s.streams := rfl

@[simp] theorem State.fillSlot_targets (c : CtxId) (bytes : List Byte) (s : State) :
    (s.fillSlot c bytes).targets = s.targets := rfl

@[simp] theorem State.fillSlot_paths (c : CtxId) (bytes : List Byte) (s : State) :
    (s.fillSlot c bytes).paths = s.paths := rfl

@[simp] theorem State.fillSlot_ports (c : CtxId) (bytes : List Byte) (s : State) :
    (s.fillSlot c bytes).ports = s.ports := rfl

@[simp] theorem State.fillSlot_clock (c : CtxId) (bytes : List Byte) (s : State) :
    (s.fillSlot c bytes).clock = s.clock := rfl

@[simp] theorem State.fillSlot_queue (c : CtxId) (bytes : List Byte) (s : State) :
    (s.fillSlot c bytes).queue = s.queue := rfl

@[simp] theorem State.fillSlot_rewrites (c : CtxId) (bytes : List Byte) (s : State) :
    (s.fillSlot c bytes).rewrites = s.rewrites := rfl

@[simp] theorem State.fillSlot_lastIssued (c : CtxId) (bytes : List Byte) (s : State) :
    (s.fillSlot c bytes).lastIssued = s.lastIssued := rfl

@[simp] theorem State.fillSlot_groups (c : CtxId) (bytes : List Byte) (s : State) :
    (s.fillSlot c bytes).groups = s.groups := rfl

@[simp] theorem State.fillSlot_idleArms (c : CtxId) (bytes : List Byte) (s : State) :
    (s.fillSlot c bytes).idleArms = s.idleArms := rfl

@[simp] theorem State.fillSlot_coalesced (c : CtxId) (bytes : List Byte) (s : State) :
    (s.fillSlot c bytes).coalesced = s.coalesced := rfl

@[simp] theorem State.fillSlot_holdoff (c : CtxId) (bytes : List Byte) (s : State) :
    (s.fillSlot c bytes).holdoff = s.holdoff := rfl

@[simp] theorem State.fillSlot_deferred (c : CtxId) (bytes : List Byte) (s : State) :
    (s.fillSlot c bytes).deferred = s.deferred := rfl

/-! ### Decisions that wait -/

@[simp] theorem State.defer_pending (d : Deferred) (s : State) :
    (s.defer d).pending = s.pending := rfl

@[simp] theorem State.defer_anchor (d : Deferred) (s : State) :
    (s.defer d).anchor = s.anchor := rfl

@[simp] theorem State.defer_event (d : Deferred) (s : State) :
    (s.defer d).event = s.event := rfl

@[simp] theorem State.defer_eventMask (d : Deferred) (s : State) :
    (s.defer d).eventMask = s.eventMask := rfl

@[simp] theorem State.defer_interrupt (d : Deferred) (s : State) :
    (s.defer d).interrupt = s.interrupt := rfl

@[simp] theorem State.defer_faultAddress (d : Deferred) (s : State) :
    (s.defer d).faultAddress = s.faultAddress := rfl

@[simp] theorem State.defer_faultCount (d : Deferred) (s : State) :
    (s.defer d).faultCount = s.faultCount := rfl

@[simp] theorem State.defer_outbound (d : Deferred) (s : State) :
    (s.defer d).outbound = s.outbound := rfl

@[simp] theorem State.defer_adapter (d : Deferred) (s : State) :
    (s.defer d).adapter = s.adapter := rfl

@[simp] theorem State.defer_loading (d : Deferred) (s : State) :
    (s.defer d).loading = s.loading := rfl

@[simp] theorem State.defer_orphans (d : Deferred) (s : State) :
    (s.defer d).orphans = s.orphans := rfl

@[simp] theorem State.defer_resets (d : Deferred) (s : State) :
    (s.defer d).resets = s.resets := rfl

@[simp] theorem State.defer_settings (d : Deferred) (s : State) :
    (s.defer d).settings = s.settings := rfl

@[simp] theorem State.defer_issueNumber (d : Deferred) (s : State) :
    (s.defer d).issueNumber = s.issueNumber := rfl

@[simp] theorem State.defer_armFifo (d : Deferred) (s : State) :
    (s.defer d).armFifo = s.armFifo := rfl

@[simp] theorem State.defer_sweepPending (d : Deferred) (s : State) :
    (s.defer d).sweepPending = s.sweepPending := rfl

@[simp] theorem State.defer_job (d : Deferred) (s : State) :
    (s.defer d).job = s.job := rfl

@[simp] theorem State.defer_phase (d : Deferred) (s : State) :
    (s.defer d).phase = s.phase := rfl

@[simp] theorem State.defer_ctxs (d : Deferred) (s : State) :
    (s.defer d).ctxs = s.ctxs := rfl

@[simp] theorem State.defer_payload (d : Deferred) (s : State) :
    (s.defer d).payload = s.payload := rfl

@[simp] theorem State.defer_streams (d : Deferred) (s : State) :
    (s.defer d).streams = s.streams := rfl

@[simp] theorem State.defer_targets (d : Deferred) (s : State) :
    (s.defer d).targets = s.targets := rfl

@[simp] theorem State.defer_paths (d : Deferred) (s : State) :
    (s.defer d).paths = s.paths := rfl

@[simp] theorem State.defer_ports (d : Deferred) (s : State) :
    (s.defer d).ports = s.ports := rfl

@[simp] theorem State.defer_clock (d : Deferred) (s : State) :
    (s.defer d).clock = s.clock := rfl

@[simp] theorem State.defer_queue (d : Deferred) (s : State) :
    (s.defer d).queue = s.queue := rfl

@[simp] theorem State.defer_rewrites (d : Deferred) (s : State) :
    (s.defer d).rewrites = s.rewrites := rfl

@[simp] theorem State.defer_lastIssued (d : Deferred) (s : State) :
    (s.defer d).lastIssued = s.lastIssued := rfl

@[simp] theorem State.defer_groups (d : Deferred) (s : State) :
    (s.defer d).groups = s.groups := rfl

@[simp] theorem State.defer_idleArms (d : Deferred) (s : State) :
    (s.defer d).idleArms = s.idleArms := rfl

@[simp] theorem State.defer_coalesced (d : Deferred) (s : State) :
    (s.defer d).coalesced = s.coalesced := rfl

@[simp] theorem State.defer_holdoff (d : Deferred) (s : State) :
    (s.defer d).holdoff = s.holdoff := rfl

/-! ### Entry lookups after an entry update -/

/-- An entry of a vector after one entry is set. -/
theorem get_set {α : Type} {n : Nat} (v : Vector α n) (i j : Fin n) (x : α) :
    (v.set i.val x i.isLt).get j = if j = i then x else v.get j := by
  change (v.set i.val x i.isLt)[j.val] = if j = i then x else v[j.val]
  rw [Vector.getElem_set]
  simp only [Fin.ext_iff, eq_comm]

theorem State.ctx_setCtx (c d : CtxId) (x : Option Context) (s : State) :
    (s.setCtx c x).ctx d = if d = c then x else s.ctx d :=
  get_set s.ctxs c d x

theorem State.stream_setStream (n m : StreamId) (e : StreamEntry) (s : State) :
    (s.setStream n e).stream m = if m = n then e else s.stream m :=
  get_set s.streams n m e

theorem State.target_setTarget (t u : TargetId) (e : TargetEntry) (s : State) :
    (s.setTarget t e).target u = if u = t then e else s.target u :=
  get_set s.targets t u e

theorem State.path_setPath (p q : PathId) (r : PathRec) (s : State) :
    (s.setPath p r).path q = if q = p then r else s.path q :=
  get_set s.paths p q r

theorem State.port_setPort (i j : PortId) (r : PortRec) (s : State) :
    (s.setPort i r).port j = if j = i then r else s.port j :=
  get_set s.ports i j r

/-- An entry of a vector after a function of every entry. -/
theorem mapEntries_get {α : Type} {n : Nat} (f : α → α) (v : Vector α n) (k : Fin n) :
    (mapEntries f v).get k = f (v.get k) := by
  change (mapEntries f v)[k.val] = f v[k.val]
  simp [mapEntries]

/-- An entry of a vector after a function of the index and the entry. -/
theorem mapIndexed_get {α : Type} {n : Nat} (f : Fin n → α → α) (v : Vector α n) (k : Fin n) :
    (mapIndexed f v).get k = f k (v.get k) := by
  change (mapIndexed f v)[k.val] = f k (v.get k)
  simp [mapIndexed]

/-! ### The limits of host reads (R163) -/

@[simp] theorem State.tooLate_data (s : State) (read : HostReadId) (bytes : List Byte) :
    s.tooLate read (.data bytes) = s.readDue read := rfl

@[simp] theorem State.tooLate_failed (s : State) (read : HostReadId) (requests : List Nat) :
    s.tooLate read (.failed requests) = false := rfl

@[simp] theorem State.readDue_stream (s : State) (n : StreamId) :
    s.readDue (.stream n) = readExpired (s.stream n).read := rfl

@[simp] theorem State.readDue_target (s : State) (u : TargetId) :
    s.readDue (.target u) = readExpired (s.target u).read := rfl

@[simp] theorem State.readDue_path (s : State) (p : PathId) :
    s.readDue (.path p) = readExpired (s.path p).read := rfl

@[simp] theorem readExpired_some (r : HostRead) : readExpired (some r) = r.limit.isExpired := rfl

@[simp] theorem readExpired_none : readExpired none = false := rfl

@[simp] theorem Loading.anchorDue_anchor (q : Bool) (r : HostRead) :
    (Loading.anchor q r).anchorDue = r.limit.isExpired := rfl

@[simp] theorem Loading.tableDue_tables (entry : TableEntry) (age : Nat) (q : Bool) (c : Settings) (begun : W32)
    (got : TablesRead) : (Loading.tables q c begun age got).tableDue entry =
      ((got.get (tableIndex entry)).isNone &&
        decide (Config.tableReadBegins begun (tableIndex entry) + Config.readLimit ≤ age)) := rfl

@[simp] theorem State.readDue_table (s : State) (entry : TableEntry) :
    s.readDue (.table entry) = s.loading.any (·.tableDue entry) := rfl

/-! ### Table reads of LOADING (R168) -/

@[simp] theorem State.joinOrphans_pending (left : List Orphan) (s : State) :
    (s.joinOrphans left).pending = s.pending := rfl

@[simp] theorem State.joinOrphans_anchor (left : List Orphan) (s : State) :
    (s.joinOrphans left).anchor = s.anchor := rfl

@[simp] theorem State.joinOrphans_event (left : List Orphan) (s : State) :
    (s.joinOrphans left).event = s.event := rfl

@[simp] theorem State.joinOrphans_eventMask (left : List Orphan) (s : State) :
    (s.joinOrphans left).eventMask = s.eventMask := rfl

@[simp] theorem State.joinOrphans_interrupt (left : List Orphan) (s : State) :
    (s.joinOrphans left).interrupt = s.interrupt := rfl

@[simp] theorem State.joinOrphans_faultAddress (left : List Orphan) (s : State) :
    (s.joinOrphans left).faultAddress = s.faultAddress := rfl

@[simp] theorem State.joinOrphans_faultCount (left : List Orphan) (s : State) :
    (s.joinOrphans left).faultCount = s.faultCount := rfl

@[simp] theorem State.joinOrphans_outbound (left : List Orphan) (s : State) :
    (s.joinOrphans left).outbound = s.outbound := rfl

@[simp] theorem State.joinOrphans_adapter (left : List Orphan) (s : State) :
    (s.joinOrphans left).adapter = s.adapter := rfl

@[simp] theorem State.joinOrphans_loading (left : List Orphan) (s : State) :
    (s.joinOrphans left).loading = s.loading := rfl

@[simp] theorem State.joinOrphans_settings (left : List Orphan) (s : State) :
    (s.joinOrphans left).settings = s.settings := rfl

@[simp] theorem State.joinOrphans_issueNumber (left : List Orphan) (s : State) :
    (s.joinOrphans left).issueNumber = s.issueNumber := rfl

@[simp] theorem State.joinOrphans_armFifo (left : List Orphan) (s : State) :
    (s.joinOrphans left).armFifo = s.armFifo := rfl

@[simp] theorem State.joinOrphans_sweepPending (left : List Orphan) (s : State) :
    (s.joinOrphans left).sweepPending = s.sweepPending := rfl

@[simp] theorem State.joinOrphans_job (left : List Orphan) (s : State) :
    (s.joinOrphans left).job = s.job := rfl

@[simp] theorem State.joinOrphans_phase (left : List Orphan) (s : State) :
    (s.joinOrphans left).phase = s.phase := rfl

@[simp] theorem State.joinOrphans_ctxs (left : List Orphan) (s : State) :
    (s.joinOrphans left).ctxs = s.ctxs := rfl

@[simp] theorem State.joinOrphans_payload (left : List Orphan) (s : State) :
    (s.joinOrphans left).payload = s.payload := rfl

@[simp] theorem State.joinOrphans_streams (left : List Orphan) (s : State) :
    (s.joinOrphans left).streams = s.streams := rfl

@[simp] theorem State.joinOrphans_targets (left : List Orphan) (s : State) :
    (s.joinOrphans left).targets = s.targets := rfl

@[simp] theorem State.joinOrphans_paths (left : List Orphan) (s : State) :
    (s.joinOrphans left).paths = s.paths := rfl

@[simp] theorem State.joinOrphans_ports (left : List Orphan) (s : State) :
    (s.joinOrphans left).ports = s.ports := rfl

@[simp] theorem State.joinOrphans_clock (left : List Orphan) (s : State) :
    (s.joinOrphans left).clock = s.clock := rfl

@[simp] theorem State.joinOrphans_queue (left : List Orphan) (s : State) :
    (s.joinOrphans left).queue = s.queue := rfl

@[simp] theorem State.joinOrphans_rewrites (left : List Orphan) (s : State) :
    (s.joinOrphans left).rewrites = s.rewrites := rfl

@[simp] theorem State.joinOrphans_lastIssued (left : List Orphan) (s : State) :
    (s.joinOrphans left).lastIssued = s.lastIssued := rfl

@[simp] theorem State.joinOrphans_groups (left : List Orphan) (s : State) :
    (s.joinOrphans left).groups = s.groups := rfl

@[simp] theorem State.joinOrphans_idleArms (left : List Orphan) (s : State) :
    (s.joinOrphans left).idleArms = s.idleArms := rfl

@[simp] theorem State.joinOrphans_coalesced (left : List Orphan) (s : State) :
    (s.joinOrphans left).coalesced = s.coalesced := rfl

@[simp] theorem State.joinOrphans_holdoff (left : List Orphan) (s : State) :
    (s.joinOrphans left).holdoff = s.holdoff := rfl

@[simp] theorem State.joinOrphans_deferred (left : List Orphan) (s : State) :
    (s.joinOrphans left).deferred = s.deferred := rfl

@[simp] theorem State.joinOrphans_resets (left : List Orphan) (s : State) :
    (s.joinOrphans left).resets = s.resets := rfl

@[simp] theorem State.joinOrphans_orphans (left : List Orphan) (s : State) :
    (s.joinOrphans left).orphans = s.orphans ++ left := rfl

/-- Each table entry has a number of its own. -/
theorem tableIndex_inj {a b : TableEntry} (h : tableIndex a = tableIndex b) : a = b := by
  cases a <;> cases b <;> simp [tableIndex, Fin.ext_iff] at h ⊢ <;> omega

/-- Each of the 192 numbers is that of an entry. -/
theorem tableIndex_surj (k : Fin 192) : ∃ e, tableIndex e = k := by
  by_cases h : k.val < 64
  · exact ⟨.target ⟨k.val, h⟩, Fin.ext rfl⟩
  · exact ⟨.path ⟨k.val - 64, by omega⟩, Fin.ext (by simp [tableIndex]; omega)⟩

/-- Step 3 has ended once each entry has been read. -/
theorem allTablesRead_iff (got : TablesRead) :
    allTablesRead got = true ↔ ∀ e, (got.get (tableIndex e)).isSome = true := by
  unfold allTablesRead
  rw [List.all_eq_true]
  constructor
  · intro h e
    exact h _ (Vector.mem_toList_iff.2 (Vector.getElem_mem _))
  · intro h x hx
    obtain ⟨i, hi, rfl⟩ := Vector.mem_iff_getElem.1 (Vector.mem_toList_iff.1 hx)
    obtain ⟨e, he⟩ := tableIndex_surj ⟨i, hi⟩
    have := h e
    rw [he] at this
    exact this

/-- Ends of table reads that come together are taken one after the other. -/
theorem execLoadingTablesReadEnd_cons (e : TableReadEnd) (ends : List TableReadEnd) (s : State) :
    execLoadingTablesReadEnd (e :: ends) s = execLoadingTablesReadEnd ends (s.takeTableEnd e) := rfl

@[simp] theorem execLoadingTablesReadEnd_nil (s : State) : execLoadingTablesReadEnd [] s = .next s := rfl

end Sys2Proof.Machine
end

