-- ==== Sys2Proof/Laws/Quiet.lean ====
section
/-!
SUPPORT. `Quiet s t`: everything the inner operations of the Route Selector, the Context Store, the Health
Monitor and the Port Schedulers leave as it is, said once. It composes, so each operation has one lemma,
and an invariant of every step follows from it without unfolding the operations. `Calm` adds that no
decision was put off to the end of the step.
-/

namespace Sys2Proof.Machine

/-! ### Contexts -/

theorem ResultFlags.Kept.refl (f : ResultFlags) : f.Kept f :=
  ⟨id, id, id, id, id, id, id, id⟩

theorem ResultFlags.Kept.trans {f g h : ResultFlags} (a : f.Kept g) (b : g.Kept h) : f.Kept h :=
  ⟨b.1 ∘ a.1, b.2 ∘ a.2, b.3 ∘ a.3, b.4 ∘ a.4, b.5 ∘ a.5, b.6 ∘ a.6, b.7 ∘ a.7, b.8 ∘ a.8⟩

theorem AttemptState.later_self (a : AttemptState) : a ∈ a.later := by
  cases a <;> decide

theorem AttemptState.later_trans {a b c : AttemptState} (h : b ∈ a.later) (k : c ∈ b.later) :
    c ∈ a.later := by
  revert h k; cases a <;> cases b <;> cases c <;> decide

theorem AttemptState.later_sent {a b : AttemptState} (h : b ∈ a.later) (ha : a ≠ .queued) :
    b ≠ .queued := by
  revert h ha; cases a <;> cases b <;> decide

theorem Attempt.GoesOn.refl (a : Attempt) : a.GoesOn a :=
  ⟨rfl, rfl, rfl, rfl, rfl, rfl, a.state.later_self⟩

theorem Attempt.GoesOn.trans {a b c : Attempt} (h : a.GoesOn b) (k : b.GoesOn c) : a.GoesOn c :=
  ⟨k.1.trans h.1, k.2.trans h.2, k.3.trans h.3, k.4.trans h.4, k.5.trans h.5, k.6.trans h.6,
    AttemptState.later_trans h.7 k.7⟩

theorem Context.Kept.refl (x : Context) : x.Kept x :=
  ⟨rfl, rfl, rfl, rfl, rfl, rfl, rfl, rfl, rfl, rfl, id, .refl _, fun _ h => h,
    fun a h _ => ⟨a, h, .refl a⟩, fun _ => rfl, id⟩

theorem Context.Kept.trans {x y z : Context} (h : x.Kept y) (k : y.Kept z) : x.Kept z where
  exch := k.exch.trans h.exch
  kind := k.kind.trans h.kind
  stream := k.stream.trans h.stream
  level := k.level.trans h.level
  issue := k.issue.trans h.issue
  taken := k.taken.trans h.taken
  deadlineMs := k.deadlineMs.trans h.deadlineMs
  reqLen := k.reqLen.trans h.reqLen
  replyAddr := k.replyAddr.trans h.replyAddr
  replyCap := k.replyCap.trans h.replyCap
  abortMark := k.abortMark ∘ h.abortMark
  flags := h.flags.trans k.flags
  failed := fun p hp => k.failed p (h.failed p hp)
  attempts := fun a ha hq => by
    obtain ⟨b, hb, hab⟩ := h.attempts a ha hq
    obtain ⟨d, hd, hbd⟩ := k.attempts b hb (AttemptState.later_sent hab.state hq)
    exact ⟨d, hd, hab.trans hbd⟩
  closing := fun hx => by
    have hy := h.closing hx
    rw [hy] at k
    rw [k.closing hx]
  begun := k.begun ∘ h.begun

theorem CtxKept.refl (a : Option Context) : CtxKept a a := by
  cases a with
  | none => exact .inl ⟨rfl, rfl⟩
  | some x => exact .inr ⟨x, x, rfl, rfl, .refl x⟩

theorem CtxKept.trans {a b c : Option Context} (h : CtxKept a b) (k : CtxKept b c) : CtxKept a c := by
  rcases h with ⟨ha, hb⟩ | ⟨x, y, ha, hb, hxy⟩ <;> rcases k with ⟨kb, kc⟩ | ⟨u, v, kb, kc, huv⟩
  · exact .inl ⟨ha, kc⟩
  · rw [hb] at kb; cases kb
  · rw [hb] at kb; cases kb
  · rw [hb] at kb; cases kb; exact .inr ⟨x, v, ha, kc, hxy.trans huv⟩

/-! ### The relation -/

theorem SlotsKept.refl (s : State) : SlotsKept s s :=
  fun _ => .inl rfl

theorem SlotsKept.of_payload {s t : State} (h : t.payload = s.payload) : SlotsKept s t :=
  fun _ => .inl (by rw [h])

theorem SlotsKept.trans {s t u : State} (hc : ∀ c, CtxKept (s.ctx c) (t.ctx c))
    (kc : ∀ c, CtxKept (t.ctx c) (u.ctx c)) (h : SlotsKept s t) (k : SlotsKept t u) : SlotsKept s u := by
  intro a
  rcases k a with k | ⟨c, x, y, hx, hxc, hy, hyc, l⟩
  · rcases h a with h | ⟨c, x, y, hx, hxc, hy, hyc, l⟩
    · exact .inl (k.trans h)
    · rcases kc c with ⟨e, -⟩ | ⟨v, w, hv, hw, kept⟩
      · rw [hy] at e; cases e
      · rw [hy] at hv
        cases hv
        have e := kept.closing hyc
        exact .inr ⟨c, x, w, hx, hxc, hw, by rw [e]; exact hyc, l⟩
  · rcases hc c with ⟨-, e⟩ | ⟨v, w, hv, hw, kept⟩
    · rw [hx] at e; cases e
    · rw [hx] at hw
      cases hw
      refine .inr ⟨c, v, y, hv, fun e => hxc ?_, hy, hyc, l⟩
      rw [kept.closing e]
      exact e

/-- Everything an inner operation leaves as it is, and the laws it keeps. -/
structure Quiet (s t : State) : Prop extends OnlyWork s t where
  payload : cellsWf s.payload = true → cellsWf t.payload = true
  queueOk : s.QueueOk → t.QueueOk
  pathsOk : s.PathsOk → t.PathsOk
  portsOk : s.PortsOk → t.PortsOk
  streamsOk : s.StreamsOk → t.StreamsOk

/-- The primitive case: the fields outside contexts and the entry vectors are equal. -/
theorem Quiet.of_same {s t : State}
    (base : t = { s with ctxs := t.ctxs, streams := t.streams, targets := t.targets, paths := t.paths,
                         ports := t.ports, rewrites := t.rewrites, deferred := t.deferred })
    (queueOk : s.QueueOk → t.QueueOk) (pathsOk : s.PathsOk → t.PathsOk)
    (portsOk : s.PortsOk → t.PortsOk) (streamsOk : s.StreamsOk → t.StreamsOk)
    (ctxs : ∀ c, CtxKept (s.ctx c) (t.ctx c)) (streams : ∀ n, (s.stream n).Same (t.stream n))
    (targets : ∀ u, (s.target u).Same (t.target u)) (paths : ∀ p, (s.path p).Same (t.path p))
    (ports : ∀ i, (s.port i).Same (t.port i)) : Quiet s t where
  pending := by rw [base]
  anchor := by rw [base]
  eventMask := by rw [base]
  faultAddress := by rw [base]
  faultCount := by rw [base]
  adapter := by rw [base]
  loading := by rw [base]
  orphans := by rw [base]
  settings := by rw [base]
  issueNumber := by rw [base]
  armFifo := by rw [base]
  sweepPending := by rw [base]
  job := by rw [base]
  phase := by rw [base]
  clock := by rw [base]
  lastIssued := by rw [base]
  groups := by rw [base]
  idleArms := by rw [base]
  coalesced := by rw [base]
  holdoff := by rw [base]
  resets := by rw [base]
  event := by rw [base]; exact BitVec.and_self
  interrupt := fun h => by rw [base]; exact h
  outbound := ⟨[], by rw [base]; exact (List.append_nil _).symm, by simp⟩
  queue := ⟨[], by rw [base]; exact (List.append_nil _).symm⟩
  slots := .of_payload (by rw [base])
  payload := fun h => by rw [base]; exact h
  queueOk := queueOk
  pathsOk := pathsOk
  portsOk := portsOk
  streamsOk := streamsOk
  ctxs := ctxs
  streams := streams
  targets := targets
  paths := paths
  ports := ports

theorem Quiet.refl (s : State) : Quiet s s :=
  .of_same rfl id id id id (fun _ => .refl _) (fun _ => ⟨rfl, rfl, rfl, rfl⟩)
    (fun _ => ⟨rfl, rfl, rfl, rfl⟩) (fun _ => ⟨rfl, rfl, rfl, rfl⟩) (fun _ => ⟨rfl, rfl, rfl, rfl⟩)

theorem OnlyWork.trans {s t u : State} (h : OnlyWork s t) (k : OnlyWork t u) : OnlyWork s u where
  pending := k.pending.trans h.pending
  anchor := k.anchor.trans h.anchor
  eventMask := k.eventMask.trans h.eventMask
  faultAddress := k.faultAddress.trans h.faultAddress
  faultCount := k.faultCount.trans h.faultCount
  adapter := k.adapter.trans h.adapter
  loading := k.loading.trans h.loading
  orphans := k.orphans.trans h.orphans
  settings := k.settings.trans h.settings
  issueNumber := k.issueNumber.trans h.issueNumber
  armFifo := k.armFifo.trans h.armFifo
  sweepPending := k.sweepPending.trans h.sweepPending
  job := k.job.trans h.job
  phase := k.phase.trans h.phase
  clock := k.clock.trans h.clock
  lastIssued := k.lastIssued.trans h.lastIssued
  groups := k.groups.trans h.groups
  idleArms := k.idleArms.trans h.idleArms
  coalesced := k.coalesced.trans h.coalesced
  holdoff := k.holdoff.trans h.holdoff
  resets := k.resets.trans h.resets
  event := by
    have e := h.event
    have f := k.event
    rw [← e, BitVec.and_assoc, f]
  interrupt := k.interrupt ∘ h.interrupt
  outbound := by
    obtain ⟨l, hl, a⟩ := h.outbound
    obtain ⟨m, hm, b⟩ := k.outbound
    refine ⟨l ++ m, by rw [hm, hl, List.append_assoc], fun o ho => ?_⟩
    exact (List.mem_append.mp ho).elim (a o) (b o)
  queue := by
    obtain ⟨l, hl⟩ := h.queue
    obtain ⟨m, hm⟩ := k.queue
    exact ⟨l ++ m, by rw [hm, hl, List.append_assoc]⟩
  slots := .trans h.ctxs k.ctxs h.slots k.slots
  ctxs := fun c => (h.ctxs c).trans (k.ctxs c)
  streams := fun n =>
    have a := h.streams n
    have b := k.streams n
    ⟨b.1.trans a.1, b.2.trans a.2, b.3.trans a.3, b.4.trans a.4⟩
  targets := fun n =>
    have a := h.targets n
    have b := k.targets n
    ⟨b.1.trans a.1, b.2.trans a.2, b.3.trans a.3, b.4.trans a.4⟩
  paths := fun n =>
    have a := h.paths n
    have b := k.paths n
    ⟨b.1.trans a.1, b.2.trans a.2, b.3.trans a.3, b.4.trans a.4⟩
  ports := fun n =>
    have a := h.ports n
    have b := k.ports n
    ⟨b.1.trans a.1, b.2.trans a.2, b.3.trans a.3, b.4.trans a.4⟩

theorem Quiet.trans {s t u : State} (h : Quiet s t) (k : Quiet t u) : Quiet s u where
  toOnlyWork := h.toOnlyWork.trans k.toOnlyWork
  payload := k.payload ∘ h.payload
  queueOk := k.queueOk ∘ h.queueOk
  pathsOk := k.pathsOk ∘ h.pathsOk
  portsOk := k.portsOk ∘ h.portsOk
  streamsOk := k.streamsOk ∘ h.streamsOk

/-- An operation that leaves what `Quiet` says, and puts no decision off. -/
structure Calm (s t : State) : Prop where
  quiet : Quiet s t
  deferred : t.deferred = s.deferred

theorem Calm.refl (s : State) : Calm s s :=
  ⟨.refl s, rfl⟩

theorem Calm.trans {s t u : State} (h : Calm s t) (k : Calm t u) : Calm s u :=
  ⟨h.quiet.trans k.quiet, k.deferred.trans h.deferred⟩

theorem Quiet.foldl {α : Type} (f : State → α → State) (h : ∀ s a, Quiet s (f s a)) :
    ∀ (l : List α) (s : State), Quiet s (l.foldl f s)
  | [], s => .refl s
  | a :: l, s => (h s a).trans (Quiet.foldl f h l (f s a))

theorem Calm.foldl {α : Type} (f : State → α → State) (h : ∀ s a, Calm s (f s a)) :
    ∀ (l : List α) (s : State), Calm s (l.foldl f s)
  | [], s => .refl s
  | a :: l, s => (h s a).trans (Calm.foldl f h l (f s a))

theorem Calm.ite {s t u : State} {p : Prop} [Decidable p] (h : Calm s t) (k : Calm s u) :
    Calm s (if p then t else u) := by
  split <;> assumption

theorem Quiet.ite {s t u : State} {p : Prop} [Decidable p] (h : Quiet s t) (k : Quiet s u) :
    Quiet s (if p then t else u) := by
  split <;> assumption

/-! ### The primitive updates -/

/-- The law of the completion queue reads the queue and the contexts alone. -/
theorem State.QueueOk.congr {s t : State} (hq : t.queue = s.queue) (hc : t.ctxs = s.ctxs)
    (h : s.QueueOk) : t.QueueOk := by
  have e : ∀ c, t.ctx c = s.ctx c := fun c => by rw [State.ctx, State.ctx, hc]
  refine ⟨hq ▸ h.distinct, fun c => ?_, fun c x hx => h.fixed c x (by rw [← e]; exact hx)⟩
  rw [hq, e]
  exact h.closing c

theorem Calm.of_same {s t : State}
    (base : t = { s with ctxs := t.ctxs, streams := t.streams, targets := t.targets, paths := t.paths,
                         ports := t.ports, rewrites := t.rewrites })
    (queueOk : s.QueueOk → t.QueueOk) (pathsOk : s.PathsOk → t.PathsOk)
    (portsOk : s.PortsOk → t.PortsOk) (streamsOk : s.StreamsOk → t.StreamsOk)
    (ctxs : ∀ c, CtxKept (s.ctx c) (t.ctx c)) (streams : ∀ n, (s.stream n).Same (t.stream n))
    (targets : ∀ u, (s.target u).Same (t.target u)) (paths : ∀ p, (s.path p).Same (t.path p))
    (ports : ∀ i, (s.port i).Same (t.port i)) : Calm s t where
  quiet :=
    .of_same
      (base.trans
        (congrArg
          (fun d =>
            { s with ctxs := t.ctxs, streams := t.streams, targets := t.targets, paths := t.paths,
                     ports := t.ports, rewrites := t.rewrites, deferred := d })
          (show s.deferred = t.deferred by rw [base])))
      queueOk pathsOk portsOk streamsOk ctxs streams targets paths ports
  deferred := by rw [base]

/-- A change of a context that is not in CLOSING, which keeps what `Context.Kept` says. -/
theorem Calm.modCtx (c : CtxId) (f : Context → Context) (s : State)
    (h : ∀ x, s.ctx c = some x → x.state ≠ .closing → x.Kept (f x) ∧ (f x).state ≠ .closing) :
    Calm s (s.modCtx c f) := by
  unfold State.modCtx
  split
  · exact .refl s
  · rename_i x hx
    split
    · exact .refl s
    · rename_i hc
      obtain ⟨hk, hn⟩ := h x hx hc
      refine .of_same rfl ?_ id id id ?_ (fun _ => ⟨rfl, rfl, rfl, rfl⟩)
        (fun _ => ⟨rfl, rfl, rfl, rfl⟩) (fun _ => ⟨rfl, rfl, rfl, rfl⟩) (fun _ => ⟨rfl, rfl, rfl, rfl⟩)
      · intro q
        have eq : ∀ d y, (s.setCtx c (some (f x))).ctx d = some y → y.state = .closing →
            s.ctx d = some y := by
          intro d y hy hcl
          rw [State.ctx_setCtx] at hy
          split at hy
          · cases hy; exact absurd hcl hn
          · exact hy
        refine ⟨q.distinct, fun d => ?_, fun d y hy hcl => q.fixed d y (eq d y hy hcl) hcl⟩
        rw [State.setCtx_queue, q.closing]
        constructor
        · rintro ⟨y, hy, hcl⟩
          refine ⟨y, ?_, hcl⟩
          rw [State.ctx_setCtx]
          split
          · rename_i e; subst e; rw [hx] at hy; cases hy; exact absurd hcl hc
          · exact hy
        · rintro ⟨y, hy, hcl⟩
          exact ⟨y, eq d y hy hcl, hcl⟩
      · intro d
        rw [State.ctx_setCtx]
        split
        · rename_i e; subst e; exact .inr ⟨x, f x, hx, rfl, hk⟩
        · exact .refl _

/-- A change of a stream entry that keeps its copy and its laws. -/
theorem Calm.modStream (n : StreamId) (f : StreamEntry → StreamEntry) (s : State)
    (h : (s.stream n).Same (f (s.stream n))) (k : (s.stream n).Ok → (f (s.stream n)).Ok) :
    Calm s (s.modStream n f) := by
  refine .of_same rfl (.congr rfl rfl) id id ?_ (fun _ => .refl _) ?_
    (fun _ => ⟨rfl, rfl, rfl, rfl⟩) (fun _ => ⟨rfl, rfl, rfl, rfl⟩) (fun _ => ⟨rfl, rfl, rfl, rfl⟩)
  · intro q m
    rw [State.modStream, State.stream_setStream]
    split
    · exact k (q n)
    · exact q m
  · intro m
    rw [State.modStream, State.stream_setStream]
    split
    · rename_i e; subst e; exact h
    · exact ⟨rfl, rfl, rfl, rfl⟩

/-- A change of a target entry that keeps its copy. -/
theorem Calm.modTarget (t : TargetId) (f : TargetEntry → TargetEntry) (s : State)
    (h : (s.target t).Same (f (s.target t))) : Calm s (s.modTarget t f) := by
  refine .of_same rfl (.congr rfl rfl) id id id (fun _ => .refl _) (fun _ => ⟨rfl, rfl, rfl, rfl⟩) ?_
    (fun _ => ⟨rfl, rfl, rfl, rfl⟩) (fun _ => ⟨rfl, rfl, rfl, rfl⟩)
  intro m
  rw [State.modTarget, State.target_setTarget]
  split
  · rename_i e; subst e; exact h
  · exact ⟨rfl, rfl, rfl, rfl⟩

/-- A change of a path record that keeps its copy and its laws. -/
theorem Calm.setPath (p : PathId) (r : PathRec) (s : State)
    (h : (s.path p).Same r) (k : (s.path p).Ok → r.Ok) : Calm s (s.setPath p r) := by
  refine .of_same rfl (.congr rfl rfl) ?_ id id (fun _ => .refl _) (fun _ => ⟨rfl, rfl, rfl, rfl⟩)
    (fun _ => ⟨rfl, rfl, rfl, rfl⟩) ?_ (fun _ => ⟨rfl, rfl, rfl, rfl⟩)
  · intro q m
    rw [State.path_setPath]
    split
    · exact k (q p)
    · exact q m
  · intro m
    rw [State.path_setPath]
    split
    · rename_i e; subst e; exact h
    · exact ⟨rfl, rfl, rfl, rfl⟩

theorem Calm.modPath (p : PathId) (f : PathRec → PathRec) (s : State)
    (h : (s.path p).Same (f (s.path p))) (k : (s.path p).Ok → (f (s.path p)).Ok) :
    Calm s (s.modPath p f) :=
  .setPath p _ s h k

/-- A change of a port record that keeps its carrier filter and its laws. -/
theorem Calm.modPort (i : PortId) (f : PortRec → PortRec) (s : State)
    (h : (s.port i).Same (f (s.port i))) (k : (s.port i).Ok → (f (s.port i)).Ok) :
    Calm s (s.modPort i f) := by
  refine .of_same rfl (.congr rfl rfl) id ?_ id (fun _ => .refl _) (fun _ => ⟨rfl, rfl, rfl, rfl⟩)
    (fun _ => ⟨rfl, rfl, rfl, rfl⟩) (fun _ => ⟨rfl, rfl, rfl, rfl⟩) ?_
  · intro q m
    rw [State.modPort, State.port_setPort]
    split
    · exact k (q i)
    · exact q m
  · intro m
    rw [State.modPort, State.port_setPort]
    split
    · rename_i e; subst e; exact h
    · exact ⟨rfl, rfl, rfl, rfl⟩

/-- A part of the Digest is marked. -/
theorem Calm.mark (part : Part) (event : Bool) (s : State) : Calm s (s.mark part event) :=
  .of_same rfl (.congr rfl rfl) id id id (fun _ => .refl _) (fun _ => ⟨rfl, rfl, rfl, rfl⟩)
    (fun _ => ⟨rfl, rfl, rfl, rfl⟩) (fun _ => ⟨rfl, rfl, rfl, rfl⟩) (fun _ => ⟨rfl, rfl, rfl, rfl⟩)

/-- A raise sets its bit and re-evaluates the interrupt (R161). -/
theorem Calm.raise (e : Event) (s : State) : Calm s (s.raise e) where
  quiet := {
    Quiet.refl s with
    queueOk := .congr rfl rfl
    event := by
      rw [State.raise_event]
      ext i hi
      simp
      tauto
    interrupt := fun _ => rfl
    outbound := by
      unfold State.raise State.setEvents
      dsimp only
      split
      · exact ⟨[.interrupt], rfl, by simp⟩
      · exact ⟨[], (List.append_nil _).symm, by simp⟩
    slots := .of_payload rfl }
  deferred := rfl

/-- A decision is put off to the end of the step. -/
theorem Quiet.defer (d : Deferred) (s : State) : Quiet s (s.defer d) :=
  { Quiet.refl s with queueOk := .congr rfl rfl }

/-! ### What touches targets, paths, ports and the rewrite list alone -/

/-- An operation on targets, paths, ports and the rewrite list alone, which is `Calm`. -/
structure Still (s t : State) : Prop where
  calm : Calm s t
  same : t = { s with targets := t.targets, paths := t.paths, ports := t.ports, rewrites := t.rewrites }

theorem Still.refl (s : State) : Still s s :=
  ⟨.refl s, rfl⟩

theorem Still.trans {s t u : State} (h : Still s t) (k : Still t u) : Still s u :=
  ⟨h.calm.trans k.calm,
    k.same.trans
      (congrArg
        (fun v : State =>
          { v with targets := u.targets, paths := u.paths, ports := u.ports, rewrites := u.rewrites })
        h.same)⟩

theorem Still.foldl {α : Type} (f : State → α → State) (h : ∀ s a, Still s (f s a)) :
    ∀ (l : List α) (s : State), Still s (l.foldl f s)
  | [], s => .refl s
  | a :: l, s => (h s a).trans (Still.foldl f h l (f s a))

theorem Still.ite {s t u : State} {p : Prop} [Decidable p] (h : Still s t) (k : Still s u) :
    Still s (if p then t else u) := by
  split <;> assumption

theorem Still.ctxs {s t : State} (h : Still s t) : t.ctxs = s.ctxs := by rw [h.same]

theorem Still.ctx {s t : State} (h : Still s t) (c : CtxId) : t.ctx c = s.ctx c := by
  rw [State.ctx, State.ctx, h.ctxs]

theorem Still.queue {s t : State} (h : Still s t) : t.queue = s.queue := by rw [h.same]

theorem Still.streams {s t : State} (h : Still s t) : t.streams = s.streams := by rw [h.same]

theorem Still.stream {s t : State} (h : Still s t) (n : StreamId) : t.stream n = s.stream n := by
  rw [State.stream, State.stream, h.streams]

theorem Still.event {s t : State} (h : Still s t) : t.event = s.event := by rw [h.same]

theorem Still.outbound {s t : State} (h : Still s t) : t.outbound = s.outbound := by rw [h.same]

theorem Still.payload {s t : State} (h : Still s t) : t.payload = s.payload := by rw [h.same]

theorem Still.modTarget (t : TargetId) (f : TargetEntry → TargetEntry) (s : State)
    (h : (s.target t).Same (f (s.target t))) : Still s (s.modTarget t f) :=
  ⟨.modTarget t f s h, rfl⟩

theorem Still.setPath (p : PathId) (r : PathRec) (s : State)
    (h : (s.path p).Same r) (k : (s.path p).Ok → r.Ok) : Still s (s.setPath p r) :=
  ⟨.setPath p r s h k, rfl⟩

theorem Still.modPath (p : PathId) (f : PathRec → PathRec) (s : State)
    (h : (s.path p).Same (f (s.path p))) (k : (s.path p).Ok → (f (s.path p)).Ok) :
    Still s (s.modPath p f) :=
  ⟨.modPath p f s h k, rfl⟩

theorem Still.modPort (i : PortId) (f : PortRec → PortRec) (s : State)
    (h : (s.port i).Same (f (s.port i))) (k : (s.port i).Ok → (f (s.port i)).Ok) :
    Still s (s.modPort i f) :=
  ⟨.modPort i f s h k, rfl⟩

theorem Still.mark (part : Part) (event : Bool) (s : State) : Still s (s.mark part event) :=
  ⟨.mark part event s, rfl⟩

/-! ### The course of exchanges -/

theorem PathRec.Coursed.refl (r : PathRec) : r.Coursed r :=
  .inl rfl

theorem PathRec.Coursed.trans {a b c : PathRec} (h : a.Coursed b) (k : b.Coursed c) : a.Coursed c := by
  rcases h with h | ⟨h1, h2, h3, h4⟩ <;> rcases k with k | ⟨k1, k2, k3, k4⟩
  · exact .inl (k.trans (congrArg (fun r : PathRec => { r with inflight := c.inflight }) h))
  · refine .inr ⟨by rw [h] at k1; exact k1, by rw [h] at k2; exact k2, k3, ?_⟩
    rw [k4, h]
  · refine .inr ⟨h1, h2, by rw [k]; exact h3, ?_⟩
    rw [k, h4]
  · rw [h3] at k1; cases k1

theorem PortRec.Coursed.refl (r : PortRec) : r.Coursed r :=
  rfl

theorem PortRec.Coursed.trans {a b c : PortRec} (h : a.Coursed b) (k : b.Coursed c) : a.Coursed c := by
  unfold PortRec.Coursed at h k ⊢
  rw [k, h]

/-- `Calm`, and a path or port changed only as the course of exchanges changes it. -/
structure Course (s t : State) : Prop where
  calm : Calm s t
  paths : ∀ p, (s.path p).Coursed (t.path p)
  ports : ∀ i, (s.port i).Coursed (t.port i)

theorem Course.quiet {s t : State} (h : Course s t) : Quiet s t :=
  h.calm.quiet

theorem Course.refl (s : State) : Course s s :=
  ⟨.refl s, fun _ => .refl _, fun _ => .refl _⟩

theorem Course.trans {s t u : State} (h : Course s t) (k : Course t u) : Course s u :=
  ⟨h.calm.trans k.calm, fun p => (h.paths p).trans (k.paths p), fun i => (h.ports i).trans (k.ports i)⟩

theorem Course.foldl {α : Type} (f : State → α → State) (h : ∀ s a, Course s (f s a)) :
    ∀ (l : List α) (s : State), Course s (l.foldl f s)
  | [], s => .refl s
  | a :: l, s => (h s a).trans (Course.foldl f h l (f s a))

theorem Course.ite {s t u : State} {p : Prop} [Decidable p] (h : Course s t) (k : Course s u) :
    Course s (if p then t else u) := by
  split <;> assumption

/-- What leaves every path and port as it is. -/
theorem Calm.course {s t : State} (h : Calm s t) (hp : t.paths = s.paths) (hi : t.ports = s.ports) :
    Course s t :=
  ⟨h, fun p => by rw [State.path, State.path, hp]; exact .refl _,
    fun i => by rw [State.port, State.port, hi]; exact .refl _⟩

theorem State.modCtx_paths (c : CtxId) (f : Context → Context) (s : State) :
    (s.modCtx c f).paths = s.paths := by
  unfold State.modCtx; split
  · rfl
  · split <;> rfl

theorem State.modCtx_ports (c : CtxId) (f : Context → Context) (s : State) :
    (s.modCtx c f).ports = s.ports := by
  unfold State.modCtx; split
  · rfl
  · split <;> rfl

theorem Course.modCtx (c : CtxId) (f : Context → Context) (s : State)
    (h : ∀ x, s.ctx c = some x → x.state ≠ .closing → x.Kept (f x) ∧ (f x).state ≠ .closing) :
    Course s (s.modCtx c f) :=
  (Calm.modCtx c f s h).course (State.modCtx_paths c f s) (State.modCtx_ports c f s)

theorem Course.modStream (n : StreamId) (f : StreamEntry → StreamEntry) (s : State)
    (h : (s.stream n).Same (f (s.stream n))) (k : (s.stream n).Ok → (f (s.stream n)).Ok) :
    Course s (s.modStream n f) :=
  (Calm.modStream n f s h k).course rfl rfl

theorem Course.modTarget (t : TargetId) (f : TargetEntry → TargetEntry) (s : State)
    (h : (s.target t).Same (f (s.target t))) : Course s (s.modTarget t f) :=
  (Calm.modTarget t f s h).course rfl rfl

theorem Course.raise (e : Event) (s : State) : Course s (s.raise e) :=
  (Calm.raise e s).course rfl rfl

/-- What changes the lanes and masks of one port alone. -/
theorem Still.courseLanes {s : State} (i : PortId) (f : PortRec → PortRec)
    (h : Still s (s.modPort i f)) (k : (s.port i).Coursed (f (s.port i))) : Course s (s.modPort i f) := by
  refine ⟨h.calm, fun p => .refl _, fun j => ?_⟩
  rw [State.modPort, State.port_setPort]
  split
  · rename_i e; subst e; exact k
  · exact .refl _

end Sys2Proof.Machine
end

