-- ==== Sys2Proof/Laws/QuietLanes.lean ====
section
/-!
SUPPORT. The lanes and masks of a port (R70, R74, R78), probing (R108 to R111) and the parts of a change of
health state that touch no exchange (R104, R120, R51): each is `Still`.
-/

namespace Sys2Proof.Machine

/-! ### Lanes and masks -/

theorem PortRec.lanesEmpty_iff (r : PortRec) : r.lanesEmpty = true ↔ ∀ l : Fin 8, r.lanes.get l = [] := by
  unfold PortRec.lanesEmpty
  rw [List.all_eq_true]
  constructor
  · intro h l
    have := h (r.lanes.get l) (by
      change r.lanes[l.val] ∈ _
      exact Vector.mem_toList_iff.mpr (Vector.getElem_mem l.isLt))
    simpa using this
  · intro h x hx
    obtain ⟨k, hk, rfl⟩ := Vector.mem_iff_getElem.mp (Vector.mem_toList_iff.mp hx)
    have := h ⟨k, hk⟩
    change r.lanes[k] = [] at this
    rw [this]; rfl

/-- With some lane holding a frame, the law of the masks asks nothing. -/
theorem PortRec.Ok.of_frame {r : PortRec} (l : Fin 8) (h : r.lanes.get l ≠ [])
    (d : r.downTimes.length ≤ 8) : r.Ok :=
  ⟨fun e => absurd ((r.lanesEmpty_iff.mp e) l) h, d⟩

/-- R74: the masks stand right after the settling of masks. -/
theorem PortRec.Ok.settleMasks {r : PortRec} (d : r.downTimes.length ≤ 8) : r.settleMasks.Ok := by
  unfold PortRec.settleMasks
  split
  · refine ⟨fun _ => ⟨fun l => ?_, rfl, rfl⟩, d⟩
    change (Vector.replicate 8 false)[l.val] = false
    simp
  · rename_i h
    exact ⟨fun e => absurd e h, d⟩

/-- R74: cleared masks stand right. -/
theorem PortRec.Ok.clearMasks {r : PortRec} (d : r.downTimes.length ≤ 8) : r.clearMasks.Ok := by
  refine ⟨fun _ => ⟨fun l => ?_, rfl, rfl⟩, d⟩
  change (Vector.replicate 8 false)[l.val] = false
  simp

@[simp] theorem PortRec.settleMasks_downTimes (r : PortRec) : r.settleMasks.downTimes = r.downTimes := by
  unfold PortRec.settleMasks PortRec.clearMasks; split <;> rfl

@[simp] theorem PortRec.settleMasks_lanes (r : PortRec) : r.settleMasks.lanes = r.lanes := by
  unfold PortRec.settleMasks PortRec.clearMasks; split <;> rfl

@[simp] theorem PortRec.settleMasks_same (r : PortRec) : r.Same r.settleMasks := by
  unfold PortRec.settleMasks PortRec.clearMasks; split <;> exact ⟨rfl, rfl, rfl, rfl⟩

theorem Still.enqueue (i : PortId) (lane : Fin 8) (e : LaneEntry) (s : State) :
    Still s (s.enqueue i lane e) := by
  refine .modPort i _ s ⟨rfl, rfl, rfl, rfl⟩ fun h => .of_frame lane ?_ h.downTimes
  rw [get_set]
  simp

theorem PortRec.dropFrames_same (r : PortRec) (test : LaneEntry → Bool) : r.Same (r.dropFrames test) := by
  unfold PortRec.dropFrames
  split
  · exact ⟨rfl, rfl, rfl, rfl⟩
  · have h := PortRec.settleMasks_same
      { r with lanes := mapEntries (fun l => l.filter fun e => !test e) r.lanes }
    exact ⟨h.1, h.2, h.3, h.4⟩

theorem PortRec.dropFrames_ok (r : PortRec) (test : LaneEntry → Bool) (h : r.Ok) :
    (r.dropFrames test).Ok := by
  unfold PortRec.dropFrames
  split
  · exact h
  · exact .settleMasks h.downTimes

theorem Still.dropFrames (i : PortId) (test : LaneEntry → Bool) (s : State) :
    Still s (s.dropFrames i test) :=
  .modPort i _ s (PortRec.dropFrames_same _ _) (PortRec.dropFrames_ok _ _)

theorem Still.dropFramesEverywhere (test : LaneEntry → Bool) (s : State) :
    Still s (s.dropFramesEverywhere test) :=
  .foldl _ (fun s i => .dropFrames i test s) _ _

theorem Still.placeEcho (i : PortId) (p : PathId) (seq : W16) (sendTime : W32) (s : State) :
    Still s (s.placeEcho i p seq sendTime) := by
  unfold State.placeEcho
  split
  · rename_i h
    refine .modPort i _ s ⟨rfl, rfl, rfl, rfl⟩ fun k => .of_frame 0 ?_ k.downTimes
    have e := get_set (s.port i).lanes 0 0
      (((s.port i).lanes.get 0).map fun e => if e.isEchoOf p then .echo p seq sendTime else e)
    simp only [if_true] at e
    intro hn
    have : (((s.port i).lanes.get 0).map fun e =>
        if e.isEchoOf p then .echo p seq sendTime else e) = [] := e.symm.trans hn
    rw [List.map_eq_nil_iff] at this
    rw [this] at h
    simp at h
  · exact .enqueue ..

/-! ### Probing -/

/-- Two path records with the same copy, estimate, strikes and flap level keep the same laws. -/
theorem PathRec.Ok.congr {r q : PathRec} (h : r.Ok) (c : q.contents = r.contents) (s : q.srtt = r.srtt)
    (v : q.rttvar = r.rttvar) (n : q.samples = r.samples) (k : q.strikes ≤ 15) (f : q.flap ≤ 6) :
    q.Ok := by
  refine ⟨?_, ⟨?_, ?_, ?_⟩, k, f⟩
  · rw [c]; exact h.contents
  · rw [n]; exact h.estimate.samples
  · rw [n, s, v]; exact h.estimate.cleared
  · rw [n, s, v]; exact h.estimate.held

theorem Still.dropProbe (p : PathId) (s : State) : Still s (s.dropProbe p) := by
  unfold State.dropProbe
  split
  · exact .refl s
  · exact .dropFrames ..

theorem Still.stopProbing (p : PathId) (s : State) : Still s (s.stopProbing p) :=
  (Still.dropProbe p s).trans (.modPath p _ _ ⟨rfl, rfl, rfl, rfl⟩ fun h =>
    h.congr rfl rfl rfl rfl h.strikes h.flap)

theorem Still.loadProbeTimes (p : PathId) (s : State) : Still s (s.loadProbeTimes p) := by
  unfold State.loadProbeTimes
  exact .modPath p _ _ ⟨rfl, rfl, rfl, rfl⟩ fun h => h.congr rfl rfl rfl rfl h.strikes h.flap

theorem Still.testLastUp (p : PathId) (s : State) : Still s (s.testLastUp p) := by
  unfold State.testLastUp
  refine .modPath p _ _ ?_ fun h => ?_
  · split
    · split <;> exact ⟨rfl, rfl, rfl, rfl⟩
    · exact ⟨rfl, rfl, rfl, rfl⟩
  · split
    · split
      · exact h.congr rfl rfl rfl rfl h.strikes h.flap
      · exact h
    · exact h

theorem Still.queueProbe (p : PathId) (s : State) : Still s (s.queueProbe p) := by
  unfold State.queueProbe
  split
  · exact .refl s
  · split
    · exact .refl s
    · exact (Still.enqueue ..).trans (.modPath p _ _ ⟨rfl, rfl, rfl, rfl⟩ fun h =>
        h.congr rfl rfl rfl rfl h.strikes h.flap)

theorem Still.cycleSteps (p : PathId) (s : State) : Still s (s.cycleSteps p) := by
  unfold State.cycleSteps
  dsimp only
  refine (Still.testLastUp p s).trans (Still.trans ?_ (.modPath p _ _ ⟨rfl, rfl, rfl, rfl⟩ fun h =>
    h.congr rfl rfl rfl rfl h.strikes h.flap))
  exact .ite (.dropProbe ..) (.queueProbe ..)

theorem Still.startProbing (p : PathId) (s : State) : Still s (s.startProbing p) :=
  (Still.loadProbeTimes p s).trans (.cycleSteps p _)

theorem Still.syncProbing (p : PathId) (s : State) : Still s (s.syncProbing p) := by
  unfold State.syncProbing
  exact .ite (.ite (.startProbing p s) (.refl s)) (.stopProbing p s)

/-! ### Changes of health state that touch no exchange -/

theorem PathRec.leave_same (r : PathRec) : r.Same r.leave := by
  unfold PathRec.leave; split <;> exact ⟨rfl, rfl, rfl, rfl⟩

theorem PathRec.leave_ok {r : PathRec} (h : r.Ok) : r.leave.Ok := by
  unfold PathRec.leave
  split <;> first | exact h | exact h.congr rfl rfl rfl rfl h.strikes h.flap

theorem PathRec.enterFenced_same (r : PathRec) : r.Same r.enterFenced :=
  have h := r.leave_same
  ⟨h.1, h.2, h.3, h.4⟩

theorem PathRec.enterFenced_ok {r : PathRec} (h : r.Ok) : r.enterFenced.Ok :=
  have k := r.leave_ok h
  k.congr rfl rfl rfl rfl (Nat.zero_le _) k.flap

theorem PathRec.enterUntried_same (r : PathRec) : r.Same r.enterUntried :=
  have h := r.leave_same
  ⟨h.1, h.2, h.3, h.4⟩

theorem PathRec.enterUntried_ok {r : PathRec} (h : r.Ok) : r.enterUntried.Ok :=
  have k := r.leave_ok h
  k.congr rfl rfl rfl rfl (Nat.zero_le _) k.flap

theorem Still.recomputeReach (t : TargetId) (s : State) : Still s (s.recomputeReach t) := by
  unfold State.recomputeReach
  exact .ite (.refl s) ((Still.modTarget t _ s ⟨rfl, rfl, rfl, rfl⟩).trans (.mark ..))

theorem Still.recomputeTargets (p : PathId) (s : State) : Still s (s.recomputeTargets p) :=
  .foldl _ (fun s t => .recomputeReach t s) _ _

theorem Still.reportHealth (p : PathId) (s : State) : Still s (s.reportHealth p) :=
  (Still.modPath p _ s ⟨rfl, rfl, rfl, rfl⟩ fun h =>
    h.congr rfl rfl rfl rfl h.strikes h.flap).trans (.mark ..)

theorem Still.becomeFenced (p : PathId) (s : State) : Still s (s.becomeFenced p) :=
  (((Still.modPath p _ s (PathRec.enterFenced_same _) PathRec.enterFenced_ok).trans
    (.stopProbing p _)).trans (.recomputeTargets p _)).trans (.reportHealth p _)

theorem Still.raiseInflight (p : PathId) (s : State) : Still s (s.raiseInflight p) :=
  .modPath p _ s ⟨rfl, rfl, rfl, rfl⟩ fun h => h.congr rfl rfl rfl rfl h.strikes h.flap

theorem Still.lowerInflight (p : PathId) (s : State) : Still s (s.lowerInflight p) := by
  unfold State.lowerInflight
  dsimp only
  have h : Still s (s.setPath p { s.path p with inflight := (s.path p).inflight - 1 }) :=
    .setPath p _ s ⟨rfl, rfl, rfl, rfl⟩ fun h => h.congr rfl rfl rfl rfl h.strikes h.flap
  exact .ite (h.trans (.becomeFenced p _)) h

/-! ### The lane operations as part of the course of exchanges -/

theorem PortRec.settleMasks_coursed (r : PortRec) : r.Coursed r.settleMasks := by
  unfold PortRec.settleMasks PortRec.clearMasks; split <;> rfl

theorem Course.enqueue (i : PortId) (lane : Fin 8) (e : LaneEntry) (s : State) :
    Course s (s.enqueue i lane e) :=
  (Still.enqueue i lane e s).courseLanes i _ rfl

theorem PortRec.dropFrames_coursed (r : PortRec) (test : LaneEntry → Bool) :
    r.Coursed (r.dropFrames test) := by
  unfold PortRec.dropFrames
  split
  · rfl
  · exact PortRec.Coursed.trans (b := { r with lanes := _ }) rfl (PortRec.settleMasks_coursed _)

theorem Course.dropFrames (i : PortId) (test : LaneEntry → Bool) (s : State) :
    Course s (s.dropFrames i test) :=
  (Still.dropFrames i test s).courseLanes i _ (PortRec.dropFrames_coursed _ _)

theorem Course.dropFramesEverywhere (test : LaneEntry → Bool) (s : State) :
    Course s (s.dropFramesEverywhere test) :=
  .foldl _ (fun s i => .dropFrames i test s) _ _

theorem Course.dropProbe (p : PathId) (s : State) : Course s (s.dropProbe p) := by
  unfold State.dropProbe
  split
  · exact .refl s
  · exact .dropFrames ..

theorem State.dropProbe_paths (p : PathId) (s : State) : (s.dropProbe p).paths = s.paths := by
  unfold State.dropProbe; split <;> rfl

theorem State.recomputeReach_paths (t : TargetId) (s : State) : (s.recomputeReach t).paths = s.paths := by
  unfold State.recomputeReach; dsimp only; split <;> rfl

theorem State.recomputeReach_ports (t : TargetId) (s : State) : (s.recomputeReach t).ports = s.ports := by
  unfold State.recomputeReach; dsimp only; split <;> rfl

/-- An operation that leaves a part of the state leaves it however often it is applied. -/
theorem foldl_leaves {α β : Type} (g : State → β) (f : State → α → State) (h : ∀ s a, g (f s a) = g s) :
    ∀ (l : List α) (s : State), g (l.foldl f s) = g s
  | [], _ => rfl
  | a :: l, s => (foldl_leaves g f h l (f s a)).trans (h s a)

theorem State.recomputeTargets_paths (p : PathId) (s : State) : (s.recomputeTargets p).paths = s.paths :=
  foldl_leaves State.paths _ (fun s t => State.recomputeReach_paths t s) _ _

theorem State.recomputeTargets_ports (p : PathId) (s : State) : (s.recomputeTargets p).ports = s.ports :=
  foldl_leaves State.ports _ (fun s t => State.recomputeReach_ports t s) _ _

/-- The path records after the stopping of probing (R111). -/
theorem State.stopProbing_path (p q : PathId) (s : State) :
    (s.stopProbing p).path q =
      if q = p then { s.path p with markA := .idle, markB := .idle, outstanding := none } else s.path q := by
  unfold State.stopProbing State.modPath
  rw [State.path_setPath]
  simp only [State.path, State.dropProbe_paths]

/-- The path records after the report of a change of health (R104, step 5). -/
theorem State.reportHealth_path (p q : PathId) (s : State) :
    (s.reportHealth p).path q =
      if q = p then
        { s.path p with
          counters := { (s.path p).counters with transitions := (s.path p).counters.transitions + 1 } }
      else s.path q :=
  State.path_setPath ..

theorem State.recomputeTargets_path (p q : PathId) (s : State) :
    (s.recomputeTargets p).path q = s.path q := by
  rw [State.path, State.path, State.recomputeTargets_paths]

/-- R114: a path whose fence waited for its in-flight count enters FENCED as part of the course. -/
theorem Course.becomeFenced (p : PathId) (s : State) (h : (s.path p).health = .draining)
    (f : (s.path p).fence = true) : Course s (s.becomeFenced p) := by
  refine ⟨(Still.becomeFenced p s).calm, fun q => ?_, fun i => ?_⟩
  · unfold State.becomeFenced
    simp only [State.reportHealth_path, State.recomputeTargets_path, State.stopProbing_path]
    unfold State.modPath
    rw [State.path_setPath]
    by_cases e : q = p
    · subst e
      simp only [if_true, State.path_setPath]
      exact .inr ⟨h, f, rfl, by unfold PathRec.enterFenced PathRec.leave; rw [h]⟩
    · simp only [if_neg e, State.path_setPath]
      exact .refl _
  · unfold State.becomeFenced
    dsimp only
    have e : ∀ t : State, (t.reportHealth p).port i = t.port i := fun _ => rfl
    rw [e, State.port, State.port, State.recomputeTargets_ports]
    have k := (Course.dropProbe p (s.modPath p (·.enterFenced))).ports i
    exact k

theorem Course.lowerInflight (p : PathId) (s : State) : Course s (s.lowerInflight p) := by
  unfold State.lowerInflight
  dsimp only
  have h : Course s (s.setPath p { s.path p with inflight := (s.path p).inflight - 1 }) := by
    refine ⟨.setPath p _ s ⟨rfl, rfl, rfl, rfl⟩ fun h => h.congr rfl rfl rfl rfl h.strikes h.flap,
      fun q => ?_, fun _ => .refl _⟩
    rw [State.path_setPath]
    split
    · rename_i e; subst e; exact .inl rfl
    · exact .refl _
  split
  · rename_i k
    refine h.trans (.becomeFenced p _ ?_ ?_)
    · rw [State.path_setPath, if_pos rfl]; exact k.2.1
    · rw [State.path_setPath, if_pos rfl]; exact k.2.2
  · exact h

end Sys2Proof.Machine
end

