-- ==== Sys2Proof/Laws/QuietCourse.lean ====
section
/-!
SUPPORT. The Route Selector and the course of an exchange (R53 to R60, R22, R41, R124 to R142): each of their
operations is a `Course`, the taking of the decisions put off to the end of a step leaves none, and losses and
withdrawals are `Quiet`.
-/

namespace Sys2Proof.Machine

/-! ### Contexts kept -/

/-- Transmitted attempts go on from one list to another (R20). -/
def AttemptsGo (as bs : List Attempt) : Prop :=
  ∀ a ∈ as, a.state ≠ .queued → ∃ b ∈ bs, a.GoesOn b

theorem AttemptsGo.refl (as : List Attempt) : AttemptsGo as as :=
  fun a h _ => ⟨a, h, .refl a⟩

theorem AttemptsGo.append (as bs : List Attempt) : AttemptsGo as (as ++ bs) :=
  fun a h _ => ⟨a, List.mem_append_left _ h, .refl a⟩

theorem AttemptsGo.move (x : Context) (id : Nat) (before : AttemptState) (f : Attempt → Attempt)
    (h : before ≠ .queued → ∀ a : Attempt, a.state = before → a.GoesOn (f a)) :
    AttemptsGo x.attempts (x.moveAttempt id before f).attempts := by
  intro a ha hq
  refine ⟨_, List.mem_map_of_mem ha, ?_⟩
  split
  · rename_i k
    exact h (k.2 ▸ hq) a k.2
  · exact .refl a

theorem AttemptsGo.withdraw (x : Context) (id : Nat) : AttemptsGo x.attempts (x.withdraw id).attempts := by
  intro a ha hq
  have hm : a ∈ x.attempts.filter fun b => !(b.id == id && b.state == .queued) :=
    List.mem_filter.mpr ⟨ha, by simp [hq]⟩
  refine ⟨_, List.mem_map_of_mem hm, ?_⟩
  split
  · exact ⟨rfl, rfl, rfl, rfl, rfl, rfl, a.state.later_self⟩
  · exact .refl a

theorem AttemptsGo.close (x : Context) (r : Result) : AttemptsGo x.attempts (x.close r).attempts := by
  intro a ha hq
  have hm : a ∈ x.attempts.filter fun a => a.state != .queued :=
    List.mem_filter.mpr ⟨ha, by simp [hq]⟩
  refine ⟨_, List.mem_map_of_mem hm, ?_⟩
  split
  · rename_i e
    exact ⟨rfl, rfl, rfl, rfl, rfl, rfl, by rw [e]; simp [AttemptState.later]⟩
  · exact .refl a

/-- A context keeps what `Context.Kept` says when an event changes only what its course changes. -/
theorem Context.Kept.of {x y : Context} (hc : x.state ≠ .closing)
    (e : y = { x with
      state := y.state, abortMark := y.abortMark, attempts := y.attempts, inquiry := y.inquiry,
      parked := y.parked, failed := y.failed, flags := y.flags, lastOutcome := y.lastOutcome,
      reply0 := y.reply0, serves0 := y.serves0, reply1 := y.reply1, serves1 := y.serves1,
      inquiryTimer := y.inquiryTimer, deadlineTimer := y.deadlineTimer, waitTimer := y.waitTimer,
      timeouts := y.timeouts, nextId := y.nextId, lastGen := y.lastGen, result := y.result })
    (abort : x.abortMark = true → y.abortMark = true) (flags : x.flags.Kept y.flags)
    (failed : ∀ p ∈ x.failed, p ∈ y.failed) (attempts : AttemptsGo x.attempts y.attempts)
    (begun : x.state ≠ .fetching → y.state ≠ .fetching := by first | exact fun h => h | simp) : x.Kept y where
  exch := by rw [e]
  kind := by rw [e]
  stream := by rw [e]
  level := by rw [e]
  issue := by rw [e]
  taken := by rw [e]
  deadlineMs := by rw [e]
  reqLen := by rw [e]
  replyAddr := by rw [e]
  replyCap := by rw [e]
  abortMark := abort
  flags := flags
  failed := failed
  attempts := attempts
  closing := fun h => absurd h hc
  begun := begun

theorem Context.fail_failed (x : Context) (p : PathId) : ∀ q ∈ x.failed, q ∈ (x.fail p).failed := by
  intro q hq
  unfold Context.fail
  split
  · exact hq
  · exact List.mem_append_left _ hq

theorem Context.fail_same (x : Context) (p : PathId) : x.fail p = { x with failed := (x.fail p).failed } := by
  unfold Context.fail; split <;> rfl

/-- R22, R26, R154: closing keeps the context. -/
theorem Context.Kept.close {x : Context} (hc : x.state ≠ .closing) (done : W32) (f : Finish) :
    x.Kept (x.close (x.resultOf done f)) := by
  refine .of hc rfl id ?_ (fun _ h => h) (.close x _) (fun _ h => by cases h)
  constructor <;> intro h <;> simp [Context.close, Context.resultOf, h]

/-! ### Placement and parking -/

theorem Still.joinPark (c : CtxId) (t : TargetId) (s : State) : Still s (s.joinPark c t) := by
  refine .modTarget t _ s ?_
  split <;> exact ⟨rfl, rfl, rfl, rfl⟩

theorem Still.leavePark (c : CtxId) (s : State) : Still s (s.leavePark c) :=
  .foldl _ (fun s t => .ite (.modTarget t _ s ⟨rfl, rfl, rfl, rfl⟩) (.refl s)) _ _

theorem Course.joinPark (c : CtxId) (t : TargetId) (s : State) : Course s (s.joinPark c t) :=
  (Still.joinPark c t s).calm.course rfl rfl

theorem Course.leavePark (c : CtxId) (s : State) : Course s (s.leavePark c) :=
  .foldl _ (fun s t => .ite (.modTarget t _ s ⟨rfl, rfl, rfl, rfl⟩) (.refl s)) _ _

theorem Course.placeAttempt (c : CtxId) (x : Context) (gen : Nat) (redrive : Bool) (pick : Choice)
    (twin : Option Nat) (s : State) (hx : s.ctx c = some x) :
    Course s (s.placeAttempt c x gen redrive pick twin) := by
  unfold State.placeAttempt
  refine (Course.modCtx c _ s fun y hy hc => ?_).trans (.enqueue ..)
  rw [hx] at hy
  cases hy
  refine ⟨.of hc rfl id ?_ (fun _ h => h) (.append _ _), by simp⟩
  exact ⟨id, id, id, fun h => by simp [h], id, id, id, id⟩

theorem Course.parkAttempt (c : CtxId) (x : Context) (q : ParkedRequest) (s : State) :
    Course s (s.parkAttempt c x q) := by
  unfold State.parkAttempt
  refine (Course.modCtx c _ s fun y _ hc => ?_).trans (.joinPark ..)
  exact ⟨.of hc rfl id (.refl _) (fun _ h => h) (.refl _), by simp⟩

theorem Course.placeTwin (c : CtxId) (q : ParkedRequest) (p : PathId) (first : Nat) (s : State) :
    Course s (s.placeTwin c q p first) := by
  unfold State.placeTwin
  split
  · exact .refl s
  · rename_i x hx
    exact .placeAttempt _ _ _ _ _ _ _ hx

/-- R53 to R59. -/
theorem Course.offerAttempt (c : CtxId) (q : ParkedRequest) (s : State) : Course s (s.offerAttempt c q) := by
  unfold State.offerAttempt
  split
  · exact .refl s
  · rename_i x hx
    refine .ite (.refl s) ?_
    split
    · exact .parkAttempt ..
    · dsimp only
      split
      · exact .placeAttempt _ _ _ _ _ _ _ hx
      · exact (Course.placeAttempt _ _ _ _ _ _ _ hx).trans (.placeTwin ..)

theorem Course.offerInquiry (c : CtxId) (s : State) : Course s (s.offerInquiry c) := by
  unfold State.offerInquiry
  split
  · exact .refl s
  · rename_i x hx
    split
    · exact .refl s
    · refine .ite (.refl s) ?_
      split
      · unfold State.parkInquiry
        refine (Course.modCtx c _ s fun y _ hc => ?_).trans (.joinPark ..)
        exact ⟨.of hc rfl id (.refl _) (fun _ h => h) (.refl _), hc⟩
      · unfold State.placeInquiry
        refine (Course.modCtx c _ s fun y _ hc => ?_).trans (.enqueue ..)
        exact ⟨.of hc rfl id ⟨id, id, id, fun h => by simp [h], id, id, id, id⟩ (fun _ h => h) (.refl _),
          hc⟩

/-! ### Completion hand-over and dispatch -/

/-- R42: a dispatch decision keeps the stream's laws. -/
theorem StreamEntry.Ok.dispatch {s : State} {n : StreamId} {rest : List CtxId}
    (h : s.dispatchReady n = true) (k : (s.stream n).Ok) :
    ({ s.stream n with
      pendingList := rest
      inflight := (s.stream n).inflight + 1
      mode := (s.streamDesc n).mode } : StreamEntry).Ok := by
  unfold State.dispatchReady at h
  simp only [Bool.and_eq_true, decide_eq_true_eq] at h
  have hl := h.2
  unfold StreamEntry.limit at hl
  split at hl
  · exact absurd hl (Nat.not_lt_zero _)
  · rename_i d hd
    refine ⟨k.contents, k.unread, fun e => ?_, fun e => ?_, fun e d' hd' => ?_⟩
    · rw [show (s.stream n).contents = none from e] at hd; cases hd
    · have e : d.mode = .ordered := by
        have e' : (s.streamDesc n).mode = .ordered := e
        rw [State.streamDesc, hd] at e'
        exact e'
      rw [if_pos (.inr e)] at hl
      show (s.stream n).inflight + 1 ≤ 1
      omega
    · have e' : (s.streamDesc n).mode = .ordered := e
      rw [State.streamDesc, show (s.stream n).contents = some d' from hd'] at e'
      exact e'

theorem Course.dispatchOne (n : StreamId) (s : State) (h : s.dispatchReady n = true) :
    Course s (s.dispatchOne n) := by
  unfold State.dispatchOne
  dsimp only
  split
  · exact .refl s
  · rename_i c rest _
    refine Course.trans (t := s.setStream n { s.stream n with
      pendingList := rest
      inflight := (s.stream n).inflight + 1
      mode := (s.streamDesc n).mode }) ?_ (.offerAttempt ..)
    exact .modStream n (fun e => { e with
      pendingList := rest
      inflight := e.inflight + 1
      mode := (s.streamDesc n).mode }) s ⟨rfl, rfl, rfl, rfl⟩ (.dispatch h)

theorem Course.dispatchUpTo (n : StreamId) (k : Nat) (s : State) : Course s (State.dispatchUpTo n k s) := by
  induction k generalizing s with
  | zero => exact .refl s
  | succ k ih =>
    unfold State.dispatchUpTo
    split
    · rename_i h
      exact (Course.dispatchOne n s h).trans (ih _)
    · exact .refl s

/-- R41. -/
theorem Course.dispatch (n : StreamId) (s : State) : Course s (s.dispatch n) :=
  .dispatchUpTo ..

theorem Course.streamCompletion (n : StreamId) (status : Status) (s : State) :
    Course s (s.streamCompletion n status) := by
  unfold State.streamCompletion
  dsimp only
  have h1 : Course s (s.setStream n { s.stream n with inflight := (s.stream n).inflight - 1 }) :=
    .modStream n (fun e => { e with inflight := e.inflight - 1 }) s ⟨rfl, rfl, rfl, rfl⟩ fun k =>
      ⟨k.contents, k.unread, fun e => by have := k.empty e; show _ - 1 = 0; omega,
        fun e => by have := k.oneAtATime e; show _ - 1 ≤ 1; omega, k.inForce⟩
  refine Course.trans (h1.trans (.ite (.trans ?_ (.raise ..)) (.refl _))) (.dispatch ..)
  exact .modStream n _ _ ⟨rfl, rfl, rfl, rfl⟩ fun k => ⟨k.1, k.2, k.3, k.4, k.5⟩

theorem Course.leaveStream (c : CtxId) (x : Context) (status : Status) (s : State) :
    Course s (s.leaveStream c x status) := by
  unfold State.leaveStream
  split <;> first
    | exact .refl s
    | exact .streamCompletion ..
    | exact .modStream _ _ s ⟨rfl, rfl, rfl, rfl⟩ fun k => ⟨k.1, k.2, k.3, k.4, k.5⟩

/-- R94: the payload of the completing answer changes the context's slot alone. -/
theorem State.keepPayload_spec (c : CtxId) (f : Finish) (s : State) :
    ∃ m, s.keepPayload c f = { s with payload := m } ∧
      (cellsWf s.payload = true → cellsWf m = true) ∧
      ∀ a, a < slotBase c ∨ slotBase c + Config.slotBytes ≤ a → readCell a m = readCell a s.payload := by
  unfold State.keepPayload
  split
  · exact ⟨s.payload, rfl, id, fun _ _ => rfl⟩
  · split
    · exact ⟨s.payload, rfl, id, fun _ _ => rfl⟩
    · rename_i bytes _
      exact ⟨_, rfl, State.fillSlot_wf c bytes s, State.fillSlot_outside c bytes s⟩

/-- A context enters CLOSING with its slot filled, what it held elsewhere is let go, and it joins the
completion queue (R22, R94, R154). -/
theorem Course.closeCtx {s t : State} {c : CtxId} {x y : Context} {m : List Host.Cell}
    (hx : s.ctx c = some x) (hc : x.state ≠ .closing) (hy : y.state = .closing)
    (hr : y.result.isSome = true) (hk : x.Kept y) (wf : cellsWf s.payload = true → cellsWf m = true)
    (out : ∀ a, a < slotBase c ∨ slotBase c + Config.slotBytes ≤ a → readCell a m = readCell a s.payload)
    (still : Still (State.setCtx c (some y) { s with payload := m }) t)
    (paths : ∀ p, (s.path p).Coursed (t.path p)) (ports : ∀ i, (s.port i).Coursed (t.port i)) :
    Course s { t with queue := t.queue ++ [c] } := by
  have hctx : ∀ d, ({ t with queue := t.queue ++ [c] } : State).ctx d = if d = c then some y else s.ctx d := by
    intro d
    have e := State.ctx_setCtx c d (some y) { s with payload := m }
    exact (still.ctx d).trans e
  have hqueue : t.queue = s.queue := still.queue
  have hpay : t.payload = m := still.payload
  have q := still.calm.quiet
  refine ⟨⟨{ q with
    queue := ?_
    queueOk := fun k => ?_
    ctxs := fun d => ?_
    slots := fun a => ?_
    payload := fun k => ?_ }, still.calm.deferred⟩, paths, ports⟩
  · exact ⟨[c], by rw [hqueue]⟩
  · rw [show ({ t with queue := t.queue ++ [c] } : State).payload = m from hpay]
    by_cases l : slotBase c ≤ a ∧ a < slotBase c + Config.slotBytes
    · exact .inr ⟨c, x, y, hx, hc, (hctx c).trans (if_pos rfl), hy, l⟩
    · exact .inl (out a (by omega))
  · rw [hctx]
    split
    · rename_i e
      subst e
      exact .inr ⟨x, y, hx, rfl, hk⟩
    · exact .refl _
  · rw [show ({ t with queue := t.queue ++ [c] } : State).payload = m from hpay]
    exact wf k
  · have fresh : c ∉ s.queue := fun hm => by
      obtain ⟨z, hz, hzc⟩ := (k.closing c).mp hm
      rw [hx] at hz
      cases hz
      exact hc hzc
    refine ⟨?_, fun d => ?_, fun d z hz hzc => ?_⟩
    · show (t.queue ++ [c]).Nodup
      rw [hqueue, List.nodup_append]
      refine ⟨k.distinct, List.nodup_singleton c, fun a ha b hb => ?_⟩
      rw [List.mem_singleton.mp hb]
      rintro rfl
      exact fresh ha
    · show d ∈ t.queue ++ [c] ↔ _
      rw [hctx, hqueue, List.mem_append, List.mem_singleton, k.closing d]
      split
      · rename_i e
        subst e
        exact ⟨fun _ => ⟨y, rfl, hy⟩, fun _ => .inr rfl⟩
      · rename_i e
        exact ⟨fun h => h.elim id fun h => absurd h e, .inl⟩
    · rw [hctx] at hz
      split at hz
      · cases hz; exact hr
      · exact k.fixed d z hz hzc

/-- R22, R154. -/
theorem Course.complete (c : CtxId) (f : Finish) (s : State) : Course s (s.complete c f) := by
  unfold State.complete
  split
  · exact .refl s
  · rename_i x hx
    split
    · exact .refl s
    · rename_i hc
      dsimp only
      obtain ⟨m, hm, wf, out⟩ := State.keepPayload_spec c f s
      rw [hm]
      refine Course.trans ?_ (.leaveStream ..)
      have go := ((Course.dropFramesEverywhere (·.ofCtx c)
        (State.setCtx c (some (x.close (x.resultOf s.clock f))) { s with payload := m })).trans
          (.foldl (fun s p => State.lowerInflight p s) (fun s p => .lowerInflight p s) x.sentPaths _)).trans
            (.leavePark c _)
      refine .closeCtx (m := m) hx hc rfl rfl (.close hc _ f) wf out
        (((Still.dropFramesEverywhere _ _).trans (.foldl _ (fun s p => .lowerInflight p s) _ _)).trans
          (.leavePark c _)) go.paths go.ports

/-! ### Requests -/

theorem Course.requestAttempt (c : CtxId) (q : ParkedRequest) (noRoom : Finish) (s : State) :
    Course s (s.requestAttempt c q noRoom) := by
  unfold State.requestAttempt
  split
  · exact .refl s
  · exact .ite (.offerAttempt ..) (.complete ..)

theorem Course.requestInquiry (c : CtxId) (s : State) : Course s (s.requestInquiry c) := by
  unfold State.requestInquiry
  split
  · exact .refl s
  · split
    · exact .refl s
    · exact .ite (.complete ..) (.offerInquiry ..)

theorem Course.enterResolving (c : CtxId) (gen : Nat) (s : State) : Course s (s.enterResolving c gen) := by
  unfold State.enterResolving
  refine (Course.modCtx c _ s fun y _ hc => ?_).trans (.requestInquiry ..)
  exact ⟨.of hc rfl id (.refl _) (fun _ h => h) (.refl _), by simp⟩

/-! ### Park lists -/

theorem Course.offerParked (c : CtxId) (s : State) : Course s (s.offerParked c) := by
  unfold State.offerParked
  split
  · exact .refl s
  · refine .ite (.requestInquiry ..) (.ite ?_ (.refl s))
    split
    · exact .refl s
    · exact .requestAttempt ..

theorem Course.releaseTarget (t : TargetId) (s : State) : Course s (s.releaseTarget t) := by
  unfold State.releaseTarget
  exact (Course.modTarget t _ s ⟨rfl, rfl, rfl, rfl⟩).trans
    (.foldl (fun s c => State.offerParked c s) (fun s c => .offerParked c s) _ _)

theorem Course.releaseFor (p : PathId) (s : State) : Course s (s.releaseFor p) :=
  .foldl _ (fun s t => .releaseTarget t s) _ _

/-! ### The open inquiry and the courses -/

theorem Course.endInquiry (c : CtxId) (s : State) : Course s (s.endInquiry c) := by
  unfold State.endInquiry
  split
  · exact .refl s
  · split
    · exact .refl s
    · rename_i q _
      dsimp only
      have h := (Course.modCtx c (fun x =>
        { x with
          inquiry := some { q with path := none, state := none }
          inquiryTimer := .idle
          waitTimer := .idle }) s fun y _ hc =>
            ⟨.of hc rfl id (.refl _) (fun _ h => h) (.refl _), hc⟩).trans
        ((Course.dropFramesEverywhere (·.isInquiryOf c) _).trans (.leavePark c _))
      exact .ite (h.trans (.foldl (fun s p => State.lowerInflight p s) (fun s p => .lowerInflight p s) _ _)) h

theorem Course.courseQueryLost (c : CtxId) (s : State) : Course s (s.courseQueryLost c) := by
  unfold State.courseQueryLost
  split
  · exact .refl s
  · exact .ite (.refl s) (.requestAttempt ..)

theorem Course.courseLost (c : CtxId) (id : Nat) (s : State) : Course s (s.courseLost c id) := by
  unfold State.courseLost
  split
  · exact .refl s
  · refine .ite (.refl s) ?_
    split
    · exact .courseQueryLost ..
    · split
      · exact .refl s
      · exact .enterResolving ..

theorem Course.courseBusy (c : CtxId) (answer : Answer) (s : State) : Course s (s.courseBusy c answer) := by
  unfold State.courseBusy
  split
  · exact .refl s
  · refine .ite (.refl s) (.ite (.modCtx c _ s fun y _ hc => ?_) (.complete ..))
    exact ⟨.of hc rfl id (.refl _) (fun _ h => h) (.refl _), by simp⟩

theorem Course.takeBar (c : CtxId) (answer : Answer) (s : State) : Course s (s.takeBar c answer) := by
  unfold State.takeBar
  dsimp only
  refine (Course.endInquiry c s).trans ?_
  split
  · exact .refl _
  · exact .ite (.complete ..) (.requestAttempt ..)

theorem Course.courseQueryReply (c : CtxId) (outcome : RemoteOutcome) (late : Bool) (answer : Answer)
    (s : State) : Course s (s.courseQueryReply c outcome late answer) := by
  unfold State.courseQueryReply
  split <;> first | exact .refl s | exact .complete .. | exact .courseBusy ..

theorem Course.courseCommitReply (c : CtxId) (outcome : RemoteOutcome) (late marked : Bool)
    (answer : Answer) (s : State) : Course s (s.courseCommitReply c outcome late marked answer) := by
  unfold State.courseCommitReply
  split <;> first
    | exact .refl s
    | exact .complete ..
    | exact .takeBar ..
    | exact .ite (.complete ..) (.courseBusy ..)

/-! ### The decisions after a whole step -/

theorem Course.takeDeferred (d : Deferred) (s : State) : Course s (s.takeDeferred d) := by
  unfold State.takeDeferred
  split
  · exact .courseLost ..
  · split
    · exact .refl s
    · exact .ite (.requestInquiry ..) (.refl s)
  · split
    · exact .refl s
    · exact .ite (.requestAttempt ..) (.refl s)
  · split
    · exact .refl s
    · exact .ite (.requestInquiry ..) (.refl s)

/-- The decisions put off are taken, and none is left. -/
theorem Course.settle (s : State) : Course { s with deferred := [] } s.settle :=
  .foldl (fun s d => State.takeDeferred d s) (fun s d => .takeDeferred d s) _ _

theorem State.settle_spec (s : State) : Quiet s s.settle ∧ s.settle.deferred = [] := by
  have h := (Course.settle s).calm
  exact ⟨{ h.quiet with queueOk := fun k => h.quiet.queueOk (State.QueueOk.congr (s := s) rfl rfl k) },
    h.deferred⟩

/-- A whole command: `Quiet`, and with no decision left waiting when none waited. -/
structure Whole (s t : State) : Prop where
  quiet : Quiet s t
  settled : s.deferred = [] → t.deferred = []

theorem Whole.refl (s : State) : Whole s s :=
  ⟨.refl s, id⟩

theorem Whole.trans {s t u : State} (h : Whole s t) (k : Whole t u) : Whole s u :=
  ⟨h.quiet.trans k.quiet, k.settled ∘ h.settled⟩

theorem Calm.whole {s t : State} (h : Calm s t) : Whole s t :=
  ⟨h.quiet, fun e => h.deferred.trans e⟩

theorem Course.whole {s t : State} (h : Course s t) : Whole s t :=
  h.calm.whole

theorem Still.whole {s t : State} (h : Still s t) : Whole s t :=
  h.calm.whole

theorem Quiet.settle {s t : State} (h : Quiet s t) : Whole s t.settle :=
  ⟨h.trans t.settle_spec.1, fun _ => t.settle_spec.2⟩

theorem Whole.ite {s t u : State} {p : Prop} [Decidable p] (h : Whole s t) (k : Whole s u) :
    Whole s (if p then t else u) := by
  split <;> assumption

theorem Whole.foldl {α : Type} (f : State → α → State) (h : ∀ s a, Whole s (f s a)) :
    ∀ (l : List α) (s : State), Whole s (l.foldl f s)
  | [], s => .refl s
  | a :: l, s => (h s a).trans (Whole.foldl f h l (f s a))

/-! ### Losses and withdrawals -/

theorem Quiet.loseAttempt (c : CtxId) (a : Attempt) (s : State) : Quiet s (s.loseAttempt c a) := by
  unfold State.loseAttempt
  dsimp only
  refine ((Calm.modCtx c _ s fun y _ hc => ?_).trans (Still.lowerInflight ..).calm).quiet.trans (.defer ..)
  have e := ((y.moveAttempt a.id .sent fun b => { b with state := .lost }).cancelReply a.id).fail_same a.path
  have hf := ((y.moveAttempt a.id .sent fun b => { b with state := .lost }).cancelReply a.id).fail_failed
    a.path
  refine ⟨.of hc ?_ ?_ ?_ hf ?_ ?_, ?_⟩
  · rw [e]; rfl
  · rw [e]; exact id
  · rw [e]; exact .refl _
  · rw [e]
    exact .move y a.id .sent _ fun _ b hb => ⟨rfl, rfl, rfl, rfl, rfl, rfl, by rw [hb]; simp [AttemptState.later]⟩
  · rw [e]; exact fun h => h
  · rw [e]; exact hc

theorem Quiet.loseInquiry (c : CtxId) (p : PathId) (s : State) : Quiet s (s.loseInquiry c p) := by
  unfold State.loseInquiry
  dsimp only
  refine ((Calm.modCtx c _ s fun y _ hc => ?_).trans (Still.lowerInflight ..).calm).quiet.trans (.defer ..)
  have e := y.fail_same p
  have hf := y.fail_failed p
  refine ⟨.of hc ?_ ?_ ?_ hf ?_ ?_, ?_⟩
  · rw [e]
  · rw [e]; exact id
  · rw [e]; exact .refl _
  · rw [e]; exact .refl _
  · rw [e]; exact fun h => h
  · rw [e]; exact hc

theorem Quiet.loseWork (p : PathId) (c : CtxId) (s : State) : Quiet s (s.loseWork p c) := by
  unfold State.loseWork
  split
  · exact .refl s
  · dsimp only
    rename_i x _
    have h := Quiet.foldl (fun s a => State.loseAttempt c a s) (fun s a => .loseAttempt c a s)
      (x.attempts.filter fun a => a.isSent && a.path == p) s
    split
    · exact h
    · exact .ite (h.trans (.loseInquiry ..)) h

theorem Quiet.loseSent (p : PathId) (s : State) : Quiet s (s.loseSent p) :=
  .foldl _ (fun s c => .loseWork p c s) _ _

theorem Quiet.withdrawAttempt (c : CtxId) (id : Nat) (s : State) : Quiet s (s.withdrawAttempt c id) := by
  unfold State.withdrawAttempt
  split
  · exact .refl s
  · split
    · exact .refl s
    · refine .ite ?_ (.refl s)
      have h := Calm.modCtx c (fun x => x.withdraw id) s fun y _ hc =>
        ⟨.of hc rfl (fun h => h) (.refl _) (fun _ h => h) (.withdraw y id), hc⟩
      exact .ite h.quiet (h.quiet.trans (.defer ..))

theorem Quiet.withdrawInquiry (c : CtxId) (s : State) : Quiet s (s.withdrawInquiry c) := by
  unfold State.withdrawInquiry
  refine (Calm.modCtx c _ s fun y _ hc => ?_).quiet.trans (.defer ..)
  exact ⟨.of hc rfl id (.refl _) (fun _ h => h) (.refl _), hc⟩

theorem Quiet.withdrawFrame (s : State) (e : LaneEntry) : Quiet s (s.withdrawFrame e) := by
  unfold State.withdrawFrame
  split <;> first | exact .refl s | exact .withdrawAttempt .. | exact .withdrawInquiry ..

theorem Quiet.withdrawWhere (i : PortId) (test : LaneEntry → Bool) (s : State) :
    Quiet s (s.withdrawWhere i test) :=
  (Still.dropFrames i test s).calm.quiet.trans (.foldl _ (fun s e => .withdrawFrame s e) _ _)

theorem Quiet.withdrawPath (p : PathId) (s : State) : Quiet s (s.withdrawPath p) := by
  unfold State.withdrawPath
  split
  · exact .refl s
  · exact .withdrawWhere ..

end Sys2Proof.Machine
end

