-- ==== Sys2Proof/Laws/Ranges.lean ====
section
/-!
SUPPORT. The interpretations of descriptors and of the Anchor give values in the ranges of R28 to R30 and
R167, and the estimator keeps the ranges of R47.
-/

namespace Sys2Proof.Machine

theorem clampTo_range {lo hi : Nat} (v : Nat) (h : lo ≤ hi) : lo ≤ clampTo lo hi v ∧ clampTo lo hi v ≤ hi := by
  unfold clampTo; omega

theorem clampOr_range {d lo hi : Nat} (v : Nat) (h : lo ≤ d) (k : d ≤ hi) :
    lo ≤ clampOr d lo hi v ∧ clampOr d lo hi v ≤ hi := by
  unfold clampOr clampTo; split <;> omega

theorem finTo_val (n v : Nat) : (finTo n v).val = min n v := rfl

/-- R28. -/
theorem StreamDesc.InRange.interpreted (bs : List Byte) : (Sys2Proof.Machine.streamDesc bs).InRange := by
  have a := clampOr_range (d := 2000) (lo := 500) (hi := 1000000) (leAt bs 0x08 4) (by decide) (by decide)
  have b := clampOr_range (d := 200000) (lo := 1000) (hi := 10000000) (leAt bs 0x0C 4) (by decide) (by decide)
  refine ⟨Nat.min_le_left _ _, clampTo_range _ (by decide), ?_, clampOr_range _ (by decide) (by decide),
    clampOr_range _ (by decide) (by decide), a, ?_, ?_, clampOr_range _ (by decide) (by decide),
    clampOr_range _ (by decide) (by decide)⟩
  · show 2 ≤ min 7 (max 2 _)
    omega
  · show 1000 ≤ max _ _ ∧ max _ _ ≤ 10000000
    omega
  · exact Nat.le_max_left _ _

theorem pathListOf_nodup (entries : List Nat) : (pathListOf entries).Nodup := by
  unfold pathListOf
  suffices h : ∀ (l : List Nat) (kept : List PathId), kept.Nodup →
      (l.foldl (fun kept v =>
        if h : v < 128 then if (⟨v, h⟩ : PathId) ∈ kept then kept else kept ++ [⟨v, h⟩] else kept)
          kept).Nodup from h _ _ List.nodup_nil
  intro l
  induction l with
  | nil => exact fun _ h => h
  | cons v rest ih =>
    intro kept h
    refine ih _ ?_
    dsimp only
    split
    · split
      · exact h
      · rename_i hm
        refine List.nodup_append.mpr ⟨h, List.nodup_singleton _, fun a ha b hb => ?_⟩
        rw [List.mem_singleton.mp hb]
        rintro rfl
        exact hm ha
    · exact h

theorem pathListOf_length (entries : List Nat) : (pathListOf entries).length ≤ entries.length := by
  unfold pathListOf
  suffices h : ∀ (l : List Nat) (kept : List PathId),
      (l.foldl (fun kept v =>
        if h : v < 128 then if (⟨v, h⟩ : PathId) ∈ kept then kept else kept ++ [⟨v, h⟩] else kept)
          kept).length ≤ kept.length + l.length by simpa using h entries []
  intro l
  induction l with
  | nil => simp
  | cons v rest ih =>
    intro kept
    refine Nat.le_trans (ih _) ?_
    simp only [List.length_cons]
    split
    · split
      · omega
      · simp; omega
    · omega

/-- R29. -/
theorem TargetDesc.InRange.interpreted (bs : List Byte) : (Sys2Proof.Machine.targetDesc bs).InRange := by
  refine ⟨Nat.le_trans (pathListOf_length _) ?_, pathListOf_nodup _,
    clampOr_range _ (by decide) (by decide)⟩
  simp

/-- R30. -/
theorem PathDesc.InRange.interpreted (bs : List Byte) : (Sys2Proof.Machine.pathDesc bs).InRange := by
  have a := clampOr_range (d := 3) (lo := 1) (hi := 14) (byteAt bs 0x08) (by decide) (by decide)
  have b := clampOr_range (d := 6) (lo := 2) (hi := 15) (byteAt bs 0x09) (by decide) (by decide)
  have c := clampTo_range (lo := 0) (hi := 1000000) (leAt bs 0x20 4) (by decide)
  have d := clampTo_range (lo := 0) (hi := 1000000) (leAt bs 0x24 4) (by decide)
  refine ⟨a, ?_, clampOr_range _ (by decide) (by decide), clampOr_range _ (by decide) (by decide),
    clampOr_range _ (by decide) (by decide), clampOr_range _ (by decide) (by decide),
    clampOr_range _ (by decide) (by decide), clampOr_range _ (by decide) (by decide),
    clampOr_range _ (by decide) (by decide), c.2, ?_⟩
  · unfold Sys2Proof.Machine.pathDesc
    dsimp only
    split <;> omega
  · unfold Sys2Proof.Machine.pathDesc
    dsimp only
    split <;> omega

/-- R167. -/
theorem Settings.InRange.interpreted (bs : List Byte) : (anchorSettings bs).InRange := by
  refine ⟨?_, ?_, clampOr_range _ (by decide) (by decide), clampOr_range _ (by decide) (by decide),
    clampOr_range _ (by decide) (by decide), (clampTo_range _ (by decide)).2, ?_, ?_⟩
  · show recordCount _ % 64 = 0 ∧ 64 ≤ recordCount _ ∧ recordCount _ ≤ 4096
    unfold recordCount clampTo
    omega
  · intro l hl
    have e : (anchorSettings bs).slices = [sliceAt bs 0x60, sliceAt bs 0x68, sliceAt bs 0x70, sliceAt bs 0x78] :=
      rfl
    rw [e] at hl
    simp only [List.mem_cons, List.not_mem_nil, or_false] at hl
    rcases hl with rfl | rfl | rfl | rfl <;> exact Nat.min_le_left _ _
  · intro i
    match i with
    | 0 => exact (clampTo_range _ (by decide)).2
    | 1 => exact (clampTo_range _ (by decide)).2
    | 2 => exact (clampTo_range _ (by decide)).2
    | 3 => exact (clampTo_range _ (by decide)).2
  · intro i
    match i with
    | 0 => exact (clampTo_range _ (by decide)).2
    | 1 => exact (clampTo_range _ (by decide)).2
    | 2 => exact (clampTo_range _ (by decide)).2
    | 3 => exact (clampTo_range _ (by decide)).2

theorem sampleOf_range (now sendTime : W32) : 1 ≤ sampleOf now sendTime ∧ sampleOf now sendTime ≤ 1000000 :=
  clampTo_range _ (by decide)

/-- R47, R49: one estimator update keeps the ranges. -/
theorem PathRec.EstimateOk.update {r : PathRec} (h : r.EstimateOk) {m : Nat} (a : 1 ≤ m)
    (b : m ≤ 1000000) : (r.update m).EstimateOk := by
  unfold PathRec.update
  split
  · exact ⟨by simp, by simp, fun _ => by dsimp only; omega⟩
  · rename_i hs
    obtain ⟨h1, h2, h3⟩ := h.held hs
    exact ⟨by dsimp only; omega, by dsimp only; omega, fun _ => by dsimp only; omega⟩

/-- R47: a cleared estimate is in range. -/
theorem PathRec.EstimateOk.clear (r : PathRec) : r.clearEstimate.EstimateOk :=
  ⟨by simp [PathRec.clearEstimate], fun _ => ⟨rfl, rfl⟩, fun h => absurd rfl h⟩

end Sys2Proof.Machine
end

