-- ==== Sys2Proof/Laws/QuietHealth.lean ====
section
/-!
SUPPORT. The Health Monitor (R48 to R50, R101 to R119): entries to UP, SUSPECT, RECOVERING and UNTRIED are
`Calm`; entries that end SENT work LOST or withdraw frames are `Quiet`.
-/

namespace Sys2Proof.Machine

/-- The descriptor in force of a path in range is in range. -/
theorem State.pathDesc_inRange {s : State} {p : PathId} (h : (s.path p).Ok) : (s.pathDesc p).InRange := by
  unfold State.pathDesc
  cases e : (s.path p).contents with
  | none => exact .interpreted []
  | some d => exact h.contents d e

/-! ### Entries to the states with work -/

theorem Calm.handOutService (p : PathId) (s : State) : Calm s (s.handOutService p) :=
  ((Still.recomputeTargets p s).calm.trans (Course.releaseFor p _).calm).trans (Still.reportHealth p _).calm

theorem Calm.enterUp (p : PathId) (s : State) : Calm s (s.enterUp p) := by
  unfold State.enterUp
  dsimp only
  refine ((Still.modPath p _ s ?_ fun h => ?_).trans (.syncProbing p _)).calm.trans (.handOutService p _)
  · have k := (s.path p).leave_same
    exact ⟨k.1, k.2, k.3, k.4⟩
  · exact (PathRec.leave_ok h).congr rfl rfl rfl rfl (Nat.zero_le _) (PathRec.leave_ok h).flap

theorem Calm.enterSuspect (p : PathId) (s : State) : Calm s (s.enterSuspect p) := by
  unfold State.enterSuspect
  dsimp only
  refine ((Still.modPath p _ s ?_ fun h => ?_).trans (.syncProbing p _)).calm.trans (.handOutService p _)
  · have k := (s.path p).leave_same
    exact ⟨k.1, k.2, k.3, k.4⟩
  · have k := PathRec.leave_ok h
    exact k.congr rfl rfl rfl rfl k.strikes k.flap

theorem Calm.portProved (i : PortId) (s : State) : Calm s (s.portProved i) := by
  unfold State.portProved
  refine .ite ((Still.modPort i (fun r => { r with state := .up }) s ⟨rfl, rfl, rfl, rfl⟩ fun h => ⟨h.masks, h.downTimes⟩).calm.trans ?_)
    (.refl s)
  exact .foldl _ (fun s q => .ite (.enterUp q s) (.refl s)) _ _

theorem Calm.completeProving (p : PathId) (s : State) : Calm s (s.completeProving p) := by
  unfold State.completeProving
  dsimp only
  refine (Calm.enterUp p s).trans ?_
  split
  · exact .refl _
  · exact .portProved ..

/-! ### Entries to the states without work -/

theorem Still.enterRecovering (p : PathId) (s : State) : Still s (s.enterRecovering p) := by
  unfold State.enterRecovering
  dsimp only
  refine (((Still.modPath p _ s ?_ fun h => ?_).trans (.syncProbing p _)).trans
    (.recomputeTargets p _)).trans (.reportHealth p _)
  · have k := (s.path p).leave_same
    exact ⟨k.1, k.2, k.3, k.4⟩
  · have k := PathRec.leave_ok h
    exact k.congr rfl rfl rfl rfl k.strikes k.flap

theorem Still.becomeUntried (p : PathId) (s : State) : Still s (s.becomeUntried p) :=
  (((Still.modPath p _ s (PathRec.enterUntried_same _) PathRec.enterUntried_ok).trans
    (.syncProbing p _)).trans (.recomputeTargets p _)).trans (.reportHealth p _)

theorem Quiet.withdrawIfServed (before : Health) (p : PathId) (s : State) :
    Quiet s (s.withdrawIfServed before p) :=
  .ite (.withdrawPath p s) (.refl s)

theorem Quiet.enterDraining (p : PathId) (limit : Timer) (s : State) : Quiet s (s.enterDraining p limit) := by
  unfold State.enterDraining
  dsimp only
  refine (((Still.modPath p _ s ?_ fun h => ?_).trans (.stopProbing p _)).calm.quiet.trans
    (.withdrawIfServed _ p _)).trans ((Still.recomputeTargets p _).trans (.reportHealth p _)).calm.quiet
  · have k := (s.path p).leave_same
    exact ⟨k.1, k.2, k.3, k.4⟩
  · have k := PathRec.leave_ok h
    exact k.congr rfl rfl rfl rfl (Nat.zero_le _) k.flap

theorem Quiet.enterFencedFrom (p : PathId) (lose : Bool) (s : State) :
    Quiet s (s.enterFencedFrom p lose) := by
  unfold State.enterFencedFrom
  dsimp only
  have h := ((Still.modPath p _ s (PathRec.enterFenced_same _) PathRec.enterFenced_ok).trans
    (.stopProbing p _)).calm.quiet
  refine (Quiet.trans ?_ (.withdrawIfServed _ p _)).trans
    ((Still.recomputeTargets p _).trans (.reportHealth p _)).calm.quiet
  exact .ite (h.trans (.loseSent p _)) h

/-! ### Correlation (R119) -/

theorem Calm.doubtPaths (i : PortId) (s : State) : Calm s (s.doubtPaths i) := by
  refine .foldl _ (fun s q => .ite ?_ (.refl s)) _ _
  refine (Still.modPath q _ s ⟨rfl, rfl, rfl, rfl⟩ fun h => ?_).calm.trans (.enterSuspect q _)
  have r := State.pathDesc_inRange h
  exact h.congr rfl rfl rfl rfl (by have := h.strikes; have := r.suspect; show max _ _ ≤ 15; omega) h.flap

theorem Calm.trip (i : PortId) (s : State) : Calm s (s.trip i) := by
  unfold State.trip
  split
  · exact .refl s
  · exact (Still.modPort i _ s ⟨rfl, rfl, rfl, rfl⟩ fun h => ⟨h.masks, h.downTimes⟩).calm.trans
      (.doubtPaths i _)
  · exact .doubtPaths i s

theorem addDownTime_length (now : W32) (times : List W32) : (addDownTime now times).length ≤ 8 := by
  unfold addDownTime
  rw [List.length_drop]
  show _ - (_ - 8) ≤ 8
  omega

theorem Calm.correlate (i : PortId) (s : State) : Calm s (s.correlate i) := by
  unfold State.correlate
  dsimp only
  have h := (Still.modPort i (fun r => { r with downTimes := addDownTime s.clock (s.port i).downTimes }) s
    ⟨rfl, rfl, rfl, rfl⟩ fun h => ⟨h.masks, addDownTime_length _ _⟩).calm
  split
  · exact h
  · exact .ite (h.trans (.trip i _)) h

/-! ### Entry to DOWN (R105) -/

theorem PathRec.flapAfterDown_le {r : PathRec} (h : r.flap ≤ 6) (now : W32) (periodMs : Nat) :
    r.flapAfterDown now periodMs ≤ 6 := by
  unfold PathRec.flapAfterDown
  split
  · exact Nat.min_le_left _ _
  · exact h

theorem PathRec.enterDown_same (r : PathRec) (now : W32) (d : PathDesc) : r.Same (r.enterDown now d) :=
  have h := r.leave_same
  ⟨h.1, h.2, h.3, h.4⟩

theorem PathRec.enterDown_ok {r : PathRec} (h : r.Ok) (now : W32) (d : PathDesc) : (r.enterDown now d).Ok :=
  (PathRec.leave_ok h).congr rfl rfl rfl rfl (Nat.zero_le _) (PathRec.flapAfterDown_le h.flap _ _)

theorem Calm.correlatePath (p : PathId) (s : State) : Calm s (s.correlatePath p) := by
  unfold State.correlatePath
  split
  · exact .refl s
  · exact .correlate ..

theorem Quiet.enterDown (p : PathId) (cause : DownCause) (s : State) : Quiet s (s.enterDown p cause) := by
  unfold State.enterDown
  dsimp only
  have h := ((Still.modPath p (fun r => r.enterDown s.clock (s.pathDesc p)) s
    (PathRec.enterDown_same _ _ _) fun h => PathRec.enterDown_ok h _ _).trans
      (.stopProbing p _)).calm.quiet.trans (.loseSent p _)
  refine (Quiet.trans ?_ (.withdrawIfServed _ p _)).trans
    ((Still.recomputeTargets p _).trans (.reportHealth p _)).calm.quiet
  split
  · exact h
  · exact h.trans (Calm.correlatePath ..).quiet
  · exact h.trans (Calm.correlatePath ..).quiet

/-! ### Strikes and judgement -/

theorem Quiet.judge (p : PathId) (s : State) : Quiet s (s.judge p) := by
  unfold State.judge
  dsimp only
  split
  · exact .ite (.enterDown p _ s) (.ite (Calm.enterSuspect p s).quiet (.refl s))
  · exact .ite (.enterDown p _ s) (.ite (Calm.enterUp p s).quiet (.refl s))
  all_goals exact .refl s

theorem Quiet.setStrikes (p : PathId) (n : Nat) (s : State) : Quiet s (s.setStrikes p n) := by
  unfold State.setStrikes
  refine .ite ((Still.modPath p _ s ⟨rfl, rfl, rfl, rfl⟩ fun h => ?_).calm.quiet.trans (.judge p _)) (.refl s)
  exact h.congr rfl rfl rfl rfl (Nat.min_le_left _ _) h.flap

theorem Quiet.addStrikes (p : PathId) (n : Nat) (s : State) : Quiet s (s.addStrikes p n) :=
  .setStrikes ..

theorem Quiet.dropStrike (p : PathId) (s : State) : Quiet s (s.dropStrike p) :=
  .setStrikes ..

theorem Quiet.failProving (p : PathId) (s : State) : Quiet s (s.failProving p) :=
  .ite (.enterDown ..) (.refl s)

theorem Still.count (p : PathId) (f : PathCounters → PathCounters) (s : State) : Still s (s.count p f) :=
  .modPath p _ s ⟨rfl, rfl, rfl, rfl⟩ fun h => h.congr rfl rfl rfl rfl h.strikes h.flap

theorem Quiet.replyTimeout (p : PathId) (s : State) : Quiet s (s.replyTimeout p) :=
  (Still.count p _ s).calm.quiet.trans (.ite (.failProving ..) (.addStrikes ..))

theorem Quiet.probeMiss (p : PathId) (s : State) : Quiet s (s.probeMiss p) :=
  (Still.count p _ s).calm.quiet.trans (.ite (.failProving ..) (.addStrikes ..))

theorem Quiet.malformedArrival (p : PathId) (s : State) : Quiet s (s.malformedArrival p) :=
  (Still.count p _ s).calm.quiet.trans (.ite (.failProving ..) (.addStrikes ..))

theorem Quiet.goodReply (p : PathId) (s : State) : Quiet s (s.goodReply p) :=
  (Still.modPath p _ s ⟨rfl, rfl, rfl, rfl⟩ fun h =>
    h.congr rfl rfl rfl rfl h.strikes h.flap).calm.quiet.trans (.dropStrike p _)

theorem Calm.testProving (p : PathId) (s : State) : Calm s (s.testProving p) :=
  .ite (.completeProving p s) (.refl s)

theorem Quiet.goodProbeDown (p : PathId) (s : State) : Quiet s (s.goodProbeDown p) :=
  .ite (.ite (.enterFencedFrom p false s)
    ((Still.enterRecovering p s).calm.trans (.testProving p _)).quiet) (.refl s)

theorem Quiet.goodProbe (p : PathId) (s : State) : Quiet s (s.goodProbe p) := by
  unfold State.goodProbe
  split
  · exact .dropStrike p s
  · exact .dropStrike p s
  · exact ((Still.enterRecovering p s).calm.trans (.testProving p _)).quiet
  · exact .goodProbeDown p s
  · exact ((Still.modPath p _ s ⟨rfl, rfl, rfl, rfl⟩ fun h =>
      h.congr rfl rfl rfl rfl h.strikes h.flap).calm.trans (.testProving p _)).quiet
  · exact .refl s
  · exact .refl s

/-! ### Samples (R48 to R50) -/

theorem PathRec.update_same (r : PathRec) (m : Nat) : r.Same (r.update m) := by
  unfold PathRec.update; split <;> exact ⟨rfl, rfl, rfl, rfl⟩

theorem PathRec.takeSample_same (r : PathRec) (d : PathDesc) (m : Nat) : r.Same (r.takeSample d m) :=
  have h := r.update_same m
  ⟨h.1, h.2, h.3, h.4⟩

theorem PathRec.takeSample_ok {r : PathRec} (h : r.Ok) (d : PathDesc) {m : Nat} (a : 1 ≤ m)
    (b : m ≤ 1000000) : (r.takeSample d m).Ok := by
  have k := h.estimate.update a b
  refine ⟨?_, ⟨k.1, k.2, k.3⟩, ?_, ?_⟩
  · rw [(r.takeSample_same d m).contents]; exact h.contents
  · show (r.update m).strikes ≤ 15
    unfold PathRec.update; split <;> exact h.strikes
  · show (r.update m).flap ≤ 6
    unfold PathRec.update; split <;> exact h.flap

theorem Quiet.sample (p : PathId) (sendTime : W32) (s : State) : Quiet s (s.sample p sendTime) := by
  unfold State.sample
  dsimp only
  have h := (Still.modPath p
    (fun r => r.takeSample (s.pathDesc p) (sampleOf s.clock sendTime)) s (PathRec.takeSample_same _ _ _)
    fun h => PathRec.takeSample_ok h _ (sampleOf_range s.clock sendTime).1
      (sampleOf_range s.clock sendTime).2).calm.quiet
  exact .ite (h.trans (.addStrikes ..)) h

/-! ### Path loss (R118) -/

theorem PathRec.lose_ok {r : PathRec} (h : r.Ok) : r.lose.Ok :=
  have k := PathRec.EstimateOk.clear r
  ⟨h.contents, ⟨k.1, k.2, k.3⟩, Nat.zero_le _, Nat.zero_le _⟩

theorem Quiet.withdrawLost (p : PathId) (s : State) : Quiet s (s.withdrawLost p) := by
  unfold State.withdrawLost
  split
  · exact .refl s
  · exact .withdrawWhere ..

theorem Quiet.dropPath (p : PathId) (s : State) : Quiet s (s.dropPath p) :=
  ((Still.modPath p _ s ⟨rfl, rfl, rfl, rfl⟩ PathRec.lose_ok).calm.quiet.trans (.loseSent p _)).trans
    (.withdrawLost p _)

/-- R118: what follows the taking of the new copy. -/
theorem Calm.pathLoss (p : PathId) (contents : Option PathDesc) (s : State) :
    Calm ((s.dropPath p).setCopy p contents) (s.pathLoss p contents) := by
  unfold State.pathLoss
  dsimp only
  have k := Still.syncProbing p ((s.dropPath p).setCopy p contents)
  exact .ite k.calm (k.trans ((Still.recomputeTargets p _).trans (.reportHealth p _))).calm

end Sys2Proof.Machine
end

