-- ==== Sys2Proof/Laws/QuietCommands.lean ====
section
/-!
SUPPORT. The commands that touch nothing outside contexts, streams, targets, paths, ports and what they hand
on: frame arrivals, the expiries of the Timer Array but the holdoff timer's, grants and transmit ends, ABORT,
SNAPSHOT, and the notices of fencing and drills. Each is `Whole`.
-/

namespace Sys2Proof.Machine

/-! ### Arrivals (R84 to R95, R113) -/

theorem Still.stale (p : PathId) (s : State) : Still s (s.stale p) :=
  .count p _ s

theorem Still.countReply (p : PathId) (s : State) : Still s (s.countReply p) :=
  .count p _ s

theorem Whole.replySample (a : Attempt) (p : PathId) (outcome : RemoteOutcome) (s : State) :
    Whole s (s.replySample a p outcome) := by
  unfold State.replySample
  split
  · exact .refl s
  · exact .ite (Quiet.sample ..).settle (.refl s)

/-- R87: the state after an accepted reply lies later in the life of the attempt. -/
theorem stateAfterReply_later {a : Attempt} (h : a.answerable = true) (outcome : RemoteOutcome) :
    stateAfterReply a.state outcome ∈ a.state.later := by
  unfold Attempt.answerable at h
  cases e : a.state <;> rw [e] at h <;> cases outcome <;> first | exact absurd h (by decide) | decide

theorem Course.courseReply (c : CtxId) (x : Context) (a : Attempt) (outcome : RemoteOutcome)
    (answer : Answer) (s : State) : Course s (s.courseReply c x a outcome answer) := by
  unfold State.courseReply
  dsimp only
  refine .ite (.refl s) ?_
  split
  · exact .courseQueryReply ..
  · exact .courseCommitReply ..

theorem Course.contextReply (c : CtxId) (id : Nat) (p : PathId) (outcome : RemoteOutcome)
    (payload : List Byte) (s : State) : Course s (s.contextReply c id p outcome payload) := by
  unfold State.contextReply
  split
  · exact .refl s
  · rename_i x hx
    split
    · exact .refl s
    · rename_i a _
      split
      · exact .refl s
      · rename_i hn
        obtain ⟨hc, ha⟩ := not_or.mp hn
        have ha : a.answerable = true := by simpa using ha
        have go : AttemptsGo x.attempts
            (x.moveAttempt id a.state fun b => { b with state := stateAfterReply b.state outcome }).attempts :=
          .move x id a.state _ fun _ b hb =>
            ⟨rfl, rfl, rfl, rfl, rfl, rfl, by
              have k := stateAfterReply_later ha outcome
              rw [← hb] at k
              exact k⟩
        dsimp only
        refine Course.trans (.ite (Course.trans (.modCtx c _ s fun y hy hy' => ?_) (.lowerInflight ..))
          (.modCtx c _ s fun y hy hy' => ?_)) (.courseReply ..)
        · rw [hx] at hy; cases hy
          exact ⟨.of hy' rfl (fun h => h) (.refl _) (fun _ h => h) go, hy'⟩
        · rw [hx] at hy; cases hy
          exact ⟨.of hy' rfl (fun h => h) (.refl _) (fun _ h => h) go, hy'⟩

theorem Whole.acceptReply (c : CtxId) (a : Attempt) (p : PathId) (outcome : RemoteOutcome)
    (payload : List Byte) (s : State) : Whole s (s.acceptReply c a p outcome payload) := by
  unfold State.acceptReply
  dsimp only
  exact (((Still.countReply p s).whole.trans (.replySample ..)).trans (Quiet.goodReply p _).settle).trans
    (Course.contextReply ..).whole

theorem Whole.takeReply (p : PathId) (h : LinkHeader) (outcome : RemoteOutcome) (payload : List Byte)
    (s : State) : Whole s (s.takeReply p h outcome payload) := by
  unfold State.takeReply
  split
  · exact (Still.stale p s).whole
  · split
    · exact (Still.stale p s).whole
    · exact .ite (.acceptReply ..) (Still.stale p s).whole

theorem Course.verdictPending (c : CtxId) (x : Context) (s : State) : Course s (s.verdictPending c x) := by
  unfold State.verdictPending
  refine (Course.endInquiry c s).trans (.modCtx c _ _ fun y _ hc => ?_)
  exact ⟨.of hc rfl (fun h => h) (.refl _) (fun _ h => h) (.refl _), hc⟩

theorem Course.resolveVerdict (c : CtxId) (h : LinkHeader) (code : RemoteOutcome) (payload : List Byte)
    (s : State) : Course s (s.resolveVerdict c h code payload) := by
  unfold State.resolveVerdict
  split
  · exact .refl s
  · split
    · exact .refl s
    · refine .ite ?_ (.refl s)
      dsimp only
      have k := Course.modCtx c (fun x => { x with lastOutcome := code }) s fun y _ hc =>
        ⟨.of hc rfl (fun h => h) (.refl _) (fun _ h => h) (.refl _), hc⟩
      split
      · exact k.trans (.complete ..)
      · exact k.trans (.verdictPending ..)
      · exact k.trans (.takeBar ..)
      all_goals exact k

theorem Whole.takeVerdict (p : PathId) (h : LinkHeader) (code : RemoteOutcome) (payload : List Byte)
    (s : State) : Whole s (s.takeVerdict p h code payload) := by
  unfold State.takeVerdict
  split
  · exact (Still.stale p s).whole
  · refine .ite ?_ (Still.stale p s).whole
    exact ((Still.countReply p s).calm.quiet.trans (.goodReply p _)).settle.trans
      (Course.resolveVerdict ..).whole

theorem Still.clearOutstanding (p : PathId) (s : State) : Still s (s.clearOutstanding p) :=
  .modPath p _ s ⟨rfl, rfl, rfl, rfl⟩ fun h => h.congr rfl rfl rfl rfl h.strikes h.flap

theorem Whole.takeEcho (p : PathId) (seq : W16) (s : State) : Whole s (s.takeEcho p seq) := by
  unfold State.takeEcho
  split
  · exact .refl s
  · dsimp only
    exact .ite (((Quiet.sample ..).settle.trans (Quiet.goodProbe ..).settle).trans
      (Still.clearOutstanding ..).whole) (.refl s)

theorem Quiet.drainPath (p : PathId) (s : State) : Quiet s (s.drainPath p) := by
  unfold State.drainPath
  dsimp only
  split
  · exact .enterDraining ..
  · exact .enterDraining ..
  · exact .enterDraining ..
  · exact .enterDraining ..
  · exact .ite (.refl s) (Still.modPath p _ s ⟨rfl, rfl, rfl, rfl⟩ fun h =>
      h.congr rfl rfl rfl rfl h.strikes h.flap).calm.quiet
  · exact .refl s
  · exact .refl s

theorem Whole.takeAdvisory (p : PathId) (code : Advisory) (s : State) :
    Whole s (s.takeAdvisory p code) := by
  unfold State.takeAdvisory
  split
  · exact (Quiet.drainPath p s).settle
  · exact .ite (Still.becomeUntried p s).whole (.refl s)

theorem Whole.takeFrame (i : PortId) (p : PathId) (body : List Byte) (s : State) :
    Whole s (s.takeFrame i p body) := by
  unfold State.takeFrame
  dsimp only
  split
  · exact (Quiet.malformedArrival p s).settle
  · exact (Still.stale p s).whole
  · exact .takeReply ..
  · exact .takeVerdict ..
  · exact (Still.placeEcho ..).whole
  · exact .takeEcho ..
  · exact .takeAdvisory ..

theorem Whole.receive (i : PortId) (f : EthFrame) (c : Settings) (s : State) :
    Whole s (s.receive i f c) := by
  unfold State.receive
  refine .ite (.refl s) (.ite
    (Still.modPort i _ s ⟨rfl, rfl, rfl, rfl⟩ fun h => ⟨h.masks, h.downTimes⟩).whole
    ((Still.modPort i (fun r => { r with framesReceived := r.framesReceived + 1 }) s ⟨rfl, rfl, rfl, rfl⟩
      fun h => ⟨h.masks, h.downTimes⟩).whole.trans ?_))
  unfold State.lookUp
  split
  · exact (Still.modPort i _ _ ⟨rfl, rfl, rfl, rfl⟩ fun h => ⟨h.masks, h.downTimes⟩).whole
  · exact .takeFrame ..

/-! ### Expiries -/

theorem Context.timeOut_kept {x : Context} (hc : x.state ≠ .closing) (a : Attempt) :
    x.Kept (x.timeOut a) ∧ (x.timeOut a).state ≠ .closing := by
  have e := ((x.moveAttempt a.id .sent fun b => { b with state := .timedOut }).cancelReply a.id).fail_same
    a.path
  have hf := ((x.moveAttempt a.id .sent fun b => { b with state := .timedOut }).cancelReply
    a.id).fail_failed a.path
  unfold Context.timeOut
  dsimp only
  refine ⟨.of hc ?_ ?_ ?_ hf ?_ ?_, ?_⟩
  · rw [e]; rfl
  · rw [e]; exact fun h => h
  · rw [e]; exact .refl _
  · rw [e]
    exact .move x a.id .sent _ fun _ b hb =>
      ⟨rfl, rfl, rfl, rfl, rfl, rfl, by rw [hb]; simp [AttemptState.later]⟩
  · rw [e]; exact fun h => h
  · rw [e]; exact hc

theorem Whole.attemptTimeout (c : CtxId) (a : Attempt) (s : State) : Whole s (s.attemptTimeout c a) := by
  unfold State.attemptTimeout
  dsimp only
  exact ((((Calm.modCtx c _ s fun y _ hc => y.timeOut_kept hc a).trans
    (Still.lowerInflight ..).calm).quiet.trans (.replyTimeout ..)).settle).trans (Course.courseLost ..).whole

theorem Context.inquiryTimeout_kept {x : Context} (hc : x.state ≠ .closing) (q : Inquiry) :
    x.Kept (x.inquiryTimeout q) ∧ (x.inquiryTimeout q).state ≠ .closing := by
  unfold Context.inquiryTimeout
  dsimp only
  split
  · exact ⟨.of hc rfl (fun h => h) (.refl _) (fun _ h => h) (.refl _), hc⟩
  · rename_i p _
    have e := x.fail_same p
    have hf := x.fail_failed p
    refine ⟨.of hc ?_ ?_ ?_ hf ?_ ?_, ?_⟩
    · rw [e]
    · rw [e]; exact fun h => h
    · rw [e]; exact .refl _
    · rw [e]; exact .refl _
    · rw [e]; exact fun h => h
    · rw [e]; exact hc

theorem Course.inquiryExpired (c : CtxId) (q : Inquiry) (s : State) : Course s (s.inquiryExpired c q) := by
  unfold State.inquiryExpired
  dsimp only
  exact ((Course.modCtx c _ s fun y _ hc => y.inquiryTimeout_kept hc q).trans
    (.foldl (fun s p => State.lowerInflight p s) (fun s p => .lowerInflight p s) _ _)).trans (.requestInquiry ..)

theorem Course.endWait (c : CtxId) (x : Context) (s : State) : Course s (s.endWait c x) := by
  unfold State.endWait
  refine (Course.modCtx c _ s fun y _ hc => ?_).trans (.requestAttempt ..)
  exact ⟨.of hc rfl (fun h => h) (.refl _) (fun _ h => h) (.refl _), hc⟩

theorem Course.endPendingWait (c : CtxId) (s : State) : Course s (s.endPendingWait c) := by
  unfold State.endPendingWait
  refine (Course.modCtx c _ s fun y _ hc => ?_).trans (.requestInquiry ..)
  exact ⟨.of hc rfl (fun h => h) (.refl _) (fun _ h => h) (.refl _), hc⟩

theorem Whole.missPrevious (p : PathId) (s : State) : Whole s (s.missPrevious p) := by
  unfold State.missPrevious
  exact .ite (.refl s) ((Still.clearOutstanding p s).calm.quiet.trans (.probeMiss p _)).settle

theorem Whole.cycleStart (p : PathId) (s : State) : Whole s (s.cycleStart p) := by
  unfold State.cycleStart
  dsimp only
  have h := (Still.loadProbeTimes p s).whole.trans (.missPrevious p _)
  exact .ite (h.trans (Still.cycleSteps p _).whole) h

/-! ### Grants and transmissions (R73 to R77) -/

theorem Context.startReply_same (x : Context) (id : Nat) (t : Timer) :
    x.startReply id t =
      { x with
        reply0 := (x.startReply id t).reply0
        serves0 := (x.startReply id t).serves0
        reply1 := (x.startReply id t).reply1
        serves1 := (x.startReply id t).serves1 } := by
  unfold Context.startReply; split <;> rfl

theorem Context.startAttempt_kept {x : Context} (hc : x.state ≠ .closing) (a : Attempt) (clock : W32)
    (limit : Nat) : x.Kept (x.startAttempt a clock limit) ∧ (x.startAttempt a clock limit).state ≠ .closing := by
  unfold Context.startAttempt
  dsimp only
  have e := (x.moveAttempt a.id .queued fun b =>
      { b with number := some (x.transmitted + 1), sendTime := some clock, state := .sent }).startReply_same
        a.id (.start clock limit)
  refine ⟨.of hc ?_ ?_ ?_ ?_ ?_ ?_, ?_⟩
  · rw [e]; rfl
  · rw [e]; exact fun h => h
  · exact ⟨fun h => by rw [e]; exact h, fun h => by rw [e]; exact h, fun h => by rw [e]; simp [Context.moveAttempt, h],
      fun h => by rw [e]; exact h, fun h => by rw [e]; simp [Context.moveAttempt, h], fun h => by rw [e]; exact h,
      fun h => by rw [e]; exact h, fun h => by rw [e]; exact h⟩
  · rw [e]; exact fun _ h => h
  · rw [e]
    exact .move x a.id .queued _ fun h => absurd rfl h
  · rw [e]; exact fun h => h
  · rw [e]; exact hc

theorem Still.putOnWire (i : PortId) (f : WireFrame) (s : State) : Still s (s.putOnWire i f) :=
  .modPort i _ s ⟨rfl, rfl, rfl, rfl⟩ fun h => ⟨h.masks, h.downTimes⟩

theorem Calm.startFrame (i : PortId) (e : LaneEntry) (s : State) : Calm s (s.startFrame i e) := by
  unfold State.startFrame
  split
  · unfold State.startRequest
    split
    · exact .refl s
    · split
      · exact .refl s
      · dsimp only
        exact (Calm.modCtx _ _ s fun y _ hc => y.startAttempt_kept hc _ _ _).trans
          (((Still.putOnWire ..).trans (.raiseInflight ..)).trans (.count ..)).calm
  · unfold State.startInquiry
    split
    · exact .refl s
    · split
      · exact .refl s
      · dsimp only
        refine (Calm.modCtx _ _ s fun y _ hc => ?_).trans ((Still.putOnWire ..).trans (.raiseInflight ..)).calm
        exact ⟨.of hc rfl (fun h => h) (.refl _) (fun _ h => h) (.refl _), hc⟩
  · unfold State.startProbe
    dsimp only
    refine (((Still.putOnWire ..).trans (.modPath _ _ _ ⟨rfl, rfl, rfl, rfl⟩ fun h => ?_)).trans (.count ..)).calm
    exact h.congr rfl rfl rfl rfl h.strikes h.flap
  · exact (Still.putOnWire ..).calm

theorem firstUnmasked_mem {masks : Vector Bool 8} {lanes : List (Fin 8)} {l : Fin 8}
    (h : firstUnmasked masks lanes = some l) : l ∈ lanes :=
  List.mem_of_find?_eq_some h

/-- The chosen frame stands at the head of the lane it was chosen from. -/
theorem State.chosenFrame_head {s : State} {i : PortId} {lane : Fin 8} {e : LaneEntry}
    (h : s.chosenFrame i = some (lane, e)) : ((s.port i).lanes.get lane).head? = some e := by
  unfold State.chosenFrame at h
  split at h
  · cases h
  · rw [Option.map_eq_some_iff] at h
    obtain ⟨f, hf, he⟩ := h
    cases he
    exact hf

/-- R73, R74: taking the head of the chosen lane keeps the port's laws. -/
theorem Still.takeHead {s : State} (i : PortId) (lane : Fin 8) (e : LaneEntry)
    (h : s.chosenFrame i = some (lane, e)) : Still s (s.takeHead i lane) := by
  have hd := State.chosenFrame_head h
  unfold State.takeHead State.applyMasks
  refine Still.trans (t := s.modPort i fun r =>
    { r with laneMasks := (s.select i).masks, chit2 := (s.select i).chit2, chit3 := (s.select i).chit3 })
    (.modPort i _ s ⟨rfl, rfl, rfl, rfl⟩ fun k => .of_frame lane ?_ k.downTimes)
    (.modPort i _ _ ?_ fun k => ?_)
  · show (s.port i).lanes.get lane ≠ []
    intro e0
    rw [e0] at hd
    cases hd
  · have k := PortRec.settleMasks_same
      { ((s.modPort i fun r => { r with
          laneMasks := (s.select i).masks
          chit2 := (s.select i).chit2
          chit3 := (s.select i).chit3 }).port i) with
        lanes := ((s.modPort i fun r => { r with
          laneMasks := (s.select i).masks
          chit2 := (s.select i).chit2
          chit3 := (s.select i).chit3 }).port i).lanes.set lane.val
            (((s.modPort i fun r => { r with
              laneMasks := (s.select i).masks
              chit2 := (s.select i).chit2
              chit3 := (s.select i).chit3 }).port i).lanes.get lane).tail lane.isLt }
    exact ⟨k.1, k.2, k.3, k.4⟩
  · exact .settleMasks k.downTimes

theorem Whole.decideGrant (i : PortId) (k : Nat) (s : State) : Whole s (s.decideGrant i k) := by
  induction k generalizing s with
  | zero => exact .refl s
  | succ k ih =>
    unfold State.decideGrant
    refine .ite ?_ (.refl s)
    split
    · exact .refl s
    · rename_i lane e h
      have t := Still.takeHead i lane e h
      exact .ite (t.calm.trans (.startFrame ..)).whole ((t.calm.quiet.trans (.withdrawFrame ..)).settle.trans (ih _))

/-! ### Notices -/

theorem Course.misuse (s : State) : Calm s s.misuse :=
  .raise _ s

theorem Course.markAbort (c : CtxId) (s : State) : Course s (s.markAbort c) := by
  refine .modCtx c _ s fun y _ hc => ?_
  exact ⟨.of hc rfl (fun _ => rfl) (.refl _) (fun _ h => h) (.refl _), hc⟩

theorem Course.abortCtx (c : CtxId) (s : State) : Course s (s.abortCtx c) := by
  unfold State.abortCtx
  split
  · exact .refl s
  · split <;> first
      | exact .refl s
      | exact .markAbort c s
      | exact .complete ..
      | exact .ite (.markAbort c s) (.complete ..)

/-- Setting or clearing a path's flags, and cancelling its drain limit, keeps the copy and the ranges. -/
theorem Still.flags (p : PathId) (f : PathRec → PathRec) (s : State)
    (h : ∀ r : PathRec, f r =
      { r with fence := (f r).fence, drill := (f r).drill, drain := (f r).drain }) :
    Still s (s.modPath p f) := by
  refine .modPath p f s ?_ fun k => ?_
  · rw [h]; exact ⟨rfl, rfl, rfl, rfl⟩
  · rw [h]; exact k.congr rfl rfl rfl rfl k.strikes k.flap

theorem Quiet.fenceInService (p : PathId) (s : State) : Quiet s (s.fenceInService p) :=
  .ite (.enterFencedFrom ..) (.enterDraining ..)

theorem Quiet.fencePath (p : PathId) (s : State) : Quiet s (s.fencePath p) := by
  unfold State.fencePath
  dsimp only
  have h := (Still.flags p (fun r => { r with fence := true }) s fun _ => rfl).calm.quiet
  split
  · exact h
  · refine .ite h ?_
    have k := h.trans (Still.flags p (fun r => { r with drain := .idle }) _ fun _ => rfl).calm.quiet
    exact .ite (k.trans (.enterFencedFrom ..)) k
  · exact h.trans (.enterFencedFrom ..)
  all_goals exact h.trans (.fenceInService ..)

theorem Still.unfencePath (p : PathId) (s : State) : Still s (s.unfencePath p) := by
  unfold State.unfencePath
  dsimp only
  refine .ite ?_ (.refl s)
  have h := Still.flags p (fun r => { r with fence := false }) s fun _ => rfl
  split
  · exact .ite h (h.trans (.becomeUntried ..))
  · exact h.trans (.becomeUntried ..)
  all_goals exact h

theorem Quiet.drillPath (p : PathId) (s : State) : Quiet s (s.drillPath p) := by
  unfold State.drillPath
  have h := (Still.flags p (fun r => { r with drill := true }) s fun _ => rfl).calm.quiet
  exact .ite h (h.trans (.enterFencedFrom ..))

theorem Still.endDrill (p : PathId) (s : State) : Still s (s.endDrill p) := by
  unfold State.endDrill
  dsimp only
  have h := Still.flags p (fun r => { r with drill := false }) s fun _ => rfl
  exact .ite (.ite (h.trans (.becomeUntried p _)) h) (.refl s)

/-! ### Carrier (R66, R67, R117) -/

theorem Quiet.carrierDown (s : State) (p : PathId) : Quiet s (s.carrierDown p) := by
  unfold State.carrierDown
  split
  · exact .refl s
  · exact (Still.syncProbing p s).calm.quiet
  all_goals exact .enterDown ..

theorem Whole.acceptLoss (i : PortId) (s : State) : Whole s (s.acceptLoss i) := by
  unfold State.acceptLoss
  dsimp only
  have h := Still.modPort i (fun r => { r with state := .down }) s ⟨rfl, rfl, rfl, rfl⟩ fun h =>
    ⟨h.masks, h.downTimes⟩
  refine .ite (Quiet.settle ?_) h.whole
  have k := h.calm.quiet.trans (Quiet.foldl State.carrierDown Quiet.carrierDown
    ((s.modPort i fun r => { r with state := .down }).pathsOf i) _)
  exact (k.trans (.withdrawWhere i _ _)).trans
    (Still.modPort i PortRec.clearMasks _ ⟨rfl, rfl, rfl, rfl⟩ fun h => .clearMasks h.downTimes).calm.quiet

theorem Still.acceptReturn (i : PortId) (s : State) : Still s (s.acceptReturn i) := by
  unfold State.acceptReturn
  have h := Still.modPort i (fun r => { r with state := .up }) s ⟨rfl, rfl, rfl, rfl⟩ fun h =>
    ⟨h.masks, h.downTimes⟩
  exact .ite (h.trans (.foldl (fun s p => State.syncProbing p s) (fun s p => .syncProbing p s) _ _)) h

end Sys2Proof.Machine
end

