-- ==== Sys2Proof/Laws/Keeps.lean ====
section
/-!
SUPPORT. `Keeps s t`: the seven laws of a safe run go over from `s` to `t`. It composes, and holds of every
`Whole` operation; here it is said of the Host Bridge's operations and of the Fetch Engine's.
-/

namespace Sys2Proof.Machine

/-- Every law of Safety.lean that holds of `s` holds of `t`. -/
structure Keeps (s t : State) : Prop where
  paths : s.PathsOk → t.PathsOk
  ports : s.PortsOk → t.PortsOk
  streams : s.StreamsOk → t.StreamsOk
  targets : s.TargetsOk → t.TargetsOk
  holder : s.OneHolder → t.OneHolder
  queue : s.QueueOk → t.QueueOk
  regs : s.RegistersOk → t.RegistersOk

theorem Keeps.refl (s : State) : Keeps s s := ⟨id,id,id,id,id,id,id⟩
theorem Keeps.trans {s t u : State} (h : Keeps s t) (k : Keeps t u) : Keeps s u :=
  ⟨k.1 ∘ h.1, k.2 ∘ h.2, k.3 ∘ h.3, k.4 ∘ h.4, k.5 ∘ h.5, k.6 ∘ h.6, k.7 ∘ h.7⟩
theorem Keeps.ite {s t u : State} {p : Prop} [Decidable p] (h : Keeps s t) (k : Keeps s u) :
    Keeps s (if p then t else u) := by split <;> assumption

theorem OneHolder.of {s t : State}
    (h : ∀ c y, t.ctx c = some y → y.exch = none ∨ ∃ x, s.ctx c = some x ∧ y.exch = x.exch) :
    s.OneHolder → t.OneHolder := by
  intro o c d y z n hy hz en em
  rcases h c y hy with e | ⟨x, hx, e⟩
  · rw [e] at en; cases en
  rcases h d z hz with e' | ⟨x', hx', e'⟩
  · rw [e'] at em; cases em
  exact o c d x x' n hx hx' (e ▸ en) (e' ▸ em)

theorem Whole.keeps {s t : State} (h : Whole s t) : Keeps s t where
  paths := h.quiet.pathsOk
  ports := h.quiet.portsOk
  streams := h.quiet.streamsOk
  targets := fun o u d hd => o u d (by rw [← (h.quiet.targets u).contents]; exact hd)
  holder := OneHolder.of fun c y hy => by
    rcases h.quiet.ctxs c with ⟨_, e⟩ | ⟨x, y', hx, hy', k⟩
    · rw [hy] at e; cases e
    · rw [hy] at hy'; cases hy'; exact .inr ⟨x, hx, k.exch⟩
  queue := h.quiet.queueOk
  regs := fun o => by
    have q := h.quiet.toOnlyWork
    exact {
      interrupt := q.interrupt o.interrupt
      faults := by rw [q.faultCount]; exact o.faults
      fifo := by rw [q.armFifo]; exact o.fifo
      runs := by rw [q.armFifo]; exact o.runs
      settings := by rw [q.settings]; exact o.settings
      reading := by rw [q.loading]; exact o.reading
      loading := by rw [q.loading, q.adapter]; exact o.loading
      coalesced := by rw [q.coalesced]; exact o.coalesced
      payload := h.quiet.payload o.payload
      settled := h.settled o.settled }

/-- A change of registers alone: the stores and the queue are the same. -/
theorem Keeps.of_regs {s t : State} (hp : t.paths = s.paths) (hi : t.ports = s.ports)
    (hs : t.streams = s.streams)
    (ht : t.targets = s.targets) (hc : t.ctxs = s.ctxs) (hq : t.queue = s.queue)
    (regs : s.RegistersOk → t.RegistersOk) : Keeps s t where
  paths := fun o p => by rw [State.path, hp]; exact o p
  ports := fun o p => by rw [State.port, hi]; exact o p
  streams := fun o p => by rw [State.stream, hs]; exact o p
  targets := fun o p => by rw [State.target, ht]; exact o p
  holder := OneHolder.of fun c y hy => .inr ⟨y, by rw [State.ctx, ← hc]; exact hy, rfl⟩
  queue := .congr hq hc
  regs := regs

theorem Keeps.misuse (s : State) : Keeps s s.misuse := (Calm.raise _ s).whole.keeps
theorem Keeps.raise (e : Event) (s : State) : Keeps s (s.raise e) := (Calm.raise _ s).whole.keeps

theorem Keeps.setEvents (e m : BitVec 9) (s : State) : Keeps s (s.setEvents e m) :=
  .of_regs rfl rfl rfl rfl rfl rfl fun o => { o with interrupt := rfl }

theorem Keeps.memoryFault (a : W64) (s : State) : Keeps s (s.memoryFault a) := by
  refine Keeps.trans
    (t :=
      { s with
        faultAddress := if s.faultAddress = 0 then a else s.faultAddress
        faultCount := min 255 (s.faultCount + 1) }) ?_ (.raise _ _)
  exact .of_regs rfl rfl rfl rfl rfl rfl fun o => { o with faults := Nat.min_le_left _ _ }

theorem Keeps.foldl {α : Type} (f : State → α → State) (h : ∀ s a, Keeps s (f s a)) :
    ∀ (l : List α) (s : State), Keeps s (l.foldl f s)
  | [], s => .refl s
  | a :: l, s => (h s a).trans (Keeps.foldl f h l (f s a))

theorem Keeps.readFailed (r : HostRead) (rs : List Nat) (s : State) : Keeps s (s.readFailed r rs) :=
  .foldl _ (fun s _ => .memoryFault _ s) _ _

theorem Keeps.endOrphan (id : HostReadId) (a : ReadAnswer) (s : State) : Keeps s (s.endOrphan id a) := by
  unfold State.endOrphan
  split
  · exact .refl _
  · have h : Keeps s { s with orphans := s.orphans.eraseP fun o => o.id == id } := .of_regs rfl rfl rfl rfl rfl rfl fun o => { o with }
    dsimp only
    split
    · exact .ite (.refl _) h
    · exact h.trans (.readFailed ..)

theorem Keeps.hostWrite (a : W64) (b : List Byte) (s : State) : Keeps s (s.hostWrite a b) :=
  .of_regs rfl rfl rfl rfl rfl rfl fun o => { o with }

/-- A change of the Fetch Engine's registers, the rewrite list and the Issue Number alone. -/
theorem Keeps.fetch {s t : State}
    (h : t =
      { s with
        job := t.job
        phase := t.phase
        sweepPending := t.sweepPending
        rewrites := t.rewrites
        idleArms := t.idleArms
        issueNumber := t.issueNumber }) : Keeps s t := by
  rw [h]
  exact .of_regs rfl rfl rfl rfl rfl rfl fun o => { o with }

theorem Keeps.advanceJob (s : State) : Keeps s s.advanceJob := by
  unfold State.advanceJob
  split
  · exact .fetch rfl
  · exact .ite (.fetch rfl) (.fetch rfl)
  · exact .ite (.fetch rfl) (.fetch rfl)

theorem Keeps.mark (p : Part) (e : Bool) (s : State)
    : Keeps s (s.mark p e) := (Still.mark p e s).whole.keeps

theorem Keeps.enterAdapter (a : AdapterState) (s : State)
    (h : s.RegistersOk → (s.loading.isSome = true ↔ a = .loading)) : Keeps s (s.enterAdapter a) := by
  unfold State.enterAdapter
  refine Keeps.trans (t := { s with adapter := a }) ?_ ((Keeps.mark _ _ _).trans (.raise _ _))
  exact .of_regs rfl rfl rfl rfl rfl rfl fun o => { o with loading := h o }

theorem Keeps.quiesceIfIdle (s : State) : Keeps s s.quiesceIfIdle := by
  unfold State.quiesceIfIdle
  split
  · rename_i h
    refine .enterAdapter _ _ fun o => ?_
    rw [o.loading, h.1]; decide
  · exact .refl _

/-- A context is set or freed. -/
theorem Keeps.setCtx (c : CtxId) (x : Option Context) (s : State)
    (hh : s.OneHolder → (s.setCtx c x).OneHolder) (hq : s.QueueOk → (s.setCtx c x).QueueOk)
        : Keeps s (s.setCtx c x) where
  paths := id
  ports := id
  streams := id
  targets := id
  holder := hh
  queue := hq
  regs := fun o => { o with }

theorem QueueOk.setCtx {s : State} {c : CtxId} {x : Option Context}
    (h : ∀ y, s.ctx c = some y → y.state ≠ .closing)
    (k : ∀ y, x = some y → y.state ≠ .closing) (o : s.QueueOk) : (s.setCtx c x).QueueOk := by
  have e : ∀ d y,
      (s.setCtx c x).ctx d = some y ∧ y.state = .closing ↔ s.ctx d = some y ∧ y.state = .closing := by
    intro d y
    rw [State.ctx_setCtx]
    split
    · rename_i e; subst e
      exact ⟨fun ⟨a, b⟩ => absurd b (k _ a), fun ⟨a, b⟩ => absurd b (h _ a)⟩
    · rfl
  refine ⟨o.distinct, fun d => ?_, fun d y hy hc => o.fixed d y ((e d y).1 ⟨hy, hc⟩).1 hc⟩
  rw [State.setCtx_queue, o.closing]
  exact ⟨fun ⟨y, a⟩ => ⟨y, (e d y).2 a⟩, fun ⟨y, a⟩ => ⟨y, (e d y).1 a⟩⟩

theorem State.fetchCtx_eq {s : State} {c : CtxId} {x : Context} (h : s.fetchCtx c = some x) :
    s.ctx c = some x ∧ x.state = .fetching := by
  unfold State.fetchCtx at h
  rw [Option.filter_eq_some_iff] at h
  exact ⟨h.1, by simpa using h.2⟩

theorem Keeps.freeFetching (c : CtxId) (s : State) : Keeps s (s.freeFetching c) := by
  unfold State.freeFetching
  split
  · exact .refl _
  · rename_i x hx
    obtain ⟨hx, hf⟩ := State.fetchCtx_eq hx
    refine .setCtx c none s (OneHolder.of fun d y hy => ?_) (QueueOk.setCtx (fun y hy => ?_) (by simp))
    · rw [State.ctx_setCtx] at hy
      split at hy
      · cases hy
      · exact .inr ⟨y, hy, rfl⟩
    · rw [hx] at hy; cases hy; rw [hf]; decide

theorem Keeps.dropFetch (c : CtxId) (s : State) : Keeps s (s.dropFetch c) :=
  (Keeps.freeFetching c s).trans ((Keeps.advanceJob _).trans (.quiesceIfIdle _))

theorem zip_get {α : Type} {n : Nat} (v : Vector α n) (c : Fin n) : (c,
    v.get c) ∈ (List.finRange n).zip v.toList := by
  rw [List.mem_iff_getElem]
  refine ⟨c.val, by simp, ?_⟩
  rw [List.getElem_zip]
  simp [Vector.get]

theorem mem_zip_get {α : Type} {n : Nat} (v : Vector α n) (c : Fin n) (o : α)
    (h : (c, o) ∈ (List.finRange n).zip v.toList) : o = v.get c := by
  rw [List.mem_iff_getElem] at h
  obtain ⟨i, hi, e⟩ := h
  rw [List.getElem_zip] at e
  cases e
  simp [Vector.get]

theorem mem_ctxsWhere {s : State} {t : Context → Bool} {c : CtxId} :
    c ∈ s.ctxsWhere t ↔ ∃ x, s.ctx c = some x ∧ t x = true := by
  unfold State.ctxsWhere
  rw [List.mem_filterMap]
  constructor
  · rintro ⟨⟨d, o⟩, h, k⟩
    have e := mem_zip_get _ _ _ h
    subst e
    simp only at k
    split at k
    · cases k
    · rename_i x hx
      split at k
      · cases k
        exact ⟨x, hx, by assumption⟩
      · cases k
  · rintro ⟨x, hx, ht⟩
    exact ⟨(c, some x), by rw [← hx]; exact zip_get _ _, by simp [ht]⟩

theorem Keeps.holdExchange (c : CtxId) (n : Nat) (s : State) (h : (s.holders n).isEmpty = true)
    : Keeps s (s.holdExchange c n) := by
  unfold State.holdExchange
  have no : ∀ d x, s.ctx d = some x → x.exch ≠ some n := by
    intro d x hx e
    have : d ∈ s.holders n := mem_ctxsWhere.2 ⟨x, hx, by simp [e]⟩
    rw [List.isEmpty_iff] at h; rw [h] at this; cases this
  split
  · exact .refl _
  · rename_i x hx
    obtain ⟨hx, hf⟩ := State.fetchCtx_eq hx
    refine .setCtx c _ s ?_ (QueueOk.setCtx (fun y hy => ?_) fun y hy => ?_)
    · intro o a b y z m hy hz ey ez
      rw [State.ctx_setCtx] at hy hz
      split at hy <;> split at hz
      · simp_all
      · cases hy; cases ey; exact absurd ez (no _ _ hz)
      · cases hz; cases ez; exact absurd ey (no _ _ hy)
      · exact o a b y z m hy hz ey ez
    · rw [hx] at hy; cases hy; rw [hf]; decide
    · cases hy; show x.state ≠ _; rw [hf]; decide

theorem Keeps.refuse (c : CtxId) (st : Status) (s : State) : Keeps s (s.refuse c st) :=
  (Course.complete c _ s).whole.keeps.trans (.advanceJob _)

theorem Keeps.modCtx (c : CtxId) (f : Context → Context) (s : State)
    (h : ∀ x, s.ctx c = some x → x.state ≠ .closing → (f x).exch = x.exch ∧ (f x).state ≠ .closing)
        : Keeps s (s.modCtx c f) := by
  unfold State.modCtx
  split
  · exact .refl _
  · rename_i x hx
    split
    · exact .refl _
    · rename_i hc
      obtain ⟨e, k⟩ := h x hx hc
      refine .setCtx c _ s (OneHolder.of fun d y hy => ?_) (QueueOk.setCtx (fun y hy => ?_) fun y hy => ?_)
      · rw [State.ctx_setCtx] at hy
        split at hy
        · rename_i e'; subst e'; cases hy; exact .inr ⟨x, hx, e⟩
        · exact .inr ⟨y, hy, rfl⟩
      · rw [hx] at hy; cases hy; exact hc
      · cases hy; exact k

theorem Keeps.checkStream (c : CtxId) (f : RecordFields) (s : State) : Keeps s (s.checkStream c f) := by
  unfold State.checkStream
  split
  · exact .refl _
  · dsimp only
    refine .ite (.refuse ..) (.ite (.refuse ..) ?_)
    refine Keeps.trans (.modCtx c (fun x => x.fixFields f _ _) s fun x _ k => ⟨rfl, k⟩) (.fetch rfl)

theorem Keeps.setStream (n : StreamId) (e : StreamEntry) (s : State) (h : (s.stream n).Ok → e.Ok)
    : Keeps s (s.setStream n e) where
  paths := id
  ports := id
  streams := fun o m => by
    rw [State.stream_setStream]
    split
    · exact h (o n)
    · exact o m
  targets := id
  holder := id
  queue := .congr rfl rfl
  regs := fun o => { o with }

theorem Keeps.modStream (n : StreamId) (f : StreamEntry → StreamEntry) (s : State)
    (h : (s.stream n).Ok → (f (s.stream n)).Ok) : Keeps s (s.modStream n f) :=
  .setStream n _ s h

theorem Keeps.readStream (n : StreamId) (l : LoadState) (s : State)
    (h : (s.stream n).Ok → l = .notLoaded ∨ (∃ b, l = .loading b) → (s.stream n).contents = none)
        : Keeps s (s.readStream n l) :=
  .modStream n _ s fun o => ⟨o.contents, h o, o.empty, o.oneAtATime, o.inForce⟩

theorem Keeps.askStream (c : CtxId) (f : RecordFields) (s : State) : Keeps s (s.askStream c f) := by
  unfold State.askStream
  split
  · exact .checkStream ..
  · exact .checkStream ..
  · rename_i h
    exact (Keeps.readStream _ _ s fun o _ => o.unread (.inl h)).trans (.fetch rfl)
  · exact .fetch rfl
  · exact .fetch rfl

theorem Keeps.resumeFetch (n : StreamId) (s : State) : Keeps s (s.resumeFetch n) := by
  unfold State.resumeFetch
  split <;> first | exact .refl _ | exact .ite (.checkStream ..) (.refl _)

theorem Keeps.recordRead (c : CtxId) (r : HostRead) (a : ReadAnswer) (s : State)
    : Keeps s (s.recordRead c r a) := by
  unfold State.recordRead
  split
  · exact (Keeps.readFailed ..).trans (.dropFetch ..)
  · split
    · split
      · rename_i h
        dsimp only
        refine (Keeps.holdExchange c _ s h).trans ?_
        split
        · exact .refuse ..
        · exact .askStream ..
      · exact (Keeps.raise ..).trans (.dropFetch ..)
    · unfold State.passOver
      dsimp only
      refine Keeps.trans (.ite (.fetch ?_) (.refl _)) (.dropFetch ..)
      rfl

theorem Keeps.endRecordRead (a : ReadAnswer) (s : State) : Keeps s (s.endRecordRead a) := by
  unfold State.endRecordRead
  split <;> first | exact .refl _ | exact .recordRead ..

theorem Keeps.ownerRead (r : HostRead) (a : ReadAnswer) (s : State) : Keeps s (s.ownerRead r a) := by
  unfold State.ownerRead
  split
  · exact (Keeps.readFailed ..).trans (.advanceJob ..)
  · refine .ite (.ite ?_ ((Keeps.raise ..).trans (.advanceJob ..))) (.advanceJob _)
    split <;> first | exact .fetch rfl | exact .advanceJob _

theorem Keeps.endOwnerRead (a : ReadAnswer) (s : State) : Keeps s (s.endOwnerRead a) := by
  unfold State.endOwnerRead
  split <;> first | exact .endOrphan .. | exact .ownerRead ..

theorem Keeps.fillSlot (c : CtxId) (b : List Byte) (s : State) : Keeps s (s.fillSlot c b) :=
  .of_regs rfl rfl rfl rfl rfl rfl fun o => { o with payload := State.fillSlot_wf c b s o.payload }

theorem Keeps.take (c : CtxId) (x : Context) (s : State) : Keeps s (s.take c x) := by
  unfold State.take
  dsimp only
  refine Keeps.trans (t := State.mark .header false
    { s with issueNumber := some (s.issueNumber.getD 0 + 1) }) (.fetch rfl) ?_
  refine Keeps.trans ?_ (Course.dispatch _ _).whole.keeps
  refine Keeps.trans ?_ (Keeps.advanceJob _)
  refine Keeps.trans ?_ (.modStream _ _ _ fun o => ⟨o.contents, o.unread, o.empty, o.oneAtATime, o.inForce⟩)
  refine Keeps.trans ?_ (.modCtx c _ _ fun x _ _ => ⟨rfl, by simp⟩)
  exact (((Keeps.hostWrite _ _ _).trans (.hostWrite _ _ _)).trans (.hostWrite _ _ _))

theorem Keeps.payloadRead (c : CtxId) (r : HostRead) (a : ReadAnswer) (s : State)
    : Keeps s (s.payloadRead c r a) := by
  unfold State.payloadRead
  split
  · exact .refl _
  · split
    · exact (Keeps.readFailed ..).trans (.refuse ..)
    · dsimp only
      exact .ite ((Keeps.fillSlot ..).trans (.refuse ..)) ((Keeps.fillSlot ..).trans (.take ..))

theorem Keeps.endPayloadRead (a : ReadAnswer) (s : State) : Keeps s (s.endPayloadRead a) := by
  unfold State.endPayloadRead
  split <;> first | exact .refl _ | exact .payloadRead ..

theorem Keeps.readStreamAgain (n : StreamId) (s : State) : Keeps s (s.readStreamAgain n) := by
  unfold State.readStreamAgain
  split
  · dsimp only
    refine Keeps.trans (.modStream n _ _ fun o => ⟨o.contents, o.unread, o.empty, o.oneAtATime, o.inForce⟩)
        (.readStream _ _ _ fun o h => ?_)
    rw [State.modStream, State.stream_setStream, if_pos rfl] at o ⊢
    split at h
    · rename_i e; exact o.unread (.inl e)
    · rcases h with h | ⟨_, h⟩ <;> cases h
  · exact .refl _

theorem Keeps.streamReadEnded (n : StreamId) (s : State) : Keeps s (s.streamReadEnded n) :=
  ((Keeps.resumeFetch n s).trans (Course.dispatch _ _).whole.keeps).trans (.readStreamAgain ..)

theorem Keeps.readFailed_stream (r : HostRead) (rs : List Nat) (s : State) (n : StreamId) :
    (s.readFailed r rs).stream n = s.stream n := by
  unfold State.readFailed
  generalize failedRequests r rs = l
  induction l generalizing s with
  | nil => rfl
  | cons a l ih => rw [List.foldl_cons, ih]; rfl

theorem Keeps.endStreamLoad (n : StreamId) (a : ReadAnswer) (s : State)
    : Keeps s (s.endStreamLoad n a) := by
  unfold State.endStreamLoad
  split
  · exact .refl _
  · rename_i r _
    split
    · rename_i h
      unfold State.streamLoaded
      split
      · refine Keeps.trans (Keeps.trans (.readFailed ..) (.modStream n _ _ fun o => ?_))
          (.streamReadEnded ..)
        rw [Keeps.readFailed_stream] at o ⊢
        exact ⟨o.contents, fun _ => o.unread (.inr ⟨_, h.2⟩), o.empty, o.oneAtATime, o.inForce⟩
      · refine Keeps.trans (.modStream n _ _ fun o => ?_) (.streamReadEnded ..)
        have e := o.unread (.inr ⟨_, h.2⟩)
        refine ⟨fun d hd => ?_, fun hl => ?_, fun hc => (by cases hc), fun _ => ?_, fun h d hd => ?_⟩
        · cases hd; exact .interpreted _
        · rcases hl with hl | ⟨_, hl⟩ <;> cases hl
        · show (s.stream n).inflight ≤ 1
          rw [o.empty e]; omega
        · cases hd; exact h
    · exact .refl _

end Sys2Proof.Machine
end

