-- ==== Sys2Proof/Laws/KeepsCommands.lean ====
section
/-!
SUPPORT. `Keeps` for the ends of reloads, the carrier filters, START and STOP, LOADING, the Completion Writer
and one µs of the clock.
-/

namespace Sys2Proof.Machine

theorem Quiet.withdrawEverywhere (test : LaneEntry → Bool) (s : State) : Quiet s
    (s.withdrawEverywhere test) :=
  .foldl _ (fun s i => .withdrawWhere i test s) _ _

theorem Keeps.setPath (p : PathId) (r : PathRec) (s : State) (h : (s.path p).Ok → r.Ok)
    : Keeps s (s.setPath p r) where
  paths := fun o q => by
    rw [State.path_setPath]
    split
    · exact h (o p)
    · exact o q
  ports := id
  streams := id
  targets := id
  holder := id
  queue := .congr rfl rfl
  regs := fun o => { o with }

theorem Keeps.modPath (p : PathId) (f : PathRec → PathRec) (s : State)
    (h : (s.path p).Ok → (f (s.path p)).Ok) : Keeps s (s.modPath p f) :=
  .setPath p _ s h

theorem Keeps.setTarget (u : TargetId) (e : TargetEntry) (s : State)
    (h : (∀ d, (s.target u).contents = some d → d.InRange) → ∀ d, e.contents = some d → d.InRange)
        : Keeps s (s.setTarget u e) where
  paths := id
  ports := id
  streams := id
  targets := fun o v => by
    rw [State.target_setTarget]
    split
    · exact h (o u)
    · exact o v
  holder := id
  queue := .congr rfl rfl
  regs := fun o => { o with }

theorem Keeps.modTarget (u : TargetId) (f : TargetEntry → TargetEntry) (s : State)
    (h : (∀ d, (s.target u).contents = some d → d.InRange) → ∀ d,
        (f (s.target u)).contents = some d → d.InRange) : Keeps s (s.modTarget u f) :=
  .setTarget u _ s h

theorem Keeps.setPort (i : PortId) (r : PortRec) (s : State) (h : (s.port i).Ok → r.Ok)
    : Keeps s (s.setPort i r) where
  paths := id
  ports := fun o q => by
    rw [State.port_setPort]
    split
    · exact h (o i)
    · exact o q
  streams := id
  targets := id
  holder := id
  queue := .congr rfl rfl
  regs := fun o => { o with }

theorem Keeps.modPort (i : PortId) (f : PortRec → PortRec) (s : State)
    (h : (s.port i).Ok → (f (s.port i)).Ok) : Keeps s (s.modPort i f) :=
  .setPort i _ s h

theorem TargetDesc.InRange.noPaths {d : TargetDesc}
    (h : d.InRange) : ({ d with pathList := [] } : TargetDesc).InRange :=
  ⟨by simp, by simp, h.initialTimeout⟩

theorem Keeps.reloadPathCopy (p : PathId) (s : State) : Keeps s (s.reloadPathCopy p) :=
  .modPath p _ s fun o => o.congr rfl rfl rfl rfl o.strikes o.flap

theorem Keeps.readPathAgain (p : PathId) (s : State) : Keeps s (s.readPathAgain p) :=
  .ite (.reloadPathCopy ..) (.refl _)

theorem Keeps.setCopy (p : PathId) (d : Option PathDesc) (s : State) (h : ∀ x, d = some x → x.InRange)
    : Keeps s (s.setCopy p d) :=
  .modPath p _ s fun o => ⟨h, ⟨o.estimate.samples, o.estimate.cleared, o.estimate.held⟩, o.strikes, o.flap⟩

theorem Keeps.reloadTargetEntry (u : TargetId) (s : State) : Keeps s (s.reloadTargetEntry u) :=
  .modTarget u _ s id

theorem Keeps.readTargetAgain (p : TargetId) (s : State) : Keeps s (s.readTargetAgain p) :=
  .ite (.reloadTargetEntry ..) (.refl _)

theorem Keeps.settled (s : State) : Keeps s ({ s with deferred := [] }) :=
  .of_regs rfl rfl rfl rfl rfl rfl fun o => { o with settled := rfl }

/-- What is done quietly, with its decisions then taken. -/
theorem Quiet.keeps_settle {s t : State} (h : Quiet s t) : Keeps s t.settle := h.settle.keeps

theorem Keeps.endTargetReload (u : TargetId) (a : ReadAnswer) (s : State)
    : Keeps s (s.endTargetReload u a) := by
  unfold State.endTargetReload
  split
  · exact .endOrphan ..
  · refine .ite ?_ (.refl _)
    unfold State.targetReloaded
    split
    · dsimp only
      refine Keeps.trans (Keeps.trans (.readFailed ..)
          (.modTarget u _ _ fun o d hd => ?_)) ((Still.recomputeReach ..).whole.keeps.trans
              (.readTargetAgain ..))
      simp only [Option.map_eq_some_iff] at hd
      obtain ⟨d', hd', rfl⟩ := hd
      exact TargetDesc.InRange.noPaths (o _ hd')
    · dsimp only
      refine Keeps.trans ?_
          (((Quiet.withdrawEverywhere _ _).settle.keeps.trans
              ((Still.recomputeReach ..).whole.keeps.trans
                  (Course.releaseTarget ..).whole.keeps)).trans (.readTargetAgain ..))
      refine .modTarget u _ s fun o d hd => ?_
      cases hd; exact .interpreted _


/-- The state with no decision waiting. -/
def State.undeferred (s : State) : State := { s with deferred := [] }

theorem Quiet.undeferred {s t : State} (h : Quiet s t) : Keeps s.undeferred t.undeferred where
  paths := h.pathsOk
  ports := h.portsOk
  streams := h.streamsOk
  targets := fun o u d hd => o u d ((h.targets u).contents.symm.trans hd)
  holder := OneHolder.of fun c y hy => by
    rcases h.ctxs c with ⟨_, e⟩ | ⟨x, y', hx, hy', k⟩
    · exact absurd (e.symm.trans hy) (by simp)
    · cases (hy'.symm.trans hy); exact .inr ⟨x, hx, k.exch⟩
  queue := fun o => State.QueueOk.congr (s := t) rfl rfl (h.queueOk (State.QueueOk.congr
      (s := s.undeferred) rfl rfl o))
  regs := fun o => by
    have q := h.toOnlyWork
    exact {
      interrupt := q.interrupt o.interrupt
      faults := by show t.faultCount ≤ _; rw [q.faultCount]; exact o.faults
      fifo := by show t.armFifo.length ≤ _; rw [q.armFifo]; exact o.fifo
      runs := by show ∀ r ∈ t.armFifo, _; rw [q.armFifo]; exact o.runs
      settings := by show ∀ c, t.settings = _ → _; rw [q.settings]; exact o.settings
      reading := by show ∀ a c b d e, t.loading = _ → _; rw [q.loading]; exact o.reading
      loading := by show t.loading.isSome = _ ↔ t.adapter = _; rw [q.loading, q.adapter]; exact o.loading
      coalesced := by show t.coalesced ≤ _; rw [q.coalesced]; exact o.coalesced
      payload := h.payload o.payload
      settled := rfl }

theorem Keeps.toClr (s : State) : Keeps s s.undeferred := .settled s
theorem Keeps.settle (s : State) : Keeps s.undeferred s.settle := (Course.settle s).whole.keeps

theorem Keeps.pathLoss (p : PathId) (d : Option PathDesc) (s : State) (h : ∀ x, d = some x → x.InRange) :
    Keeps s (s.pathLoss p d).settle := by
  refine (Keeps.toClr s).trans (Keeps.trans ?_ (.settle _))
  refine (Quiet.dropPath p s).undeferred.trans (Keeps.trans (t :=
      ((s.dropPath p).setCopy p d).undeferred) ?_ (Calm.pathLoss p d s).quiet.undeferred)
  generalize s.dropPath p = u
  have e : (u.setCopy p d).undeferred = u.undeferred.setCopy p d := rfl
  rw [e]
  exact Keeps.setCopy p d u.undeferred h

theorem Keeps.endPathReload (p : PathId) (a : ReadAnswer) (s : State) : Keeps s (s.endPathReload p a) := by
  unfold State.endPathReload
  split
  · exact .endOrphan ..
  · refine .ite ?_ (.refl _)
    unfold State.pathReloaded
    split
    · dsimp only
      refine Keeps.trans ?_ ((Keeps.pathLoss p none _ (by simp)).trans (.readPathAgain ..))
      refine Keeps.trans (.readFailed _ _ s)
          (.modPath p _ _ fun o => o.congr rfl rfl rfl rfl o.strikes o.flap)
    · dsimp only
      refine Keeps.trans ?_ (.readPathAgain ..)
      refine Keeps.trans ?_ (.ite (.pathLoss _ _ _ ?_) (.setCopy _ _ _ ?_))
      · exact .modPath p _ s fun o => o.congr rfl rfl rfl rfl o.strikes o.flap
      · intro x hx; cases hx; exact .interpreted _
      · intro x hx; cases hx; exact .interpreted _

theorem Keeps.offerAgain (s : State) (c : CtxId) : Keeps s (s.offerAgain c) := by
  unfold State.offerAgain
  split
  · exact .refl _
  · exact .ite ((Course.leavePark ..).trans (.offerParked ..)).whole.keeps (.refl _)

theorem Keeps.reroute (n : StreamId) (s : State) : Keeps s (s.reroute n) := by
  unfold State.reroute
  exact (Quiet.withdrawEverywhere _ s).settle.keeps.trans (.foldl _ .offerAgain _ _)

theorem Keeps.openStream (n : StreamId) (s : State) : Keeps s (s.openStream n) :=
  .modStream n _ s fun o => ⟨o.contents, o.unread, o.empty, o.oneAtATime, o.inForce⟩

theorem Keeps.endStreamReload (n : StreamId) (a : ReadAnswer) (s : State)
    : Keeps s (s.endStreamReload n a) := by
  unfold State.endStreamReload
  split
  · exact .endOrphan ..
  · refine .ite ?_ (.refl _)
    unfold State.streamReloaded
    split
    · refine Keeps.trans (Keeps.trans (Keeps.trans (.readFailed ..) (.modStream n _ _ fun o => ?_))
        (.openStream ..)) (.streamReadEnded ..)
      refine ⟨o.contents, fun h => ?_, o.empty, o.oneAtATime, o.inForce⟩
      rcases h with h | ⟨_, h⟩ <;> cases h
    · dsimp only
      refine Keeps.trans ?_ (.streamReadEnded ..)
      refine Keeps.trans ?_ (.openStream ..)
      refine Keeps.trans ?_ (.reroute ..)
      refine Keeps.trans (t := s.modStream n (·.renew (Sys2Proof.Machine.streamDesc _))) ?_
          (.ite (.refl _) ?_)
      rotate_left 1
      · unfold State.withdrawStream
        exact (Course.foldl _ (fun s c => .complete c _ s) _ _).whole.keeps
      · refine .modStream n _ s fun o => ?_
        refine ⟨fun d hd => ?_, fun h => ?_, fun h => (by cases h), fun h => ?_, fun h d hd => ?_⟩
        · cases hd; exact .interpreted _
        · rcases h with h | ⟨_, h⟩ <;> cases h
        · show (s.stream n).inflight ≤ 1
          unfold StreamEntry.renew at h
          dsimp only at h
          split at h
          · rename_i k
            rcases k with k | k
            · rw [o.empty (by simpa using k)]; omega
            · rw [k] at h; cases h
          · exact o.oneAtATime h
        · cases hd
          unfold StreamEntry.renew at h
          dsimp only at h
          split at h
          · exact h
          · rename_i k
            cases hm : (Sys2Proof.Machine.streamDesc _).mode
            · exact absurd (.inr hm) k
            · rfl

theorem PortRec.Ok.filter {r : PortRec}
    (h : r.Ok) (f : CarrierFilter) (t : Timer) : ({ r with filter := f, filterTimer := t } : PortRec).Ok :=
  ⟨h.masks, h.downTimes⟩

theorem Keeps.setFilter (i : PortId) (f : CarrierFilter) (s : State) : Keeps s (s.setFilter i f) :=
  .modPort i _ s fun o => o.filter _ _
theorem Keeps.startFilter (i : PortId) (f : CarrierFilter) (n : Nat) (s : State)
    : Keeps s (s.startFilter i f n) :=
  .modPort i _ s fun o => o.filter _ _
theorem Keeps.acceptLoss (i : PortId) (s : State) : Keeps s (s.acceptLoss i) := (Whole.acceptLoss i s).keeps
theorem Keeps.acceptReturn (i : PortId) (s : State)
    : Keeps s (s.acceptReturn i) := (Still.acceptReturn i s).whole.keeps

theorem Keeps.beginReturn (i : PortId) (s : State) : Keeps s (s.beginReturn i) :=
  .ite ((Keeps.setFilter ..).trans (.acceptReturn ..)) (.startFilter ..)

theorem Keeps.rawLoss (i : PortId) (s : State) : Keeps s (s.rawLoss i) := by
  unfold State.rawLoss
  dsimp only
  split
  · split
    · exact .ite ((Keeps.setFilter ..).trans (.acceptLoss ..)) (.startFilter ..)
    · exact .ite ((Keeps.setFilter ..).trans (.acceptLoss ..)) ((Keeps.startFilter ..).trans
        (.acceptLoss ..))
  · exact .refl _
  · exact .modPort i _ s fun o => ⟨o.masks, o.downTimes⟩
  · exact .refl _
  · exact .setFilter ..

theorem Keeps.rawReturn (i : PortId) (s : State) : Keeps s (s.rawReturn i) := by
  unfold State.rawReturn
  split
  · exact .refl _
  · exact .setFilter ..
  · exact .modPort i _ s fun o => ⟨o.masks, o.downTimes⟩
  · exact .beginReturn ..
  · exact .refl _

theorem Keeps.filterExpiry (i : PortId) (s : State) : Keeps s (s.filterExpiry i) := by
  unfold State.filterExpiry
  split
  · exact .setFilter ..
  · exact (Keeps.setFilter ..).trans (.acceptLoss ..)
  · exact .ite (.beginReturn ..) (.setFilter ..)
  · exact .setFilter ..
  · exact (Keeps.setFilter ..).trans (.acceptReturn ..)

theorem PortRec.emptyLanes_ok {r : PortRec} (h : r.downTimes.length ≤ 8) : r.emptyLanes.Ok := by
  unfold PortRec.emptyLanes
  exact .clearMasks h

theorem PathRec.stopTimers_ok {r : PathRec}
    (h : r.Ok) : r.stopTimers.Ok := h.congr rfl rfl rfl rfl h.strikes h.flap

theorem replicate_get {α : Type} {n : Nat} (a : α) (k : Fin n) : (Vector.replicate n a).get k = a := by
  change (Vector.replicate n a)[k.val] = a
  simp

theorem Keeps.flush (s : State) : Keeps s s.flushCompletions := by
  unfold State.flushCompletions
  dsimp only
  refine Keeps.trans (t := if s.coalesced = 0 then s else s.raise .completions) (.ite (.refl _)
      (.raise _ _)) ?_
  exact .of_regs rfl rfl rfl rfl rfl rfl fun o => { o with coalesced := Nat.zero_le _ }

theorem Keeps.endStoppedSweep (s : State) : Keeps s s.endStoppedSweep := by
  unfold State.endStoppedSweep
  split <;> first | exact .refl _ | exact .fetch rfl

theorem Keeps.leaveReads (s : State) : Keeps s s.leaveReads := by
  refine (Keeps.endStoppedSweep s).trans (t := s.endStoppedSweep) ?_
  have hs : s.leaveReads.streams = mapEntries (fun e => { e with read := none }) s.endStoppedSweep.streams := by
    unfold State.leaveReads State.endStoppedSweep; split <;> rfl
  have ht : s.leaveReads.targets = mapEntries (fun e => { e with read := none }) s.endStoppedSweep.targets := by
    unfold State.leaveReads State.endStoppedSweep; split <;> rfl
  have hp : s.leaveReads.paths = mapEntries (fun e => { e with read := none }) s.endStoppedSweep.paths := by
    unfold State.leaveReads State.endStoppedSweep; split <;> rfl
  exact {
    paths := fun o p => by
      rw [State.path, hp, mapEntries_get]
      exact (o p).congr rfl rfl rfl rfl (o p).strikes (o p).flap
    ports := id
    streams := fun o p => by
      rw [State.stream, hs, mapEntries_get]
      exact ⟨(o p).contents, (o p).unread, (o p).empty, (o p).oneAtATime, (o p).inForce⟩
    targets := fun o p d hd => by
      rw [State.target, ht, mapEntries_get] at hd
      exact o p d hd
    holder := id
    queue := .congr rfl rfl
    regs := fun o => { o with } }

theorem Keeps.enterLoading (q : Bool) (s : State) : Keeps s (s.enterLoading q) := by
  unfold State.enterLoading
  dsimp only
  refine ((Keeps.flush s).trans (.leaveReads _)).trans ?_
  generalize s.flushCompletions.leaveReads = s
  unfold State.enterAdapter
  refine Keeps.trans ?_ ((Keeps.mark ..).trans (.raise ..))
  exact {
    paths := fun o p => by
      show (PathRec.Ok (Vector.get (mapEntries _ s.paths) p))
      rw [mapEntries_get]; exact PathRec.stopTimers_ok (o p)
    ports := fun o p => by
      show (PortRec.Ok (Vector.get (mapEntries _ s.ports) p))
      rw [mapEntries_get]; exact PortRec.emptyLanes_ok (o p).downTimes
    streams := id
    targets := id
    holder := id
    queue := .congr rfl rfl
    regs := fun o => { o with loading := by simp, reading := by simp } }

theorem Keeps.stopFetch (s : State) : Keeps s s.stopFetch := by
  unfold State.stopFetch
  split
  · exact .refl _
  · exact .ite (.fetch rfl) (.refl _)
  · exact .ite (.fetch rfl) (.fetch rfl)

theorem Keeps.execStart (s t : State) (h : execStart s = .next t) : Keeps s t := by
  unfold Sys2Proof.Machine.execStart at h
  split at h <;> cases h <;> first
    | exact .misuse _
    | exact .enterLoading _ _
    | exact .ite (.misuse _) (.enterLoading _ _)

theorem Keeps.execStop (s t : State) (h : execStop s = .next t) : Keeps s t := by
  unfold Sys2Proof.Machine.execStop at h
  cases h
  split
  · rename_i h
    refine (Keeps.stopFetch s).trans (Keeps.trans (.enterAdapter _ _ fun o => ?_) (.quiesceIfIdle _))
    have : s.stopFetch.adapter = s.adapter := by
      unfold State.stopFetch
      split
      · rfl
      · split <;> rfl
      · split <;> rfl
    rw [o.loading, this, h]; decide
  · exact .misuse _

theorem StreamEntry.Ok.default : ({} : StreamEntry).Ok := ⟨by simp, by simp, by simp, by simp, fun _ _ h => by cases h⟩

theorem Keeps.enterHalted (s : State) : Keeps s s.enterHalted := by
  have hc : ∀ c, s.dropAll.ctx c = none := fun c => replicate_get _ _
  exact {
    paths := fun o p => by
      show (PathRec.Ok (Vector.get (mapEntries _ s.paths) p))
      rw [mapEntries_get]
      have o := o p
      exact ⟨by simp [PathRec.warmReset],
          ⟨o.estimate.samples, o.estimate.cleared, o.estimate.held⟩, o.strikes, o.flap⟩
    ports := fun o p => by
      show (PortRec.Ok (Vector.get (mapEntries _ s.ports) p))
      rw [mapEntries_get]
      have o := PortRec.emptyLanes_ok (o p).downTimes
      exact ⟨o.masks, o.downTimes⟩
    streams := fun o p => by
      show (StreamEntry.Ok (Vector.get
          (Vector.replicate 256 {}) p)); rw [replicate_get]; exact StreamEntry.Ok.default
    targets := fun o p d hd => by
      have : (TargetEntry.contents (Vector.get (mapEntries _ s.targets) p)) = some d := hd
      rw [mapEntries_get] at this; cases this
    holder := fun o c d x y n hx => by
      exact absurd ((hc c).symm.trans hx) (by simp)
    queue := fun o => ⟨List.nodup_nil, fun c => ⟨fun h => (by cases h),
        fun ⟨x, hx, _⟩ => absurd ((hc c).symm.trans hx) (by simp)⟩,
      fun c x hx => absurd ((hc c).symm.trans hx) (by simp)⟩
    regs := fun o => ⟨rfl, Nat.zero_le _, Nat.zero_le _, fun _ h => (by cases h), o.settings,
        fun _ _ _ _ _ h => (by cases h), by simp [State.enterHalted, State.dropAll, State.setEvents], Nat.zero_le _,
            o.payload, rfl⟩ }

theorem Keeps.writePayload (c : CtxId) (x : Context) (r : Result) (s : State) :
    Keeps s (s.writePayload c x r) := .ite (.refl _) (.hostWrite _ _ _)

theorem Keeps.issuePart (k : Fin 4) (c : CtxId) (x : Context) (r : Result) (s : State) :
    Keeps s (s.issuePart k c x r) := by
  have h : Keeps s (s.writeResult x r) := .hostWrite ..
  unfold State.issuePart
  split
  · exact .refl _
  · exact h
  · exact h.trans (.writePayload ..)
  · exact (h.trans (.writePayload ..)).trans (.hostWrite ..)

theorem Keeps.cutCompletion (s : State) : Keeps s s.cutCompletion := by
  unfold State.cutCompletion
  split
  · exact .refl _
  · split
    · exact .refl _
    · split
      · exact .refl _
      · exact .ite (.issuePart ..) (.refl _)

theorem Keeps.execWarmReset (s t : State) (h : execWarmReset s = .next t) : Keeps s t := by
  have k : Keeps s s.cutCompletion.enterHalted := (Keeps.cutCompletion s).trans (.enterHalted _)
  unfold Sys2Proof.Machine.execWarmReset at h
  cases h
  exact .ite k (k.trans (.raise ..))

theorem Keeps.dropRuns (s : State) : Keeps s s.dropRuns :=
  .of_regs rfl rfl rfl rfl rfl rfl fun o => { o with fifo := Nat.zero_le _, runs :=
      fun _ h => (by cases h) }

theorem PathRec.loaded_ok {r : PathRec} (o : r.Ok) {d : PathDesc} (h : d.InRange) : (r.loaded d).Ok :=
  ⟨fun e he => by cases he; exact h,
      ⟨o.estimate.samples, o.estimate.cleared, o.estimate.held⟩, Nat.zero_le _, o.flap⟩

theorem PortRec.loaded_ok {r : PortRec} (o : r.Ok) (f : FilterSettings) : (r.loaded f).Ok :=
    ⟨o.masks, Nat.zero_le _⟩

theorem State.applySettings_path (cfg : Settings) (got : TablesRead) (s : State) (p : PathId) :
    (s.applySettings cfg got).path p = (s.path p).loaded
        (Sys2Proof.Machine.pathDesc (tableBytes got (.path p))) :=
  mapIndexed_get
      (fun (p : PathId) (r : PathRec) => r.loaded
          (Sys2Proof.Machine.pathDesc (tableBytes got (.path p)))) s.paths p
theorem State.applySettings_target (cfg : Settings) (got : TablesRead) (s : State) (p : TargetId) :
    (s.applySettings cfg got).target p = (s.target p).loaded
        (Sys2Proof.Machine.targetDesc (tableBytes got (.target p))) :=
  mapIndexed_get
      (fun (p : TargetId) (r : TargetEntry) => r.loaded
          (Sys2Proof.Machine.targetDesc (tableBytes got (.target p)))) s.targets p
theorem State.applySettings_port (cfg : Settings) (got : TablesRead) (s : State) (p : PortId) :
    (s.applySettings cfg got).port p = (s.port p).loaded (cfg.filters.get p) :=
  mapIndexed_get _ _ _
theorem State.applySettings_stream (cfg : Settings) (got : TablesRead) (s : State) (p : StreamId) :
    (s.applySettings cfg got).stream p = {} := replicate_get _ _

theorem Keeps.applySettings (cfg : Settings) (got : TablesRead) (s : State)
    (h : s.RegistersOk → cfg.InRange) :
    Keeps s (s.applySettings cfg got) where
  paths := fun o p => by
    rw [State.applySettings_path]; exact PathRec.loaded_ok (o p) (.interpreted _)
  ports := fun o p => by
    rw [State.applySettings_port]; exact PortRec.loaded_ok (o p) _
  streams := fun o p => by
    rw [State.applySettings_stream]; exact StreamEntry.Ok.default
  targets := fun o p d hd => by
    rw [State.applySettings_target] at hd; cases hd; exact .interpreted _
  holder := id
  queue := .congr rfl rfl
  regs := fun o => { o with settings := fun c hc => by cases hc; exact h o }

theorem Keeps.writeDigest (cfg : Settings) (s : State) : Keeps s (s.writeDigest cfg) := by
  unfold State.writeDigest
  dsimp only
  refine Keeps.trans ?_ (.hostWrite ..)
  exact .of_regs rfl rfl rfl rfl rfl rfl fun o => { o with }

theorem Keeps.resumeRun (s : State) : Keeps s s.resumeRun := by
  unfold State.resumeRun
  split <;> first | exact .refl _ | exact .fetch rfl

theorem Keeps.endLoading (a : AdapterState) (ha : a ≠ .loading) (s : State)
    : Keeps s ({ s with loading := none }.enterAdapter a) := by
  unfold State.enterAdapter
  refine Keeps.trans ?_ ((Keeps.mark ..).trans (.raise ..))
  exact .of_regs rfl rfl rfl rfl rfl rfl fun o => { o with loading := by simp [ha], reading := by simp }

theorem Keeps.enterRunning (s : State) : Keeps s s.enterRunning := by
  unfold State.enterRunning
  dsimp only
  refine Keeps.trans ?_ (Course.foldl _ (fun s n => .dispatch n s) _ _).whole.keeps
  refine Keeps.trans ?_ (Still.foldl _ (fun s p => .syncProbing p s) _ _).whole.keeps
  exact (Keeps.endLoading _ (by decide) _).trans (.resumeRun _)

theorem Keeps.faultLoading (r : HostRead) (rs : List Nat) (s : State) : Keeps s (s.faultLoading r rs) :=
  (Keeps.readFailed ..).trans (.endLoading _ (by decide) _)

theorem Keeps.endAnchorRead (a : ReadAnswer) (s : State) : Keeps s (s.endAnchorRead a) := by
  unfold State.endAnchorRead
  split
  · exact .refl _
  · exact .refl _
  · rename_i h
    split
    · refine .of_regs rfl rfl rfl rfl rfl rfl fun o => { o with reading := ?_, loading := ?_ }
      · intro _ _ _ _ _ e; cases e; exact .interpreted _
      · have := o.loading
        rw [h] at this
        exact this
    · exact .faultLoading ..

theorem Keeps.joinOrphans (left : List Orphan) (s : State) : Keeps s (s.joinOrphans left) :=
  .of_regs rfl rfl rfl rfl rfl rfl fun o => { o with }

theorem Keeps.endTableRead (e : TableEntry) (a : ReadAnswer) (s : State) : Keeps s (s.endTableRead e a) := by
  unfold State.endTableRead
  split
  · exact .endOrphan ..
  · exact .endOrphan ..
  · rename_i h
    split
    · exact .endOrphan ..
    · split
      · dsimp only
        split
        · unfold State.finishLoading
          dsimp only
          refine Keeps.trans ?_ (.enterRunning _)
          refine Keeps.trans ?_ (.writeDigest ..)
          refine Keeps.trans ?_ (.ite (.dropRuns _) (.refl _))
          exact .applySettings _ _ s fun o => o.reading _ _ _ _ _ h
        · refine .of_regs rfl rfl rfl rfl rfl rfl fun o => { o with reading := ?_, loading := ?_ }
          · intro _ _ _ _ _ k
            cases k
            exact o.reading _ _ _ _ _ h
          · have := o.loading
            rw [h] at this
            exact this
      · exact (Keeps.joinOrphans ..).trans (.faultLoading ..)

theorem Keeps.takeTableEnd (s : State) (e : TableReadEnd) : Keeps s (s.takeTableEnd e) :=
  .ite (.refl _) (.endTableRead ..)

theorem Keeps.failedEnd (r : HostReadId) (rs : List Nat) (s : State) : Keeps s (s.failedEnd r rs) := by
  unfold State.failedEnd
  split
  · exact .endOwnerRead ..
  · exact .endRecordRead ..
  · exact .endPayloadRead ..
  · exact .ite (.endStreamLoad ..) (.endStreamReload ..)
  · exact .endTargetReload ..
  · exact .endPathReload ..
  · exact .endAnchorRead ..
  · exact .endTableRead ..

theorem Keeps.setCompletions (s : State) : Keeps s s.setCompletions :=
  (Keeps.raise .completions s).trans
      (.of_regs rfl rfl rfl rfl rfl rfl fun o => { o with coalesced := Nat.zero_le _ })

theorem Keeps.moderate (s : State) : Keeps s s.moderate := by
  unfold State.moderate
  split
  · exact .refl _
  · rename_i cfg h
    dsimp only
    split
    · exact .setCompletions _
    · rename_i k
      refine .of_regs rfl rfl rfl rfl rfl rfl fun o => { o with coalesced := ?_ }
      have := (o.settings _ h).coalesce
      show s.coalesced + 1 ≤ 255
      omega

theorem Keeps.countDone (n : Nat) (s : State) : Keeps s (s.countDone n) :=
  .of_regs rfl rfl rfl rfl rfl rfl fun o => { o with }

theorem Keeps.issueCompletion (c : CtxId) (x : Context) (r : Result) (s : State)
    : Keeps s (s.issueCompletion c x r) :=
  ((Keeps.issuePart 3 c x r s).trans (.countDone ..)).trans (.moderate _)

theorem State.issueCompletion_ctxs (c : CtxId) (x : Context) (r : Result) (s : State) :
    (s.issueCompletion c x r).ctxs = s.ctxs ∧ (s.issueCompletion c x r).queue = s.queue := by
  have m : ∀ s : State, s.moderate.ctxs = s.ctxs ∧ s.moderate.queue = s.queue := by
    intro s; unfold State.moderate; split
    · exact ⟨rfl, rfl⟩
    · dsimp only; split <;> exact ⟨rfl, rfl⟩
  have w : ∀ s : State, (s.writePayload c x r).ctxs = s.ctxs ∧ (s.writePayload c x r).queue = s.queue := by
    intro s; unfold State.writePayload; dsimp only; split <;> exact ⟨rfl, rfl⟩
  unfold State.issueCompletion
  rw [(m _).1, (m _).2]
  exact w (s.writeResult x r)

theorem Keeps.finishHead (c : CtxId) (rest : List CtxId) (x : Context) (r : Result) (s : State)
    (h : s.queue = c :: rest) :
    Keeps s (s.finishHead c rest x r) := by
  unfold State.finishHead
  refine Keeps.trans ?_ (.quiesceIfIdle _)
  have k := Keeps.issueCompletion c x r s
  obtain ⟨e1, e2⟩ := State.issueCompletion_ctxs c x r s
  have e3 : ∀ d, (s.issueCompletion c x r).ctx d = s.ctx d := fun d => by rw [State.ctx, State.ctx, e1]
  generalize s.issueCompletion c x r = u at *
  have key : ∀ d,
      (State.setCtx c none { u with queue := rest, lastIssued := some .completion }).ctx d =
        if d = c then none else s.ctx d := by
    intro d
    rw [State.ctx_setCtx]
    split
    · rename_i e; subst e; simp
    · exact e3 d
  exact {
    paths := k.paths
    ports := k.ports
    streams := k.streams
    targets := k.targets
    holder := OneHolder.of fun d y hy => by
      rw [key] at hy
      split at hy
      · cases hy
      · exact .inr ⟨y, hy, rfl⟩
    queue := fun o => by
      have nd := o.distinct
      rw [h] at nd
      rw [List.nodup_cons] at nd
      refine ⟨nd.2, fun d => ?_, fun d y hy hc => ?_⟩
      · show d ∈ rest ↔ _
        simp only [key]
        have := o.closing d
        rw [h] at this
        split
        · rename_i e; subst e; simp [nd.1]
        · rename_i e; rw [← this]; simp [e]
      · rw [key] at hy
        split at hy
        · cases hy
        · exact o.fixed d y hy hc
    regs := fun o => { k.regs o with } }

theorem Keeps.issueRewrite (r : Rewrite) (rest : List Rewrite) (s : State)
    : Keeps s (s.issueRewrite r rest) := by
  unfold State.issueRewrite
  dsimp only
  have k : Keeps s
      { s.hostWrite (s.partAddr r.part) (partBytes s r.part) with
        rewrites := rest
        lastIssued := some .rewrite } :=
    .of_regs rfl rfl rfl rfl rfl rfl fun o => { o with }
  split
  · exact k
  · exact k.trans (.raise ..)

theorem Keeps.tick (s : State) : Keeps s s.tick where
  paths := fun o p => by
    show (PathRec.Ok (Vector.get (mapEntries _ s.paths) p))
    rw [mapEntries_get]; exact (o p).congr rfl rfl rfl rfl (o p).strikes (o p).flap
  ports := fun o p => by
    show (PortRec.Ok (Vector.get (mapEntries _ s.ports) p))
    rw [mapEntries_get]; exact ⟨(o p).masks, (o p).downTimes⟩
  streams := fun o p => by
    show (StreamEntry.Ok (Vector.get (mapEntries _ s.streams) p))
    rw [mapEntries_get]; exact ⟨(o p).contents, (o p).unread, (o p).empty, (o p).oneAtATime, (o p).inForce⟩
  targets := fun o p d hd => by
    have : (TargetEntry.contents (Vector.get (mapEntries _ s.targets) p)) = some d := hd
    rw [mapEntries_get] at this; exact o p d this
  holder := OneHolder.of fun c y hy => by
    have : (Vector.get (mapEntries _ s.ctxs) c) = some y := hy
    rw [mapEntries_get, Option.map_eq_some_iff] at this
    obtain ⟨x, hx, rfl⟩ := this
    exact .inr ⟨x, hx, rfl⟩
  queue := fun o => by
    have e : ∀ c, s.tick.ctx c = (s.ctx c).map (·.tick (s.clock + 1)) := fun c => mapEntries_get _ _ _
    refine ⟨o.distinct, fun c => ?_, fun c x hx hc => ?_⟩
    · show c ∈ s.queue ↔ _
      rw [o.closing, e]
      constructor
      · rintro ⟨x, hx, hc⟩; rw [hx]; exact ⟨_, rfl, hc⟩
      · rintro ⟨x, hx, hc⟩
        rw [Option.map_eq_some_iff] at hx
        obtain ⟨y, hy, rfl⟩ := hx
        exact ⟨y, hy, hc⟩
    · rw [e, Option.map_eq_some_iff] at hx
      obtain ⟨y, hy, rfl⟩ := hx
      exact o.fixed c y hy hc
  regs := fun o => { o with
    reading := fun q c b g v h => by
      have : s.loading.map (·.tick (s.clock + 1)) = some (.tables q c b g v) := h
      rw [Option.map_eq_some_iff] at this
      obtain ⟨l, hl, hk⟩ := this
      cases l with
      | anchor q r => cases hk
      | tables a b d e f => cases hk; exact o.reading _ _ _ _ _ hl
    loading := by
      show (s.loading.map (·.tick (s.clock + 1))).isSome = true ↔ _
      rw [Option.isSome_map]; exact o.loading }

theorem Keeps.execReloadStream (e : Byte) (s t : State) (h : execReloadStream e s = .next t)
    : Keeps s t := by
  unfold Sys2Proof.Machine.execReloadStream at h
  dsimp only at h
  cases h
  refine .ite ?_ (.misuse _)
  split
  · rename_i h; exact .readStream _ _ _ fun o _ => o.unread (.inl h)
  · exact .readStream _ _ _ fun o h => by rcases h with h | ⟨_, h⟩ <;> cases h
  · exact .readStream _ _ _ fun o h => by rcases h with h | ⟨_, h⟩ <;> cases h
  · exact .modStream _ _ s fun o => ⟨o.contents, o.unread, o.empty, o.oneAtATime, o.inForce⟩
  · exact .modStream _ _ s fun o => ⟨o.contents, o.unread, o.empty, o.oneAtATime, o.inForce⟩

theorem Keeps.execReloadTarget (e : Byte) (s t : State) (h : execReloadTarget e s = .next t)
    : Keeps s t := by
  unfold Sys2Proof.Machine.execReloadTarget at h
  cases h
  split
  · dsimp only
    refine .ite ?_ (.misuse _)
    split
    · exact .reloadTargetEntry ..
    · exact .reloadTargetEntry ..
    · exact .reloadTargetEntry ..
    · exact .modTarget _ _ s id
    · exact .modTarget _ _ s id
  · exact .misuse _

theorem Keeps.execReloadPath (e : Byte) (s t : State) (h : execReloadPath e s = .next t) : Keeps s t := by
  unfold Sys2Proof.Machine.execReloadPath at h
  cases h
  split
  · dsimp only
    refine .ite ?_ (.misuse _)
    split
    · exact .reloadPathCopy ..
    · exact .reloadPathCopy ..
    · exact .reloadPathCopy ..
    · exact .modPath _ _ s fun o => o.congr rfl rfl rfl rfl o.strikes o.flap
    · exact .modPath _ _ s fun o => o.congr rfl rfl rfl rfl o.strikes o.flap
  · exact .misuse _

theorem Keeps.execContextReservation (s t : State) (h : execContextReservation s = .next t)
    : Keeps s t := by
  unfold Sys2Proof.Machine.execContextReservation at h
  cases h
  refine .ite ?_ (.refl _)
  split
  · exact .refl _
  · rename_i c hc
    have hf : s.ctx c = none := by
      have := List.find?_some hc
      simpa using this
    refine Keeps.trans
      (.setCtx c (some {}) s (OneHolder.of fun d y hy => ?_) (QueueOk.setCtx
          (fun y hy => ?_) fun y hy => ?_))
      (.fetch rfl)
    · rw [State.ctx_setCtx] at hy
      split at hy
      · cases hy; exact .inl rfl
      · exact .inr ⟨y, hy, rfl⟩
    · rw [hf] at hy; cases hy
    · cases hy; decide

theorem Keeps.execArm (a : BitVec 12) (b : BitVec 7) (s t : State) (h : execArm a b s = .next t)
    : Keeps s t := by
  unfold Sys2Proof.Machine.execArm at h
  cases h
  split
  · rename_i hr
    split
    · unfold State.offerRun
      split
      · rename_i hl
        refine .of_regs rfl rfl rfl rfl rfl rfl fun o => { o with fifo := ?_, runs := ?_ }
        · show (s.armFifo ++ [_]).length ≤ 32
          simp only [Config.fifoPlaces] at hl
          rw [List.length_append, List.length_singleton]; omega
        · intro r h
          rcases List.mem_append.1 h with h | h
          · exact o.runs r h
          · simp at h
            subst h
            unfold State.armInRange at hr
            simp at hr
            exact ⟨hr.1.2, hr.2⟩
      · unfold State.armOverflow
        refine Keeps.trans ?_ (.raise ..)
        exact .of_regs rfl rfl rfl rfl rfl rfl fun o => { o with }
    · exact .refl _
    · exact .refl _
    · exact .misuse _
    · exact .misuse _
    · exact .misuse _
  · exact .misuse _

end Sys2Proof.Machine
end

