-- ==== Sys2Proof/Laws/Tame.lean ====
section
/-!
SUPPORT. What the operations behind the commands other than resets and register writes leave alone: `Tame s t`,
one lemma per operation.
-/

open Sys2Proof Sys2Proof.Machine

namespace Sys2Proof.Machine

/-- What no command but a reset undoes: the queue, the clock, EVENT_MASK, ANCHOR and what was issued stay, event
bits are only set, no decision is left waiting, and a context past FETCHING goes on. -/
structure Tame (s t : State) : Prop where
  pending : t.pending = s.pending
  clock : t.clock = s.clock
  eventMask : t.eventMask = s.eventMask
  anchor : t.anchor = s.anchor
  outbound : ∃ l, t.outbound = s.outbound ++ l
  event : s.event &&& t.event = s.event
  settled : s.deferred = [] → t.deferred = []
  ctxs : ∀ c x, s.ctx c = some x → x.state ≠ .fetching → ∃ y, t.ctx c = some y ∧ x.Kept y

theorem Tame.refl (s : State) :
    Tame s s :=
      ⟨rfl, rfl, rfl, rfl, ⟨[], (List.append_nil _).symm⟩, BitVec.and_self, id, fun _ x h _ => ⟨x, h, .refl x⟩⟩
theorem Tame.trans {s t u : State} (h : Tame s t) (k : Tame t u) : Tame s u where
  pending := k.pending.trans h.pending
  clock := k.clock.trans h.clock
  eventMask := k.eventMask.trans h.eventMask
  anchor := k.anchor.trans h.anchor
  outbound := by
    obtain ⟨l, hl⟩ := h.outbound
    obtain ⟨m, hm⟩ := k.outbound
    exact ⟨l ++ m, by rw [hm, hl, List.append_assoc]⟩
  event := by
    have e := h.event
    have f := k.event
    rw [← e, BitVec.and_assoc, f]
  settled := k.settled ∘ h.settled
  ctxs := fun c x hx hf => by
    obtain ⟨y, hy, ky⟩ := h.ctxs c x hx hf
    obtain ⟨z, hz, kz⟩ := k.ctxs c y hy (ky.begun hf)
    exact ⟨z, hz, ky.trans kz⟩
theorem Tame.ite {s t u : State} {p : Prop} [Decidable p] (h : Tame s t) (k : Tame s u) :
    Tame s (if p then t else u) := by split <;> assumption
theorem Tame.foldl {α : Type} (f : State → α → State) (h : ∀ s a, Tame s (f s a)) :
    ∀ (l : List α) (s : State), Tame s (l.foldl f s)
  | [], s => .refl s
  | a :: l, s => (h s a).trans (Tame.foldl f h l (f s a))

theorem Whole.tame {s t : State} (h : Whole s t) : Tame s t where
  pending := h.quiet.pending
  clock := h.quiet.clock
  eventMask := h.quiet.eventMask
  anchor := h.quiet.anchor
  outbound := let ⟨l, e, _⟩ := h.quiet.outbound; ⟨l, e⟩
  event := h.quiet.event
  settled := h.settled
  ctxs := fun c x hx _ => by
    rcases h.quiet.ctxs c with ⟨e, _⟩ | ⟨x', y, hx', hy, k⟩
    · rw [hx] at e; cases e
    · rw [hx] at hx'; cases hx'; exact ⟨y, hy, k⟩

theorem Tame.of {s t : State} (h : t = { s with
    pending := s.pending, clock := s.clock, eventMask := s.eventMask, anchor := s.anchor,
    outbound := s.outbound, event := s.event, deferred := s.deferred, ctxs := s.ctxs,
    interrupt := t.interrupt, faultAddress := t.faultAddress, faultCount := t.faultCount,
    adapter := t.adapter, loading := t.loading, orphans := t.orphans, resets := t.resets, settings := t.settings, issueNumber := t.issueNumber,
    armFifo := t.armFifo, sweepPending := t.sweepPending, job := t.job, phase := t.phase,
    payload := t.payload, streams := t.streams, targets := t.targets, paths := t.paths, ports := t.ports,
    queue := t.queue, rewrites := t.rewrites, lastIssued := t.lastIssued, groups := t.groups,
    idleArms := t.idleArms, coalesced := t.coalesced, holdoff := t.holdoff }) : Tame s t where
  pending := by rw [h]
  clock := by rw [h]
  eventMask := by rw [h]
  anchor := by rw [h]
  outbound := ⟨[], by rw [h]; exact (List.append_nil _).symm⟩
  event := by rw [h]; exact BitVec.and_self
  settled := fun e => by rw [h]; exact e
  ctxs := fun c x hx _ => ⟨x, by rw [State.ctx, h]; exact hx, .refl x⟩

theorem Tame.raise (e : Event) (s : State) : Tame s (s.raise e) := (Calm.raise _ s).whole.tame
theorem Tame.misuse (s : State) : Tame s s.misuse := .raise _ s
theorem Tame.mark (p : Part) (e : Bool) (s : State) : Tame s (s.mark p e) := (Still.mark _ _ s).whole.tame
theorem Tame.enterAdapter (a : AdapterState) (s : State) : Tame s (s.enterAdapter a) :=
  Tame.trans (t := { s with adapter := a }) (.of rfl) ((Tame.mark _ _ _).trans (.raise _ _))
theorem Tame.hostWrite (a : W64) (b : List Byte) (s : State) : Tame s (s.hostWrite a b) :=
  ⟨rfl, rfl, rfl, rfl, ⟨_, rfl⟩, BitVec.and_self, id, fun _ x h _ => ⟨x, h, .refl x⟩⟩
theorem Tame.memoryFault (a : W64) (s : State) : Tame s (s.memoryFault a) := by
  refine Tame.trans (t := { s with faultAddress := if s.faultAddress = 0 then a else s.faultAddress, faultCount := min 255 (s.faultCount + 1) }) (.of rfl) (.raise _ _)
theorem Tame.readFailed (r : HostRead) (rs : List Nat) (s : State) : Tame s (s.readFailed r rs) :=
  .foldl _ (fun s _ => .memoryFault _ s) _ _
theorem Tame.advanceJob (s : State) : Tame s s.advanceJob := by
  unfold State.advanceJob
  split
  · exact .of rfl
  · exact .ite (.of rfl) (.of rfl)
  · exact .ite (.of rfl) (.of rfl)
theorem Tame.quiesceIfIdle (s : State) : Tame s s.quiesceIfIdle := .ite (.enterAdapter ..) (.refl _)

theorem Tame.endOrphan (id : HostReadId) (a : ReadAnswer) (s : State) : Tame s (s.endOrphan id a) := by
  unfold State.endOrphan
  split
  · exact .refl _
  · have h : Tame s { s with orphans := s.orphans.eraseP fun o => o.id == id } := .of rfl
    dsimp only
    split
    · exact .ite (.refl _) h
    · exact h.trans (.readFailed ..)

theorem Tame.setFetching (c : CtxId) (x : Option Context) (s : State)
    (h : ∀ y, s.ctx c = some y → y.state = .fetching) : Tame s (s.setCtx c x) :=
  ⟨rfl, rfl, rfl, rfl, ⟨[], (List.append_nil _).symm⟩, BitVec.and_self, id, fun d y hy hf => by
    refine ⟨y, ?_, .refl y⟩
    rw [State.ctx_setCtx]
    split
    · rename_i e; subst e; exact absurd (h _ hy) hf
    · exact hy⟩

theorem Tame.freeFetching (c : CtxId) (s : State) : Tame s (s.freeFetching c) := by
  unfold State.freeFetching
  split
  · exact .refl _
  · rename_i x hx
    obtain ⟨hx, hf⟩ := State.fetchCtx_eq hx
    exact .setFetching _ _ _ fun y hy => by rw [hx] at hy; cases hy; exact hf

theorem Tame.dropFetch (c : CtxId) (s : State) : Tame s (s.dropFetch c) :=
  (Tame.freeFetching c s).trans ((Tame.advanceJob _).trans (.quiesceIfIdle _))

theorem Tame.holdExchange (c : CtxId) (n : Nat) (s : State) : Tame s (s.holdExchange c n) := by
  unfold State.holdExchange
  split
  · exact .refl _
  · rename_i x hx
    obtain ⟨hx, hf⟩ := State.fetchCtx_eq hx
    exact .setFetching _ _ _ fun y hy => by rw [hx] at hy; cases hy; exact hf

theorem Tame.refuse (c : CtxId) (st : Status) (s : State) : Tame s (s.refuse c st) :=
  (Course.complete c _ s).whole.tame.trans (.advanceJob _)

theorem Tame.modFetching (c : CtxId) (f : Context → Context) (s : State)
    (h : ∀ y, s.ctx c = some y → y.state = .fetching) : Tame s (s.modCtx c f) := by
  unfold State.modCtx
  split
  · exact .refl _
  · exact .ite (.refl _) (.setFetching _ _ _ h)

theorem Tame.checkStream (c : CtxId) (f : RecordFields) (s : State) : Tame s (s.checkStream c f) := by
  unfold State.checkStream
  split
  · exact .refl _
  · rename_i x hx
    obtain ⟨hx, hf⟩ := State.fetchCtx_eq hx
    dsimp only
    refine .ite (.refuse ..) (.ite (.refuse ..) ?_)
    refine Tame.trans (.modFetching c (fun x => x.fixFields f _ _) s fun y hy => by rw [hx] at hy; cases hy; exact hf) (.of rfl)

theorem Tame.setStream (n : StreamId) (e : StreamEntry) (s : State) : Tame s (s.setStream n e) := .of rfl
theorem Tame.modStream (n : StreamId) (f : StreamEntry → StreamEntry) (s : State) :
    Tame s (s.modStream n f) := .of rfl
theorem Tame.setTarget (n : TargetId) (e : TargetEntry) (s : State) : Tame s (s.setTarget n e) := .of rfl
theorem Tame.modTarget (n : TargetId) (f : TargetEntry → TargetEntry) (s : State) :
    Tame s (s.modTarget n f) := .of rfl
theorem Tame.setPath (n : PathId) (e : PathRec) (s : State) : Tame s (s.setPath n e) := .of rfl
theorem Tame.modPath (n : PathId) (f : PathRec → PathRec) (s : State) : Tame s (s.modPath n f) := .of rfl
theorem Tame.setPort (n : PortId) (e : PortRec) (s : State) : Tame s (s.setPort n e) := .of rfl
theorem Tame.modPort (n : PortId) (f : PortRec → PortRec) (s : State) : Tame s (s.modPort n f) := .of rfl
theorem Tame.readStream (n : StreamId) (l : LoadState) (s : State) : Tame s (s.readStream n l) := .of rfl

theorem Tame.askStream (c : CtxId) (f : RecordFields) (s : State) : Tame s (s.askStream c f) := by
  unfold State.askStream
  split
  · exact .checkStream ..
  · exact .checkStream ..
  · exact .of rfl
  · exact .of rfl
  · exact .of rfl

theorem Tame.resumeFetch (n : StreamId) (s : State) : Tame s (s.resumeFetch n) := by
  unfold State.resumeFetch
  split <;> first | exact .refl _ | exact .ite (.checkStream ..) (.refl _)

theorem Tame.endRecordRead (a : ReadAnswer) (s : State) : Tame s (s.endRecordRead a) := by
  unfold State.endRecordRead
  split <;> try exact .refl _
  unfold State.recordRead
  split
  · exact (Tame.readFailed ..).trans (.dropFetch ..)
  · split
    · split
      · rename_i c _ _ _ _ _ _
        dsimp only
        refine (Tame.holdExchange c s.job.record s).trans ?_
        split
        · exact .refuse ..
        · exact .askStream ..
      · exact (Tame.raise ..).trans (.dropFetch ..)
    · unfold State.passOver
      dsimp only
      refine Tame.trans (.ite (.of ?_) (.refl _)) (.dropFetch ..)
      rfl

theorem Tame.endOwnerRead (a : ReadAnswer) (s : State) : Tame s (s.endOwnerRead a) := by
  unfold State.endOwnerRead
  split <;> try exact .endOrphan ..
  unfold State.ownerRead
  split
  · exact (Tame.readFailed ..).trans (.advanceJob ..)
  · refine .ite (.ite ?_ ((Tame.raise ..).trans (.advanceJob ..))) (.advanceJob _)
    split <;> first | exact .of rfl | exact .advanceJob _

theorem Tame.fillSlot (c : CtxId) (b : List Byte) (s : State) : Tame s (s.fillSlot c b) := .of rfl

theorem Tame.take (c : CtxId) (x : Context) (s : State) (h : ∀ y, s.ctx c = some y → y.state = .fetching) :
    Tame s (s.take c x) := by
  unfold State.take
  dsimp only
  refine Tame.trans (t := State.mark .header false { s with issueNumber := some (s.issueNumber.getD 0 + 1) }) (.of rfl) ?_
  refine Tame.trans ?_ (Course.dispatch _ _).whole.tame
  refine Tame.trans ?_ (Tame.advanceJob _)
  refine Tame.trans ?_ (.modStream _ _ _)
  refine Tame.trans ?_ (.modFetching c _ _ h)
  exact (((Tame.hostWrite _ _ _).trans (.hostWrite _ _ _)).trans (.hostWrite _ _ _))

theorem Tame.endPayloadRead (a : ReadAnswer) (s : State) : Tame s (s.endPayloadRead a) := by
  unfold State.endPayloadRead
  split <;> try exact .refl _
  unfold State.payloadRead
  split
  · exact .refl _
  · rename_i x hx
    obtain ⟨hx, hf⟩ := State.fetchCtx_eq hx
    split
    · exact (Tame.readFailed ..).trans (.refuse ..)
    · dsimp only
      exact .ite ((Tame.fillSlot ..).trans (.refuse ..)) ((Tame.fillSlot ..).trans (.take _ _ _ fun y hy => by
        have : s.ctx _ = some y := hy
        rw [hx] at this; cases this; exact hf))

theorem Tame.readStreamAgain (n : StreamId) (s : State) :
    Tame s (s.readStreamAgain n) := .ite (.of rfl) (.refl _)

theorem Tame.streamReadEnded (n : StreamId) (s : State) : Tame s (s.streamReadEnded n) :=
  ((Tame.resumeFetch n s).trans (Course.dispatch _ _).whole.tame).trans (.readStreamAgain ..)

theorem Tame.endStreamLoad (n : StreamId) (a : ReadAnswer) (s : State) : Tame s (s.endStreamLoad n a) := by
  unfold State.endStreamLoad
  split
  · exact .refl _
  · refine .ite ?_ (.refl _)
    unfold State.streamLoaded
    split
    · exact Tame.trans (Tame.trans (.readFailed ..) (.modStream n _ _)) (.streamReadEnded ..)
    · refine Tame.trans ?_ (.streamReadEnded ..)
      exact .of rfl

theorem Tame.reroute (n : StreamId) (s : State) : Tame s (s.reroute n) := by
  unfold State.reroute
  refine (Quiet.withdrawEverywhere _ s).settle.tame.trans (.foldl _ (fun s c => ?_) _ _)
  unfold State.offerAgain
  split
  · exact .refl _
  · exact .ite ((Course.leavePark ..).trans (.offerParked ..)).whole.tame (.refl _)

theorem Tame.endStreamReload (n : StreamId) (a : ReadAnswer) (s : State) : Tame s (s.endStreamReload n a) := by
  unfold State.endStreamReload
  split
  · exact .endOrphan ..
  · refine .ite ?_ (.refl _)
    unfold State.streamReloaded
    split
    · exact Tame.trans (Tame.trans (Tame.trans (.readFailed ..) (.modStream n _ _)) (.modStream ..)) (.streamReadEnded ..)
    · dsimp only
      refine Tame.trans ?_ (.streamReadEnded ..)
      refine Tame.trans ?_ (.modStream ..)
      refine Tame.trans ?_ (.reroute ..)
      refine Tame.trans (t := s.modStream n (·.renew (Sys2Proof.Machine.streamDesc _))) (.modStream ..) (.ite (.refl _) ?_)
      unfold State.withdrawStream
      exact (Course.foldl _ (fun s c => .complete c _ s) _ _).whole.tame

theorem Tame.endTargetReload (u : TargetId) (a : ReadAnswer) (s : State) : Tame s (s.endTargetReload u a) := by
  unfold State.endTargetReload
  split
  · exact .endOrphan ..
  · refine .ite ?_ (.refl _)
    have k : ∀ s : State, Tame s (s.readTargetAgain u) := fun s => .ite (.of rfl) (.refl _)
    unfold State.targetReloaded
    split
    · dsimp only
      exact Tame.trans (Tame.trans (.readFailed ..) (.modTarget u _ _)) ((Still.recomputeReach ..).whole.tame.trans (k _))
    · dsimp only
      refine Tame.trans ?_ (k _)
      refine Tame.trans ?_ (Course.releaseTarget ..).whole.tame
      refine Tame.trans ?_ (Still.recomputeReach ..).whole.tame
      refine Tame.trans (.modTarget u _ s) (Quiet.withdrawEverywhere _ _).settle.tame

theorem Quiet.utame {s t : State} (h : Quiet s t) : Tame s.undeferred t.undeferred where
  pending := h.pending
  clock := h.clock
  eventMask := h.eventMask
  anchor := h.anchor
  outbound := let ⟨l, e, _⟩ := h.outbound; ⟨l, e⟩
  event := h.event
  settled := fun _ => rfl
  ctxs := fun c x hx _ => by
    rcases h.ctxs c with ⟨e, _⟩ | ⟨x', y, hx', hy, k⟩
    · exact absurd (e.symm.trans hx) (by simp)
    · cases (hx'.symm.trans hx); exact ⟨y, hy, k⟩

theorem Tame.pathLoss (p : PathId) (d : Option PathDesc) (s : State) : Tame s (s.pathLoss p d).settle := by
  refine Tame.trans (t := s.undeferred) ⟨rfl, rfl, rfl, rfl, ⟨[], (List.append_nil _).symm⟩, BitVec.and_self, fun _ => rfl, fun _ x h _ => ⟨x, h, .refl x⟩⟩ ?_
  refine Tame.trans ?_ (Course.settle _).whole.tame
  refine (Quiet.dropPath p s).utame.trans (Tame.trans (t := ((s.dropPath p).setCopy p d).undeferred) ?_ (Calm.pathLoss p d s).quiet.utame)
  generalize s.dropPath p = u
  have e : (u.setCopy p d).undeferred = u.undeferred.setCopy p d := rfl
  rw [e]
  exact .of rfl

theorem Tame.endPathReload (p : PathId) (a : ReadAnswer) (s : State) : Tame s (s.endPathReload p a) := by
  unfold State.endPathReload
  split
  · exact .endOrphan ..
  · refine .ite ?_ (.refl _)
    have k : ∀ s : State, Tame s (s.readPathAgain p) := fun s => .ite (.of rfl) (.refl _)
    unfold State.pathReloaded
    split
    · dsimp only
      refine Tame.trans ?_ ((Tame.pathLoss p none _).trans (k _))
      exact Tame.trans (.readFailed _ _ s) (.modPath p _ _)
    · dsimp only
      refine Tame.trans ?_ (k _)
      refine Tame.trans ?_ (.ite (.pathLoss _ _ _) (.of rfl))
      exact .of rfl

theorem Tame.setFilter (i : PortId) (f : CarrierFilter) (s : State) : Tame s (s.setFilter i f) := .of rfl
theorem Tame.startFilter (i : PortId) (f : CarrierFilter) (n : Nat) (s : State) :
    Tame s (s.startFilter i f n) := .of rfl
theorem Tame.acceptLoss (i : PortId) (s : State) : Tame s (s.acceptLoss i) := (Whole.acceptLoss i s).tame
theorem Tame.acceptReturn (i : PortId) (s : State) :
    Tame s (s.acceptReturn i) := (Still.acceptReturn i s).whole.tame
theorem Tame.beginReturn (i : PortId) (s : State) : Tame s (s.beginReturn i) :=
  .ite ((Tame.setFilter ..).trans (.acceptReturn ..)) (.startFilter ..)

theorem Tame.rawLoss (i : PortId) (s : State) : Tame s (s.rawLoss i) := by
  unfold State.rawLoss
  dsimp only
  split
  · split
    · exact .ite ((Tame.setFilter ..).trans (.acceptLoss ..)) (.startFilter ..)
    · exact .ite ((Tame.setFilter ..).trans (.acceptLoss ..)) ((Tame.startFilter ..).trans (.acceptLoss ..))
  · exact .refl _
  · exact .of rfl
  · exact .refl _
  · exact .setFilter ..

theorem Tame.rawReturn (i : PortId) (s : State) : Tame s (s.rawReturn i) := by
  unfold State.rawReturn
  split
  · exact .refl _
  · exact .setFilter ..
  · exact .of rfl
  · exact .beginReturn ..
  · exact .refl _

theorem Tame.filterExpiry (i : PortId) (s : State) : Tame s (s.filterExpiry i) := by
  unfold State.filterExpiry
  split
  · exact .setFilter ..
  · exact (Tame.setFilter ..).trans (.acceptLoss ..)
  · exact .ite (.beginReturn ..) (.setFilter ..)
  · exact .setFilter ..
  · exact (Tame.setFilter ..).trans (.acceptReturn ..)

theorem Tame.leaveReads (s : State) : Tame s s.leaveReads := by
  unfold State.leaveReads State.endStoppedSweep
  split <;> exact .of rfl

theorem Tame.enterLoading (q : Bool) (s : State) : Tame s (s.enterLoading q) := by
  unfold State.enterLoading State.flushCompletions
  dsimp only
  refine Tame.trans (t := if s.coalesced = 0 then s else s.raise .completions)
    (.ite (.refl _) (.raise _ _)) ?_
  refine Tame.trans ?_ (.enterAdapter _ _)
  generalize (if s.coalesced = 0 then s else s.raise .completions) = u
  refine Tame.trans (t := { u with coalesced := 0, holdoff := .idle }) (.of rfl) ?_
  exact (Tame.leaveReads _).trans (.of rfl)

theorem Tame.stopFetch (s : State) : Tame s s.stopFetch := by
  unfold State.stopFetch
  split
  · exact .refl _
  · exact .ite (.of rfl) (.refl _)
  · exact .ite (.of rfl) (.of rfl)

theorem Tame.endLoading (a : AdapterState) (s : State) : Tame s ({ s with loading := none }.enterAdapter a) :=
  Tame.trans (t := { s with loading := none }) (.of rfl) (.enterAdapter _ _)

theorem Tame.faultLoading (r : HostRead) (rs : List Nat) (s : State) : Tame s (s.faultLoading r rs) :=
  (Tame.readFailed ..).trans (.endLoading _ _)

theorem Tame.endAnchorRead (a : ReadAnswer) (s : State) : Tame s (s.endAnchorRead a) := by
  unfold State.endAnchorRead
  split
  · exact .refl _
  · exact .refl _
  · split
    · exact .of rfl
    · exact .faultLoading ..

theorem Tame.writeDigest (cfg : Settings) (s : State) : Tame s (s.writeDigest cfg) := by
  unfold State.writeDigest
  dsimp only
  refine Tame.trans (.of ?_) (.hostWrite ..)
  rfl

theorem Tame.enterRunning (s : State) : Tame s s.enterRunning := by
  unfold State.enterRunning
  dsimp only
  refine Tame.trans ?_ (Course.foldl _ (fun s n => .dispatch n s) _ _).whole.tame
  refine Tame.trans ?_ (Still.foldl _ (fun s p => .syncProbing p s) _ _).whole.tame
  refine (Tame.endLoading .running s).trans ?_
  unfold State.resumeRun
  split <;> first | exact .refl _ | exact .of rfl

theorem Tame.joinOrphans (left : List Orphan) (s : State) : Tame s (s.joinOrphans left) :=
  .of rfl

theorem Tame.endTableRead (e : TableEntry) (a : ReadAnswer) (s : State) : Tame s (s.endTableRead e a) := by
  unfold State.endTableRead
  split
  · exact .endOrphan ..
  · exact .endOrphan ..
  · split
    · exact .endOrphan ..
    · split
      · dsimp only
        split
        · unfold State.finishLoading
          dsimp only
          refine Tame.trans ?_ (.enterRunning _)
          refine Tame.trans ?_ (.writeDigest ..)
          refine Tame.trans ?_ (.ite (.of rfl) (.refl _))
          exact .of rfl
        · exact .of rfl
      · exact (Tame.joinOrphans ..).trans (.faultLoading ..)

theorem Tame.takeTableEnd (s : State) (e : TableReadEnd) : Tame s (s.takeTableEnd e) :=
  .ite (.refl _) (.endTableRead ..)

theorem Tame.failedEnd (r : HostReadId) (rs : List Nat) (s : State) : Tame s (s.failedEnd r rs) := by
  unfold State.failedEnd
  split
  · exact .endOwnerRead ..
  · exact .endRecordRead ..
  · exact .endPayloadRead ..
  · exact .ite (.endStreamLoad ..) (.endStreamReload ..)
  · exact .endTargetReload ..
  · exact .endPathReload ..
  · exact .endAnchorRead ..
  · exact .endTableRead ..

theorem Tame.setCompletions (s : State) : Tame s s.setCompletions :=
  (Tame.raise .completions s).trans (.of rfl)

theorem Tame.moderate (s : State) : Tame s s.moderate := by
  unfold State.moderate
  split
  · exact .refl _
  · dsimp only
    split
    · exact .setCompletions _
    · exact .of rfl

theorem Tame.writePayload (c : CtxId) (x : Context) (r : Result) (s : State) :
    Tame s (s.writePayload c x r) := .ite (.refl _) (.hostWrite _ _ _)

theorem Tame.issuePart (k : Fin 4) (c : CtxId) (x : Context) (r : Result) (s : State) :
    Tame s (s.issuePart k c x r) := by
  have h : Tame s (s.writeResult x r) := .hostWrite ..
  unfold State.issuePart
  split
  · exact .refl _
  · exact h
  · exact h.trans (.writePayload ..)
  · exact (h.trans (.writePayload ..)).trans (.hostWrite ..)

theorem Tame.cutCompletion (s : State) : Tame s s.cutCompletion := by
  unfold State.cutCompletion
  split
  · exact .refl _
  · split
    · exact .refl _
    · split
      · exact .refl _
      · exact .ite (.issuePart ..) (.refl _)

theorem Tame.issueCompletion (c : CtxId) (x : Context) (r : Result) (s : State) :
    Tame s (s.issueCompletion c x r) := by
  have k : ∀ n (s : State), Tame s (s.countDone n) := fun n s =>
    ⟨rfl, rfl, rfl, rfl, ⟨_, rfl⟩, BitVec.and_self, id, fun _ x h _ => ⟨x, h, .refl x⟩⟩
  exact (((Tame.issuePart 3 c x r s).trans (k _ _))).trans (.moderate _)

theorem Tame.issueRewrite (r : Rewrite) (rest : List Rewrite) (s : State) : Tame s (s.issueRewrite r rest) := by
  unfold State.issueRewrite
  dsimp only
  have k : Tame s { s.hostWrite (s.partAddr r.part) (partBytes s r.part) with rewrites := rest, lastIssued := some .rewrite } :=
    (Tame.hostWrite (s.partAddr r.part) (partBytes s r.part) s).trans (.of rfl)
  split
  · exact k
  · exact k.trans (.raise ..)

end Sys2Proof.Machine
end

