-- ==== Sys2Proof/Laws/Fix.lean ====
section
/-!
SUPPORT. Which operations leave the adapter state and the Issue Number alone: `Fix s t`, one lemma per operation, and
`Turn s t` for those that may end in QUIESCED.
-/

open Sys2Proof Sys2Proof.Machine

namespace Sys2Proof.Machine

/-- The adapter state and the Issue Number stay as they are. -/
def Fix (s t : State) : Prop := t.adapter = s.adapter ∧ t.issueNumber = s.issueNumber
theorem Fix.refl (s : State) : Fix s s := ⟨rfl, rfl⟩
theorem Fix.trans {s t u : State} (h : Fix s t) (k : Fix t u) : Fix s u := ⟨k.1.trans h.1, k.2.trans h.2⟩
theorem Fix.ite {s t u : State} {p : Prop} [Decidable p] (h : Fix s t) (k : Fix s u) :
    Fix s (if p then t else u) := by split <;> assumption
theorem Fix.foldl {α : Type} (f : State → α → State) (h : ∀ s a, Fix s (f s a)) :
    ∀ (l : List α) (s : State), Fix s (l.foldl f s)
  | [], s => .refl s
  | a :: l, s => (h s a).trans (Fix.foldl f h l (f s a))
theorem Quiet.fix {s t : State} (h : Quiet s t) : Fix s t := ⟨h.adapter, h.issueNumber⟩
theorem Whole.fix {s t : State} (h : Whole s t) : Fix s t := h.quiet.fix
theorem Fix.of {s t : State} (h : t.adapter = s.adapter ∧ t.issueNumber = s.issueNumber) : Fix s t := h
theorem Fix.misuse (s : State) : Fix s s.misuse := ⟨rfl, rfl⟩
theorem Fix.raise (e : Event) (s : State) : Fix s (s.raise e) := ⟨rfl, rfl⟩
theorem Fix.readFailed (r : HostRead) (rs : List Nat) (s : State) : Fix s (s.readFailed r rs) :=
  .foldl (fun s k => State.memoryFault (requestAddr r k) s) (fun _ _ => ⟨rfl, rfl⟩) _ _
theorem Fix.endOrphan (id : HostReadId) (a : ReadAnswer) (s : State) : Fix s (s.endOrphan id a) := by
  unfold State.endOrphan
  split
  · exact .refl _
  · have h : Fix s { s with orphans := s.orphans.eraseP fun o => o.id == id } :=
      ⟨rfl, rfl⟩
    dsimp only
    split
    · exact .ite (.refl _) h
    · exact h.trans (.readFailed ..)
theorem Fix.modStream (n : StreamId) (f : StreamEntry → StreamEntry) (s : State) :
    Fix s (s.modStream n f) := ⟨rfl, rfl⟩
theorem Fix.setCopy (n : PathId) (f : Option PathDesc) (s : State) : Fix s (s.setCopy n f) := ⟨rfl, rfl⟩
theorem Fix.hostWrite (n : W64) (f : List Byte) (s : State) : Fix s (s.hostWrite n f) := ⟨rfl, rfl⟩
theorem Fix.advanceJob (s : State) : Fix s s.advanceJob := by
  unfold State.advanceJob
  split
  · exact ⟨rfl, rfl⟩
  · exact .ite ⟨rfl, rfl⟩ ⟨rfl, rfl⟩
  · exact .ite ⟨rfl, rfl⟩ ⟨rfl, rfl⟩
theorem Fix.modCtx (c : CtxId) (f : Context → Context) (s : State) : Fix s (s.modCtx c f) := by
  unfold State.modCtx; split
  · exact ⟨rfl, rfl⟩
  · split <;> exact ⟨rfl, rfl⟩
theorem Fix.freeFetching (c : CtxId) (s : State) : Fix s (s.freeFetching c) := by
  unfold State.freeFetching; split <;> exact ⟨rfl, rfl⟩
theorem Fix.holdExchange (c : CtxId) (n : Nat) (s : State) : Fix s (s.holdExchange c n) := by
  unfold State.holdExchange; split <;> exact ⟨rfl, rfl⟩
theorem Fix.refuse (c : CtxId) (st : Status) (s : State) : Fix s (s.refuse c st) :=
  (Course.complete c _ s).whole.fix.trans (.advanceJob _)
theorem Fix.checkStream (c : CtxId) (f : RecordFields) (s : State) : Fix s (s.checkStream c f) := by
  unfold State.checkStream
  split
  · exact .refl _
  · dsimp only
    exact .ite (.refuse ..) (.ite (.refuse ..) (.modCtx ..))
theorem Fix.askStream (c : CtxId) (f : RecordFields) (s : State) : Fix s (s.askStream c f) := by
  unfold State.askStream
  split <;> first | exact .checkStream .. | exact ⟨rfl, rfl⟩
theorem Fix.resumeFetch (n : StreamId) (s : State) : Fix s (s.resumeFetch n) := by
  unfold State.resumeFetch
  split <;> first | exact .refl _ | exact .ite (.checkStream ..) (.refl _)
theorem Fix.endOwnerRead (a : ReadAnswer) (s : State) : Fix s (s.endOwnerRead a) := by
  unfold State.endOwnerRead
  split <;> try exact .endOrphan ..
  unfold State.ownerRead
  split
  · exact (Fix.readFailed ..).trans (.advanceJob ..)
  · refine .ite (.ite ?_ ((Fix.raise ..).trans (.advanceJob ..))) (.advanceJob _)
    split <;> first | exact ⟨rfl, rfl⟩ | exact .advanceJob _
theorem Fix.readStreamAgain (n : StreamId) (s : State) :
    Fix s (s.readStreamAgain n) := .ite ⟨rfl, rfl⟩ (.refl _)
theorem Fix.streamReadEnded (n : StreamId) (s : State) : Fix s (s.streamReadEnded n) :=
  ((Fix.resumeFetch n s).trans (Course.dispatch _ _).whole.fix).trans (.readStreamAgain ..)
theorem Fix.endStreamLoad (n : StreamId) (a : ReadAnswer) (s : State) : Fix s (s.endStreamLoad n a) := by
  unfold State.endStreamLoad
  split
  · exact .refl _
  · refine .ite ?_ (.refl _)
    unfold State.streamLoaded
    split
    · refine Fix.trans ?_ (.streamReadEnded ..)
      exact Fix.readFailed _ _ s
    · refine Fix.trans ?_ (.streamReadEnded ..)
      exact ⟨rfl, rfl⟩
theorem Fix.reroute (n : StreamId) (s : State) : Fix s (s.reroute n) := by
  unfold State.reroute
  refine (Quiet.withdrawEverywhere _ s).settle.fix.trans (.foldl _ (fun s c => ?_) _ _)
  unfold State.offerAgain
  split
  · exact .refl _
  · exact .ite ((Course.leavePark ..).trans (.offerParked ..)).whole.fix (.refl _)
theorem Fix.endStreamReload (n : StreamId) (a : ReadAnswer) (s : State) : Fix s (s.endStreamReload n a) := by
  unfold State.endStreamReload
  split
  · exact .endOrphan ..
  · refine .ite ?_ (.refl _)
    unfold State.streamReloaded
    split
    · refine Fix.trans ?_ (.streamReadEnded ..)
      exact Fix.readFailed _ _ s
    · dsimp only
      refine Fix.trans ?_ (.streamReadEnded ..)
      refine Fix.trans (t := State.reroute n _) (Fix.trans ?_ (.reroute ..)) (.modStream ..)
      refine Fix.trans (t := s.modStream n (·.renew (Sys2Proof.Machine.streamDesc _))) ⟨rfl, rfl⟩ (.ite (.refl _) ?_)
      unfold State.withdrawStream
      exact (Course.foldl _ (fun s c => .complete c _ s) _ _).whole.fix
theorem Fix.endTargetReload (u : TargetId) (a : ReadAnswer) (s : State) : Fix s (s.endTargetReload u a) := by
  unfold State.endTargetReload
  split
  · exact .endOrphan ..
  · refine .ite ?_ (.refl _)
    have k : ∀ s : State, Fix s (s.readTargetAgain u) := fun s => .ite ⟨rfl, rfl⟩ (.refl _)
    unfold State.targetReloaded
    split
    · dsimp only
      refine Fix.trans ?_ (k _)
      refine Fix.trans ?_ (Still.recomputeReach ..).whole.fix
      exact Fix.readFailed _ _ s
    · dsimp only
      refine Fix.trans ?_ (k _)
      refine Fix.trans ?_ (Course.releaseTarget ..).whole.fix
      refine Fix.trans ?_ (Still.recomputeReach ..).whole.fix
      exact Fix.trans (t := s.modTarget u _) ⟨rfl, rfl⟩ (Quiet.withdrawEverywhere _ _).settle.fix
theorem Fix.pathLoss (p : PathId) (d : Option PathDesc) (s : State) : Fix s (s.pathLoss p d).settle := by
  refine Fix.trans ?_ (State.settle_spec _).1.fix
  refine Fix.trans ?_ (Calm.pathLoss p d s).quiet.fix
  exact (Quiet.dropPath p s).fix.trans (.setCopy ..)
theorem Fix.endPathReload (p : PathId) (a : ReadAnswer) (s : State) : Fix s (s.endPathReload p a) := by
  unfold State.endPathReload
  split
  · exact .endOrphan ..
  · refine .ite ?_ (.refl _)
    have k : ∀ s : State, Fix s (s.readPathAgain p) := fun s => .ite ⟨rfl, rfl⟩ (.refl _)
    unfold State.pathReloaded
    split
    · dsimp only
      refine Fix.trans ?_ ((Fix.pathLoss p none _).trans (k _))
      exact Fix.readFailed _ _ s
    · dsimp only
      refine Fix.trans ?_ (k _)
      refine Fix.trans ?_ (.ite (.pathLoss _ _ _) ⟨rfl, rfl⟩)
      exact ⟨rfl, rfl⟩
theorem Fix.acceptLoss (i : PortId) (s : State) : Fix s (s.acceptLoss i) := (Whole.acceptLoss i s).fix
theorem Fix.acceptReturn (i : PortId) (s : State) :
    Fix s (s.acceptReturn i) := (Still.acceptReturn i s).whole.fix
theorem Fix.beginReturn (i : PortId) (s : State) : Fix s (s.beginReturn i) :=
  .ite (Fix.trans (t := s.setFilter i .present) ⟨rfl, rfl⟩ (.acceptReturn ..)) ⟨rfl, rfl⟩
theorem Fix.rawLoss (i : PortId) (s : State) : Fix s (s.rawLoss i) := by
  unfold State.rawLoss
  dsimp only
  split
  · split
    · exact .ite (Fix.trans (t := s.setFilter i .lost) ⟨rfl, rfl⟩ (.acceptLoss ..)) ⟨rfl, rfl⟩
    · exact .ite (Fix.trans (t := s.setFilter i .lost) ⟨rfl, rfl⟩ (.acceptLoss ..)) (Fix.trans (t := s.startFilter i _ _) ⟨rfl, rfl⟩ (.acceptLoss ..))
  all_goals exact ⟨rfl, rfl⟩
theorem Fix.rawReturn (i : PortId) (s : State) : Fix s (s.rawReturn i) := by
  unfold State.rawReturn
  split <;> first | exact ⟨rfl, rfl⟩ | exact .beginReturn ..
theorem Fix.filterExpiry (i : PortId) (s : State) : Fix s (s.filterExpiry i) := by
  unfold State.filterExpiry
  split
  · exact ⟨rfl, rfl⟩
  · exact (Fix.trans (t := s.setFilter i .lost) ⟨rfl, rfl⟩ (.acceptLoss ..))
  · exact .ite (.beginReturn ..) ⟨rfl, rfl⟩
  · exact ⟨rfl, rfl⟩
  · exact (Fix.trans (t := s.setFilter i .present) ⟨rfl, rfl⟩ (.acceptReturn ..))
theorem Fix.setCompletions (s : State) : Fix s s.setCompletions := ⟨rfl, rfl⟩
theorem Fix.moderate (s : State) : Fix s s.moderate := by
  unfold State.moderate
  split
  · exact .refl _
  · dsimp only
    split <;> exact ⟨rfl, rfl⟩
theorem Fix.issueCompletion (c : CtxId) (x : Context) (r : Result) (s : State) :
    Fix s (s.issueCompletion c x r) := by
  unfold State.issueCompletion
  refine Fix.trans ?_ (.moderate _)
  refine Fix.trans (t := (s.writeResult x r).writePayload c x r) ?_ ⟨rfl, rfl⟩
  unfold State.writePayload; dsimp only; split <;> exact ⟨rfl, rfl⟩
theorem Fix.issueRewrite (r : Rewrite) (rest : List Rewrite) (s : State) : Fix s (s.issueRewrite r rest) := by
  unfold State.issueRewrite
  dsimp only
  split <;> exact ⟨rfl, rfl⟩

/-- The Issue Number stays, and the adapter state stays or turns from QUIESCING to QUIESCED with no context live. -/
def Turn (s t : State) : Prop := t.issueNumber = s.issueNumber ∧
  (t.adapter = s.adapter ∨ s.adapter = .quiescing ∧ t.adapter = .quiesced ∧ t.liveCount = 0 ∧ t.event &&& 0x080 = 0x080)

theorem or_80 (e : BitVec 9) : (e ||| 0x080#9) &&& 0x080#9 = 0x080#9 := by
  ext i; simp
  cases e[i] <;> simp

theorem Turn.quiesce (s : State) : Turn s s.quiesceIfIdle := by
  unfold State.quiesceIfIdle
  split
  · rename_i h
    exact ⟨rfl, .inr ⟨h.1, rfl, h.2, or_80 _⟩⟩
  · exact ⟨rfl, .inl rfl⟩
theorem Fix.turn {s t u : State} (h : Fix s t) (k : Turn t u) : Turn s u := by
  unfold Turn at *
  rw [h.1, h.2] at k
  exact k
theorem Turn.of {s t : State} (h : Fix s t) : Turn s t := ⟨h.2, .inl h.1⟩
theorem Turn.dropFetch (c : CtxId) (s : State) : Turn s (s.dropFetch c) :=
  ((Fix.freeFetching c s).trans (.advanceJob _)).turn (.quiesce _)
theorem Turn.endRecordRead (a : ReadAnswer) (s : State) : Turn s (s.endRecordRead a) := by
  unfold State.endRecordRead
  split <;> try exact .of (.refl _)
  unfold State.recordRead
  split
  · exact (Fix.readFailed ..).turn (.dropFetch ..)
  · split
    · split
      · rename_i c _ _ _ _ _ _
        dsimp only
        refine Turn.of ((Fix.holdExchange c s.job.record s).trans ?_)
        split
        · exact .refuse ..
        · exact .askStream ..
      · exact (Fix.raise ..).turn (.dropFetch ..)
    · unfold State.passOver
      dsimp only
      refine Fix.turn (t := if s.job.isRun then State.mark .header false { s with idleArms := s.idleArms + 1 } else s) (.ite ⟨rfl, rfl⟩ (.refl _)) (.dropFetch _ _)

end Sys2Proof.Machine
end

