-- ==== Sys2Proof/Tests/Slice0.lean ====
section
/-!
SUPPORT. Tests of the model. First the checks of WellFormed, each with a term it refuses; then small steps whose
expected results are the manual's worked examples and tables, named in each docstring; then, for each statement
that has hypotheses, states and operands that meet them, clause by clause.
-/

open Sys2Proof Sys2Proof.Machine

namespace Sys2Proof.Tests

-- one thread at a time: each kernel evaluation below would otherwise hold a thread of its own
set_option Elab.async false

/-! ### Helpers -/

/-- What a command leads to from a state. -/
def after (c : Instr) (s : State) : State :=
  match exec c s with
  | .next t => t
  | .fault _ => s
  | .refused _ => s

/-- An Anchor with N = 512, every lane at level 1, two DOWN entries for a trip, Coalesce 3 and Holdoff 100 µs. -/
def anchor : Settings :=
  { anchorSettings [] with
    records := 512
    laneLevels := Vector.replicate 8 .level1
    corrWindow := 250
    corrThreshold := 2
    coalesce := 3
    holdoff := 100 }

/-- RUNNING under that Anchor, at time 1000, with no command waiting. -/
def running : State :=
  { State.reset with adapter := .running, settings := some anchor, issueNumber := some 5000, clock := 1000 }

/-- A path descriptor on P2 with the values of 06, section 6.13. -/
def desc : PathDesc :=
  { pathDesc [] with enabled := true, port := 2, remote := 0x0A0000000028 }

/-- RUNNING with path 40 as given, and its port up. -/
def withPath (r : PathRec) : State :=
  { running with
    paths := running.paths.set 40 { r with load := .valid, contents := some desc }
    ports := running.ports.set 2 { PortRec.initial with filter := .present, state := .up } }

/-- A stream descriptor that is present, at level 3, with Max Attempts 4 and every path permitted. -/
def sdesc : StreamDesc :=
  { streamDesc [1, 5] with level := 3, permits := BitVec.allOnes 128, window := 3 }

/-- RUNNING with stream 9 VALID, as given but for its copy, and target 5 with path 40 in its list. -/
def withStream (e : StreamEntry) (r : PathRec) : State :=
  { withPath r with
    streams := running.streams.set 9 { e with load := .valid, contents := some sdesc }
    targets :=
      running.targets.set 5
        { load := .valid, contents := some { targetDesc [] with pathList := [40] }, reach := .unreachable } }

/-- A context of stream 9 past its taking, with exchange number 300. -/
def live (state : CtxState) (kind : Kind) : Context :=
  { exch := some 300, state := state, kind := kind, stream := 9, issue := 5000, reqLen := 1, replyCap := 8
    deadlineTimer := .expired 0 1 }

/-- An attempt on path 40, SENT as number 1. -/
def sent : Attempt :=
  { id := 0, number := some 1, path := 40, gen := 0, twin := none, redrive := false, sendTime := some 500
    state := .sent }

/-- An inquiry SENT on path 40. -/
def asked : Inquiry :=
  { count := 1, timeouts := 0, gen := 0, path := some 40, lastSent := some 40, state := some .sent, bar := true }

/-- A state with one live context, context 0. -/
def holding (x : Context) (s : State) : State :=
  s.setCtx 0 (some x)

/-- A frame from path 40 at P2, under the Anchor's addresses of 0. -/
def frame (h : LinkHeader) (payload : List Byte) : EthFrame :=
  { dest := 0, src := desc.remote, etype := 0, checkOk := true, body := headerBytes h.withCheck ++ payload }

/-- A read in progress whose 50 ms have run. -/
def late : HostRead :=
  { addr := 0x1000, len := 4, limit := .expired 0 50000 }

/-- A read in progress whose 50 ms run. -/
def early : HostRead :=
  { late with limit := .running 900 50000 }

/-! ### WellFormed: a term that each check refuses -/

theorem test_wf_unknown_kind_1_to_11 : (Instr.noticeUnknownKind 11).wellFormed = false ∧
    (Instr.noticeUnknownKind 12).wellFormed = true ∧ (Instr.noticeUnknownKind 0).wellFormed = true := by decide

theorem test_wf_anchor_half : (Instr.anchorWrite .low 0x100000000).wellFormed = false ∧
    (Instr.anchorWrite .high 0x100000000).wellFormed = false ∧
    (Instr.anchorWrite .low 0xFFFFFFFF).wellFormed = true ∧
    (Instr.anchorWrite (.inside 0x0C) 1).wellFormed = false ∧ (Instr.anchorWrite (.inside 0x10) 1).wellFormed = false ∧
    (Instr.anchorWrite (.inside 0x0F) 0x100000000).wellFormed = false ∧
    (Instr.anchorWrite (.inside 0x09) 1).wellFormed = true := by decide

theorem test_wf_other_write_at_a_register : (Instr.otherRegisterWrite 0x10 .w32).wellFormed = false ∧
    (Instr.otherRegisterWrite 0x14 .w32).wellFormed = true ∧
    (Instr.otherRegisterWrite 0x10 .w16).wellFormed = true := by decide

theorem test_wf_unmapped_read : (Instr.unmappedRegisterRead 0x2C).wellFormed = false ∧
    (Instr.unmappedRegisterRead 0x24).wellFormed = true ∧
    (Instr.unmappedRegisterRead 0x30).wellFormed = true := by decide

theorem test_wf_failed_requests : (Instr.hostReadTimeout .record []).wellFormed = false ∧
    (Instr.hostReadTimeout .record [0, 0]).wellFormed = false ∧
    (Instr.hostReadTimeout .record [1, 0]).wellFormed = true := by decide

theorem test_wf_owner_word : (Instr.sweepOwnerReadEnd (.data [1])).wellFormed = false := by decide

theorem test_wf_record : (Instr.recordReadEnd (.data [1])).wellFormed = false := by decide

theorem test_wf_payload : (Instr.payloadReadEnd (.data [])).wellFormed = false := by decide

theorem test_wf_stream : (Instr.streamLoadReadEnd 9 (.data [])).wellFormed = false ∧
    (Instr.reloadStreamReadEnd 9 (.data [])).wellFormed = false := by decide

theorem test_wf_target : (Instr.reloadTargetReadEnd 5 (.data [1])).wellFormed = false := by decide

theorem test_wf_path : (Instr.reloadPathReadEnd 40 (.data [1])).wellFormed = false := by decide

theorem test_wf_anchor : (Instr.loadingAnchorReadEnd (.data [1])).wellFormed = false := by decide

theorem test_wf_tables : (Instr.loadingTablesReadEnd []).wellFormed = false ∧
    (Instr.loadingTablesReadEnd [⟨.target 3, .data [1]⟩]).wellFormed = false ∧
    (Instr.loadingTablesReadEnd [⟨.path 3, .failed []⟩]).wellFormed = false ∧
    (Instr.loadingTablesReadEnd [⟨.path 3, .failed [0]⟩, ⟨.path 3, .failed [0]⟩]).wellFormed = false ∧
    (Instr.loadingTablesReadEnd [⟨.target 3, .failed [0]⟩, ⟨.path 3, .failed [0]⟩]).wellFormed = true := by decide

/-! ### Words of the window (11, section 11.2, "Examples of encoded words") -/

theorem test_word_arm : decodeNotice 0x00407E01 = .arm 126 4 := by decide

theorem test_word_fence : decodeNotice 0x00002807 = .fence 40 := by decide

theorem test_word_reload_stream : decodeNotice 0x00001104 = .reloadStream 17 := by decide

theorem test_word_reload_target : decodeNotice 0x00004605 = .reloadTarget 70 ∧
    (after (.reloadTarget 70) running).event = 0x100 := by decide +kernel

/-! ### Examples of interpretation (02, 05, 10) -/

/-- 02, section 2.2: the examples below R28, R29 and R30. -/
theorem test_stream_window : (streamDesc [1, 0, 0, 1, 0]).window = 1 ∧ (streamDesc [1, 0, 0, 0, 40]).window = 32 ∧
    (streamDesc [1, 0, 0, 1, 0]).trafficClass = 2 ∧ (streamDesc []).maxAttempts = 4 ∧
    (streamDesc [0, 0, 0, 0, 0, 12]).maxAttempts = 8 := by decide

/-- 02, R28: 300 µs is taken as 500, and 900,000 with 5,000 gives the pair 900,000 and 900,000. -/
theorem test_stream_timeouts : (streamDesc (List.replicate 8 0 ++ leBytes 300 4)).minTimeout = 500 ∧
    (streamDesc (List.replicate 8 0 ++ leBytes 900000 4 ++ leBytes 5000 4)).minTimeout = 900000 ∧
    (streamDesc (List.replicate 8 0 ++ leBytes 900000 4 ++ leBytes 5000 4)).maxTimeout = 900000 := by decide

/-- 02, R29: Path Count 4 with 12, 200, 12 and 40 gives 12, 40; Path Count 0 is taken as 1. -/
theorem test_path_list : (targetDesc [0, 0, 4, 0, 12, 200, 12, 40]).pathList = [12, 40] ∧
    (targetDesc [0, 0, 0, 0, 12, 13]).pathList = [12] := by decide

/-- 02, R30: thresholds 9 and 4 give 9 and 10; limits 3,001 and 5,000 give a lower one of 1,500. -/
theorem test_path_thresholds : (pathDesc (List.replicate 8 0 ++ [9, 4])).downThreshold = 10 ∧
    (pathDesc (List.replicate 32 0 ++ leBytes 3001 4 ++ leBytes 5000 4)).lowerLatency = 1500 := by decide +kernel

/-- 10, R167: N = 200 is taken as 192, 20 as 64, 9000 as 4096; a Correlation Window of 5 ms as 10 ms. -/
theorem test_record_count : recordCount 200 = 192 ∧ recordCount 20 = 64 ∧ recordCount 9000 = 4096 ∧
    (anchorSettings (List.replicate 8 0 ++ [5, 0])).corrWindow = 10 := by decide +kernel

/-- 08, section 8.1: the wrapped difference of 00000214h and FFFFFF00h is 788 µs. -/
theorem test_elapsed_wraps : elapsed 0x214 0xFFFFFF00 = 788 ∧
    Timer.tick 0x6CF (.running 0xFFFFFF00 2000) = .running 0xFFFFFF00 2000 ∧
    Timer.tick 0x6D0 (.running 0xFFFFFF00 2000) = .expired 0xFFFFFF00 2000 := by decide

/-! ### Estimates and timeouts (03, section 3.6) -/

/-- Path 13: SRTT 610 and RTTVAR 90 with a sample of 530 µs give 600 and 88. -/
theorem test_estimate : (({ samples := 40, srtt := 610, rttvar := 90 } : PathRec).update 530).srtt = 600 ∧
    (({ samples := 40, srtt := 610, rttvar := 90 } : PathRec).update 530).rttvar = 88 ∧
    (({} : PathRec).update 2400).rttvar = 1200 := by decide

/-- Path 13 with 600 and 88 has base 952; path 77 without a sample 50,000; k = 2 gives 3,808. -/
theorem test_rto : rto { samples := 41, srtt := 600, rttvar := 88 } 50 0 500 200000 = 952 ∧
    rto { samples := 41, srtt := 600, rttvar := 88 } 50 0 2000 200000 = 2000 ∧
    rto { samples := 41, srtt := 600, rttvar := 88 } 50 2 2000 200000 = 3808 ∧
    rto {} 50 0 2000 200000 = 50000 := by decide

/-- Path 41, SLOW with 380 and 60 and limits 350 and 175: a sample of 120 µs gives 348 and keeps SLOW. -/
theorem test_band : (({ samples := 9, srtt := 380, rttvar := 60, slow := true } : PathRec).takeSample
      { desc with upperLatency := 350, lowerLatency := 175 } 120).srtt = 348 ∧
    (({ samples := 9, srtt := 380, rttvar := 60, slow := true } : PathRec).takeSample
      { desc with upperLatency := 350, lowerLatency := 175 } 120).slow = true := by decide +kernel

/-! ### Steps of the worked examples -/

/-- 01, section 1.3: ARM (200, 8) with 32 runs in the FIFO. -/
theorem test_arm_overflow : (after (.arm 200 8)
      { running with armFifo := List.replicate 32 { first := 0, len := 1 } }).armFifo.length = 32 ∧
    (after (.arm 200 8)
      { running with armFifo := List.replicate 32 { first := 0, len := 1 } }).event = 0x010 := by decide +kernel

/-- 01, section 1.4: record 127 reads EMPTY: an idle arm, and the run goes on at record 128 mod N. -/
theorem test_idle_arm : (after (.recordReadEnd (.data (List.replicate 128 0)))
      { holding {} running with phase := .record 0 early, job := .run 511 2 }).idleArms = 1 ∧
    (after (.recordReadEnd (.data (List.replicate 128 0)))
      { holding {} running with phase := .record 0 early, job := .run 511 2 }).job = .run 0 1 ∧
    (after (.recordReadEnd (.data (List.replicate 128 0)))
      { holding {} running with phase := .record 0 early, job := .run 511 2 }).ctx 0 = none := by decide +kernel

/-- 01, section 1.4: a taken record has the Issue Number after 5000. -/
theorem test_taking : ((after (.payloadReadEnd (.data [0xAB]))
      { holding { live .fetching .query with issue := 0 } (withStream {} {}) with
        phase := .payload 0 early, job := .run 126 1 }).ctx 0).map (·.issue) = some 5001 ∧
    (after (.payloadReadEnd (.data [0xAB]))
      { holding { live .fetching .query with issue := 0 } (withStream {} {}) with
        phase := .payload 0 early, job := .run 126 1 }).issueNumber = some 5001 := by decide +kernel

/-- 02, section 2.5: with Window 3 and three in flight a fourth exchange stays PENDING. -/
theorem test_window_full : (((withStream { pendingList := [23], inflight := 3 } {}).dispatch 9).stream 9).inflight = 3 ∧
    (((holding (live .pending .query) (withStream { pendingList := [0], inflight := 2 } {})).dispatch 9).stream 9).inflight
      = 3 := by decide +kernel

/-- RUNNING with port P2 as given. -/
def withPort (r : PortRec) : State :=
  { running with ports := running.ports.set 2 r }

/-- 04, section 4.2: a raw loss in DELAYED mode with 5 ms; and in IMMEDIATE mode, whose hold ends at 5 ms. -/
theorem test_dip :
    ((after (.rawCarrierLoss 2) (withPort { PortRec.initial with filter := .present, state := .up })).port 2).filter
      = .lossPending ∧
    ((after (.rawCarrierLoss 2) (withPort { PortRec.initial with filter := .present, state := .up })).port 2).state
      = .up ∧
    ((after (.rawCarrierLoss 2) (withPort
      { settings := { mode := .immediate, lossTime := 5, returnTime := 200 }, filter := .present, state := .up })).port
        2).state = .down ∧
    ((after (.carrierFilterExpiry 2) (withPort
      { PortRec.initial with filter := .hold true, filterTimer := .expired 0 5000 })).port 2).filterTimer
      = .running 1000 200000 := by
  decide +kernel

/-- 04, section 4.7: lane 2 at level 1, lane 3 at level 2, lane 6 at level 3; lanes 0, 2, 3 and 6 hold frames. -/
def contended (masks : Vector Bool 8) (chit2 chit3 : Bool) : State :=
  { running with
    settings := some { anchor with
      laneLevels := #v[.level1, .level1, .level1, .level2, .off, .off, .level3, .off] }
    ports := running.ports.set 2
      { PortRec.initial with
        state := .up
        lanes := #v[[.probe 40 0], [], [.request 0 0 40 0], [.request 0 1 40 0], [], [], [.request 0 2 40 0], []]
        laneMasks := masks, chit2 := chit2, chit3 := chit3 } }

/-- Grants 1, 3, 4, 6, 9 and 12 of the table: the lane granted, from the masks of the row before. -/
theorem test_grant_order :
    ((contended (Vector.replicate 8 false) false false).select 2).lane = some 0 ∧
    ((contended #v[true, false, true, false, false, false, false, false] false false).select 2).lane = some 3 ∧
    ((contended #v[true, false, true, true, false, false, false, false] true false).select 2).lane = some 0 ∧
    ((contended #v[true, false, true, true, false, false, false, false] false false).select 2).lane = some 6 ∧
    ((contended #v[true, false, true, true, false, false, true, false] false true).select 2).lane = some 3 ∧
    ((contended #v[true, false, true, true, false, false, true, false] false false).select 2).lane = some 6 := by
  decide +kernel

/-- 05, section 5.1: words that sum to 3A7Ch take the Header Check C584h; a risen word breaks the sum. -/
theorem test_header_check : ({ adapterId := 0x3A7C } : LinkHeader).withCheck.check = 0xC584 ∧
    headerSum (headerBytes { adapterId := 0x3B7C, check := 0xC584 }) = 0x100 := by
  decide +kernel

/-- 06, section 6.13: 8,000 ms after its entry to UP, with Stability Period 30,000, path 40 takes flap level 1 and
a hold-down of 2,000 ms; at level 1 a failed proving gives level 2 and 4,000 ms. -/
theorem test_flapping :
    (({ health := .suspect, strikes := 6, lastUp := some 0 } : PathRec).enterDown 8000000 desc).flap = 1 ∧
    (({ health := .suspect, strikes := 6, lastUp := some 0 } : PathRec).enterDown 8000000 desc).hold
      = .running 8000000 2000000 ∧
    (({ health := .recovering, flap := 1 } : PathRec).enterDown 10059000 desc).hold = .running 10059000 4000000 := by
  decide +kernel

/-- 06, section 6.13: in the fast interval of 20 ms a Probe Deadline of 30 ms is taken as 19 ms. -/
theorem test_probe_deadline : (((withPath { health := .down }).loadProbeTimes 40).path 40).probeDeadline = 19 ∧
    (((withPath { health := .up }).loadProbeTimes 40).path 40).probeDeadline = 30 := by decide +kernel

/-- 06, section 6.10: P2 at 1,180 ms, with a DOWN entry at 1,000 ms, and path 40 UP with 1 strike. -/
def beforeTrip : State :=
  { (withPath { health := .up, strikes := 1 }).modPort 2 (fun r => { r with downTimes := [1000000] }) with
    clock := 1180000 }

/-- 06, section 6.10: two DOWN entries within 250 ms trip P2, and path 40 enters SUSPECT with 3 strikes. -/
theorem test_trip :
    ((beforeTrip.correlate 2).port 2).state = .suspect ∧ ((beforeTrip.correlate 2).path 40).strikes = 3 ∧
    ((beforeTrip.correlate 2).path 40).health = .suspect := by decide +kernel

/-- 09, section 9.3: with Coalesce Count 3 the third completion sets COMPLETIONS, and a holdoff expiry with one
counted sets it. -/
theorem test_coalescing : ({ running with coalesced := 2 }.moderate).event = 0x001 ∧
    ({ running with coalesced := 2 }.moderate).coalesced = 0 ∧
    (({ running with clock := 60 } : State).moderate).holdoff = .running 60 100 ∧
    (after .holdoffExpiry { running with coalesced := 1, holdoff := .expired 60 100 }).event = 0x001 := by
  decide +kernel

/-- R166: ANCHOR's halves; a write outside HALTED is discarded with MISUSE. -/
theorem test_anchor_write : (after (.anchorWrite .high 0x12) { State.reset with anchor := 0x55 }).anchor
      = 0x1200000055 ∧
    (after (.anchorWrite .whole 0x12) running).anchor = 0 ∧ (after (.anchorWrite .whole 0x12) running).event = 0x100 := by
  decide +kernel

/-- R165, 11 section 11.1: STATUS of the running adapter with one live context. -/
theorem test_status : windowRead (holding {} running) 0x14 = 0x12 := by decide +kernel

/-- R174: 16-bit writes at an odd offset, unaligned 32-bit and 64-bit accesses, and a 64-bit write at FFCh, whose
lower half alone lies in the window. -/
theorem test_every_offset : decodeWindowWrite 0x11 .w16 1 = [.otherRegisterWrite 0x11 .w16] ∧
    decodeWindowWrite 0x32 .w32 1 = [.otherRegisterWrite 0x32 .w32] ∧
    decodeWindowWrite 0xFFC .w64 1 = [.otherRegisterWrite 0xFFC .w32] ∧
    decodeWindowRead 0x27 .w16 = [.unmappedRegisterRead 0x27] ∧
    decodeWindowRead 0x2C .w64 = [.unmappedRegisterRead 0x30] := by decide +kernel

/-- R174: each half of an unaligned 64-bit write is judged at its own offset: at IDENT, STATUS or no register it is
discarded with MISUSE, inside ANCHOR and FAULT_ADDRESS it is a write of that register, whatever the other half is. -/
theorem test_unaligned_halves :
    decodeWindowWrite 0x05 .w64 0x200000001 = [.otherRegisterWrite 0x05 .w32, .anchorWrite (.inside 0x09) 2] ∧
    decodeWindowWrite 0x21 .w64 1 = [.otherRegisterWrite 0x25 .w32] ∧
    decodeWindowWrite 0x11 .w64 1 = [.otherRegisterWrite 0x15 .w32] ∧
    decodeWindowWrite 0x15 .w64 1 = [.otherRegisterWrite 0x15 .w32] ∧
    decodeWindowWrite 0x25 .w64 1 = [.otherRegisterWrite 0x25 .w32, .faultAddressWrite 0] ∧
    decodeWindowWrite 0x2D .w64 1 = [.faultAddressWrite 1, .otherRegisterWrite 0x31 .w32] := by decide +kernel

/-- R174: a 32-bit write of 0 at 29h clears FAULT_ADDRESS, another is discarded with MISUSE, and so is one at 09h
outside HALTED. -/
theorem test_unaligned_writes : decodeWindowWrite 0x29 .w32 0 = [.faultAddressWrite 0] ∧
    (after (.faultAddressWrite 0) { running with faultAddress := 0x77 }).faultAddress = 0 ∧
    decodeWindowWrite 0x09 .w32 5 = [.anchorWrite (.inside 0x09) 5] ∧
    (after (.anchorWrite (.inside 0x09) 5) running).anchor = 0 ∧
    (after (.anchorWrite (.inside 0x09) 5) running).event = 0x100 := by decide +kernel

/-- R174: a 16-bit read takes its second byte from the same register: of IDENT, ANCHOR and FAULT_ADDRESS at 03h, 0Bh
and 2Bh. -/
theorem test_read_across_words :
    windowReadBytes running 0x03 2 = 0x0144 ∧
    windowReadBytes { running with anchor := 0x8877665544332211 } 0x0B 2 = 0x5544 ∧
    windowReadBytes { running with faultAddress := 0x8877665544332211 } 0x2B 2 = 0x5544 := by decide +kernel

/-- 11, section 11.1: IDENT. -/
theorem test_ident : windowRead running 0 = 0x44101C4A ∧ windowRead running 4 = 1 := by decide

/-! ### What the statements assume: states and operands that meet it -/

theorem ctx_holding (x : Context) (s : State) (c : CtxId) (h : s.ctxs = Vector.replicate 512 none) :
    (holding x s).ctx c = if c = 0 then some x else none := by
  unfold holding
  rw [State.ctx_setCtx]
  split
  · rfl
  · unfold State.ctx
    rw [h]
    exact Vector.getElem_replicate c.isLt

theorem oneHolder_holding (x : Context) (s : State) (h : s.ctxs = Vector.replicate 512 none) :
    (holding x s).OneHolder := by
  intro c d y z n hy hz _ _
  rw [ctx_holding x s _ h] at hy hz
  split at hy <;> split at hz <;> simp_all

/-- The states of the adapter in which notices are taken, and the other three. -/
theorem witness_adapter_states : ({ running with adapter := .quiescing } : State).adapter.works = true ∧
    ({ running with adapter := .quiesced } : State).adapter.works = true ∧ running.adapter.works = true ∧
    ({ running with adapter := .faulted } : State).adapter.works = false ∧
    ({ running with adapter := .loading } : State).adapter.works = false ∧ State.reset.adapter.works = false := by
  decide

theorem witness_stepRunsFrontCommand :
    ({ running with pending := [.sweep, .stop] } : State).pending = .sweep :: [.stop] := rfl

theorem witness_everyCommandCompletes : running.deferred = [] := rfl

theorem witness_emptyQueueTicksTheClock : running.pending = [] := rfl

/-- A warm reset from HALTED, and one that asserts the interrupt. -/
theorem witness_coldAndWarmReset : State.reset.adapter = .halted ∧
    (after .warmReset { running with eventMask := 0x080 }).interrupt = true ∧
    (after .warmReset { State.reset with eventMask := 0x080, event := 0x080 }).interrupt = false := by decide +kernel

theorem witness_windowWordsDecode : (0x7 : W32).getLsbD 2 = true ∧
    ((0x1 : W32).getLsbD 2 = false ∧ (0x1 : W32).getLsbD 0 = true ∧ (0x1 : W32).getLsbD 1 = false) ∧
    ((0x2 : W32).getLsbD 2 = false ∧ (0x2 : W32).getLsbD 0 = false ∧ (0x2 : W32).getLsbD 1 = true) ∧
    ((0x3 : W32).getLsbD 2 = false ∧ (0x3 : W32).getLsbD 0 = (0x3 : W32).getLsbD 1) ∧
    ((0x8 : W32).getLsbD 2 = false ∧ (0x8 : W32).getLsbD 0 = (0x8 : W32).getLsbD 1) ∧
    ((0 : Byte) = 0 ∧ 12 ≤ (12 : Byte).toNat ∧ 12 ≤ (255 : Byte).toNat) ∧
    ((0x07 : BitVec 12).toNat < 0x08 ∧ 0x14 ≤ (0x14 : BitVec 12).toNat ∧ (0x17 : BitVec 12).toNat < 0x18 ∧
      0x24 ≤ (0x24 : BitVec 12).toNat ∧ (0x27 : BitVec 12).toNat < 0x28 ∧ 0x30 ≤ (0xFFF : BitVec 12).toNat) ∧
    (0x08 < (0x09 : BitVec 12).toNat ∧ (0x0F : BitVec 12).toNat < 0x10 ∧ (0x0B : BitVec 12) ≠ 0x0C ∧
      (0x0D : BitVec 12) ≠ 0x0C ∧ 0x28 ≤ (0x28 : BitVec 12).toNat ∧ (0x2F : BitVec 12).toNat < 0x30) ∧
    ((0x1C : BitVec 12) ≠ 0x00 ∧ (0x1C : BitVec 12) ≠ 0x08 ∧ (0x1C : BitVec 12) ≠ 0x28 ∧
      (0x1C : BitVec 12).toNat + 4 < 4096 ∧ (0xFFB : BitVec 12).toNat + 4 < 4096 ∧
      (0x2C : BitVec 12).toNat + 4 < 4096) ∧
    AccessWidth.w16 ≠ .w64 ∧ running.faultCount ≤ 255 ∧ running.armFifo.length ≤ 32 := by decide +kernel

theorem witness_refusedCommandsRaiseMisuse : State.reset.adapter = .halted ∧
    running.records ≤ (512 : BitVec 12).toNat ∧ (0 : BitVec 7).toNat = 0 ∧ 64 < (65 : BitVec 7).toNat ∧
    64 ≤ (64 : Byte).toNat ∧ 128 ≤ (128 : Byte).toNat := by decide

theorem witness_registerWrites : State.reset.adapter = .halted ∧ running.adapter ≠ .halted ∧ (1 : W64) ≠ 0 := by
  decide

/-- QUIESCED with an Owner word, stream 9, target 5 and path 40 being read. -/
def quiesced : State :=
  { withStream {} {} with
    adapter := .quiesced
    phase := .owner late
    job := .sweep 5 true
    streams := (withStream {} {}).streams.set 9 { load := .reloading, contents := some sdesc, read := some late }
    targets := (withStream {} {}).targets.set 5 { load := .reloading, read := some late }
    paths := (withStream {} {}).paths.set 40 { load := .reloading, contents := some desc, read := some late } }

/-- START: accepted in HALTED with an Anchor and in QUIESCED, with reads in progress and with none; ignored with
ANCHOR 0 and in RUNNING. STOP: a run that waits for a context, a sweep that does, one under examination, an idle Fetch
Engine, and a state that is not RUNNING. -/
theorem witness_startAndStop :
    (({ State.reset with anchor := 1 } : State).adapter = .halted ∧ ({ State.reset with anchor := 1 } : State).anchor ≠ 0) ∧
    (quiesced.adapter = .quiesced ∧ quiesced.phase = .owner late ∧ (quiesced.stream 9).read = some late ∧
      (quiesced.target 5).read = some late ∧ (quiesced.path 40).read = some late) ∧
    (¬(State.reset.adapter = .halted ∧ State.reset.anchor ≠ 0 ∨ State.reset.adapter = .quiesced)) ∧
    (running.adapter = .running ∧ ({ running with job := .run 5 2, phase := .wantContext } : State).job = .run 5 2) ∧
    (({ running with job := .sweep 5 false, phase := .wantContext } : State).job = .sweep 5 false ∧
      ({ running with job := .sweep 5 false, phase := .wantContext } : State).phase = .wantContext ∧
      ({ running with job := .sweep 5 false, phase := .owner late } : State).phase ≠ .wantContext ∧
      ({ running with job := .sweep 5 false, phase := .owner late } : State).phase ≠ .idle) ∧
    running.job = .none ∧ State.reset.adapter ≠ .running := by decide +kernel

theorem witness_startAndStop_idle : ∀ r, running.phase ≠ .owner r :=
  fun _ h => nomatch h

/-- R17, R163: a START from QUIESCED leaves those four reads without a use; the failure of one is reported. -/
theorem test_orphans : (after .start quiesced).orphans.length = 4 ∧ (after .start quiesced).job = .none ∧
    (after (.reloadPathReadEnd 40 (.failed [0])) (after .start quiesced)).faultAddress = 0x1000 ∧
    (after (.reloadPathReadEnd 40 (.failed [0])) (after .start quiesced)).orphans.length = 3 := by decide +kernel

/-- ARM: the last record in range and the first out of it, the shortest and the longest run, FIFO of 31 and of 32. -/
theorem witness_armAndSweepNotices : (511 : BitVec 12).toNat < running.records ∧
    running.records ≤ (512 : BitVec 12).toNat ∧ 1 ≤ (1 : BitVec 7).toNat ∧ (64 : BitVec 7).toNat ≤ 64 ∧
    64 < (65 : BitVec 7).toNat ∧ (0 : BitVec 7).toNat = 0 ∧
    ({ running with armFifo := List.replicate 31 { first := 0, len := 1 } } : State).armFifo.length < 32 ∧
    32 ≤ ({ running with armFifo := List.replicate 32 { first := 0, len := 1 } } : State).armFifo.length := by
  decide

/-- A run of two records and one of one, the head of the FIFO behind which another waits, and a sweep that starts. -/
theorem witness_armAndSweepNotices_service :
    (({ running with armFifo := [{ first := 511, len := 2 }, { first := 4, len := 1 }] } : State).armFifo
      = { first := 511, len := 2 } :: [{ first := 4, len := 1 }] ∧ running.job = .none) ∧
    (∀ left ∈ [1, 2], ({ running with job := .run 511 left } : State).job = .run 511 left) ∧
    (after .runStart { running with armFifo := [{ first := 511, len := 2 }] }).job ≠ running.job ∧
    (running.armFifo.length ≤ 32 ∧ running.faultCount ≤ 255) ∧
    ({ running with job := .run 511 2 } : State).advanceJob.job = .run 0 1 ∧
    (exec .sweepStart { running with sweepPending := true } =
        .next (after .sweepStart { running with sweepPending := true }) ∧
      (after .sweepStart { running with sweepPending := true }).job
        ≠ ({ running with sweepPending := true } : State).job) := by
  refine ⟨by decide +kernel, by decide +kernel, by decide +kernel, by decide, by decide +kernel, rfl, by decide +kernel⟩

/-- ABORT of exchange 300, held by context 0 in every state, with and without a SENT attempt. -/
theorem witness_abortNotice (x : Context) : running.adapter.works = true ∧ (300 : BitVec 12).toNat < running.records ∧
    (holding x running).OneHolder :=
  ⟨rfl, by decide, oneHolder_holding x running rfl⟩

theorem witness_abortNotice_clauses :
    (∀ st ∈ [CtxState.closing, .fetching, .resolving, .pending, .parked, .waiting, .active], ∀ k ∈ [Kind.query, .commit],
      (holding (live st k) running).ctx 0 = some (live st k) ∧ (live st k).exch = some (300 : BitVec 12).toNat ∧
      (live st k).state = st ∧ (live st k).kind = k) ∧
    ((holding { live .active .commit with attempts := [sent] } running).ctx 0
        = some { live .active .commit with attempts := [sent] } ∧ sent ∈ [sent] ∧ sent.state = .sent) := by
  decide +kernel

theorem witness_abortNotice_none : ∀ c x, running.ctx c = some x → x.exch ≠ some (300 : BitVec 12).toNat := by
  intro c x h
  have : running.ctx c = none := Vector.getElem_replicate c.isLt
  rw [this] at h
  cases h

/-- A reload notice for the first and the last entry of each table, VALID and being read. -/
theorem witness_reloadNotices : ((0 : StreamId).val = (0 : Byte).toNat ∧ (255 : StreamId).val = (255 : Byte).toNat ∧
      (63 : TargetId).val = (63 : Byte).toNat ∧ (127 : PathId).val = (127 : Byte).toNat) ∧
    (running.stream 0).load = .notLoaded ∧ ((withStream {} {}).stream 9).load = .valid ∧
    ((running.setStream 0 { load := .loading true }).stream 0).load = .loading true ∧
    ((running.setStream 0 { load := .reloading }).stream 0).load = .reloading ∧
    ((withStream {} {}).target 5).load = .valid ∧ ((running.setTarget 63 { load := .reloading }).target 63).load = .reloading ∧
    ((running.setPath 127 { load := .invalid }).path 127).load = .invalid ∧
    ((running.setPath 127 { load := .reloading }).path 127).load = .reloading := by decide +kernel

/-- FENCE and the other notices of a path, on path 40 in each state it may be in, with and without SENT work. -/
theorem witness_pathNotices : running.adapter.works = true ∧ (40 : PathId).val = (40 : Byte).toNat ∧
    (withPath {}).deferred = [] ∧
    (∀ h ∈ [Health.untried, .up, .suspect, .draining, .down, .recovering, .fenced], ∀ n ∈ [0, 1], ∀ f ∈ [false, true],
      ((withPath { health := h, inflight := n, fence := f, drill := f }).path 40).health = h ∧
      ((withPath { health := h, inflight := n, fence := f, drill := f }).path 40).inflight = n ∧
      ((withPath { health := h, inflight := n, fence := f, drill := f }).path 40).fence = f ∧
      ((withPath { health := h, inflight := n, fence := f, drill := f }).path 40).drill = f) ∧
    (((withPath { health := .fenced, fence := true }).path 40).markB = .idle ∧ (withPath {}).pathPort 40 = some 2 ∧
      ((withPath {}).port 2).state ≠ .down) := by decide +kernel

/-- An idle Fetch Engine with a run waiting, with a sweep pending, and with neither; contexts free from 0, free from
1, and all taken. -/
theorem witness_fetchStartsAndReserves :
    ({ running with armFifo := [{ first := 1, len := 1 }] } : State).armFifo = { first := 1, len := 1 } :: [] ∧
    running.job = .none ∧ running.armFifo = [] ∧ ({ running with sweepPending := true } : State).sweepPending = true ∧
    ({ running with phase := .wantContext } : State).phase = .wantContext ∧ running.ctx 0 = none ∧
    (∀ d : CtxId, d < 0 → running.ctx d ≠ none) ∧
    ((holding {} running).ctx 1 = none ∧ ∀ d : CtxId, d < 1 → (holding {} running).ctx d ≠ none) := by
  decide +kernel

theorem witness_fetchStartsAndReserves_full :
    ∀ c, ({ running with ctxs := Vector.replicate 512 (some {}) } : State).ctx c ≠ none := by
  intro c
  have : ({ running with ctxs := Vector.replicate 512 (some {}) } : State).ctx c = some {} :=
    Vector.getElem_replicate c.isLt
  rw [this]
  exact Option.some_ne_none _

/-- A sweep that goes on and one stopped, at the last record and before it, and an Owner word that reads ARMED or not. -/
theorem witness_sweepOwnerReads :
    (∀ stopped ∈ [false, true], ∀ n ∈ [510, 511],
      ({ running with phase := .owner early, job := .sweep n stopped } : State).phase = .owner early ∧
      ({ running with phase := .owner early, job := .sweep n stopped } : State).job = .sweep n stopped) ∧
    running.records ≤ 511 + 1 ∧ ¬running.records ≤ 510 + 1 ∧
    leAt [1, 0, 0, 0] 0 4 = 1 ∧ leAt [0, 0, 0, 0] 0 4 ≠ 1 ∧ leAt [1, 0, 0, 1] 0 4 ≠ 1 ∧
    (holding (live .active .query) running).ctx 0 = some (live .active .query) ∧
    (live .active .query).exch = some 300 := by decide +kernel

/-- A sweep stopped while the Owner word of record 300 is read: ARMED or not, the sweep ends (R17, log 13). -/
theorem test_stopped_sweep : ∀ b ∈ [[1, 0, 0, 0], [0, 0, 0, 0]],
    (after (.sweepOwnerReadEnd (.data b)) { running with phase := .owner early, job := .sweep 300 true }).job = .none ∧
    (after (.sweepOwnerReadEnd (.data b)) { running with phase := .owner early, job := .sweep 300 true }).phase
      = .idle := by decide +kernel

/-- Record 300 read into context 1 under the job given, while context 0 holds the number. -/
def reading (job : Job) (adapter : AdapterState) : State :=
  { (holding (live .active .query) running).setCtx 1 (some {}) with
    phase := .record 1 early, job := job, adapter := adapter }

/-- A run of one record and of two, and a sweep that goes on and one stopped, in RUNNING and in QUIESCING, with the
record held by context 0 or by none; the last live context freed. -/
theorem witness_recordReadsOfARun :
    (∀ job ∈ [Job.run 300 1, .run 300 2, .sweep 300 false, .sweep 300 true],
      ∀ adapter ∈ [AdapterState.running, .quiescing],
      (reading job adapter).job = job ∧ (reading job adapter).phase = .record 1 early ∧
      (reading job adapter).ctx 1 = some {} ∧ (reading job adapter).ctx 0 = some (live .active .query)) ∧
    (({ holding {} running with adapter := .quiescing } : State).setCtx 0 none).liveCount = 0 ∧
    (reading (.sweep 300 true) .quiescing).liveCount ≠ 0 ∧
    (∀ bytes ∈ [[1, 0, 0, 0, 3], [1, 0, 0, 0, 1, 0, 9, 0, 0, 0, 0, 0], [1, 0, 0, 0, 1, 0, 9, 0, 0, 0, 1, 16],
        [1, 0, 0, 0, 1, 0, 0, 1, 0, 0, 1, 0]],
      leAt bytes 0 4 = 1 ∧
      ¬((leAt bytes 4 1 = 1 ∨ leAt bytes 4 1 = 2) ∧ 1 ≤ leAt bytes 0x0A 2 ∧ leAt bytes 0x0A 2 ≤ 4096 ∧
        leAt bytes 0x06 2 < 256)) := by
  decide +kernel

/-- R7, R9: a sweep passes over a record that reads EMPTY without an idle arm; R170: the last context freed in
QUIESCING makes the adapter QUIESCED. -/
theorem test_sweep_record : (after (.recordReadEnd (.data (List.replicate 128 0)))
      { holding {} running with phase := .record 0 early, job := .sweep 300 false }).idleArms = 0 ∧
    (after (.recordReadEnd (.data (List.replicate 128 0)))
      { holding {} running with phase := .record 0 early, job := .sweep 300 false }).job = .sweep 301 false ∧
    (after (.recordReadEnd (.data (List.replicate 128 0)))
      { holding {} running with phase := .record 0 early, job := .run 300 2, adapter := .quiescing }).adapter
      = .quiesced := by decide +kernel

/-- The record of a commit on stream 9 with one byte, and of a query with 4096. -/
def recordBytes : List Byte :=
  [1, 0, 0, 0, 2, 0, 9, 0, 0, 0, 1, 0]

/-- Record 300 read into context 0, for a run or a sweep, in any state of the adapter. -/
def fetching (job : Job) (s : State) : State :=
  { holding {} s with phase := .record 0 early, job := job }

theorem witness_streamChecks (job : Job) (s : State) (h : s.ctxs = Vector.replicate 512 none) :
    (∀ d x, (fetching job s).ctx d = some x → x.exch ≠ some 300) ∧ (fetching job s).ctx 0 = some {} := by
  have e : ∀ d, (fetching job s).ctx d = if d = 0 then some {} else none := fun d => ctx_holding {} s d h
  refine ⟨fun d x k => ?_, ?_⟩
  · rw [e] at k
    split at k
    · cases k; decide
    · cases k
  · rw [e]; rfl

/-- The stream entry VALID, VALID above the stream's Level, not present, INVALID, NOT_LOADED and being read. -/
theorem witness_streamChecks_clauses : (recordFields recordBytes).isSome = true ∧ leAt recordBytes 0 4 = 1 ∧
    (recordFields (recordBytes.take 10 ++ [0, 16])).isSome = true ∧
    (((withStream {} {}).stream 9).load = .valid ∧ ((withStream {} {}).streamDesc 9).present = true ∧
      (withStream {} {}).effectiveLevel 300 0 ≤ ((withStream {} {}).streamDesc 9).level) ∧
    (((withStream {} {}).setStream 9 { load := .valid, contents := some { sdesc with level := 2 } }).streamDesc 9).level
      < (withStream {} {}).effectiveLevel 300 0 ∧
    (((withStream {} {}).setStream 9 { load := .valid, contents := some { sdesc with present := false } }).streamDesc
      9).present = false ∧
    ((running.setStream 9 { load := .invalid }).stream 9).load = .invalid ∧ (running.stream 9).load = .notLoaded ∧
    ((running.setStream 9 { load := .reloading }).stream 9).load = .reloading ∧
    ((running.setStream 9 { load := .loading true }).stream 9).load = .loading true := by decide +kernel

/-- R1: the fields of a record with every host field at its greatest, and a slice that contains the number. -/
theorem witness_recordFieldsAndLevels : (recordFields recordBytes).map (·.kind) = some .commit ∧
    ((recordFields (recordBytes.take 5 ++ [9, 255, 0, 255, 255, 0, 16, 255, 255])).map fun f =>
      (f.level, f.stream.val, f.deadlineMs, f.reqLen, f.replyCap)) = some (3, 255, 60000, 4096, 4096) ∧
    (⟨10, 20, 1⟩ : Slice) ∈ [(⟨10, 20, 1⟩ : Slice), ⟨20, 20, 2⟩] ∧ originLevel [⟨10, 20, 1⟩, ⟨20, 20, 2⟩] 20 = 2 ∧
    originLevel [⟨10, 20, 1⟩] 21 = 3 ∧ originLevel [⟨10, 20, 1⟩] 10 = 1 := by decide +kernel

/-- A first load of stream 9 in progress, with the fetch of context 0 waiting for it. -/
def loadingStream : State :=
  { holding { exch := some 300 } running with
    streams := running.streams.set 9 { load := .loading false, read := some early }
    phase := .stream 0
      { kind := .query, level := 0, stream := 9, deadlineMs := 0, reqLen := 1, replyCap := 0, reqAddr := 0
        replyAddr := 0 } }

/-- The fetch's stream read as not present, at a Level below the exchange's and at one that admits it; a fetch that
waits for stream 8. -/
theorem witness_streamLoadReadEnd : loadingStream.adapter.works = true ∧ (loadingStream.stream 9).read = some early ∧
    (loadingStream.stream 9).load = .loading false ∧ (loadingStream.stream 9).again = false ∧
    ((loadingStream.modStream 9 fun e => { e with again := true }).stream 9).again = true ∧
    loadingStream.ctx 0 = some { exch := some 300 } ∧ ({ exch := some 300 } : Context).state = .fetching ∧
    (match loadingStream.phase with | .stream 0 f => decide (f.stream = 9 ∧ f.level = 0) | _ => false) = true ∧
    (0 : CtxId) ∉ (loadingStream.stream 9).pendingList ∧ (streamDesc []).present = false ∧
    ((streamDesc [1]).present = true ∧
      (streamDesc [1]).level < loadingStream.effectiveLevel (some 300 |>.getD 0) 0) ∧
    ((streamDesc [1, 0, 3]).present = true ∧
      loadingStream.effectiveLevel (some 300 |>.getD 0) 0 ≤ (streamDesc [1, 0, 3]).level) := by decide +kernel

theorem witness_streamLoadReadEnd_other :
    ∀ c f, ({ loadingStream with phase := .idle } : State).phase = .stream c f → f.stream ≠ 9 :=
  fun _ _ h => nomatch h

theorem witness_payloadReadEnd : ∀ mark ∈ [false, true],
    ({ holding { live .fetching .query with abortMark := mark, reqLen := 4096 } (withStream {} {}) with
      phase := .payload 0 early } : State).ctx 0 = some { live .fetching .query with abortMark := mark, reqLen := 4096 } ∧
    cellsWf (withStream {} {}).payload = true := by decide +kernel

/-- Reload reads in progress of stream 9 (with a PENDING exchange), target 5 and path 40. -/
theorem witness_reloadReadEnds :
    (((withStream {} {}).setStream 9 { load := .reloading, contents := some sdesc, read := some early, pendingList := [0] }).stream
      9).read = some early ∧
    (streamDesc []).present = false ∧ (live .pending .query).state ≠ .closing ∧
    (((withStream {} {}).setTarget 5 { load := .reloading, contents := some (targetDesc []), read := some early }).target
      5).read = some early ∧
    ((withPath { health := .up, read := some early }).path 40).read = some early ∧
    ((withPath { health := .up, read := some early }).path 40).contents = some desc ∧
    (∀ again ∈ [false, true],
      ((running.setStream 9 { load := .reloading, read := some early, again := again }).stream 9).again = again ∧
      ((running.setTarget 5 { load := .reloading, read := some early, again := again }).target 5).again = again ∧
      ((withPath { read := some early, again := again }).path 40).again = again) ∧
    (desc.port = 2 ∧ (pathDesc [1, 2, 0x0A, 0, 0, 0, 0, 0x28]).port = 2 ∧
      desc.remote = (pathDesc [1, 2, 0x0A, 0, 0, 0, 0, 0x28]).remote) ∧ desc.port ≠ (pathDesc [1, 3]).port ∧
    (withPath {}).deferred = [] := by decide +kernel

/-- R33: a read of stream 9 that ends with Reload Again set is followed by one more, whatever its end. -/
theorem test_reload_again : ∀ a ∈ [ReadAnswer.data (List.replicate 64 0), .failed [0]],
    ((after (.reloadStreamReadEnd 9 a)
      (running.setStream 9 { load := .reloading, read := some early, again := true })).stream 9).load = .reloading ∧
    ((after (.reloadStreamReadEnd 9 a)
      (running.setStream 9 { load := .reloading, read := some early, again := true })).stream 9).again = false ∧
    ((after (.reloadStreamReadEnd 9 a)
      (running.setStream 9 { load := .reloading, read := some early, again := true })).stream 9).read.isSome = true := by
  decide +kernel

/-- Step 3 of LOADING under the Anchor given, its reads `age` µs old, with what they have brought. -/
def tabling (q : Bool) (cfg : Settings) (begun : W32) (age : Nat) (got : TablesRead) : State :=
  { running with adapter := .loading, loading := some (.tables q cfg begun age got) }

/-- Every table entry read but one. -/
def allBut (e : TableEntry) : TablesRead :=
  (Vector.replicate 192 (some [])).set (tableIndex e).val none (tableIndex e).isLt

/-- LOADING with the Anchor being read and with the tables, from HALTED and from QUIESCED, with N changed, and with N
and the base unchanged and a run kept; the Anchor read in time and too late; the last table read and another. -/
theorem witness_loadingReads : (∀ q ∈ [false, true], ∀ r ∈ [early, late],
    ({ State.reset with adapter := .loading, loading := some (.anchor q r) } : State).loading
      = some (.anchor q r)) ∧ early.limit.isExpired = false ∧ late.limit.isExpired = true ∧
    (∀ q ∈ [false, true], (tabling q (anchorSettings []) 900 100 noTablesRead).loading
      = some (.tables q (anchorSettings []) 900 100 noTablesRead)) ∧
    running.settings = some anchor ∧ anchor.records ≠ (anchorSettings []).records ∧
    ({ tabling true anchor 900 0 noTablesRead with job := .run 5 2 } : State).job = .run 5 2 ∧
    noTablesRead.get (tableIndex (.target 3)) = none ∧ noTablesRead.get (tableIndex (.path 127)) = none ∧
    TableEntry.path 127 ≠ .target 3 ∧ (allBut (.path 127)).get (tableIndex (.path 127)) = none := by decide +kernel

/-- Every other read than that of path 127 has ended. -/
theorem witness_loadingReads_last (other : TableEntry) (h : other ≠ .path 127) :
    (allBut (.path 127)).get (tableIndex other) = some [] := by
  unfold allBut
  rw [get_set, if_neg fun k => h (tableIndex_inj k)]
  exact Vector.getElem_replicate (tableIndex other).isLt

/-- Step 3 has gone on for 100 µs, in which no table read is due, or for long enough that one is, whenever each
began. -/
theorem witness_tableReads (begun : W32) (k : Nat) : 100 < Config.tableReadBegins begun k + 50000 ∧
    ∃ age, Config.tableReadBegins begun k + 50000 ≤ age :=
  ⟨by omega, _, Nat.le_refl _⟩

/-- R168: the end of the last table read enters RUNNING, and that of another goes on. -/
theorem test_table_reads :
    (after (.loadingTablesReadEnd [⟨.path 127, .data (List.replicate 64 0)⟩])
      (tabling false anchor 900 0 (allBut (.path 127)))).adapter = .running ∧
    (after (.loadingTablesReadEnd [⟨.path 127, .data (List.replicate 64 0)⟩])
      (tabling false anchor 900 0 noTablesRead)).adapter = .loading := by decide +kernel

/-- R163, R169: two descriptors that fail together, and a third after them in FAULTED: each is one failure, the first
holds its address, and a read that has failed does not fail again. -/
theorem test_second_table_failure :
    (after (.loadingTablesReadEnd [⟨.target 3, .failed [0]⟩, ⟨.path 9, .failed [0]⟩])
      (tabling false { anchor with targetBase := 0x1000 } 900 0 noTablesRead)).faultCount = 2 ∧
    (after (.loadingTablesReadEnd [⟨.target 3, .failed [0]⟩, ⟨.path 9, .failed [0]⟩])
      (tabling false { anchor with targetBase := 0x1000 } 900 0 noTablesRead)).faultAddress = 0x1030 ∧
    (after (.loadingTablesReadEnd [⟨.path 10, .failed [0]⟩, ⟨.path 9, .failed [0]⟩])
      (after (.loadingTablesReadEnd [⟨.target 3, .failed [0]⟩, ⟨.path 9, .failed [0]⟩])
        (tabling false anchor 900 0 noTablesRead))).faultCount = 3 := by decide +kernel

theorem witness_loadingReads_unchanged : (∀ old, running.settings = some old →
      old.records = anchor.records ∧ old.exchBase = anchor.exchBase) ∧
    ∀ next left, running.job ≠ .run next left :=
  ⟨fun _ h => Option.some.inj h ▸ ⟨rfl, rfl⟩, fun _ _ h => nomatch h⟩

/-- The reads of the tables, with what is left of their limits. -/
theorem witness_memoryFaults_tables (cfg : Settings) (begun : W32) (age : Nat) :
    (∀ u : TargetId, (tableRead cfg begun age (.target u)).addr = cfg.targetBase + BitVec.ofNat 64 (16 * u.val) ∧
      (tableRead cfg begun age (.target u)).len = 16) ∧
    (∀ p : PathId, (tableRead cfg begun age (.path p)).addr = cfg.pathBase + BitVec.ofNat 64 (64 * p.val) ∧
      (tableRead cfg begun age (.path p)).len = 64) ∧
    ∀ (other : TableEntry) (begins : Nat), begins = Config.tableReadBegins begun (tableIndex other) →
      (tableRead cfg begun age other).limit =
        if age < begins then .idle
        else if begins + 50000 ≤ age then .expired (begun + BitVec.ofNat 32 begins) 50000
        else .running (begun + BitVec.ofNat 32 begins) 50000 :=
  ⟨fun _ => ⟨rfl, rfl⟩, fun _ => ⟨rfl, rfl⟩, fun _ _ h => h ▸ rfl⟩

/-- R163: a read of 4096 bytes from 1FFFh has two requests, at 1FFFh and at 2000h. -/
theorem witness_memoryFaults : (∀ k ∈ [0, 1], k < ((0x1FFF : W64).toNat % 4096 + 4096 + 4095) / 4096) ∧
    (after (.recordReadEnd (.failed [1]))
      { holding {} running with
        phase := .record 0 { addr := 0x1FFF, len := 4096, limit := .idle }, job := .run 300 1 }).faultAddress = 0x2000 := by
  decide +kernel

/-- Reads whose 50 ms have run: the Owner word of the last record, of another, and of a sweep that stops; the record of
the last and of another record of a run; a payload; a stream's first and later read; a target, a path; the Anchor and
the tables. -/
theorem witness_hostReadTimeouts : late.limit.isExpired = true ∧
    (∀ n ∈ [510, 511], ∀ b ∈ [false, true],
      ({ running with phase := .owner late, job := .sweep n b } : State).phase = .owner late ∧
      ({ running with phase := .owner late, job := .sweep n b } : State).job = .sweep n b) ∧
    (running.records ≤ 511 + 1 ∧ 510 + 1 < running.records) ∧
    (∀ left ∈ [1, 2],
      ({ holding {} running with phase := .record 0 late, job := .run 300 left } : State).job = .run 300 left ∧
      ({ holding {} running with phase := .record 0 late, job := .run 300 left } : State).ctx 0 = some {} ∧
      ({} : Context).state = .fetching) ∧
    ({ holding (live .fetching .query) (withStream {} {}) with phase := .payload 0 late } : State).ctx 0
      = some (live .fetching .query) ∧
    (∀ l ∈ [LoadState.loading false, .loading true, .reloading],
      ((running.setStream 9 { load := l, read := some late }).stream 9).read = some late ∧
      ((running.setStream 9 { load := l, read := some late }).stream 9).load = l) ∧
    ((running.setTarget 5 { load := .reloading, read := some late }).target 5).read = some late ∧
    ((withPath { health := .up, read := some late }).path 40).read = some late ∧ (withPath {}).deferred = [] ∧
    ({ State.reset with adapter := .loading, loading := some (.anchor false late) } : State).loading
      = some (.anchor false late) ∧
    (tabling false anchor 900 60000 noTablesRead).loading = some (.tables false anchor 900 60000 noTablesRead) := by
  decide +kernel

/-- Reads left without a use: two of path 40, of which the older has run its 50 ms. -/
def orphaned : State :=
  { running with
    orphans := [{ id := .ownerWord, read := { late with limit := .running 900 50000 } },
      { id := .path 40, read := late }, { id := .path 40, read := { late with limit := .running 900 50000 } },
      { id := .table (.path 9), read := late }] }

/-- No read of `orphaned` in progress is due, and of those without a use the first of path 40 is; an Owner word,
stream 9, target 5 and path 40 have no read in progress beside one. -/
theorem witness_hostReadTimeouts_orphans :
    ((orphaned.path 40).read.any fun r => r.limit.isExpired) = false ∧ orphaned.phase = .idle ∧
    (∃ l m, orphaned.orphans = l ++ { id := .path 40, read := late } :: m ∧
      (∀ e ∈ l, e.id ≠ HostReadId.path 40) ∧ late.limit.isExpired = true) ∧
    (∀ o ∈ orphaned.orphans, o.id = .ownerWord → o.read.limit.isExpired = false) ∧
    orphaned.loading = none ∧ (orphaned.path 40).read = none ∧ (orphaned.stream 9).read = none ∧ (orphaned.target 5).read = none :=
  ⟨by decide +kernel, rfl, ⟨[_], [_, _], rfl, by decide, rfl⟩, by decide, rfl, by decide +kernel, by decide +kernel,
    by decide +kernel⟩

/-- The six filter states of a port, both loss modes, times of 0 and above, and its timer expired and running. -/
theorem witness_carrierFilterTakesRawChanges :
    ∀ f ∈ [CarrierFilter.present, .lossPending, .hold false, .hold true, .lost, .returnPending],
    ∀ m ∈ [LossMode.delayed, .immediate], ∀ n ∈ [0, 5], ∀ k ∈ [Timer.expired 0 0, .running 0 5000],
      ((withPort { settings := { mode := m, lossTime := n, returnTime := n }, filter := f, filterTimer := k }).port
        2).filter = f ∧
      ((withPort { settings := { mode := m, lossTime := n, returnTime := n }, filter := f, filterTimer := k }).port
        2).settings = { mode := m, lossTime := n, returnTime := n } ∧
      ((withPort { settings := { mode := m, lossTime := n, returnTime := n }, filter := f, filterTimer := k }).port
        2).filterTimer = k ∧ Timer.isExpired (.expired 0 0) = true ∧ Timer.isExpired (.running 0 5000) = false := by
  decide +kernel

/-- P2 with a loss to accept, in RUNNING with path 40 in each state, and in HALTED. -/
def losing (r : PathRec) : State :=
  (withPath r).setPort 2 { PortRec.initial with filter := .lossPending, filterTimer := .expired 0 5000, state := .up }

theorem witness_acceptedLossTakesPathsDown :
    (∀ f ∈ [{ mode := .immediate, lossTime := 5, returnTime := 200 }, { mode := .immediate, lossTime := 0, returnTime := 200 },
        ({ mode := .delayed, lossTime := 0, returnTime := 200 } : FilterSettings)],
      (((withPath {}).modPort 2 fun r => { r with settings := f }).port 2).filter = .present ∧
      (((withPath {}).modPort 2 fun r => { r with settings := f }).port 2).settings = f ∧
      (f.mode = .immediate ∨ f.lossTime = 0)) ∧
    ({ losing {} with adapter := .halted } : State).adapter.works = false ∧
    ((losing {}).port 2).filterTimer.isExpired = true ∧ ((losing {}).port 2).filter = .lossPending ∧
    (losing {}).pathPort 40 = some 2 ∧
    (∀ h ∈ [Health.untried, .up, .suspect, .draining, .down, .recovering, .fenced],
      ((losing { health := h }).path 40).health = h) ∧ (losing {}).deferred = [] := by decide +kernel

/-- R66, R67, R117: a raw loss in IMMEDIATE mode takes path 40 DOWN with its hold-down, and empties the lanes. -/
theorem test_immediate_loss :
    ((after (.rawCarrierLoss 2) ((withPath { health := .up, srtt := 600 }).modPort 2 fun r =>
      { r with
        settings := { mode := .immediate, lossTime := 5, returnTime := 200 }
        lanes := (Vector.replicate 8 []).set 0 [.probe 40 7] })).path 40).health = .down ∧
    ((after (.rawCarrierLoss 2) ((withPath { health := .up, srtt := 600 }).modPort 2 fun r =>
      { r with
        settings := { mode := .immediate, lossTime := 5, returnTime := 200 }
        lanes := (Vector.replicate 8 []).set 0 [.probe 40 7] })).port 2).lanesEmpty = true := by decide +kernel

theorem witness_ageChecksAndHoldoff : ((withPort { PortRec.initial with ageDue := true }).port 2).ageDue = true ∧
    ((withPort PortRec.initial).port 2).ageDue = false ∧ Timer.isExpired (.expired 60 100) = true := by decide +kernel

/-- Frames a port discards or counts: port DOWN, a bad frame check, another address, another type, another source. -/
theorem witness_framesDiscarded : (State.reset.settings = none ∧ (running.port 2).state = .down) ∧
    ((withPath {}).settings = some anchor ∧ ((withPath {}).port 2).state ≠ .down ∧
      (frame {} []).dest = anchor.portAddr.get 2 ∧ (frame {} []).etype = anchor.frameType) ∧
    ((1 : Mac) ≠ anchor.portAddr.get 2 ∧ (1 : W16) ≠ anchor.frameType ∧ (withPath {}).sourcePath 2 7 = none) := by
  decide +kernel

/-- R85: P2 takes the frames of path 40. -/
theorem witness_takenFor (h : LinkHeader) (payload : List Byte) :
    TakenFor (withPath { health := .up }) 2 (frame h payload) 40 :=
  have dest : (0 : Mac) = anchor.portAddr.get 2 := by decide +kernel
  have kind : (0 : W16) = anchor.frameType := by decide +kernel
  have source : (withPath { health := .up }).sourcePath 2 desc.remote = some 40 := by decide +kernel
  ⟨rfl, by decide +kernel, rfl, ⟨anchor, rfl, dest, kind⟩, source⟩

/-- A path in service, RECOVERING or neither takes a strike event: it is judged the same, otherwise, DOWN; or unmoved. -/
theorem witness_strikes : (withPath { health := .up }).judged 40 2 = .up ∧
    (withPath { health := .up }).judged 40 3 = .suspect ∧ (withPath { health := .suspect }).judged 40 0 = .up ∧
    (withPath { health := .suspect, strikes := 5 }).judged 40 6 = .down ∧
    ((withPath { health := .suspect, strikes := 5 }).path 40).health.inService = true ∧
    ((withPath { health := .up, strikes := 15 }).path 40).strikes = min 15 (15 + 1) ∧
    ((withPath { health := .recovering }).path 40).health = .recovering ∧
    (withPath { health := .recovering }).pathPort 40 = some 2 ∧
    (beforeTrip.port 2).state ≠ .down ∧ beforeTrip.settings = some anchor ∧
    anchor.corrThreshold ≤ (((beforeTrip.port 2).downTimes ++ [beforeTrip.clock]).drop
      ((beforeTrip.port 2).downTimes.length - 7)).countP
        (fun u => decide ((beforeTrip.clock - u).toNat < 1000 * anchor.corrWindow)) := by decide +kernel

theorem witness_strikes_trip : beforeTrip.Trips 2 ∧ ¬(withPort PortRec.initial).Trips 2 ∧
    (withPath { health := .recovering }).FlapRises 40 ∧ ¬(withPath {}).FlapRises 40 := by
  refine ⟨⟨by decide +kernel, anchor, rfl, by decide +kernel⟩, fun h => h.1 (by decide +kernel),
    .inl (by decide +kernel), ?_⟩
  rintro (h | ⟨h, -⟩) <;> revert h <;> decide +kernel

theorem witness_probesStaleAndMalformedFrames :
    wellFormedArrival (frame { kind := 1 } []).body = some .unserved ∧
    wellFormedArrival (frame { kind := 2, code := 1, issue := 5000 } []).body = some (.reply .ok) ∧
    wellFormedArrival (frame { kind := 6, code := 5, issue := 5000 } []).body = some (.verdict .applied) ∧
    wellFormedArrival (frame { kind := 9 } []).body = none ∧ (withPath {}).deferred = [] ∧
    (∀ h ∈ [Health.untried, .up, .suspect, .draining, .down, .recovering, .fenced],
      ((withPath { health := h }).path 40).health = h) ∧
    wellFormedArrival (frame { kind := 3, probeSeq := 5 } []).body = some .probe ∧
    (((withPath { health := .up }).port 2).lanes.get 0).any (·.isEchoOf 40) = false ∧
    (((withPort { PortRec.initial with lanes := (Vector.replicate 8 []).set 0 [.echo 40 1 2] }).port 2).lanes.get
      0).any (·.isEchoOf 40) = true := by decide +kernel

/-- The header of a reply or verdict to context 0 as issue 5000, and a path that has asked with PROBE 7. -/
theorem witness_stale : running.NoContext { issue := 5000, handleNum := 1 } ∧
    (live .active .query).NoAttempt { handleNum := 0 } ∧ (live .active .query).NoAttempt { handleNum := 9 } ∧
    ({ live .active .query with attempts := [{ sent with state := .busy }] } : Context).NoAttempt { handleNum := 1 } ∧
    (live .active .commit).NoInquiry { handleNum := 1 } ∧ (live .resolving .commit).NoInquiry { handleNum := 0 } ∧
    (holding (live .active .commit) running).ctx 0 = some (live .active .commit) := by
  have e : ∀ c, running.ctx c = none := fun c => Vector.getElem_replicate c.isLt
  refine ⟨fun c x _ h => ?_, .inl rfl, .inr (.inl (by decide)), .inr (.inr fun a ha _ _ => ?_), .inl (by decide),
    .inr (.inl rfl), ctx_holding _ _ 0 rfl⟩
  · rw [e] at h; cases h
  · cases List.mem_singleton.1 ha; decide

/-- Path 40 with PROBE 7 outstanding since 500 µs. -/
def probing (r : PathRec) : State :=
  withPath { r with outstanding := some { seq := 7, sendTime := 500 }, markA := .running 500 30000 }

/-- An ECHO that matches and one that does not: the sample is 500 µs; a path at its last proof and before it, in
hold-down, past it and fenced in it; a strike of the latency band that takes the path down. -/
theorem witness_echo : wellFormedArrival (frame { kind := 4, probeSeq := 7 } []).body = some .echo ∧
    (parseHeader (frame { kind := 4, probeSeq := 7 } []).body).probeSeq = 7 ∧
    (∀ h ∈ [Health.untried, .up, .suspect, .draining, .down, .recovering, .fenced], ∀ e ∈ [false, true],
      ∀ f ∈ [false, true],
      ((probing { health := h, holdEnded := e, fence := f }).path 40).outstanding = some { seq := 7, sendTime := 500 } ∧
      ((probing { health := h, holdEnded := e, fence := f }).path 40).health = h ∧
      ((probing { health := h, holdEnded := e, fence := f }).path 40).holdEnded = e ∧
      ((probing { health := h, holdEnded := e, fence := f }).path 40).fence = f) ∧
    max 1 (min 1000000 ((probing {}).clock - 500).toNat) = 500 ∧ (probing {}).deferred = [] ∧
    (0 + 1 < ((probing {}).pathDesc 40).provingCount ∧ ((probing {}).pathDesc 40).provingCount ≤ 9 + 1) ∧
    (probing { health := .suspect, strikes := 5 }).judged 40 (min 15 (5 + 1)) = .down ∧ min 15 (5 + 1) ≠ 5 := by
  decide +kernel

/-- R111, R112: a good probe takes a path from DOWN to RECOVERING only after its hold-down. -/
theorem test_good_probe : ((after (.frameArrival 2 (frame { kind := 4, probeSeq := 7 } []))
      (probing { health := .down })).path 40).health = .down ∧
    ((after (.frameArrival 2 (frame { kind := 4, probeSeq := 7 } []))
      (probing { health := .down, holdEnded := true })).path 40).health = .recovering := by decide +kernel

/-- A query of context 0 with attempt 1 SENT on path 40. -/
def asking : Context :=
  { live .active .query with attempts := [sent], reply0 := .expired 500 100, serves0 := some 0, nextId := 1 }

/-- The reply of outcome OK to that attempt, with two bytes. -/
def okReply : EthFrame :=
  frame { kind := 2, code := 1, issue := 5000, handleNum := 1, payloadLen := 2 } [0xCD, 0xEF]

theorem witness_queryReplyCompletes :
    wellFormedArrival okReply.body = some (.reply .ok) ∧
    (holding asking (withPath { health := .up })).matchCtx (parseHeader okReply.body) = some 0 ∧
    (holding asking (withPath { health := .up })).ctx 0 = some asking ∧
    asking.named (parseHeader okReply.body) = some sent ∧ asking.attempt sent.id = some sent ∧ sent.state = .sent ∧
    ((withPath { health := .up }).path 40).strikes = 0 ∧ ((withPath { health := .up }).pathDesc 40).upperLatency = 0 ∧
    cellsWf (withPath {}).payload = true := by decide +kernel

/-- A context with attempt 1 on path 40 as SENT, TIMED_OUT or LOST, and `others` beside it. -/
def answering (kind : Kind) (state : AttemptState) (mark : Bool) (others : List Attempt) : Context :=
  { live .active kind with attempts := { sent with state := state } :: others, abortMark := mark, nextId := 4 }

/-- Replies of every outcome to it, with room for one more attempt and without; another attempt open, and none. -/
theorem witness_replies :
    (∀ o ∈ [(1, RemoteOutcome.ok), (2, .busy), (3, .fault), (4, .barred)],
      wellFormedArrival (frame { kind := 2, code := o.1, issue := 5000, handleNum := 1 } []).body
        = some (.reply o.2)) ∧
    (∀ k ∈ [Kind.query, .commit], ∀ st ∈ [AttemptState.sent, .timedOut, .lost], ∀ mark ∈ [false, true],
      ∀ others ∈ [[], [{ sent with id := 1, number := some 2 }],
        List.replicate 3 { sent with id := 2, state := .busy }],
      (holding (answering k st mark others) (withStream {} { health := .up })).matchCtx
          { issue := 5000, handleNum := 1 } = some 0 ∧
      (answering k st mark others).named { issue := 5000, handleNum := 1 } = some { sent with state := st } ∧
      (answering k st mark others).attempt sent.id = some { sent with state := st }) ∧
    ((answering .query .sent false []).attempts.length < ((withStream {} {}).streamDesc 9).maxAttempts ∧
      ¬(answering .query .sent false (List.replicate 3 sent)).attempts.length
        < ((withStream {} {}).streamDesc 9).maxAttempts) ∧
    (∃ b ∈ (answering .query .sent false [{ sent with id := 1 }]).attempts, b.id ≠ sent.id ∧
      (b.state = .queued ∨ b.state = .sent)) ∧
    (∀ b ∈ (answering .query .sent false []).attempts, b.state = .queued ∨ b.state = .sent →
      b.id = sent.id ∧ b.state = .sent) := by decide +kernel

/-- A commit in RESOLVING whose inquiry 1 is SENT on path 40. -/
def resolving : Context :=
  { live .resolving .commit with inquiry := some asked, inquiryTimer := .expired 500 100, waitTimer := .expired 0 1 }

theorem witness_appliedVerdictCompletes :
    wellFormedArrival (frame { kind := 6, code := 5, issue := 5000, handleNum := 1 } []).body
      = some (.verdict .applied) ∧
    (holding resolving (withPath { health := .up })).matchCtx
      (parseHeader (frame { kind := 6, code := 5, issue := 5000, handleNum := 1 } []).body) = some 0 ∧
    resolving.answersInquiry (parseHeader (frame { kind := 6, code := 5, issue := 5000, handleNum := 1 } []).body) = true ∧
    resolving.inquiry = some asked := by decide +kernel

/-- Verdicts PENDING and BARRED to that inquiry, with the abort mark and without, at Max Attempts and below it. -/
theorem witness_verdicts : ∀ o ∈ [(6, RemoteOutcome.pending), (4, .barred)], ∀ mark ∈ [false, true],
      ∀ l ∈ [[], List.replicate 4 { sent with state := .busy }],
    wellFormedArrival (frame { kind := 6, code := o.1, issue := 5000, handleNum := 1 } []).body = some (.verdict o.2) ∧
    (holding { resolving with abortMark := mark, attempts := l } (withStream {} { health := .up })).matchCtx
      { issue := 5000, handleNum := 1 } = some 0 ∧
    ({ resolving with abortMark := mark, attempts := l } : Context).answersInquiry { issue := 5000, handleNum := 1 }
      = true ∧
    (l = [] ∧ 0 < ((withStream {} {}).streamDesc 9).maxAttempts ∨
      ((withStream {} {}).streamDesc 9).maxAttempts ≤ l.length) := by decide +kernel

/-- R90, R177: a VERDICT with handle number 0 is stale while no inquiry has been sent. -/
theorem test_handle_zero : ({ resolving with inquiry := some { asked with count := 0 } } : Context).answersInquiry
      { issue := 5000, handleNum := 0 } = false ∧
    ((after (.frameArrival 2 (frame { kind := 6, code := 5, issue := 5000 } []))
      (holding { resolving with inquiry := some { asked with count := 0 } } (withStream {} { health := .up }))).path
        40).counters.stale = 1 := by decide +kernel

theorem witness_advisoriesDrainAndResume :
    wellFormedArrival (frame { kind := 7, advisory := 1 } []).body = some (.advisory .drain) ∧
    wellFormedArrival (frame { kind := 7, advisory := 2 } []).body = some (.advisory .resume) := by decide +kernel

/-- The reply timer of `asking` has expired: path 40 may be in every state (`witness_strikes`). -/
theorem witness_replyTimerExpiry : asking.expiredAttempt 0 = some sent ∧ asking.expiredAttempt 1 = none ∧
    asking.state ≠ .closing ∧ (holding asking (withPath { health := .up })).ctx 0 = some asking ∧
    (withPath {}).deferred = [] := by decide +kernel

/-- The course after it: a query with its twin on path 10, alone with room and without, and a commit that has not asked,
and one that has asked 6 times. -/
theorem witness_replyTimerExpiry_course :
    (∀ l ∈ [[sent], [sent, { sent with id := 1, path := 10, state := .queued }],
        sent :: List.replicate 3 { sent with id := 2, state := .busy }],
      ({ asking with attempts := l } : Context).expiredAttempt 0 = some sent ∧ asking.state = .active) ∧
    ((withStream {} {}).streamDesc 9).maxAttempts = 4 ∧
    (∀ q ∈ [none, some { asked with count := 6, state := none }],
      ({ asking with kind := .commit, inquiry := q } : Context).expiredAttempt 0 = some sent) ∧
    (∀ m, (0 : CtxId) ∉ ((withStream {} {}).stream m).pendingList) ∧
    (∀ i : PortId, ∀ lane : Fin 8, ((withStream {} {}).port i).lanes.get lane = []) := by decide +kernel

/-- R127, R129, R134: after the timeout a query is left to its twin, re-driven, or completed TIMEOUT; a commit enters
RESOLVING. -/
theorem test_reply_timeout :
    ((after (.replyTimerExpiry 0 0) (holding { asking with attempts := [sent, { sent with id := 1, path := 10 }] }
      (withStream {} { health := .up }))).ctx 0).map (·.state) = some .active ∧
    ((after (.replyTimerExpiry 0 0) (holding asking (withStream {} { health := .up }))).ctx 0).map
      (·.attempts.map (·.state)) = some [.timedOut, .queued] ∧
    (((after (.replyTimerExpiry 0 0) (holding
      { asking with attempts := sent :: List.replicate 3 { sent with id := 2, state := .busy } }
      (withStream {} { health := .up }))).ctx 0).bind (·.result)).map (·.status) = some .timeout ∧
    ((after (.replyTimerExpiry 0 0) (holding { asking with kind := .commit }
      (withStream {} { health := .up }))).ctx 0).map (·.state) = some .resolving := by decide +kernel

/-- Inquiries at the Inquiry Limit of 6 and one below it, with the timer expired and running. -/
theorem witness_inquiryTimerExpiry : resolving.inquiryTimer.isExpired = true ∧ asked.state = some .sent ∧
    (live .resolving .commit).inquiryTimer.isExpired = false ∧ asked.path = some 40 ∧
    ((withStream {} {}).streamDesc 9).inquiryLimit = 6 ∧ ((withStream {} {}).streamDesc 9).inquiryLimit ≤ 6 ∧
    5 < ((withStream {} {}).streamDesc 9).inquiryLimit := by decide +kernel

/-- A deadline that has expired, in every state of a context, with and without transmitted attempts. -/
theorem witness_deadlineExpiry : running.ctx 0 = none ∧
    (∀ st ∈ [CtxState.fetching, .closing, .pending, .waiting, .parked, .active, .resolving], ∀ k ∈ [Kind.query, .commit],
      (holding (live st k) running).ctx 0 = some (live st k) ∧ (live st k).deadlineTimer.isExpired = true ∧
      (live st k).state = st ∧ ∀ a ∈ (live st k).attempts, a.number = none) ∧
    (sent ∈ [sent] ∧ sent.number ≠ none ∧ sent.state = .sent) ∧
    ({ live .active .query with deadlineTimer := .idle } : Context).deadlineTimer.isExpired = false := by
  decide +kernel

/-- A wait that has ended, with room for one more attempt (3 of 4) and without (4 of 4). -/
theorem witness_waitsEnd : resolving.waitTimer.isExpired = true ∧ resolving.state = .resolving ∧
    ({ live .waiting .query with waitTimer := .expired 0 1 } : Context).state = .waiting ∧
    ((withStream {} {}).streamDesc 9).maxAttempts ≤ [sent, sent, sent, sent].length ∧
    [sent, sent, sent].length < ((withStream {} {}).streamDesc 9).maxAttempts := by decide +kernel

theorem witness_probeMarks : ((withPath { health := .down, markA := .expired 0 19000 }).path 40).markA.isExpired = true ∧
    ((withPath { health := .down, markA := .expired 0 19000 }).path 40).health.inService = false ∧
    ((withPath {}).path 40).markA.isExpired = false ∧ ((withPath {}).path 40).markB.isExpired = false ∧
    (∀ h ∈ [Health.up, .down], ∀ seen ∈ [false, true], ∀ k ∈ [Timer.idle, .running 0 30000],
      ((withPath { health := h, replySeen := seen, markA := k, markB := .expired 0 100000 }).path 40).markB.isExpired
        = true ∧
      ((withPath { health := h, replySeen := seen, markA := k, markB := .expired 0 100000 }).path 40).markA = k ∧
      (withPath { health := h, replySeen := seen, markB := .expired 0 100000 }).pathPort 40 = some 2) := by
  decide +kernel

theorem witness_pathTimerExpiries : ((withPath { health := .down, hold := .expired 0 1000000 }).path 40).hold.isExpired = true ∧
    ((withPath { health := .down, hold := .expired 0 1000000 }).path 40).markB = .idle ∧
    (withPath { health := .down }).pathPort 40 = some 2 ∧ ((withPath {}).port 2).state ≠ .down ∧
    (((withPath {}).setPort 2 PortRec.initial).port 2).state = .down ∧
    ((withPath { health := .up, stability := .expired 0 30000000 }).path 40).stability.isExpired = true ∧
    ((withPath { health := .draining, drain := .expired 0 60000000 }).path 40).drain.isExpired = true ∧
    ((withPath {}).path 40).hold.isExpired = false := by decide +kernel

/-- `withStream` with path 10 of the other fabric in the Path List behind path 40, each as given. -/
def twoPaths (h10 h40 : Health) (desc9 : StreamDesc) : State :=
  { withStream {} { health := h40 } with
    paths := ((withStream {} { health := h40 }).paths.set 10
      { health := h10, load := .valid, contents := some { desc with port := 0 } })
    streams := running.streams.set 9 { load := .valid, contents := some { desc9 with target := 5 } }
    targets := running.targets.set 5 { load := .valid, contents := some { targetDesc [] with pathList := [40, 10] } } }

/-- A pair of paths on both fabrics; one candidate alone, in SUSPECT; Max Attempts 1; and no candidate. -/
theorem witness_routeSelection :
    ((twoPaths .up .up sdesc).choosePath (live .pending .query)).map (fun k => (k.path, k.tier2)) = some (40, false) ∧
    (twoPaths .up .up sdesc).chooseTwin (live .pending .query) 40 = some 10 ∧
    2 ≤ ((twoPaths .up .up sdesc).streamDesc 9).maxAttempts ∧
    ((twoPaths .down .suspect sdesc).choosePath (live .pending .query)).map (·.tier2) = some true ∧
    (twoPaths .down .up sdesc).chooseTwin (live .pending .query) 40 = none ∧
    ((twoPaths .up .up { sdesc with maxAttempts := 1 }).streamDesc 9).maxAttempts < 2 ∧
    ((twoPaths .down .fenced sdesc).choosePath (live .pending .query)).isNone = true ∧
    (holding (live .pending .query) (twoPaths .up .up sdesc)).ctx 0 = some (live .pending .query) ∧
    (0 : CtxId) ∉ ((twoPaths .up .up sdesc).target 5).park ∧ resolving.inquiry = some asked := by decide +kernel

/-- R54: with every candidate failed none is passed over; with one failed the other is chosen. -/
theorem test_failed_paths :
    ((twoPaths .up .up sdesc).choosePath { live .active .query with failed := [40, 10] }).map (·.path) = some 40 ∧
    ((twoPaths .up .up sdesc).choosePath { live .active .query with failed := [40] }).map (·.path) = some 10 := by
  decide +kernel

/-- The contended port of 04, section 4.7 takes a decision; lane 2's mask is clear while lane 0's is set. -/
theorem witness_grantDecisionChooses :
    (contended #v[true, false, false, false, false, false, false, false] false false).grantEnabled 2 = true ∧
    (contended #v[true, false, false, false, false, false, false, false] false false).laneLevel 2 = .level1 ∧
    ((contended (Vector.replicate 8 false) false false).port 2).lanes.get 2 ≠ [] ∧
    ((contended #v[true, false, false, false, false, false, false, false] false false).port 2).laneMasks.get 2
      = false ∧
    (∀ l : Fin 8, l < 2 →
      (contended #v[true, false, false, false, false, false, false, false] false false).laneLevel l = .level1 →
      ((contended #v[true, false, false, false, false, false, false, false] false false).port 2).lanes.get l ≠ [] →
      ((contended #v[true, false, false, false, false, false, false, false] false false).port 2).laneMasks.get l
        = true) := by decide +kernel

/-- A head that is granted, and one that is withdrawn, behind which nothing or a PROBE is chosen. -/
theorem witness_grantDecisionChooses_heads :
    ((contended (Vector.replicate 8 false) false false).chosenFrame 2 = some (0, .probe 40 0) ∧
      (LaneEntry.probe 40 0).isProbeOrEcho = true) ∧
    ((contended #v[true, false, false, false, false, false, false, false] false false).chosenFrame 2
        = some (2, .request 0 0 40 0) ∧
      (LaneEntry.request 0 0 40 0).isProbeOrEcho = false ∧
      ((contended #v[true, false, false, false, false, false, false, false] false false).path 40).health.inService
        = false ∧
      (contended #v[true, false, false, false, false, false, false, false] false false).deferred = []) ∧
    ((after (.grantDecision 2) (contended #v[true, false, false, false, false, false, false, false] false false)).port
      2).transmitter.isSome = true := by decide +kernel

/-- Path 40 UP and P2 up, with one frame in a lane. -/
def toSend (lane : Fin 8) (e : LaneEntry) (s : State) : State :=
  s.modPort 2 fun r => { r with lanes := (Vector.replicate 8 []).set lane.val [e] lane.isLt }

theorem witness_probeAndEchoTransmissions : (withPath { health := .up }).grantEnabled 2 = false ∧
    (toSend 0 (.probe 40 7) (withPath {})).grantEnabled 2 = true ∧
    (toSend 0 (.probe 40 7) (withPath {})).chosenFrame 2 = some (0, .probe 40 7) ∧
    (toSend 0 (.echo 40 7 9) (withPath {})).chosenFrame 2 = some (0, .echo 40 7 9) := by decide +kernel

theorem witness_requestAndInquiryTransmissions :
    (toSend 2 (.request 0 0 40 3) (holding
      { live .active .query with attempts := [{ sent with number := none, sendTime := none, state := .queued }] }
      (withPath { health := .up }))).grantEnabled 2 = true ∧
    (toSend 2 (.request 0 0 40 3) (holding (live .active .query) (withPath { health := .up }))).chosenFrame 2
      = some (2, .request 0 0 40 3) ∧
    ((withPath { health := .up }).path 40).health.inService = true ∧
    ({ live .active .query with attempts := [{ sent with number := none, state := .queued }] } : Context).attempt 0
      = some { sent with number := none, state := .queued } ∧
    (toSend 1 (.inquiry 0 40 3) (holding resolving (withPath { health := .up }))).chosenFrame 2
      = some (1, .inquiry 0 40 3) ∧ resolving.state ≠ .closing := by decide +kernel

/-- The second of a pair to go out, and a re-drive, while the first reply timer is in use and idle. -/
def secondOut (redrive : Bool) (timer : Timer) : Context :=
  { live .active .query with
    attempts :=
      [{ sent with path := 10, twin := some 1 },
        { sent with id := 1, number := none, sendTime := none, state := .queued, twin := some 0, redrive := redrive }]
    reply0 := timer, nextId := 2 }

theorem witness_requestAndInquiryTransmissions_flags : ∀ r ∈ [false, true], ∀ k ∈ [Timer.idle, .running 500 1000],
    (toSend 2 (.request 0 1 40 3) (holding (secondOut r k) (withPath { health := .up }))).chosenFrame 2
      = some (2, .request 0 1 40 3) ∧
    ((secondOut r k).attempt 1).map (·.state) = some .queued ∧ (secondOut r k).reply0 = k ∧
    (secondOut r k).state ≠ .closing := by decide +kernel

/-- R26, R124: its transmission sets TWIN, and REDRIVEN for a re-drive, and starts the second reply timer. -/
theorem test_second_of_a_pair : ∀ r ∈ [false, true],
    ((after (.grantDecision 2) (toSend 2 (.request 0 1 40 3)
      (holding (secondOut r (.running 500 1000)) (withStream {} { health := .up })))).ctx 0).map
        (fun y => (y.flags.twin, y.flags.redriven, y.serves1, y.reply0))
      = some (true, r, some 1, .running 500 1000) := by decide +kernel

/-- The frames that wait on path 40, which the new contents no longer allow, or whose path they leave. -/
def rerouting (h10 : Health) (x : Context) : State :=
  let s := holding x (twoPaths h10 .up sdesc)
  let s := { s with
    streams := s.streams.set 9 { s.stream 9 with load := .reloading, read := some early }
    targets := s.targets.set 5 { s.target 5 with load := .reloading, read := some early, park := [0] } }
  s.modPort 2 fun r => { r with
    lanes := #v[[], [.inquiry 0 40 0], [], [.request 0 0 40 0], [], [], [], []] }

/-- The reads that allow path 10 alone: stream 9's Permits, and target 5's Path List. -/
def only10 : List Instr :=
  [.reloadStreamReadEnd 9 (.data ([1, 5, 3] ++ List.replicate 29 0 ++ leBytes (2 ^ 10) 16 ++ List.replicate 16 0)),
    .reloadTargetReadEnd 5 (.data [0, 0, 1, 0, 10])]

/-- An attempt QUEUED on path 40, alone. -/
def waitingAttempt : Context :=
  { live .active .query with attempts := [{ sent with number := none, sendTime := none, state := .queued }], nextId := 1 }

/-- An inquiry QUEUED on path 40 after the transmissions given. -/
def waitingInquiry (count : Nat) : Context :=
  { live .resolving .commit with inquiry := some { asked with count := count, state := some .queued } }

/-- A request PARKED. -/
def waitingParked : Context :=
  { live .parked .query with parked := some { gen := 0, redrive := false, pair := false } }

theorem witness_reoffered (x : Context) (h10 : Health) : (∀ m, (0 : CtxId) ∉ ((rerouting .up waitingParked).stream m).pendingList) ∧
    ((rerouting .up waitingAttempt).port 2).lanes.get 3 = [.request 0 0 40 0] ∧
    ((rerouting .up waitingAttempt).port 2).lanes.get 1 = [.inquiry 0 40 0] ∧
    ((rerouting .up waitingAttempt).stream 9).read = some early ∧
    ((rerouting .up waitingAttempt).target 5).read = some early ∧
    (0 : CtxId) ∈ ((rerouting .up waitingAttempt).target 5).park ∧
    (waitingInquiry 1).attempts = [] ∧ waitingAttempt.attempts.length = 1 ∧
    (40 : PathId) ∉ (targetDesc [0, 0, 1, 0, 10]).pathList ∧
    (streamDesc ([1, 5, 3] ++ List.replicate 29 0 ++ leBytes (2 ^ 10) 16 ++ List.replicate 16 0)).permits = 2 ^ 10 ∧
    (rerouting .up waitingAttempt).CanPlace (· = 10) ∧ ¬(rerouting .down waitingAttempt).CanPlace (· = 10) ∧
    (rerouting h10 x).deferred = [] := by
  refine ⟨by decide +kernel, by decide +kernel, by decide +kernel, by decide +kernel, by decide +kernel,
    by decide +kernel, rfl, rfl, by decide +kernel, by decide +kernel, ⟨10, rfl, by decide +kernel, by decide +kernel⟩, ?_, rfl⟩
  rintro ⟨_, rfl, -, h⟩
  revert h
  decide +kernel

/-- R37, R38, R58 to R60: a queued attempt goes to path 10, or parks; so does a parked request, and a queued inquiry,
which completes IN_DOUBT at the Inquiry Limit of 6. -/
theorem test_rerouted : ∀ cmd ∈ only10,
    ((after cmd (rerouting .up waitingAttempt)).ctx 0).map (·.attempts.map (·.path)) = some [10] ∧
    ((after cmd (rerouting .down waitingAttempt)).ctx 0).map (·.state) = some .parked ∧
    ((after cmd (rerouting .up waitingParked)).ctx 0).map (·.state) = some .active ∧
    ((after cmd (rerouting .up (waitingInquiry 1))).ctx 0).bind (fun y => y.inquiry.bind (·.path)) = some 10 ∧
    (((after cmd (rerouting .up (waitingInquiry 6))).ctx 0).bind (·.result)).map (·.status) = some .inDoubt := by
  decide +kernel

/-- Clamps of the reply timeout: a base between its ends, at each end, below the low one and above the high one. -/
theorem witness_estimatorAndTimeout : ({} : PathRec).samples = 0 ∧ ({ samples := 255 } : PathRec).samples ≠ 0 ∧
    500 ≤ 500 ∧ 500 ≤ 1000 * 50 * 2 ^ 1 ∧ 1000 * 50 * 2 ^ 1 ≤ 200000 ∧ 1000 * 50 * 2 ^ 1 < 100001 ∧
    99999 < 1000 * 50 * 2 ^ 1 := by decide

theorem witness_headerCheck : headerSum [1] ≠ 0 := by decide +kernel

/-- R137: the SENT inquiry of a commit on a path about to fall, at the Inquiry Limit of 6 and below it. -/
theorem witness_inquiriesLost : ∀ n ∈ [1, 6], ∀ h ∈ [Health.up, .draining],
    (holding { resolving with inquiry := some { asked with count := n } } (withStream {} { health := h })).ctx 0
      = some { resolving with inquiry := some { asked with count := n } } ∧
    resolving.attempts = [] ∧ asked.state = some .sent ∧ asked.path = some 40 ∧
    (∀ m, (0 : CtxId) ∉ ((withStream {} { health := h }).stream m).pendingList) ∧
    (∀ i : PortId, ∀ lane : Fin 8, ((withStream {} { health := h }).port i).lanes.get lane = []) ∧
    ((withStream {} {}).streamDesc 9).inquiryLimit = 6 := by decide +kernel

/-! ### Work lost, withdrawn or kept as a path leaves service -/

/-- Exchange 300 with its attempt SENT on path 40: a query, one without room, a commit, and one at the Inquiry Limit. -/
def losingAlone : List Context :=
  [asking, { asking with attempts := sent :: List.replicate 3 { sent with id := 2, state := .busy } },
    { asking with kind := .commit },
    { asking with kind := .commit, inquiry := some { asked with count := 6, path := none, state := none } }]

/-- A query with its pair SENT on paths 40 and 10. -/
def losingTwin : Context :=
  { asking with attempts :=
      [{ sent with twin := some 1 }, { sent with id := 1, number := some 2, path := 10, twin := some 0 }] }

/-- A carrier filter that accepts a raw loss at once. -/
def lossAtOnce : FilterSettings :=
  { mode := .delayed, lossTime := 0, returnTime := 200 }

/-- Paths 40, with one attempt in flight and a read of its copy in progress, and 10, whose state is given. -/
def inFlight (h10 : Health) (x : Context) : State :=
  ((holding x (twoPaths h10 .up sdesc)).modPath 40 fun r => { r with inflight := 1, read := some early }).modPort 2
    fun r => { r with settings := lossAtOnce }

/-- R124, R126: those attempts, on a path about to be lost, with a candidate left and without. -/
theorem witness_attemptsLost : ∀ h ∈ [Health.up, .down],
    (∀ x ∈ losingAlone, x.state = .active ∧ x.attempt sent.id = some sent ∧ sent ∈ x.attempts ∧
      x.attempts.countP (·.live) = 1 ∧ (inFlight h x).ctx 0 = some x ∧
      (∀ m, (0 : CtxId) ∉ ((inFlight h x).stream m).pendingList) ∧
      (∀ lane, ((inFlight h x).port 2).lanes.get lane = [])) ∧
    (losingTwin.attempt 0 = some { sent with twin := some 1 } ∧
      (∀ b ∈ losingTwin.attempts, b.live = true → b ≠ { sent with twin := some 1 } →
        b.id ≠ 0 ∧ (inFlight h losingTwin).pathPort b.path ≠ (inFlight h losingTwin).pathPort 40) ∧
      (inFlight h losingTwin).ctx 0 = some losingTwin ∧ (inFlight h losingTwin).pathPort 40 = some 2 ∧
      (∀ lane, ((inFlight h losingTwin).port 2).lanes.get lane = [])) ∧
    ((inFlight h asking).path 40).health.inService = true ∧ ((inFlight h asking).path 40).inflight ≠ 0 := by
  decide +kernel

theorem witness_offered : (inFlight .up asking).Candidate asking 10 ∧
    ¬∃ q, ((inFlight .down asking).modPath 40 fun r => { r with health := .down }).Candidate asking q := by
  refine ⟨⟨by decide +kernel, by decide +kernel, by decide +kernel, .inl (by decide +kernel)⟩, fun ⟨q, h⟩ => ?_⟩
  have none : ∀ q ∈ ((inFlight .down asking).modPath 40 fun r => { r with health := .down }).routeList asking,
      ¬((((inFlight .down asking).modPath 40 fun r => { r with health := .down }).path q).health = .up ∨
        (((inFlight .down asking).modPath 40 fun r => { r with health := .down }).path q).health = .suspect) := by
    decide +kernel
  exact none q h.listed h.served

/-- What takes path 40 away with its SENT work: a DRILL, a failed reload of its copy, and the loss of P2's carrier. -/
def pathLosses : List Instr :=
  [.drill 40, .reloadPathReadEnd 40 (.failed [0]), .rawCarrierLoss 2]

/-- R124, R126: the attempt is LOST, its path failed, its timer cancelled, k not raised and the in-flight count lowered;
the query goes to path 10. -/
theorem test_attempts_lost : ∀ cmd ∈ pathLosses,
    ((after cmd (inFlight .up asking)).ctx 0).map (fun y => (y.attempts.map (·.state), y.failed, y.reply0, y.timeouts))
      = some ([.lost, .queued], [40], .idle, 0) ∧
    ((after cmd (inFlight .up asking)).ctx 0).map (·.attempts.map (·.path)) = some [40, 10] ∧
    ((after cmd (inFlight .up asking)).path 40).inflight = 0 := by decide +kernel

/-- R127, R129, R132, R134: without a candidate the query parks, and without room it ends TIMEOUT; a pair is left to its
twin; a commit asks on path 10, or ends IN_DOUBT. -/
theorem test_attempts_lost_course : ∀ cmd ∈ pathLosses,
    ((after cmd (inFlight .down asking)).ctx 0).map (·.state) = some .parked ∧
    (losingAlone.map fun x => ((after cmd (inFlight .up x)).ctx 0).map (·.state))
      = [some .active, some .closing, some .resolving, some .closing] ∧
    (losingAlone.map fun x => ((after cmd (inFlight .up x)).ctx 0).bind (·.result.map (·.status)))
      = [none, some .timeout, none, some .inDoubt] ∧
    ((after cmd (inFlight .up losingTwin)).ctx 0).map (·.attempts.map (·.state)) = some [.lost, .sent] := by
  decide +kernel

/-- Exchange 300 with a frame in a lane of P2, and path 10 in the state given. -/
def queueing (lane : Fin 8) (e : LaneEntry) (h10 : Health) (x : Context) : State :=
  (holding x (twoPaths h10 .up sdesc)).modPort 2 fun r =>
    { r with lanes := (Vector.replicate 8 []).set lane [e], settings := lossAtOnce }

/-- A query whose attempt waits on path 40 while its twin is SENT on path 10. -/
def waitingTwin : Context :=
  { live .active .query with
    attempts := [{ sent with number := none, sendTime := none, state := .queued, twin := some 1 },
      { sent with id := 1, path := 10, twin := some 0 }]
    nextId := 2 }

/-- A query whose attempt waits on path 40 after four that timed out: one more than Max Attempts. -/
def waitingFull : Context :=
  { waitingAttempt with
    attempts := List.replicate 4 { sent with id := 2, state := .timedOut } ++ waitingAttempt.attempts }

/-- R58, R78: frames that wait on path 40, about to leave service: of an attempt with room and without, of one of a
pair, and of an inquiry below and at the Inquiry Limit. -/
theorem witness_replaced : ∀ h ∈ [Health.up, .down],
    (∀ x ∈ [waitingAttempt, waitingFull], x.state = .active ∧ x.attempts.countP (·.live) = 1 ∧
      (∃ a ∈ x.attempts, x.attempt a.id = some a ∧ a.id = 0 ∧ a.state = .queued ∧ a.twin ≠ some a.id) ∧
      (queueing 3 (.request 0 0 40 0) h x).ctx 0 = some x ∧
      ((queueing 3 (.request 0 0 40 0) h x).port 2).lanes.get 3 = [.request 0 0 40 0]) ∧
    (waitingTwin.state = .active ∧
      (∃ a b, waitingTwin.attempts = [a, b] ∧ waitingTwin.attempt 0 = some a ∧ a.id = 0 ∧ a.state = .queued ∧
        b.twin = some a.id ∧ b.live = true ∧ b.id ≠ a.id ∧
        (queueing 3 (.request 0 0 40 0) h waitingTwin).pathPort b.path
          ≠ (queueing 3 (.request 0 0 40 0) h waitingTwin).pathPort 40) ∧
      (∀ lane, ∀ e ∈ ((queueing 3 (.request 0 0 40 0) h waitingTwin).port 2).lanes.get lane, e = .request 0 0 40 0)) ∧
    (∀ n ∈ [1, 6], ((queueing 1 (.inquiry 0 40 0) h (waitingInquiry n)).port 2).lanes.get 1 = [.inquiry 0 40 0] ∧
      (waitingInquiry n).attempts = []) ∧
    ((queueing 1 (.inquiry 0 40 0) h waitingAttempt).path 40).health.inService = true ∧
    (queueing 1 (.inquiry 0 40 0) h waitingAttempt).pathPort 40 = some 2 ∧
    (∀ m, (0 : CtxId) ∉ ((queueing 1 (.inquiry 0 40 0) h waitingAttempt).stream m).pendingList) := by
  intro h k
  refine ⟨?_, ⟨rfl, ⟨_, _, rfl, rfl, rfl, rfl, rfl, rfl, by decide, ?_⟩, ?_⟩, ?_⟩ <;> revert h <;> decide +kernel

/-- What takes path 40 out of service: a FENCE, a DRILL, a DRAIN advisory, and the loss of P2's carrier. -/
def leavings : List Instr :=
  [.fence 40, .drill 40, .frameArrival 2 (frame { kind := 7, advisory := 1 } []), .rawCarrierLoss 2]

/-- R58, R78, R127, R137: its frames leave the lanes; the attempt goes to path 10, or parks, or its exchange completes
without room; a twin goes on alone; the inquiry goes to path 10, or its exchange ends IN_DOUBT. -/
theorem test_replaced : ∀ cmd ∈ leavings,
    ((after cmd (queueing 3 (.request 0 0 40 0) .up waitingAttempt)).ctx 0).map (·.attempts.map (·.path)) = some [10] ∧
    ((after cmd (queueing 3 (.request 0 0 40 0) .down waitingAttempt)).ctx 0).map (·.state) = some .parked ∧
    (((after cmd (queueing 3 (.request 0 0 40 0) .up waitingFull)).ctx 0).bind (·.result)).map (·.status)
      = some .timeout ∧
    ((after cmd (queueing 3 (.request 0 0 40 0) .up waitingTwin)).ctx 0).map (·.attempts.map fun b => (b.id, b.twin))
      = some [(1, none)] ∧
    ((after cmd (queueing 1 (.inquiry 0 40 0) .up (waitingInquiry 1))).ctx 0).bind (·.inquiry.bind (·.path))
      = some 10 ∧
    (((after cmd (queueing 1 (.inquiry 0 40 0) .up (waitingInquiry 6))).ctx 0).bind (·.result)).map (·.status)
      = some .inDoubt ∧
    ((after cmd (queueing 3 (.request 0 0 40 0) .up waitingAttempt)).port 2).lanes.get 3 = [] := by decide +kernel

/-- R113, R114: a FENCE and a DRAIN of a path with SENT work leave it DRAINING, and the work SENT. -/
theorem test_sent_stays : ∀ cmd ∈ [Instr.fence 40, .frameArrival 2 (frame { kind := 7, advisory := 1 } [])],
    ((after cmd (inFlight .up asking)).path 40).health = .draining ∧
    ((after cmd (inFlight .up asking)).ctx 0).map (·.attempts) = some [sent] ∧
    ((after cmd (inFlight .up resolving)).ctx 0).bind (·.inquiry) = some asked := by decide +kernel

/-- Path 40 with its PROBE, its ECHO and a REQUEST in the lanes of P2, and a read of its copy that ends. -/
def losingCopy (r : PathRec) : State :=
  ((withPath { r with read := some early, nextSeq := 8 }).setCtx 0 (some waitingAttempt)).modPort 2 fun q =>
    { q with lanes := #v[[.probe 40 7, .echo 40 1 2], [], [], [.request 0 0 40 0], [], [], [], []] }

/-- R118: new contents on the same port: the lanes keep only the new PROBE of the probing that begins; a failure, or
a port that is DOWN, leaves none. -/
theorem test_path_loss :
    ((after (.reloadPathReadEnd 40 (.data [1, 2])) (losingCopy { health := .up, flap := 2 })).port 2).lanes
      = (Vector.replicate 8 []).set 0 [.probe 40 8] ∧
    ((after (.reloadPathReadEnd 40 (.data [1, 2])) (losingCopy { health := .up, flap := 2 })).path 40).markB
      = .running 1000 20000 ∧
    (∀ a ∈ [ReadAnswer.data [1, 3], .failed [0]],
      ((after (.reloadPathReadEnd 40 a) (losingCopy { health := .up, flap := 2 })).port 2).lanesEmpty = true ∧
      ((after (.reloadPathReadEnd 40 a) (losingCopy { health := .up, flap := 2 })).path 40).markB = .idle ∧
      ((after (.reloadPathReadEnd 40 a) (losingCopy { health := .up, flap := 2 })).path 40).health = .untried ∧
      ((after (.reloadPathReadEnd 40 a) (losingCopy { health := .up, flap := 2 })).path 40).flap = 0) := by
  decide +kernel

/-- P2 DOWN with a return to accept: from LOST and RETURN_PENDING, and at the end of HOLD. -/
def returning (f : CarrierFilter) (r : PathRec) : State :=
  (withPath r).setPort 2
    { PortRec.initial with
      filter := f, filterTimer := .expired 0 5000, state := .down
      settings := { mode := .delayed, lossTime := 5, returnTime := 0 } }

/-- R117: path 40 is UNTRIED, or DOWN past its hold-down or in it, or in a state that is not probed, and not probed
before. -/
theorem witness_carrierReturned : ∀ f ∈ [CarrierFilter.lost, .hold true, .returnPending],
    ∀ h ∈ [Health.untried, .down, .draining, .fenced], ∀ e ∈ [false, true],
    ((returning f { health := h, holdEnded := e }).port 2).filter = f ∧
    ((returning f { health := h, holdEnded := e }).port 2).settings.returnTime = 0 ∧
    ((returning f { health := h, holdEnded := e }).port 2).filterTimer.isExpired = true ∧
    ((returning f { health := h, holdEnded := e }).port 2).state = .down ∧
    (returning f { health := h, holdEnded := e }).adapter.works = true ∧
    (returning f { health := h, holdEnded := e }).pathPort 40 = some 2 ∧
    ((returning f { health := h, holdEnded := e }).path 40).markB = .idle ∧
    ((returning f { health := h, holdEnded := e }).path 40).health = h ∧
    ((returning f { health := h, holdEnded := e }).path 40).holdEnded = e ∧
    ({ returning f {} with adapter := .halted } : State).adapter.works = false := by decide +kernel

/-- R111, R117: an accepted return begins probing of path 40 past its hold-down, and not in it. -/
theorem test_return_probes :
    ((after (.rawCarrierReturn 2) (returning .lost { health := .down, holdEnded := true })).port 2).lanes.get 0
      = [.probe 40 0] ∧
    ((after (.carrierFilterExpiry 2) (returning .returnPending { health := .untried })).path 40).markB
      = .running 1000 20000 ∧
    ((after (.carrierFilterExpiry 2) (returning (.hold true) { health := .down })).path 40).markB = .idle := by
  decide +kernel

/-- Exchange `asking` on path 40 with a latency band above 100 µs. -/
def banded (x : Context) (r : PathRec) : State :=
  (holding x (withPath r)).setCopy 40 (some { desc with upperLatency := 100, lowerLatency := 50 })

/-- R48, R101: P2 takes the answers of path 40, whatever its strikes; attempt 1 was sent 500 µs ago, so that its sample
enters SLOW, in every state of the path; and an answer to an attempt 2. -/
theorem witness_credited (h : LinkHeader) (payload : List Byte) :
    TakenFor (banded asking { health := .suspect, strikes := 2 }) 2 (frame h payload) 40 ∧
    (banded asking { health := .suspect, strikes := 2 }).ctx 0 = some asking ∧
    (banded resolving { health := .suspect, strikes := 2 }).ctx 0 = some resolving ∧
    sent.number = some 1 ∧ sent.path = 40 ∧ sent.sendTime = some 500 ∧
    (banded asking { health := .suspect, strikes := 2 }).matchCtx (parseHeader okReply.body) = some 0 ∧
    ({ asking with attempts := [{ sent with number := some 2 }] } : Context).named { handleNum := 2 }
      = some { sent with number := some 2 } ∧
    (∀ s ∈ [Health.up, .suspect, .untried, .draining, .down, .recovering, .fenced], ∀ n ∈ [0, 2],
      ((banded asking { health := s, strikes := n }).path 40).health = s ∧
      ((banded asking { health := s, strikes := n }).path 40).strikes = n ∧
      ((banded asking { health := s, strikes := n }).path 40).slow = false) ∧
    (banded asking { health := .suspect, strikes := 2 }).deferred = [] := by
  have dest : (0 : Mac) = anchor.portAddr.get 2 := by decide +kernel
  have kind : (0 : W16) = anchor.frameType := by decide +kernel
  have source : (banded asking { health := .suspect, strikes := 2 }).sourcePath 2 desc.remote = some 40 := by
    decide +kernel
  refine ⟨⟨rfl, by decide +kernel, rfl, ⟨anchor, rfl, dest, kind⟩, source⟩, ctx_holding _ _ 0 rfl,
    ctx_holding _ _ 0 rfl, rfl, rfl, rfl, ?_⟩
  decide +kernel

/-- R48, R50, R101, R102: the sample of 500 µs enters SLOW, whose strike takes path 40 to SUSPECT at 3, and the credit
of the reply leaves it there at 2; a credit without a sample takes it back to UP at 0; a TIMED_OUT attempt gives its
sample too. -/
theorem test_credit :
    (fun r : PathRec => (r.health, r.strikes, r.srtt, r.slow))
      ((after (.frameArrival 2 okReply) (banded asking { health := .up, strikes := 2 })).path 40)
      = (.suspect, 2, 500, true) ∧
    (fun r : PathRec => (r.health, r.strikes, r.samples))
      ((after (.frameArrival 2 (frame { kind := 6, code := 5, issue := 5000, handleNum := 1 } []))
        (banded resolving { health := .suspect, strikes := 1 })).path 40) = (.up, 0, 0) ∧
    ((after (.frameArrival 2 okReply) (banded { asking with attempts := [{ sent with state := .timedOut }] }
      { health := .up })).path 40).samples = 1 := by decide +kernel

/-- What the Fetch Engine goes on to after record 300 of a run and of a sweep, and the end of QUIESCING. -/
theorem witness_goesTo (adapter : AdapterState) : ClosesQuiescing (fun u =>
      if u.adapter = .quiescing ∧ u.liveCount = 0 then u.enterAdapter .quiesced else u) ∧
    (∀ left, ∃ next, (reading (.run 300 left) adapter).GoesTo 300 true next) ∧
    ∀ stopped, ∃ next, (reading (.sweep 300 stopped) adapter).GoesTo 300 false next :=
  ⟨fun _ => rfl, fun left => ⟨_, .inl ⟨left, rfl, rfl, fun _ => rfl⟩⟩,
    fun stopped => ⟨_, .inr ⟨stopped, rfl, rfl, fun _ => rfl⟩⟩⟩

/-- R17, R170, R163: a record read that times out: a sweep goes on, a run waits in QUIESCING, and the last live context
makes the adapter QUIESCED. -/
theorem test_record_timeout :
    (after (.hostReadTimeout .record [0])
      { holding {} running with phase := .record 0 late, job := .sweep 300 false }).job = .sweep 301 false ∧
    (fun s : State => (s.adapter, s.job, s.phase)) (after (.hostReadTimeout .record [0])
      { holding {} running with phase := .record 0 late, job := .run 300 2, adapter := .quiescing })
      = (.quiesced, .run 301 1, .idle) := by decide +kernel

/-- The completion of exchange 300 at the head of the queue: in its turn and out of it, at the Coalesce Count of 3 and
below it, with Holdoff 100. -/
def finished (rewrites : List Rewrite) (count : Nat) : State :=
  { holding
      { live .closing .query with
        result := some
          { status := .ok, flags := {}, remote := .ok, replyLen := 2, attemptsUsed := 1, inquiriesUsed := 0
            finalPath := some 40, finalGen := 0, issue := 5000, taken := 0, done := 900 } } running with
    queue := [0], rewrites := rewrites, lastIssued := some .completion, coalesced := count }

theorem witness_completionIssue : running.queue = [] ∧ (finished [] 2).queue = 0 :: [] ∧
    (((finished [] 2).ctx 0).bind (·.result)).isSome = true ∧ ((finished [] 2).ctx 0).bind (·.exch) = some 300 ∧
    (finished [] 2).settings = some anchor ∧
    ((finished [{ part := .header, event := false }] 0).rewrites ≠ [] ∧
      (finished [{ part := .header, event := false }] 0).lastIssued = some .completion) ∧
    anchor.coalesce ≤ (finished [] 2).coalesced + 1 ∧ (finished [] 1).coalesced + 1 < anchor.coalesce ∧
    anchor.holdoff ≠ 0 := by decide +kernel

/-- A warm reset that finds a completion at the head of the queue, in its turn and out of it, and with none. -/
theorem witness_coldAndWarmReset_cut : State.reset.queue = [] ∧ (finished [] 2).queue = 0 :: [] ∧
    (((finished [] 2).ctx 0).bind (·.result)).isSome = true ∧ ((finished [] 2).ctx 0).bind (·.exch) = some 300 ∧
    (finished [] 2).rewrites = [] ∧
    ((finished [{ part := .header, event := false }] 0).rewrites ≠ [] ∧
      (finished [{ part := .header, event := false }] 0).lastIssued = some .completion) := by decide +kernel

theorem witness_digestRewriteIssue : (running.rewrites = [] ∧ State.reset.adapter.works = false) ∧
    (({ running with queue := [0], lastIssued := some .rewrite } : State).queue ≠ [] ∧
      ({ running with queue := [0], lastIssued := some .rewrite } : State).lastIssued = some .rewrite) ∧
    (finished [{ part := .path 40, event := true }] 0).rewrites = { part := .path 40, event := true } :: [] ∧
    (finished [{ part := .path 40, event := true }] 0).lastIssued ≠ some .rewrite := by decide +kernel

/-! ### Dispatch, the hand-outs of a change of health, and late answers -/

/-- Stream 9 under the contents and the entry given, over paths 40 and 10 of both fabrics. -/
def streamed (e : StreamEntry) (d : StreamDesc) (h10 h40 : Health) : State :=
  (twoPaths h10 h40 d).modStream 9 fun r => { e with contents := r.contents }

/-- The payload of a query of stream 9 is read into context 0. -/
def taking (e : StreamEntry) (d : StreamDesc) (h : Health) : State :=
  { holding { live .fetching .query with reqLen := 4 } (streamed e d h h) with phase := .payload 0 early }

/-- Streams that dispatch nothing: STALLED, being read, with the in-flight count at the Window of 3 and at 1 in ORDERED
mode. -/
def closedStreams : List (StreamEntry × StreamDesc) :=
  [({ load := .valid, state := .stalled }, sdesc), ({ load := .reloading }, sdesc),
    ({ load := .valid, inflight := 3 }, sdesc),
    ({ load := .valid, mode := .ordered, inflight := 1 }, { sdesc with mode := .ordered })]

/-- Each stream that takes an exchange: one that dispatches nothing, one that dispatches it at once, one behind whose
list of 3 it waits, and one that dispatches nothing in QUIESCED. -/
theorem witness_payloadReadEnd_dispatch :
    (∀ k ∈ closedStreams, ((taking k.1 k.2 .up).stream 9).decisions .running = 0 ∧
      (k.1.state = .stalled ∨ k.1.load.inRead = true ∨
        ((taking k.1 k.2 .up).stream 9).limit ≤ ((taking k.1 k.2 .up).stream 9).inflight)) ∧
    (((taking { load := .valid, inflight := 2 } sdesc .up).stream 9).inflight
        < ((taking { load := .valid, inflight := 2 } sdesc .up).stream 9).limit ∧
      ((taking { load := .valid, inflight := 2 } sdesc .up).stream 9).state = .open ∧
      ((taking { load := .valid, inflight := 2 } sdesc .up).stream 9).load.inRead = false ∧
      ((taking { load := .valid, inflight := 2 } sdesc .up).stream 9).pendingList = []) ∧
    (0 : CtxId) ∉ [1, 2, 3] ∧
    ({ (taking { load := .valid } sdesc .up).stream 9 with pendingList := [1, 2, 3] ++ [0] } : StreamEntry).decisions
      .running ≤ [(1 : CtxId), 2, 3].length ∧
    AdapterState.quiesced ≠ .running ∧ AdapterState.quiesced ≠ .quiescing := by decide +kernel

theorem witness_inForce (n : Nat) : (taking { load := .valid, inflight := n } sdesc .up).ctx 0
      = some { live .fetching .query with reqLen := 4 } ∧
    ({ mode := .ordered, contents := some { sdesc with mode := .ordered } } : StreamEntry).InForce ∧
    ({ contents := some sdesc } : StreamEntry).InForce :=
  ⟨ctx_holding _ _ 0 rfl, fun _ _ h => Option.some.inj h ▸ rfl, fun h => nomatch h⟩

/-- R14, R41, R44: a stream that dispatches nothing keeps the exchange PENDING at the tail; another dispatches it, to a
path, to a pair of paths, or without a candidate to the park list. -/
theorem test_taking_dispatches : (∀ k ∈ closedStreams,
      ((after (.payloadReadEnd (.data [1, 2, 3, 4])) (taking k.1 k.2 .up)).ctx 0).map (·.state) = some .pending ∧
      ((after (.payloadReadEnd (.data [1, 2, 3, 4])) (taking k.1 k.2 .up)).stream 9).pendingList = [0] ∧
      ((after (.payloadReadEnd (.data [1, 2, 3, 4])) (taking k.1 k.2 .up)).stream 9).inflight = k.1.inflight) ∧
    (∀ twin ∈ [false, true], ∀ h ∈ [Health.up, .down],
      ((after (.payloadReadEnd (.data [1, 2, 3, 4]))
        (taking { load := .valid, inflight := 2 } { sdesc with twin := twin } h)).ctx 0).map
          (fun y => (y.state, y.attempts.map (·.path)))
        = some (if h = .down then (.parked, []) else (.active, if twin then [40, 10] else [40])) ∧
      ((after (.payloadReadEnd (.data [1, 2, 3, 4]))
        (taking { load := .valid, inflight := 2 } { sdesc with twin := twin } h)).stream 9).inflight = 3) := by
  decide +kernel

/-- A pair of paths on both fabrics, and one alone. -/
theorem witness_firstDispatched (x : Context) (k : x.stream = 9) : (twoPaths .up .up sdesc).OtherFabric x 40 10 ∧
    (∀ q, ¬(twoPaths .down .up sdesc).OtherFabric x 40 q) ∧ (∀ p, ¬(twoPaths .down .fenced sdesc).Candidate x p) := by
  have list : ∀ a b, (twoPaths a b sdesc).routeList x = [40, 10] := by
    intro a b
    unfold State.routeList State.streamDesc
    rw [k]
    rfl
  refine ⟨⟨⟨?_, ?_, by decide +kernel, .inl (by decide +kernel)⟩, by decide +kernel, 0, 2, by decide +kernel,
    by decide +kernel, by decide⟩, ?_, ?_⟩
  · rw [list]; decide
  · rw [k]; decide +kernel
  · rintro q ⟨⟨l, -, -, -⟩, h, i, j, hi, hj, hij⟩
    rw [list] at l
    rcases List.mem_cons.1 l with rfl | l
    · rw [hi] at hj
      cases hj
      omega
    · cases List.mem_singleton.1 l
      revert h
      decide +kernel
  · rintro q ⟨l, -, -, h⟩
    rw [list] at l
    rcases List.mem_cons.1 l with rfl | l
    · revert h; decide +kernel
    · cases List.mem_singleton.1 l
      revert h; decide +kernel

/-- Context 0 of stream 9 in flight as given, Window 1, with the exchange of context 1 PENDING behind it. -/
def behind (doubt : Bool) (state : StreamState) (x : Context) : State :=
  (holding x (streamed { load := .valid, state := state, inflight := 1, pendingList := [1] }
    { sdesc with window := 1, stopOnDoubt := doubt } .up .up)).setCtx 1 (some { live .pending .query with exch := some 301 })

/-- A stream whose exchange in flight completes, IN_DOUBT or not, with Stop On Doubt and without, OPEN and STALLED; and
one whose PENDING exchange does. -/
theorem witness_streamLeft : ∀ b ∈ [false, true], ∀ st ∈ [StreamState.open, .stalled],
    ((behind b st resolving).streamDesc 9).stopOnDoubt = b ∧ ((behind b st resolving).stream 9).state = st ∧
    (behind b st resolving).ctx 0 = some resolving ∧ resolving.state ≠ .pending ∧
    ((behind b st resolving).ctx 1).map (·.state) = some .pending ∧
    ((behind b st resolving).stream 9).pendingList = [1] ∧
    ((behind b st resolving).stream 9).mode = .unordered ∧
    ({ (behind b st resolving).stream 9 with inflight := 0, state := .open } : StreamEntry).decisions .running = 1 ∧
    ({ (behind b st resolving).stream 9 with inflight := 0, state := .stalled } : StreamEntry).decisions .running = 0 := by
  decide +kernel

/-- R40, R41, R43: the deadline of an exchange in RESOLVING stalls its stream with Stop On Doubt, and the list is kept;
without it, and at the deadline of an ACTIVE query, the next head is dispatched. -/
theorem test_completion_dispatches :
    ((after (.deadlineExpiry 0) (behind true .open resolving)).stream 9).state = .stalled ∧
    (after (.deadlineExpiry 0) (behind true .open resolving)).event = 0x008 ∧
    ((after (.deadlineExpiry 0) (behind true .open resolving)).stream 9).pendingList = [1] ∧
    ((after (.deadlineExpiry 0) (behind true .open resolving)).stream 9).inflight = 0 ∧
    ∀ s ∈ [behind false .open resolving, behind true .open (live .active .query)],
      ((after (.deadlineExpiry 0) s).stream 9).state = .open ∧
      ((after (.deadlineExpiry 0) s).stream 9).pendingList = [] ∧
      ((after (.deadlineExpiry 0) s).stream 9).inflight = 1 ∧
      ((after (.deadlineExpiry 0) s).ctx 1).map (·.state) = some .active := by decide +kernel

/-- A fetch of context 0 that waits for a reload of stream 9, under contents of it and under none; no pending list holds
that context. Another reload finds PENDING exchanges alone. -/
def reloadingStream (contents : Option StreamDesc) : State :=
  { loadingStream with
    streams := running.streams.set 9 { load := .reloading, contents := contents, read := some early } }

theorem pendingList_set (s : State) (e : StreamEntry) (h : s.streams = running.streams.set 9 e) (m : StreamId)
    (k : e.pendingList = []) : (s.stream m).pendingList = [] := by
  have : s.stream m = (running.setStream 9 e).stream m := congrArg (·.get m) h
  rw [this, State.stream_setStream]
  split
  · exact k
  · exact congrArg StreamEntry.pendingList (Vector.getElem_replicate m.isLt)

theorem witness_reloadStreamReadEnd_unlisted (d : Option StreamDesc) (m : StreamId) :
    (0 : CtxId) ∉ ((reloadingStream d).stream m).pendingList := by
  rw [pendingList_set _ _ rfl m rfl]
  exact List.not_mem_nil

theorem witness_reloadStreamReadEnd_fetch : ∀ d ∈ [none, some sdesc],
    (reloadingStream d).adapter.works = true ∧ ((reloadingStream d).stream 9).read = some early ∧
    ((reloadingStream d).stream 9).load ≠ .loading false ∧ (reloadingStream d).deferred = [] ∧
    (reloadingStream d).ctx 0 = some { exch := some 300 } ∧
    (streamDesc []).present = false ∧
    ((streamDesc [1]).present = true ∧ (streamDesc [1]).level < (reloadingStream d).effectiveLevel 300 0) ∧
    ((streamDesc [1, 0, 3]).present = true ∧
      (reloadingStream d).effectiveLevel 300 0 ≤ (streamDesc [1, 0, 3]).level) := by decide +kernel

theorem witness_reloadStreamReadEnd_dispatch : ∀ c x,
    (holding (live .pending .query) (streamed { load := .reloading, read := some early, pendingList := [0] } sdesc .up
      .up)).ctx c = some x → x.state ≠ .parked ∧ x.state ≠ .active ∧ x.state ≠ .waiting ∧ x.state ≠ .resolving := by
  intro c x h
  rw [ctx_holding _ _ c rfl] at h
  split at h
  · cases h; decide
  · cases h

/-- R11, R12: the fetch that waited for the reload goes on at its end: the payload read, LEVEL_DENIED, NO_STREAM, and
NO_STREAM after a failure. -/
theorem test_fetch_goes_on : ∀ d ∈ [none, some sdesc],
    (match (after (.reloadStreamReadEnd 9 (.data [1, 0, 3])) (reloadingStream d)).phase with
      | .payload 0 _ => true
      | _ => false) = true ∧
    (((after (.reloadStreamReadEnd 9 (.data [1])) (reloadingStream d)).ctx 0).bind (·.result)).map (·.status)
      = some .levelDenied ∧
    ∀ a ∈ [ReadAnswer.data [], .failed [0]],
      (((after (.reloadStreamReadEnd 9 a) (reloadingStream d)).ctx 0).bind (·.result)).map (·.status)
        = some .noStream := by decide +kernel

/-- Path 40 with PROBE 7 outstanding and all but one good probe, DOWN path 10, and context 0 in target 5's park list. -/
def releasing (x : Context) : State :=
  ((holding x (twoPaths .down .recovering sdesc)).modPath 40 fun r =>
    { r with proving := 14, outstanding := some { seq := 7, sendTime := 500 } }).modTarget 5 fun u =>
      { u with park := [0], reach := .unreachable }

/-- An inquiry that waits for a path. -/
def waitingNoPath (count : Nat) : Context :=
  { live .resolving .commit with inquiry := some { asked with count := count, path := none, state := some .waiting } }

/-- Exchanges that wait for path 40: a parked request with room and at Max Attempts, an inquiry below and at the Inquiry
Limit. -/
theorem witness_released (x : Context) (k : x ∈ [waitingParked,
      { waitingParked with attempts := List.replicate 4 { sent with state := .timedOut } }, waitingNoPath 1,
      waitingNoPath 6]) : (releasing x).WaitsFor 40 5 0 x := by
  have stream : x.stream = 9 ∧ ∀ a ∈ x.attempts, a.state ≠ .queued ∧ a.state ≠ .sent := by
    revert x
    decide +kernel
  have port : ∀ i : PortId, ∀ lane : Fin 8, ((releasing {}).port i).lanes.get lane = [] := by decide +kernel
  have target : (40 : PathId) ∈ ((releasing {}).targetDesc 5).pathList ∧ (0 : CtxId) ∈ ((releasing {}).target 5).park ∧
      ((releasing {}).streamDesc 9).target = 5 := by decide +kernel
  refine ⟨target.1, target.2.1, rfl, stream.1 ▸ target.2.2, fun m h => ?_, stream.2, fun i lane e h => ?_⟩
  · rw [pendingList_set _ _ rfl m rfl] at h
    cases h
  · have h : e ∈ ((releasing {}).port i).lanes.get lane := h
    rw [port] at h
    cases h

/-- R60, R120, R158: the last good probe takes path 40 to UP: what was parked goes out, the target is reachable again,
and the parts of both wait with an event mark, as the path's does after a notice; the port's waits for its count (R69). -/
theorem test_hand_outs :
    (∀ x ∈ [waitingParked, waitingNoPath 1],
      (((after (.frameArrival 2 (frame { kind := 4, probeSeq := 7 } [])) (releasing x)).path 40).health,
        ((after (.frameArrival 2 (frame { kind := 4, probeSeq := 7 } [])) (releasing x)).target 5).park,
        ((after (.frameArrival 2 (frame { kind := 4, probeSeq := 7 } [])) (releasing x)).target 5).reach)
        = (.up, [], .reachable) ∧
      (after (.frameArrival 2 (frame { kind := 4, probeSeq := 7 } [])) (releasing x)).rewrites
        = [{ part := .port 2, event := false }, { part := .path 40, event := true }, { part := .target 5, event := true }]) ∧
    (∀ cmd ∈ [Instr.fence 40, .drill 40],
      { part := .path 40, event := true } ∈ (after cmd (withStream {} { health := .up })).rewrites) := by decide +kernel

/-- R163: data after the 50 ms are no answer, for a read in use and for one left without a use. -/
theorem test_late_data :
    (after (.payloadReadEnd (.data [1, 2, 3, 4]))
      { taking { load := .valid } sdesc .up with phase := .payload 0 late }).phase = .payload 0 late ∧
    ((after (.payloadReadEnd (.data [1, 2, 3, 4]))
      { taking { load := .valid } sdesc .up with phase := .payload 0 late }).ctx 0).map (·.state) = some .fetching ∧
    (after (.reloadPathReadEnd 40 (.data (List.replicate 64 0))) orphaned).orphans.length = 4 ∧
    (after (.sweepOwnerReadEnd (.data (List.replicate 4 0))) orphaned).orphans.length = 3 ∧
    (after (.loadingTablesReadEnd [⟨.path 9, .data (List.replicate 64 0)⟩]) orphaned).orphans.length = 4 := by
  decide +kernel

/-- R163, R168: no table read has run its 50 ms as step 3 begins, whenever each begins. -/
theorem test_table_read_not_due (begun : W32) (requests : List Nat) :
    after (.hostReadTimeout (.table (.target 3)) requests) (tabling false anchor begun 0 noTablesRead) =
      tabling false anchor begun 0 noTablesRead := rfl

/-! ### The invariants hold somewhere, and steps leave from there -/

/-- The running state with SWEEP waiting meets every law a step keeps, and its step answers. -/
def sweeping : State :=
  { running with pending := [.sweep] }

theorem witness_stepKeeps : step sweeping = .next { running with sweepPending := true } := rfl

theorem witness_stepKeepsPathsAndPorts : sweeping.PathsOk ∧ sweeping.PortsOk := by
  refine ⟨fun p => ?_, fun i => ?_⟩
  · have : sweeping.path p = {} := Vector.getElem_replicate p.isLt
    rw [this]
    exact ⟨fun d h => (nomatch h), ⟨by decide, fun _ => by decide, fun h => absurd rfl h⟩, by decide, by decide⟩
  · have : sweeping.port i = PortRec.initial := Vector.getElem_replicate i.isLt
    rw [this]
    exact ⟨fun _ => by decide, by decide⟩

theorem witness_stepKeepsOrderedStreams : sweeping.StreamsOk ∧ sweeping.TargetsOk := by
  refine ⟨fun n => ?_, fun u d h => ?_⟩
  · have : sweeping.stream n = {} := Vector.getElem_replicate n.isLt
    rw [this]
    exact ⟨fun _ h => (nomatch h), fun _ => rfl, fun _ => rfl, fun h => (nomatch h), fun _ _ h => (nomatch h)⟩
  · have : sweeping.target u = {} := Vector.getElem_replicate u.isLt
    rw [this] at h
    cases h

theorem witness_stepKeepsHoldersAndQueue : sweeping.OneHolder ∧ sweeping.QueueOk := by
  have e : ∀ c, sweeping.ctx c = none := fun c => Vector.getElem_replicate c.isLt
  refine ⟨fun c d x y n h => ?_, ⟨.nil, fun c => ⟨fun h => (nomatch h), ?_⟩, fun c x h => ?_⟩⟩
  · rw [e] at h; cases h
  · rintro ⟨x, h, _⟩
    rw [e] at h; cases h
  · rw [e] at h; cases h

theorem witness_stepKeepsRegisterLaws : sweeping.RegistersOk where
  interrupt := by decide
  faults := by decide
  fifo := by decide
  runs := fun r h => nomatch h
  settings := fun c h => by
    cases h
    exact
      { records := by decide, slices := by decide, corrWindow := by decide, corrThreshold := by decide
        coalesce := by decide, holdoff := by decide, lossTime := by decide, returnTime := by decide }
  reading := fun q c b g v h => nomatch h
  loading := by decide
  coalesced := by decide
  payload := rfl
  settled := rfl

/-- A context past FETCHING in a state whose queue is in order, for the frame of a live exchange. -/
theorem witness_exchangesAreNeverLost : (holding (live .active .query) running).QueueOk ∧
    (holding (live .active .query) running).ctx 0 = some (live .active .query) ∧
    (live .active .query).state ≠ .fetching := by
  have e : ∀ c, (holding (live .active .query) running).ctx c = if c = 0 then some (live .active .query) else none :=
    fun c => ctx_holding _ _ c rfl
  refine ⟨⟨.nil, fun c => ⟨fun h => (nomatch h), ?_⟩, fun c x h k => ?_⟩, by rw [e]; rfl, by decide⟩
  · rintro ⟨x, h, k⟩
    rw [e] at h
    split at h
    · cases h; cases k
    · cases h
  · rw [e] at h
    split at h
    · cases h; cases k
    · cases h

/-- A START that is accepted changes the adapter state; a write of ANCHOR in HALTED changes ANCHOR. -/
theorem witness_adapterStateChanges : (after .stop running).adapter ≠ running.adapter ∧
    (after (.anchorWrite .whole 1) State.reset).anchor ≠ State.reset.anchor := by decide +kernel

end Sys2Proof.Tests
end

section
/-!
O49. The estimator and the reply timeout (R47, R49, R52).
-/

namespace Sys2Proof.RouteSelection

open Sys2Proof.Machine

/-- R49: the first sample sets the estimate. -/
theorem update_first {r : PathRec} (h : r.samples = 0) (m : Nat) :
    r.update m = { r with srtt := m, rttvar := m / 2, samples := 1 } :=
  if_pos h

/-- R49: a later sample, the deviation written as the distance of the sample from SRTT. -/
theorem update_later {r : PathRec} (h : r.samples ≠ 0) (m : Nat) :
    r.update m =
      { r with
        rttvar := r.rttvar - r.rttvar / 4 + (max r.srtt m - min r.srtt m) / 4
        srtt := r.srtt - r.srtt / 8 + m / 8
        samples := min 255 (r.samples + 1) } := by
  have distance : r.srtt - m + (m - r.srtt) = max r.srtt m - min r.srtt m := by omega
  rw [← distance]
  exact if_neg h

/-- R52, step 1: the Initial Timeout in µs without a sample; with one, the granularity is 200 µs. -/
theorem rtoBase_eq (r : PathRec) (initial : Nat) :
    rtoBase r initial = if r.samples = 0 then 1000 * initial else r.srtt + max (4 * r.rttvar) 200 := by
  rw [Nat.mul_comm]
  rfl

theorem clampTo_of_mem {lo hi v : Nat} (h : lo ≤ v) (k : v ≤ hi) : clampTo lo hi v = v := by
  unfold clampTo; omega

theorem clampTo_of_lt {lo hi v : Nat} (h : v < lo) : clampTo lo hi v = lo := by
  unfold clampTo; omega

theorem clampTo_of_gt {lo hi v : Nat} (ordered : lo ≤ hi) (h : hi < v) : clampTo lo hi v = hi := by
  unfold clampTo; omega

/-- Settles O49: the equations of the update and its kept bounds, then the clamp by where its argument lies. -/
theorem estimatorAndTimeout : Obligations.EstimatorAndTimeout := by
  refine ⟨fun r m => ⟨fun h => update_first h m, fun h => update_later h m⟩, fun r m h => h.update,
    fun r initial k lo hi ordered => ?_⟩
  obtain ⟨low, high⟩ := clampTo_range (rtoBase r initial * 2 ^ k) ordered
  refine ⟨low, high, fun base is => ?_⟩
  rw [← rtoBase_eq] at is
  subst is
  exact ⟨clampTo_of_mem, clampTo_of_lt, clampTo_of_gt ordered⟩

end Sys2Proof.RouteSelection
end

section
/-!
O14, O16, O32, O35, O38, O39, O43, refuted. R20 gives an attempt its number at its transmission start, so a QUEUED
attempt has none in any state a run reaches. `Replaced` does not ask this of the withdrawn attempt, and without room
for a replacement it then says too much: `Completed` has Attempts Used count the numbered attempts of the context
before the step, while the withdrawn record is deleted (R58) before the completion counts (R2). One state with such a
record, and a path about to leave service, refutes every statement that says `Replaced`.
-/

namespace Sys2Proof.RouteSelection

open Sys2Proof.Machine

/-! ### Where `Replaced` is said -/

/-- R101 to R105: a strike event that takes a path in service DOWN has what waited in its lanes replaced. -/
theorem replaced_of_struck {s t : State} {p : PathId} {n : Nat} {own : Option CtxId} (h : Struck s t p n own)
    (served : (s.path p).health.inService = true) (moved : min 15 ((s.path p).strikes + n) ≠ (s.path p).strikes)
    (down : s.judged p (min 15 ((s.path p).strikes + n)) = .down) : Replaced s t p own := by
  obtain ⟨fallen, -⟩ := (h.served served).fell moved down
  exact fallen.replaced

/-- R67, R117: an accepted loss has what waited in the lanes of a path in service replaced. -/
theorem replaced_of_carrierLost {s t : State} {i : PortId} {p : PathId} (h : CarrierLost s t i)
    (named : s.pathPort p = some i) (served : (s.path p).health.inService = true) : Replaced s t p none := by
  have notFenced : (s.path p).health ≠ .fenced := fun e => by rw [e] at served; cases served
  have notDown : (s.path p).health ≠ .down := fun e => by rw [e] at served; cases served
  exact (h.fell p named notFenced notDown).replaced

/-! ### The state -/

/-- Attempt 1, LOST on path 0. -/
def lostFirst : Attempt :=
  { id := 0, number := some 1, path := 0, gen := 0, twin := none, redrive := false, sendTime := some 100
    state := .lost }

/-- A re-drive QUEUED on path 0 that bears a number before its transmission. -/
def numberedSecond : Attempt :=
  { id := 1, number := some 2, path := 0, gen := 0, twin := none, redrive := true, sendTime := none
    state := .queued }

/-- The query of both, without room: its stream now allows one attempt. -/
def numberedQuery : Context :=
  { exch := some 300, state := .active, attempts := [lostFirst, numberedSecond], nextId := 2 }

/-- The attempt of another query, SENT on path 0. -/
def overdue : Attempt :=
  { id := 0, number := some 1, path := 0, gen := 0, twin := none, redrive := false, sendTime := some 100
    state := .sent }

/-- That query, its reply timer EXPIRED. -/
def overdueQuery : Context :=
  { exch := some 301, state := .active, attempts := [overdue], reply0 := .expired 100 500, serves0 := some 0
    nextId := 1 }

/-- Path 0, on port 0: SUSPECT, one strike below its Down Threshold of 6, with mark A EXPIRED. -/
def failingPath : PathRec :=
  { load := .valid, contents := some (pathDesc []), health := .suspect, strikes := 5, inflight := 1
    markA := .expired 0 30 }

/-- Port 0: UP, its carrier filter at the end of LOSS_PENDING, the REQUEST of the numbered attempt in lane 2. -/
def failingPort : PortRec :=
  { PortRec.initial with
    filter := .lossPending
    filterTimer := .expired 0 5000
    state := .up
    lanes := (Vector.replicate 8 []).set 2 [.request 0 1 0 0] }

/-- RUNNING with the two queries on stream 0, whose Max Attempts is 1, path 0 and port 0. -/
def numbered : State :=
  let s := { State.reset with adapter := .running, settings := some (anchorSettings []), clock := 1000 }
  ((((s.setCtx 0 (some numberedQuery)).setCtx 1 (some overdueQuery)).setStream 0
    { load := .valid, contents := some { streamDesc [1] with maxAttempts := 1 }, inflight := 2 }).setPath 0
      failingPath).setPort 0 failingPort

/-- What a command leads to from there. -/
def numberedAfter (c : Instr) : State :=
  match exec c numbered with
  | .next t => t
  | .fault _ => numbered
  | .refused _ => numbered

theorem numberedAfter_eq {c : Instr} {t : State} (run : exec c numbered = .next t) : numberedAfter c = t := by
  simp [numberedAfter, run]

/-- The Attempts Used of context 0's result after a command. -/
def countedAfter (c : Instr) : Option Nat :=
  (((numberedAfter c).ctx 0).bind (·.result)).map (·.attemptsUsed)

/-- R84: a frame from path 0 at port 0, too short for a link header. -/
def shortFrame : EthFrame :=
  { dest := 0, src := 0, etype := 0, checkOk := true, body := [] }

/-- R93: a DRAIN advisory from path 0 at port 0. -/
def drainFrame : EthFrame :=
  { shortFrame with body := headerBytes (LinkHeader.withCheck { kind := 7, advisory := 1 }) }

theorem numbered_takes (f : EthFrame) (check : f.checkOk = true) (dest : f.dest = 0) (etype : f.etype = 0)
    (src : f.src = 0) : TakenFor numbered 0 f 0 where
  works := by decide +kernel
  port := by decide +kernel
  check := check
  accepted := ⟨anchorSettings [], rfl, dest.trans (by decide), etype.trans (by decide)⟩
  source := by rw [src]; decide +kernel

theorem numbered_unlisted (m : StreamId) : 0 ∉ (numbered.stream m).pendingList := by
  have e : numbered.stream m = if m = 0 then _ else State.reset.stream m := State.stream_setStream 0 m _ _
  rw [e]
  split
  · simp
  · have reset : State.reset.stream m = {} := Vector.getElem_replicate m.isLt
    simp [reset]

theorem numbered_serves : (numbered.path 0).health.inService = true := by decide +kernel

theorem numbered_pathPort : numbered.pathPort 0 = some 0 := by decide +kernel

/-! ### What `Replaced` says of its steps -/

/-- R58, R127: context 0 has no room for a replacement, and `Replaced` has its completion count two attempts. -/
theorem replaced_counts_two {t : State} {own : Option CtxId} (h : Replaced numbered t 0 own)
    (other : own ≠ some 0) : ∃ y r, t.ctx 0 = some y ∧ y.result = some r ∧ r.attemptsUsed = 2 := by
  obtain ⟨y, after, -, full⟩ := h.attempt 0 0 numberedQuery numberedSecond 2 0 numbered_serves numbered_pathPort
    (by decide +kernel) (by decide +kernel) other rfl rfl rfl (by decide) (by decide) numbered_unlisted
  obtain ⟨r, completed⟩ := full (by decide +kernel)
  exact ⟨y, r, after, completed.result, completed.used⟩

/-- So it describes no step whose completion of context 0 counts one. -/
theorem replaced_absurd {c : Instr} {t : State} {own : Option CtxId} (h : Replaced numbered t 0 own)
    (other : own ≠ some 0) (run : exec c numbered = .next t) (counted : countedAfter c = some 1) : False := by
  obtain ⟨y, r, after, result, used⟩ := replaced_counts_two h other
  simp [countedAfter, numberedAfter_eq run, after, result, used] at counted

/-- Nor does `Struck`: one strike takes path 0 DOWN. -/
theorem struck_absurd {c : Instr} {t : State} {n : Nat} {own : Option CtxId} (h : Struck numbered t 0 n own)
    (amount : n = 1 ∨ n = 2) (other : own ≠ some 0) (run : exec c numbered = .next t)
    (counted : countedAfter c = some 1) : False := by
  refine replaced_absurd (replaced_of_struck h numbered_serves ?_ ?_) other run counted
  all_goals obtain rfl | rfl := amount <;> decide +kernel

/-! ### The refutations -/

/-- Refutes O14: the FENCE takes path 0 from SUSPECT to DRAINING, and the completion counts one attempt. -/
theorem not_fenceNotice : ¬ Obligations.FenceNotice := by
  intro h
  obtain ⟨t, run, -, -, -, -, -, -, -, -, -, changed⟩ := h 0 0 numbered (by decide +kernel) rfl rfl
  have moved : ((numberedAfter (.fence 0)).path 0).health ≠ (numbered.path 0).health := by decide +kernel
  rw [numberedAfter_eq run] at moved
  obtain ⟨-, -, replaced⟩ := changed moved
  exact replaced_absurd replaced nofun run (by decide +kernel)

/-- Refutes O16: the DRILL takes path 0 from SUSPECT to FENCED, and the completion counts one attempt. -/
theorem not_drillNotice : ¬ Obligations.DrillNotice := by
  intro h
  obtain ⟨t, run, -, -, -, -, -, -, -, fenced⟩ := h 0 0 numbered (by decide +kernel) rfl rfl
  obtain ⟨-, -, -, -, -, -, -, -, -, replaced, -⟩ := fenced (by decide +kernel)
  exact replaced_absurd replaced nofun run (by decide +kernel)

/-- Refutes O32: the end of LOSS_PENDING takes path 0 from SUSPECT to DOWN, and the completion counts one attempt. -/
theorem not_acceptedLossTakesPathsDown : ¬ Obligations.AcceptedLossTakesPathsDown := by
  intro h
  obtain ⟨t, run, -, lost⟩ := (h 0 numbered rfl).1 (by decide +kernel) (by decide +kernel)
  have replaced := replaced_of_carrierLost (lost (by decide +kernel)) numbered_pathPort numbered_serves
  exact replaced_absurd replaced nofun run (by decide +kernel)

/-- Refutes O35: the strike of a malformed frame takes path 0 DOWN, and the completion counts one attempt. -/
theorem not_probesStaleAndMalformedFrames : ¬ Obligations.ProbesStaleAndMalformedFrames := by
  intro h
  obtain ⟨-, malformed, -⟩ := h 0 shortFrame 0 numbered _ (numbered_takes shortFrame rfl rfl rfl rfl) rfl
  obtain ⟨t, run, -, struck, -⟩ := malformed (by decide +kernel) rfl
  exact struck_absurd struck (.inl rfl) nofun run (by decide +kernel)

/-- Refutes O38: the DRAIN advisory takes path 0 from SUSPECT to DRAINING, and the completion counts one attempt. -/
theorem not_advisoriesDrainAndResume : ¬ Obligations.AdvisoriesDrainAndResume := by
  intro h
  obtain ⟨drains, -⟩ := h 0 drainFrame 0 numbered (numbered_takes drainFrame rfl rfl rfl rfl) rfl
  obtain ⟨t, run, -, -, -, -, changed⟩ := drains (by decide +kernel)
  have moved : ((numberedAfter (.frameArrival 0 drainFrame)).path 0).health ≠ (numbered.path 0).health := by
    decide +kernel
  rw [numberedAfter_eq run] at moved
  obtain ⟨-, -, replaced⟩ := changed moved
  exact replaced_absurd replaced nofun run (by decide +kernel)

/-- Refutes O39: the timeout of context 1 takes path 0 DOWN, and the completion of context 0 counts one attempt. -/
theorem not_replyTimerExpiry : ¬ Obligations.ReplyTimerExpiry := by
  intro h
  obtain ⟨t, run, -, -, expiry⟩ := h 1 0 numbered rfl
  obtain ⟨-, struck, -⟩ := expiry overdueQuery overdue (by decide +kernel) (by decide) (by decide)
  exact struck_absurd struck (.inr rfl) (by decide) run (by decide +kernel)

/-- Refutes O43: the miss at mark A takes path 0 DOWN, and the completion counts one attempt. -/
theorem not_probeMarks : ¬ Obligations.ProbeMarks := by
  intro h
  obtain ⟨⟨t, run, -, -, missed, -⟩, -⟩ := h 0 numbered rfl
  obtain ⟨struck, -⟩ := missed (by decide +kernel)
  exact struck_absurd struck (.inl rfl) nofun run (by decide +kernel)

end Sys2Proof.RouteSelection
end

section
/-!
SUPPORT. The selection of a grant decision (R72, R73): what a level selects by its lanes, masks and chit, and the
selection down the three levels.
-/

namespace Sys2Proof.LinkPorts

open Sys2Proof.Machine

/-! ### Records after a change, and a port set twice -/

/-- A mark that waits already stays as it is. -/
theorem markRewrite_idem (part : Part) (l : List Rewrite) :
    markRewrite part false (markRewrite part false l) = markRewrite part false l := by
  unfold markRewrite
  by_cases waits : (l.any fun r => r.part == part) = true
  · have again : ((l.map fun r => if r.part = part then { r with event := r.event || false } else r).any
        fun r => r.part == part) = true := by
      simpa [List.any_map, Function.comp_def] using waits
    simp only [waits, if_true]
    rw [if_pos again]
    simp
  · simp [waits]

/-- A port record set twice: the first record is lost, where the second change is a reported one if the first is. -/
theorem setPort_setPort (i : PortId) (r q : PortRec) (s : State)
    (reported : (s.port i).reported ≠ r.reported → (s.port i).reported ≠ q.reported) :
    (s.setPort i r).setPort i q = s.setPort i q := by
  have marks : (if r.reported = q.reported then
      (if (s.port i).reported = r.reported then s.rewrites else markRewrite (.port i) false s.rewrites)
      else markRewrite (.port i) false
        (if (s.port i).reported = r.reported then s.rewrites else markRewrite (.port i) false s.rewrites)) =
      if (s.port i).reported = q.reported then s.rewrites else markRewrite (.port i) false s.rewrites := by
    by_cases first : (s.port i).reported = r.reported
    · rw [first]; simp
    · rw [if_neg first, if_neg (reported first), markRewrite_idem, ite_self]
  have self : (s.setPort i r).port i = r := by rw [State.port_setPort, if_pos rfl]
  unfold State.setPort at self ⊢
  rw [self]
  simp only [marks, Vector.set_set]

theorem port_modPort (i j : PortId) (f : PortRec → PortRec) (s : State) :
    (s.modPort i f).port j = if j = i then f (s.port i) else s.port j :=
  State.port_setPort i j _ s

theorem path_modPath (p q : PathId) (f : PathRec → PathRec) (s : State) :
    (s.modPath p f).path q = if q = p then f (s.path p) else s.path q :=
  State.path_setPath p q _ s

/-! ### Selection -/

/-- The first member of a test in increasing number. -/
theorem find_finRange {n : Nat} (test : Fin n → Bool) (l : Fin n) :
    (List.finRange n).find? test = some l ↔ test l = true ∧ ∀ m, m < l → test m = false := by
  rw [List.find?_eq_some_iff_getElem]
  constructor
  · rintro ⟨holds, k, bound, rfl, before⟩
    refine ⟨holds, fun m less => ?_⟩
    have := before m.val (by simpa [Fin.lt_def] using less)
    simpa using this
  · rintro ⟨holds, before⟩
    refine ⟨holds, l.val, by simp, by simp, fun k less => ?_⟩
    simpa using before ⟨k, less.trans l.isLt⟩ less

theorem mem_requestingLanes {s : State} {i : PortId} {level : LaneLevel} {l : Fin 8} :
    l ∈ s.requestingLanes i level ↔ s.Requests i level l := by
  simp [State.requestingLanes, State.Requests]

/-- R73, step 2: the lane found is the lowest-numbered one of the level that requests and is unmasked. -/
theorem firstUnmasked_eq_some {s : State} {i : PortId} {level : LaneLevel} {masks : Vector Bool 8} {l : Fin 8} :
    firstUnmasked masks (s.requestingLanes i level) = some l ↔
      s.Requests i level l ∧ masks.get l = false ∧
        ∀ m, m < l → s.Requests i level m → masks.get m = true := by
  unfold firstUnmasked State.requestingLanes State.Requests
  rw [List.find?_filter, find_finRange]
  simp [and_assoc]

/-- R73, step 2: no lane is found where every requesting lane is masked. -/
theorem firstUnmasked_eq_none {s : State} {i : PortId} {level : LaneLevel} {masks : Vector Bool 8} :
    firstUnmasked masks (s.requestingLanes i level) = none ↔
      ∀ l, s.Requests i level l → masks.get l = true := by
  simp [firstUnmasked, List.find?_eq_none, mem_requestingLanes]

/-- R73, step 1: the masks of the level's lanes are clear, and the others stand. -/
theorem clearLevelMasks_get (s : State) (level : LaneLevel) (masks : Vector Bool 8) (l : Fin 8) :
    (s.clearLevelMasks level masks).get l = if s.laneLevel l = level then false else masks.get l := by
  have fold : ∀ (lanes : List (Fin 8)) (m : Vector Bool 8),
      (lanes.foldl (fun m lane => if s.laneLevel lane = level then m.set lane.val false lane.isLt else m) m).get l =
        if l ∈ lanes ∧ s.laneLevel l = level then false else m.get l := by
    intro lanes
    induction lanes with
    | nil => simp
    | cons k lanes ih =>
      intro m
      rw [List.foldl_cons, ih]
      by_cases cleared : s.laneLevel k = level
      · by_cases same : l = k
        · subst same; simp [cleared, get_set]
        · simp [cleared, get_set, same]
      · by_cases same : l = k
        · subst same; simp [cleared]
        · simp [cleared, same]
  exact (fold (List.finRange 8) masks).trans (by simp)

/-- R73: every requesting member of the level is masked, so that its round begins anew. -/
def roundEnds (s : State) (i : PortId) (level : LaneLevel) (chit : Bool) (masks : Vector Bool 8) (mask : Bool) :
    Bool :=
  (firstUnmasked masks (s.requestingLanes i level)).isNone && !(chit && !mask)

/-- R73, step 1: the lane masks that the selection of a level goes by. -/
def roundMasks (s : State) (i : PortId) (level : LaneLevel) (chit : Bool) (masks : Vector Bool 8) (mask : Bool) :
    Vector Bool 8 :=
  if roundEnds s i level chit masks mask then s.clearLevelMasks level masks else masks

/-- R73, step 1: the chit's mask that the selection of a level goes by. -/
def roundChit (s : State) (i : PortId) (level : LaneLevel) (chit : Bool) (masks : Vector Bool 8) (mask : Bool) :
    Bool :=
  if roundEnds s i level chit masks mask then false else mask

section Level
variable {s : State} {i : PortId} {level : LaneLevel} {chit : Bool} {masks : Vector Bool 8} {mask : Bool}

theorem roundEnds_iff : roundEnds s i level chit masks mask = true ↔
    (∀ l, s.Requests i level l → masks.get l = true) ∧ (chit = true → mask = true) := by
  rw [roundEnds, Bool.and_eq_true, Option.isNone_iff_eq_none, firstUnmasked_eq_none]
  cases chit <;> cases mask <;> simp

theorem roundMasks_cleared (ends : roundEnds s i level chit masks mask = true) (l : Fin 8) :
    (roundMasks s i level chit masks mask).get l = if s.laneLevel l = level then false else masks.get l := by
  rw [roundMasks, if_pos ends, clearLevelMasks_get]

/-- R73: a lane selected. -/
theorem selects_lane {l : Fin 8}
    (found : firstUnmasked (roundMasks s i level chit masks mask) (s.requestingLanes i level) = some l) :
    s.Selects i level chit masks ((roundMasks s i level chit masks mask).set l.val true l.isLt) mask
      (roundChit s i level chit masks mask) (some l) := by
  obtain ⟨requests, unmasked, lowest⟩ := firstUnmasked_eq_some.mp found
  refine ⟨roundMasks s i level chit masks mask, roundChit s i level chit masks mask, fun all => ?_, fun other => ?_,
    requests, unmasked, lowest, fun m => get_set _ _ _ _, rfl⟩
  · have ends := roundEnds_iff.mpr all
    exact ⟨roundMasks_cleared ends, if_pos ends⟩
  · have goes := mt roundEnds_iff.mp other
    exact ⟨if_neg goes, if_neg goes⟩

/-- R73: the chit selected, where some member of the level requests. -/
theorem selects_chit (requests : chit = true ∨ ∃ l, s.Requests i level l)
    (found : firstUnmasked (roundMasks s i level chit masks mask) (s.requestingLanes i level) = none) :
    s.Selects i level chit masks (roundMasks s i level chit masks mask) mask true none := by
  have masked := firstUnmasked_eq_none.mp found
  refine ⟨roundMasks s i level chit masks mask, false, fun all => ?_, fun other => ?_, masked, ?_, rfl, rfl, rfl⟩
  · exact ⟨roundMasks_cleared (roundEnds_iff.mpr all), rfl⟩
  · have goes := mt roundEnds_iff.mp other
    have stand : roundMasks s i level chit masks mask = masks := if_neg goes
    rw [stand] at masked
    refine ⟨stand, ?_⟩
    cases mask with
    | false => rfl
    | true => exact absurd ⟨masked, fun _ => rfl⟩ other
  · by_cases ends : roundEnds s i level chit masks mask = true
    · refine requests.resolve_right fun ⟨l, requests⟩ => ?_
      have clear := roundMasks_cleared ends l
      rw [masked l requests, if_pos requests.1] at clear
      cases clear
    · have goes := mt roundEnds_iff.mpr ends
      have stand : roundMasks s i level chit masks mask = masks := if_neg ends
      rw [stand] at masked
      by_contra unasked
      exact goes ⟨masked, fun asked => absurd asked unasked⟩

/-- R72: a chit selected requests. -/
theorem chit_requests {after : Vector Bool 8} {maskAfter : Bool}
    (passed : s.Selects i level chit masks after mask maskAfter none) : chit = true := by
  obtain ⟨-, -, -, -, -, requests, -⟩ := passed
  exact requests

/-- With no chit, a level with a request selects a lane. -/
theorem lane_found (requests : ∃ l, s.Requests i level l) :
    ∃ l, firstUnmasked (roundMasks s i level false masks mask) (s.requestingLanes i level) = some l := by
  cases found : firstUnmasked (roundMasks s i level false masks mask) (s.requestingLanes i level) with
  | some l => exact ⟨l, rfl⟩
  | none => cases chit_requests (selects_chit (.inr requests) found)

end Level

/-! ### The three levels -/

theorem requestingLanes_nonempty (s : State) (i : PortId) (level : LaneLevel) :
    (!(s.requestingLanes i level).isEmpty) = true ↔ ∃ l, s.Requests i level l := by
  simp [← mem_requestingLanes, List.eq_nil_iff_forall_not_mem]

theorem chit3Requests_iff (s : State) (i : PortId) :
    s.chit3Requests i = true ↔ ∃ l, s.Requests i .level3 l :=
  requestingLanes_nonempty s i .level3

theorem chit2Requests_iff (s : State) (i : PortId) :
    s.chit2Requests i = true ↔ s.chit3Requests i = true ∨ ∃ l, s.Requests i .level2 l := by
  rw [State.chit2Requests, Bool.or_eq_true, requestingLanes_nonempty, or_comm]

theorem level1Requests_iff (s : State) (i : PortId) :
    s.level1Requests i = true ↔ s.chit2Requests i = true ∨ ∃ l, s.Requests i .level1 l := by
  rw [State.level1Requests, Bool.or_eq_true, requestingLanes_nonempty, or_comm]

section Levels
variable {s : State} {i : PortId} {sel : Selection}

/-- R73, step 1, at level 1: the selection as its round begins. -/
theorem begin_level1 :
    (if roundEnds s i .level1 (s.chit2Requests i) sel.masks sel.chit2 then
      { sel with masks := s.clearLevelMasks .level1 sel.masks, chit2 := false } else sel) =
    { sel with
      masks := roundMasks s i .level1 (s.chit2Requests i) sel.masks sel.chit2
      chit2 := roundChit s i .level1 (s.chit2Requests i) sel.masks sel.chit2 } := by
  unfold roundMasks roundChit
  split <;> rfl

theorem selectLevel1_lane {l : Fin 8}
    (found : firstUnmasked (roundMasks s i .level1 (s.chit2Requests i) sel.masks sel.chit2)
      (s.requestingLanes i .level1) = some l) :
    s.selectLevel1 i sel =
      { sel with
        lane := some l
        masks := (roundMasks s i .level1 (s.chit2Requests i) sel.masks sel.chit2).set l.val true l.isLt
        chit2 := roundChit s i .level1 (s.chit2Requests i) sel.masks sel.chit2 } := by
  have start := begin_level1 (s := s) (i := i) (sel := sel)
  unfold roundEnds at start
  unfold State.selectLevel1
  simp only [start, found, Selection.choose]

theorem selectLevel1_chit
    (found : firstUnmasked (roundMasks s i .level1 (s.chit2Requests i) sel.masks sel.chit2)
      (s.requestingLanes i .level1) = none) :
    s.selectLevel1 i sel = s.selectLevel2 i
      { sel with masks := roundMasks s i .level1 (s.chit2Requests i) sel.masks sel.chit2, chit2 := true } := by
  have start := begin_level1 (s := s) (i := i) (sel := sel)
  unfold roundEnds at start
  unfold State.selectLevel1
  simp only [start, found]

/-- R73, step 1, at level 2. -/
theorem begin_level2 :
    (if roundEnds s i .level2 (s.chit3Requests i) sel.masks sel.chit3 then
      { sel with masks := s.clearLevelMasks .level2 sel.masks, chit3 := false } else sel) =
    { sel with
      masks := roundMasks s i .level2 (s.chit3Requests i) sel.masks sel.chit3
      chit3 := roundChit s i .level2 (s.chit3Requests i) sel.masks sel.chit3 } := by
  unfold roundMasks roundChit
  split <;> rfl

theorem selectLevel2_lane {l : Fin 8}
    (found : firstUnmasked (roundMasks s i .level2 (s.chit3Requests i) sel.masks sel.chit3)
      (s.requestingLanes i .level2) = some l) :
    s.selectLevel2 i sel =
      { sel with
        lane := some l
        masks := (roundMasks s i .level2 (s.chit3Requests i) sel.masks sel.chit3).set l.val true l.isLt
        chit3 := roundChit s i .level2 (s.chit3Requests i) sel.masks sel.chit3 } := by
  have start := begin_level2 (s := s) (i := i) (sel := sel)
  unfold roundEnds at start
  unfold State.selectLevel2
  simp only [start, found, Selection.choose]

theorem selectLevel2_chit
    (found : firstUnmasked (roundMasks s i .level2 (s.chit3Requests i) sel.masks sel.chit3)
      (s.requestingLanes i .level2) = none) :
    s.selectLevel2 i sel = s.selectLevel3 i
      { sel with masks := roundMasks s i .level2 (s.chit3Requests i) sel.masks sel.chit3, chit3 := true } := by
  have start := begin_level2 (s := s) (i := i) (sel := sel)
  unfold roundEnds at start
  unfold State.selectLevel2
  simp only [start, found]

/-- R73, step 1, at level 3, whose members are lanes alone. -/
theorem begin_level3 :
    (if (firstUnmasked sel.masks (s.requestingLanes i .level3)).isNone then
      { sel with masks := s.clearLevelMasks .level3 sel.masks } else sel) =
    { sel with masks := roundMasks s i .level3 false sel.masks false } := by
  unfold roundMasks roundEnds
  rw [Bool.false_and, Bool.not_false, Bool.and_true]
  split <;> rfl

theorem selectLevel3_lane {l : Fin 8}
    (found : firstUnmasked (roundMasks s i .level3 false sel.masks false) (s.requestingLanes i .level3) = some l) :
    s.selectLevel3 i sel =
      { sel with
        lane := some l
        masks := (roundMasks s i .level3 false sel.masks false).set l.val true l.isLt } := by
  unfold State.selectLevel3
  simp only [begin_level3, found, Selection.choose]

/-- R73, at level 3: where a lane requests, one is selected. -/
theorem selectLevel3_selects (sel : Selection) (asked : s.chit3Requests i = true) :
    ∃ lane masks, s.selectLevel3 i sel = { sel with lane := some lane, masks := masks } ∧
      s.Requests i .level3 lane ∧ s.Selects i .level3 false sel.masks masks false false (some lane) := by
  obtain ⟨lane, found⟩ := lane_found (masks := sel.masks) (mask := false) ((chit3Requests_iff s i).mp asked)
  obtain ⟨requests, -, -⟩ := firstUnmasked_eq_some.mp found
  have selects := selects_lane found
  rw [show roundChit s i .level3 false sel.masks false = false from ite_self _] at selects
  exact ⟨lane, _, selectLevel3_lane found, requests, selects⟩

/-- R73, at level 2: where a member requests, a lane of the level is selected, or one of level 3 through the chit. -/
theorem selectLevel2_selects (sel : Selection) (asked : s.chit2Requests i = true) :
    ∃ lane masks chit3, s.selectLevel2 i sel = { sel with lane := some lane, masks := masks, chit3 := chit3 } ∧
      (∃ level, level ≠ .off ∧ s.Requests i level lane) ∧
      (s.Selects i .level2 (s.chit3Requests i) sel.masks masks sel.chit3 chit3 (some lane) ∨
        ∃ second a b, s.Selects i .level2 (s.chit3Requests i) sel.masks second sel.chit3 chit3 none ∧
          s.Selects i .level3 false second masks a b (some lane)) := by
  cases found : firstUnmasked (roundMasks s i .level2 (s.chit3Requests i) sel.masks sel.chit3)
      (s.requestingLanes i .level2) with
  | some lane =>
    obtain ⟨requests, -, -⟩ := firstUnmasked_eq_some.mp found
    exact ⟨lane, _, _, selectLevel2_lane found, ⟨.level2, by simp, requests⟩, .inl (selects_lane found)⟩
  | none =>
    have passed := selects_chit ((chit2Requests_iff s i).mp asked) found
    obtain ⟨lane, masks, run, requests, selects⟩ := selectLevel3_selects
      { sel with masks := roundMasks s i .level2 (s.chit3Requests i) sel.masks sel.chit3, chit3 := true }
      (chit_requests passed)
    exact ⟨lane, masks, true, (selectLevel2_chit found).trans run, ⟨.level3, by simp, requests⟩,
      .inr ⟨_, _, _, passed, selects⟩⟩

end Levels

/-- R73: what a selection of port `i` has done: the lane it has come to, which requests at some level, and the masks
after it. -/
structure Chosen (s : State) (i : PortId) (lane : Fin 8) (sel : Selection) : Prop where
  picked : sel.lane = some lane
  requests : ∃ level, level ≠ .off ∧ s.Requests i level lane
  arbitrates : s.Arbitrates i lane sel.masks sel.chit2 sel.chit3

/-- R72, R73: where a member of level 1 requests, the selection goes down the levels to a lane. -/
theorem select_chosen {s : State} {i : PortId} (asked : s.level1Requests i = true) :
    ∃ lane, Chosen s i lane (s.select i) := by
  have three := chit3Requests_iff s i
  have two := chit2Requests_iff s i
  cases first : firstUnmasked (roundMasks s i .level1 (s.chit2Requests i) (s.port i).laneMasks (s.port i).chit2)
      (s.requestingLanes i .level1) with
  | some lane =>
    obtain ⟨requests, -, -⟩ := firstUnmasked_eq_some.mp first
    have run : s.select i = _ := selectLevel1_lane first
    rw [run]
    exact ⟨lane, rfl, ⟨.level1, by simp, requests⟩, _, _, three, two, .inl ⟨selects_lane first, rfl⟩⟩
  | none =>
    have passed := selects_chit ((level1Requests_iff s i).mp asked) first
    have run : s.select i = _ := selectLevel1_chit first
    obtain ⟨lane, masks, chit3, run2, requests, selects⟩ := selectLevel2_selects
      { lane := none
        masks := roundMasks s i .level1 (s.chit2Requests i) (s.port i).laneMasks (s.port i).chit2
        chit2 := true
        chit3 := (s.port i).chit3 } (chit_requests passed)
    rw [run.trans run2]
    exact ⟨lane, rfl, requests, _, _, three, two, .inr ⟨_, passed, selects⟩⟩

/-- R73: a level-1 lane that requests with a clear mask, below which none does, is selected. -/
theorem select_level1 {s : State} {i : PortId} {lane : Fin 8} (requests : s.Requests i .level1 lane)
    (unmasked : (s.port i).laneMasks.get lane = false)
    (lowest : ∀ l, l < lane → s.Requests i .level1 l → (s.port i).laneMasks.get l = true) :
    (s.select i).lane = some lane := by
  have found := firstUnmasked_eq_some.mpr ⟨requests, unmasked, lowest⟩
  have goes : roundMasks s i .level1 (s.chit2Requests i) (s.port i).laneMasks (s.port i).chit2 =
      (s.port i).laneMasks := by
    refine if_neg fun ends => ?_
    have masked := (roundEnds_iff.mp ends).1 lane requests
    rw [unmasked] at masked
    cases masked
  rw [← goes] at found
  have run : s.select i = _ := selectLevel1_lane found
  rw [run]

end Sys2Proof.LinkPorts
end

section
/-!
O46. Grant decisions (R73 to R75): the chosen frame, its grant, and the withdrawal after which the decision is taken
again.
-/

namespace Sys2Proof.LinkPorts

open Sys2Proof.Machine

/-! ### The chosen frame -/

/-- The frame chosen is the head of the lane selected. -/
theorem chosenFrame_of_lane {s : State} {i : PortId} {lane : Fin 8} (picked : (s.select i).lane = some lane)
    (holds : (s.port i).lanes.get lane ≠ []) : ∃ e, s.chosenFrame i = some (lane, e) := by
  obtain ⟨e, rest, frames⟩ := List.exists_cons_of_ne_nil holds
  exact ⟨e, by simp [State.chosenFrame, picked, frames]⟩

/-- The port with its masks as a decision sets them and the head of the chosen lane taken. -/
def afterTake (r : PortRec) (lane : Fin 8) (sel : Selection) : PortRec :=
  { r with
    lanes := r.lanes.set lane.val (r.lanes.get lane).tail lane.isLt
    laneMasks := sel.masks
    chit2 := sel.chit2
    chit3 := sel.chit3 }

/-- R73, R74, R75: the taking of a head as one change of the port. -/
theorem takeHead_eq (i : PortId) (lane : Fin 8) (s : State) :
    s.takeHead i lane = s.setPort i (afterTake (s.port i) lane (s.select i)).settleMasks := by
  unfold State.takeHead State.applyMasks
  rw [State.modPort, port_modPort, if_pos rfl]
  exact setPort_setPort i _ _ s fun changed => absurd rfl changed

theorem afterTake_lanesEmpty (r : PortRec) (lane : Fin 8) (sel : Selection) :
    (afterTake r lane sel).lanesEmpty = true ↔
      ∀ l, (if l = lane then (r.lanes.get l).tail else r.lanes.get l) = [] := by
  rw [PortRec.lanesEmpty_iff]
  refine forall_congr' fun l => ?_
  rw [afterTake, get_set]
  by_cases same : l = lane
  · simp [same]
  · simp [same]

theorem settleMasks_eq (r : PortRec) : r.settleMasks =
    { r with
      laneMasks := if r.lanesEmpty then Vector.replicate 8 false else r.laneMasks
      chit2 := if r.lanesEmpty then false else r.chit2
      chit3 := if r.lanesEmpty then false else r.chit3 } := by
  unfold PortRec.settleMasks PortRec.clearMasks
  split <;> simp

/-! ### The decision -/

theorem waiting_pos {r : PortRec} {lane : Fin 8} (holds : r.lanes.get lane ≠ []) : 0 < r.waiting := by
  have member : r.lanes.get lane ∈ r.lanes.toList := Vector.mem_toList_iff.mpr (Vector.getElem_mem lane.isLt)
  have length := List.single_le_sum (fun _ _ => Nat.zero_le _) _ (List.mem_map_of_mem (f := List.length) member)
  exact (List.length_pos_iff.mpr holds).trans_le length

section Decision
variable {s : State} {i : PortId} {lane : Fin 8} {e : LaneEntry}

/-- R73: where the port may take no decision, none is taken. -/
theorem decideGrant_disabled (idle : s.grantEnabled i = false) (k : Nat) : s.decideGrant i k = s := by
  cases k with
  | zero => rfl
  | succ k => simp [State.decideGrant, idle]

/-- R75: the chosen frame is granted. -/
theorem decideGrant_grants (enabled : s.grantEnabled i = true) (chosen : s.chosenFrame i = some (lane, e))
    (granted : s.grantable e = true) (k : Nat) :
    s.decideGrant i (k + 1) = (s.takeHead i lane).startFrame i e := by
  simp [State.decideGrant, enabled, chosen, granted]

/-- R75: the chosen frame is withdrawn, and the decision is taken again. -/
theorem decideGrant_withdraws (enabled : s.grantEnabled i = true) (chosen : s.chosenFrame i = some (lane, e))
    (refused : s.grantable e = false) (k : Nat) :
    s.decideGrant i (k + 1) = (((s.takeHead i lane).withdrawFrame e).settle).decideGrant i k := by
  simp [State.decideGrant, enabled, chosen, refused]

theorem grantEnabled_asks (enabled : s.grantEnabled i = true) : s.level1Requests i = true := by
  simp only [State.grantEnabled, Bool.and_eq_true] at enabled
  exact enabled.2

theorem chosenFrame_holds (chosen : s.chosenFrame i = some (lane, e)) : (s.port i).lanes.get lane ≠ [] := by
  intro empty
  have head := State.chosenFrame_head chosen
  rw [empty] at head
  cases head

theorem grantable_of_probeOrEcho (kind : e.isProbeOrEcho = true) : s.grantable e = true := by
  simp [State.grantable, kind]

theorem exec_grantDecision (i : PortId) (s : State) :
    exec (.grantDecision i) s = .next (s.decideGrant i ((s.port i).waiting + 1)) := rfl

end Decision

/-! ### Transmission starts -/

theorem putOnWire_port (i : PortId) (f : WireFrame) (s : State) :
    (s.putOnWire i f).port i =
      { s.port i with transmitter := some f, framesSent := (s.port i).framesSent + 1 } := by
  rw [State.putOnWire, port_modPort, if_pos rfl]

theorem raiseInflight_ports (p : PathId) (s : State) : (s.raiseInflight p).ports = s.ports := rfl

theorem started_ports (p : PathId) (f : PathCounters → PathCounters) (s : State) :
    ((s.raiseInflight p).count p f).ports = s.ports := rfl

/-- R76: a transmission start moves the transmitter of the port and Frames Sent, and nothing else of it. -/
theorem startFrame_port (i : PortId) (e : LaneEntry) (s : State) : (s.startFrame i e).port i =
    { s.port i with
      transmitter := ((s.startFrame i e).port i).transmitter
      framesSent := ((s.startFrame i e).port i).framesSent } := by
  have sent : ∀ (t u : State) (f : WireFrame), u.ports = s.ports → t.ports = (u.putOnWire i f).ports →
      t.port i =
        { s.port i with transmitter := (t.port i).transmitter, framesSent := (t.port i).framesSent } := by
    intro t u f same wire
    have before : u.port i = s.port i := by rw [State.port, State.port, same]
    have after : t.port i = (u.putOnWire i f).port i := by rw [State.port, State.port, wire]
    rw [after, putOnWire_port, before]
  cases e with
  | request c id p endpoint =>
    unfold State.startFrame State.startRequest
    dsimp only
    split
    · rfl
    · split
      · rfl
      · exact sent _ _ _ (State.modCtx_ports c _ s) (started_ports p _ _)
  | inquiry c p endpoint =>
    unfold State.startFrame State.startInquiry
    dsimp only
    split
    · rfl
    · split
      · rfl
      · exact sent _ _ _ (State.modCtx_ports c _ s) (raiseInflight_ports p _)
  | probe p seq => exact sent _ s _ rfl rfl
  | echo p seq time => exact sent _ s _ rfl rfl

/-! ### O46 -/

section Settles
variable {s : State} {i : PortId} {lane : Fin 8} {e : LaneEntry}

/-- R75: a frame granted leaves its lane, with the masks of the decision. -/
theorem grant_leaves_lane (enabled : s.grantEnabled i = true) (chosen : s.chosenFrame i = some (lane, e))
    (granted : s.grantable e = true) :
    ∃ t, exec (.grantDecision i) s = .next t ∧ (t.port i).lanes = ((s.takeHead i lane).port i).lanes ∧
      (t.port i).laneMasks = ((s.takeHead i lane).port i).laneMasks ∧
      (t.port i).chit2 = ((s.takeHead i lane).port i).chit2 ∧
      (t.port i).chit3 = ((s.takeHead i lane).port i).chit3 := by
  refine ⟨_, (exec_grantDecision i s).trans (congrArg _ (decideGrant_grants enabled chosen granted _)), ?_⟩
  rw [startFrame_port]
  exact ⟨rfl, rfl, rfl, rfl⟩

/-- R75: a frame withdrawn has the decision taken again, where it stands then. -/
theorem withdrawal_decides_again (enabled : s.grantEnabled i = true) (chosen : s.chosenFrame i = some (lane, e))
    (refused : s.grantable e = false) :
    ∃ u, u = ((s.takeHead i lane).withdrawFrame e).settle ∧ OnlyWork s u ∧
      (u.grantEnabled i = false → exec (.grantDecision i) s = .next u) ∧
      ∀ l f, u.grantEnabled i = true → u.chosenFrame i = some (l, f) → u.grantable f = true →
        exec (.grantDecision i) s = exec (.grantDecision i) u := by
  have whole := ((Still.takeHead i lane e chosen).calm.quiet.trans (.withdrawFrame _ e)).settle
  have again := decideGrant_withdraws enabled chosen refused
  obtain ⟨k, count⟩ := Nat.exists_eq_succ_of_ne_zero (waiting_pos (chosenFrame_holds chosen)).ne'
  refine ⟨_, rfl, whole.quiet.toOnlyWork, fun idle => ?_, fun l f enabled' chosen' granted => ?_⟩
  · rw [exec_grantDecision, again, decideGrant_disabled idle]
  · rw [exec_grantDecision, exec_grantDecision, again, count, decideGrant_grants enabled' chosen' granted,
      decideGrant_grants enabled' chosen' granted]

end Settles

/-- Settles O46: the selection down the levels, then the decision by whether the chosen frame may go. -/
theorem grantDecisionChooses : Obligations.GrantDecisionChooses := by
  intro i s enabled
  refine ⟨?_, fun lane level holds unmasked lowest => ?_⟩
  · obtain ⟨lane, picked, ⟨level, on, atLevel, holds⟩, arbitrates⟩ := select_chosen (grantEnabled_asks enabled)
    obtain ⟨e, chosen⟩ := chosenFrame_of_lane picked holds
    have taken := takeHead_eq i lane s
    rw [settleMasks_eq] at taken
    refine ⟨lane, e, _, _, _, s.takeHead i lane, _, chosen, State.chosenFrame_head chosen, atLevel ▸ on, arbitrates,
      afterTake_lanesEmpty (s.port i) lane (s.select i), taken, fun goes => ?_, fun work down _ => ?_⟩
    · exact grant_leaves_lane enabled chosen (Bool.or_eq_true_iff.mpr goes)
    · obtain ⟨u, is, only, stops, again⟩ :=
        withdrawal_decides_again enabled chosen (Bool.or_eq_false_iff.mpr ⟨work, down⟩)
      exact ⟨u, is, only, stops, fun l f enabled' chosen' goes =>
        again l f enabled' chosen' (Bool.or_eq_true_iff.mpr goes)⟩
  · have lower : ∀ l, l < lane → s.Requests i .level1 l → (s.port i).laneMasks.get l = true :=
      fun l less ⟨atLevel, frames⟩ => lowest l less atLevel frames
    exact chosenFrame_of_lane (select_level1 ⟨level, holds⟩ unmasked lower) holds

end Sys2Proof.LinkPorts
end

section
/-!
O47. Transmission starts of PROBE and ECHO (R75 to R77), with the header check of R82.
-/

namespace Sys2Proof.LinkPorts

open Sys2Proof.Machine

/-! ### The header check -/

theorem check_word (h : LinkHeader) : BitVec.ofNat 16 (beAt (headerBytes h) 2 2) = h.check := by
  apply BitVec.eq_of_toNat_eq
  simp [headerBytes, beBytes, leBytes, beAt, byteAt]
  omega

/-- 11, section 11.4: the check is the second word, and no other byte depends on it. -/
theorem headerBytes_check (h : LinkHeader) : ∃ rest, ∀ c : W16,
    headerBytes { h with check := c } = [h.kind, h.flags] ++ (beBytes c.toNat 2 ++ rest) := by
  refine ⟨(headerBytes h).drop 4, fun c => ?_⟩
  simp [headerBytes, beBytes, leBytes]

theorem word_congr_check (h : LinkHeader) (c : W16) (k : Nat) (other : k ≠ 1) :
    beAt (headerBytes { h with check := c }) (2 * k) 2 = beAt (headerBytes h) (2 * k) 2 := by
  obtain ⟨rest, bytes⟩ := headerBytes_check h
  have same : headerBytes h = [h.kind, h.flags] ++ (beBytes h.check.toNat 2 ++ rest) := bytes h.check
  have byte : ∀ n, n ≠ 2 → n ≠ 3 → byteAt (headerBytes { h with check := c }) n = byteAt (headerBytes h) n := by
    intro n high low
    rw [bytes, same]
    match n with
    | 0 | 1 => rfl
    | 2 => exact absurd rfl high
    | 3 => exact absurd rfl low
    | n + 4 => rfl
  simp only [beAt]
  rw [byte _ (by omega) (by omega), byte _ (by omega) (by omega)]

/-- R82: the check counts once in the sum of the first words. -/
theorem wordSum_check (h : LinkHeader) (c : W16) (n : Nat) :
    wordSum (headerBytes { h with check := c }) (n + 2) = c - h.check + wordSum (headerBytes h) (n + 2) := by
  induction n with
  | zero =>
    simp only [wordSum]
    rw [Nat.mul_one, check_word, check_word, word_congr_check h c 0 (by omega)]
    ring
  | succ n ih =>
    change BitVec.ofNat 16 (beAt _ (2 * (n + 2)) 2) + wordSum _ (n + 2) =
      c - h.check + (BitVec.ofNat 16 (beAt _ (2 * (n + 2)) 2) + wordSum _ (n + 2))
    rw [ih, word_congr_check h c (n + 2) (by omega), add_left_comm]

/-- R82: a header sent has the sum 0. -/
theorem headerSum_withCheck (h : LinkHeader) : headerSum (headerBytes h.withCheck) = 0 := by
  have sum := wordSum_check { h with check := 0 } (0 - headerSum (headerBytes { h with check := 0 })) 14
  rw [headerSum, LinkHeader.withCheck, sum, headerSum]
  ring

/-! ### O47 -/

/-- R75: what the taking of a head leaves as it is. -/
theorem takeHead_same (i : PortId) (lane : Fin 8) (s : State) :
    (s.takeHead i lane).settings = s.settings ∧ (s.takeHead i lane).clock = s.clock ∧
      (s.takeHead i lane).paths = s.paths ∧ (s.takeHead i lane).ctxs = s.ctxs := by
  rw [takeHead_eq]
  exact ⟨rfl, rfl, rfl, rfl⟩

/-- R81, R83: headers and envelopes read the settings, the clock and the paths alone. -/
theorem frames_same {s v : State} (settings : v.settings = s.settings) (clock : v.clock = s.clock)
    (paths : v.paths = s.paths) :
    v.envelope = s.envelope ∧ v.probeHeader = s.probeHeader ∧ v.echoHeader = s.echoHeader := by
  refine ⟨?_, ?_, ?_⟩
  · funext i p h bytes
    simp only [State.envelope, State.pathDesc, State.path, settings, paths]
  · funext seq
    simp only [State.probeHeader, State.adapterId, settings, clock]
  · funext seq time
    simp only [State.echoHeader, State.adapterId, settings]

theorem takeHead_port (i : PortId) (lane : Fin 8) (s : State) :
    ((s.takeHead i lane).port i).framesSent = (s.port i).framesSent ∧
      ((s.takeHead i lane).port i).lanes.get lane = ((s.port i).lanes.get lane).tail := by
  rw [takeHead_eq, State.port_setPort, if_pos rfl, settleMasks_eq]
  refine ⟨rfl, ?_⟩
  rw [afterTake, get_set, if_pos rfl]

/-- R76, R108: the path after the transmission start of its PROBE. -/
theorem startProbe_path (i : PortId) (p : PathId) (seq : W16) (s : State) : (s.startProbe i p seq).path p =
    { s.path p with
      outstanding := some { seq := seq, sendTime := s.clock }
      markA := .running s.clock (1000 * (s.path p).probeDeadline)
      counters := { (s.path p).counters with probesSent := (s.path p).counters.probesSent + 1 } } := by
  unfold State.startProbe State.count
  rw [path_modPath, if_pos rfl, path_modPath, if_pos rfl]
  rfl

section Granted
variable {s : State} {i : PortId} {lane : Fin 8} {e : LaneEntry}

/-- R75: a chosen PROBE or ECHO is granted, and the start moves the work in progress alone. -/
theorem grant_probeOrEcho (enabled : s.grantEnabled i = true) (chosen : s.chosenFrame i = some (lane, e))
    (kind : e.isProbeOrEcho = true) :
    exec (.grantDecision i) s = .next ((s.takeHead i lane).startFrame i e) ∧
      OnlyWork s ((s.takeHead i lane).startFrame i e) := by
  refine ⟨?_, ((Still.takeHead i lane e chosen).calm.trans (.startFrame i e _)).quiet.toOnlyWork⟩
  rw [exec_grantDecision, decideGrant_grants enabled chosen (grantable_of_probeOrEcho kind)]

end Granted

/-- Settles O47: without a decision nothing moves; a PROBE and an ECHO leave their lane and are put on the wire. -/
theorem probeAndEchoTransmissions : Obligations.ProbeAndEchoTransmissions := by
  intro i s
  refine ⟨fun idle => ?_, rfl, fun lane p seq enabled chosen => ?_, fun lane p seq time enabled chosen => ?_⟩
  · rw [exec_grantDecision, decideGrant_disabled idle]
  all_goals
    obtain ⟨run, work⟩ := grant_probeOrEcho enabled chosen rfl
    obtain ⟨settings, clock, paths, ctxs⟩ := takeHead_same i lane s
    obtain ⟨envelope, probe, echo⟩ := frames_same settings clock paths
    obtain ⟨sent, lanes⟩ := takeHead_port i lane s
  · have wire : (((s.takeHead i lane).startProbe i p seq).port i) = _ := putOnWire_port i _ (s.takeHead i lane)
    have path := startProbe_path i p seq (s.takeHead i lane)
    rw [State.path, State.path, paths, clock] at path
    refine ⟨_, s.probeHeader seq, run, work, ctxs, ?_, rfl, rfl, rfl, rfl, rfl, headerSum_withCheck _, ?_, ?_, path⟩
    · rw [State.startFrame, wire, envelope, probe]
    · rw [State.startFrame, wire, sent]
    · rw [State.startFrame, wire, lanes]
  · have wire : (((s.takeHead i lane).startEcho i p seq time).port i) = _ := putOnWire_port i _ (s.takeHead i lane)
    refine ⟨_, s.echoHeader seq time, run, work, ctxs, paths, ?_, rfl, rfl, rfl, headerSum_withCheck _, ?_⟩
    · rw [State.startFrame, wire, envelope, echo]
    · rw [State.startFrame, wire, sent]

end Sys2Proof.LinkPorts
end

section
/-!
SUPPORT. Probing and the lanes of the ports (R108 to R111): `Probes` says what the probing of one path moves,
`LanesMove` that of the ports lanes and masks alone have moved.
-/

namespace Sys2Proof.LinkPorts

open Sys2Proof.Machine

/-! ### Ports of which only lanes and masks move -/

/-- Nothing of any port has moved but its lanes and masks. -/
structure LanesMove (s t : State) : Prop where
  port : ∀ i, (s.port i).Coursed (t.port i)

namespace LanesMove

theorem refl (s : State) : LanesMove s s :=
  ⟨fun _ => .refl _⟩

theorem trans {s t u : State} (h : LanesMove s t) (k : LanesMove t u) : LanesMove s u :=
  ⟨fun i => (h.port i).trans (k.port i)⟩

theorem ite {s t u : State} {p : Prop} [Decidable p] (h : LanesMove s t) (k : LanesMove s u) :
    LanesMove s (if p then t else u) := by
  split <;> assumption

theorem foldl {α : Type} (f : State → α → State) (h : ∀ s a, LanesMove s (f s a)) :
    ∀ (l : List α) (s : State), LanesMove s (l.foldl f s)
  | [], s => refl s
  | a :: l, s => (h s a).trans (foldl f h l (f s a))

theorem of_ports {s t : State} (same : t.ports = s.ports) : LanesMove s t where
  port := fun i => by
    rw [State.port, State.port, same]
    exact .refl _

theorem of_course {s t : State} (h : Course s t) : LanesMove s t :=
  ⟨h.ports⟩

theorem modPort (i : PortId) (f : PortRec → PortRec) (s : State) (h : (s.port i).Coursed (f (s.port i))) :
    LanesMove s (s.modPort i f) where
  port := fun j => by
    rw [port_modPort]
    split
    · next same => subst same; exact h
    · exact .refl _

theorem modPath (p : PathId) (f : PathRec → PathRec) (s : State) : LanesMove s (s.modPath p f) :=
  of_ports rfl

theorem modCtx (c : CtxId) (f : Context → Context) (s : State) : LanesMove s (s.modCtx c f) :=
  of_ports (State.modCtx_ports c f s)

theorem defer (d : Deferred) (s : State) : LanesMove s (s.defer d) :=
  of_ports rfl

end LanesMove

/-! ### Probing (R108 to R111) -/

/-- What probing moves of a path: its marks and its record of probes (R99), its times (R108) and Last Up Time (R106). -/
def Probed (a b : PathRec) : Prop :=
  b = { a with
    lastUp := b.lastUp, outstanding := b.outstanding, nextSeq := b.nextSeq, replySeen := b.replySeen
    markA := b.markA, markB := b.markB, interval := b.interval, probeDeadline := b.probeDeadline }

theorem Probed.trans {a b c : PathRec} (h : Probed a b) (k : Probed b c) : Probed a c := by
  unfold Probed at h k ⊢
  rw [k, h]

/-- The step has to do with the probing of path `p` alone: of the paths it moves `p` alone, of the ports lanes and masks
alone, no frame of lane 0 is gone but the PROBE of `p`, and every part marked for rewrite stays so. -/
structure Probes (p : PathId) (s t : State) : Prop where
  path : Probed (s.path p) (t.path p)
  others : ∀ q, q ≠ p → t.path q = s.path q
  ports : LanesMove s t
  frames : ∀ i e, e.isProbeOf p = false → e ∈ (s.port i).lanes.get 0 → e ∈ (t.port i).lanes.get 0
  marks : ∀ part b, { part := part, event := b } ∈ s.rewrites →
    ∃ b', { part := part, event := b' } ∈ t.rewrites

/-- R159: a part that waits for its rewrite goes on waiting when another is marked. -/
theorem mem_markRewrite {part other : Part} {b event : Bool} {l : List Rewrite}
    (waits : { part := part, event := b } ∈ l) :
    ∃ b', { part := part, event := b' } ∈ markRewrite other event l := by
  unfold markRewrite
  split
  · by_cases same : part = other
    · exact ⟨b || event, List.mem_map.mpr ⟨_, waits, if_pos same⟩⟩
    · exact ⟨b, List.mem_map.mpr ⟨_, waits, if_neg same⟩⟩
  · exact ⟨b, List.mem_append_left _ waits⟩

/-- A part marked waits for its rewrite. -/
theorem markRewrite_waits (part : Part) (event : Bool) (l : List Rewrite) :
    ∃ b, { part := part, event := b } ∈ markRewrite part event l := by
  unfold markRewrite
  split
  · next waits =>
    obtain ⟨r, member, same⟩ := List.any_eq_true.mp waits
    have same := eq_of_beq same
    exact ⟨r.event || event, List.mem_map.mpr ⟨r, member, by simp [← same]⟩⟩
  · exact ⟨event, List.mem_append_right _ (List.mem_singleton.mpr rfl)⟩

/-- R70: frames that a test does not name stay in their lane. -/
theorem mem_dropFrames {r : PortRec} {test : LaneEntry → Bool} {lane : Fin 8} {e : LaneEntry}
    (stays : test e = false) (waits : e ∈ r.lanes.get lane) : e ∈ (r.dropFrames test).lanes.get lane := by
  unfold PortRec.dropFrames
  split
  · exact waits
  · rw [PortRec.settleMasks_lanes, mapEntries_get]
    exact List.mem_filter.mpr ⟨waits, by rw [stays]; rfl⟩

namespace Probes
variable {p : PathId} {s t u : State}

theorem refl (p : PathId) (s : State) : Probes p s s :=
  ⟨rfl, fun _ _ => rfl, .refl s, fun _ _ _ waits => waits, fun _ b waits => ⟨b, waits⟩⟩

theorem trans (h : Probes p s t) (k : Probes p t u) : Probes p s u where
  path := h.path.trans k.path
  others := fun q other => (k.others q other).trans (h.others q other)
  ports := h.ports.trans k.ports
  frames := fun i e stays waits => k.frames i e stays (h.frames i e stays waits)
  marks := fun part b waits => by
    obtain ⟨b', waits⟩ := h.marks part b waits
    exact k.marks part b' waits

theorem ite {c : Prop} [Decidable c] (h : Probes p s t) (k : Probes p s u) : Probes p s (if c then t else u) := by
  split <;> assumption

theorem modPath (f : PathRec → PathRec) (s : State) (h : Probed (s.path p) (f (s.path p))) :
    Probes p s (s.modPath p f) where
  path := by rw [path_modPath, if_pos rfl]; exact h
  others := fun q other => by rw [path_modPath, if_neg other]
  ports := .of_ports rfl
  frames := fun _ _ _ waits => waits
  marks := fun part b waits => by
    unfold State.modPath State.setPath
    dsimp only
    split
    · exact ⟨b, waits⟩
    · exact mem_markRewrite waits

theorem modPort (i : PortId) (f : PortRec → PortRec) (s : State) (h : (s.port i).Coursed (f (s.port i)))
    (k : ∀ e, e.isProbeOf p = false → e ∈ (s.port i).lanes.get 0 → e ∈ (f (s.port i)).lanes.get 0) :
    Probes p s (s.modPort i f) where
  path := rfl
  others := fun _ _ => rfl
  ports := .modPort i f s h
  frames := fun j e stays waits => by
    rw [port_modPort]
    split
    · next same => subst same; exact k e stays waits
    · exact waits
  marks := fun part b waits => by
    unfold State.modPort State.setPort
    dsimp only
    split
    · exact ⟨b, waits⟩
    · exact mem_markRewrite waits

theorem enqueue (p : PathId) (i : PortId) (e : LaneEntry) (s : State) : Probes p s (s.enqueue i 0 e) :=
  .modPort i _ s rfl fun f _ waits => by
    rw [get_set, if_pos rfl]
    exact List.mem_append_left _ waits

theorem dropProbe (p : PathId) (s : State) : Probes p s (s.dropProbe p) := by
  unfold State.dropProbe
  split
  · exact .refl p s
  · exact .modPort _ _ s (PortRec.dropFrames_coursed _ _) fun e stays waits => mem_dropFrames stays waits

theorem stopProbing (p : PathId) (s : State) : Probes p s (s.stopProbing p) :=
  (dropProbe p s).trans (.modPath _ _ rfl)

theorem loadProbeTimes (p : PathId) (s : State) : Probes p s (s.loadProbeTimes p) := by
  unfold State.loadProbeTimes
  exact .modPath _ s rfl

theorem testLastUp (p : PathId) (s : State) : Probes p s (s.testLastUp p) := by
  unfold State.testLastUp
  refine .modPath _ s ?_
  split
  · split <;> rfl
  · rfl

theorem queueProbe (p : PathId) (s : State) : Probes p s (s.queueProbe p) := by
  unfold State.queueProbe
  split
  · exact .refl p s
  · exact .ite (.refl p s) ((enqueue ..).trans (.modPath _ _ rfl))

theorem cycleSteps (p : PathId) (s : State) : Probes p s (s.cycleSteps p) := by
  unfold State.cycleSteps
  dsimp only
  exact (testLastUp p s).trans (.trans (.ite (.dropProbe ..) (.queueProbe ..)) (.modPath _ _ rfl))

theorem startProbing (p : PathId) (s : State) : Probes p s (s.startProbing p) :=
  (loadProbeTimes p s).trans (.cycleSteps p _)

theorem syncProbing (p : PathId) (s : State) : Probes p s (s.syncProbing p) := by
  unfold State.syncProbing
  exact .ite (.ite (.startProbing p s) (.refl p s)) (.stopProbing p s)

end Probes

/-! ### The start and the stop of probing -/

/-- The PROBE of path `p` waits in lane 0 of port `i`. -/
def ProbeWaits (s : State) (i : PortId) (p : PathId) : Prop :=
  ((s.port i).lanes.get 0).any (·.isProbeOf p) = true

theorem ProbeWaits.mono {s t : State} {i : PortId} {p q : PathId} (h : ProbeWaits s i p) (k : Probes q s t)
    (other : p ≠ q) : ProbeWaits t i p := by
  obtain ⟨e, member, isProbe⟩ := List.any_eq_true.mp h
  refine List.any_eq_true.mpr ⟨e, k.frames i e ?_ member, isProbe⟩
  cases e with
  | probe r seq =>
    rw [show r = p from eq_of_beq isProbe]
    exact beq_eq_false_iff_ne.mpr other
  | request => rfl
  | inquiry => rfl
  | echo => rfl

/-- R108, step 4: the PROBE of a path waits in lane 0 of its port. -/
theorem queueProbe_waits {s : State} {p : PathId} {i : PortId} (named : s.pathPort p = some i) :
    ProbeWaits (s.queueProbe p) i p := by
  unfold State.queueProbe
  rw [named]
  dsimp only
  split
  · next waits => exact waits
  · show ((((s.enqueue i 0 _).port i).lanes.get 0).any _) = true
    rw [State.enqueue, port_modPort, if_pos rfl, get_set, if_pos rfl]
    simp [LaneEntry.isProbeOf]

theorem queueProbe_interval (p : PathId) (s : State) :
    ((s.queueProbe p).path p).interval = (s.path p).interval := by
  unfold State.queueProbe
  split
  · rfl
  · split
    · rfl
    · rw [path_modPath, if_pos rfl]
      rfl

/-- R110, R111: a cycle of a path that is not UP puts its PROBE in lane 0, and mark B runs for the interval of the
cycle. -/
theorem cycleSteps_begins {s : State} {p : PathId} (notUp : (s.path p).health ≠ .up) :
    ((s.cycleSteps p).path p).markB = .running s.clock (1000 * (s.path p).interval) ∧
      ∀ i, s.pathPort p = some i → ProbeWaits (s.cycleSteps p) i p := by
  have same : ((s.testLastUp p).path p).interval = (s.path p).interval ∧
      ((s.testLastUp p).path p).health = (s.path p).health ∧
      ((s.testLastUp p).path p).contents = (s.path p).contents := by
    unfold State.testLastUp
    rw [path_modPath, if_pos rfl]
    split
    · split <;> exact ⟨rfl, rfl, rfl⟩
    · exact ⟨rfl, rfl, rfl⟩
  obtain ⟨interval, health, contents⟩ := same
  have queued : ¬(((s.testLastUp p).path p).health = .up ∧ ((s.testLastUp p).path p).replySeen = true) :=
    fun up => notUp (health ▸ up.1)
  have clock : ((s.testLastUp p).queueProbe p).clock = s.clock :=
    ((Still.testLastUp p s).trans (.queueProbe p _)).calm.quiet.clock
  unfold State.cycleSteps
  dsimp only
  rw [if_neg queued, path_modPath, if_pos rfl]
  refine ⟨?_, fun i named => queueProbe_waits ?_⟩
  · dsimp only
    rw [queueProbe_interval, interval, clock]
    rfl
  · rw [State.pathPort, contents]
    exact named

/-- R111: the start of probing on a path that is not UP. -/
theorem startProbing_begins {s : State} {p : PathId} (notUp : (s.path p).health ≠ .up) :
    ((s.startProbing p).path p).markB = .running s.clock (1000 * (s.pathDesc p).fastInterval) ∧
      ∀ i, s.pathPort p = some i → ProbeWaits (s.startProbing p) i p := by
  have times : (s.loadProbeTimes p).path p =
      { s.path p with
        interval := (s.pathDesc p).fastInterval
        probeDeadline := ((s.loadProbeTimes p).path p).probeDeadline } := by
    unfold State.loadProbeTimes
    rw [path_modPath, if_pos rfl, if_neg notUp]
  have health : ((s.loadProbeTimes p).path p).health ≠ .up := by rw [times]; exact notUp
  obtain ⟨mark, waits⟩ := cycleSteps_begins health
  refine ⟨?_, fun i named => waits i ?_⟩
  · rw [State.startProbing, mark, times]
    rfl
  · rw [State.pathPort, times]
    exact named

theorem probingActive_of {s : State} {p : PathId} {i : PortId} (works : s.adapter.works = true)
    (named : s.pathPort p = some i) (carrier : (s.port i).state ≠ .down)
    (served : (s.path p).probingState = true) : s.probingActive p = true := by
  simp [State.probingActive, works, served, named, carrier]

theorem syncProbing_stops {s : State} {p : PathId} (rests : (s.path p).probingState = false) :
    ((s.syncProbing p).path p).markB = .idle := by
  have inactive : s.probingActive p = false := by simp [State.probingActive, rests]
  rw [State.syncProbing, if_neg (by simp [inactive]), State.stopProbing_path, if_pos rfl]

/-! ### Probing on the paths of a port -/

/-- Probing is tested on each of a list of paths. -/
def syncAll (paths : List PathId) (s : State) : State :=
  paths.foldl (fun s p => s.syncProbing p) s

theorem syncAll_append (a b : List PathId) (s : State) : syncAll (a ++ b) s = syncAll b (syncAll a s) :=
  List.foldl_append

theorem syncAll_still (paths : List PathId) (s : State) : Still s (syncAll paths s) :=
  .foldl _ (fun s p => .syncProbing p s) paths s

theorem syncAll_lanesMove (paths : List PathId) (s : State) : LanesMove s (syncAll paths s) :=
  .foldl _ (fun s p => (Probes.syncProbing p s).ports) paths s

theorem syncAll_path_other {p : PathId} {paths : List PathId} (other : p ∉ paths) (s : State) :
    (syncAll paths s).path p = s.path p := by
  induction paths generalizing s with
  | nil => rfl
  | cons q paths ih =>
    exact (ih (List.not_mem_of_not_mem_cons other) _).trans
      ((Probes.syncProbing q s).others p (List.ne_of_not_mem_cons other))

theorem syncAll_probe_other {p : PathId} {paths : List PathId} (other : p ∉ paths) {s : State} {i : PortId}
    (waits : ProbeWaits s i p) : ProbeWaits (syncAll paths s) i p := by
  induction paths generalizing s with
  | nil => exact waits
  | cons q paths ih =>
    exact ih (List.not_mem_of_not_mem_cons other)
      (waits.mono (.syncProbing q s) (List.ne_of_not_mem_cons other))

theorem syncAll_health (paths : List PathId) (s : State) (p : PathId) :
    ((syncAll paths s).path p).health = (s.path p).health :=
  foldl_leaves (fun s : State => (s.path p).health) _ (fun s q => by
    have moved := Probes.syncProbing q s
    by_cases same : p = q
    · subst same; rw [moved.path]
    · rw [moved.others p same]) paths s

theorem syncAll_marks (paths : List PathId) {s : State} {part : Part} {b : Bool}
    (waits : { part := part, event := b } ∈ s.rewrites) :
    ∃ b', { part := part, event := b' } ∈ (syncAll paths s).rewrites := by
  induction paths generalizing s b with
  | nil => exact ⟨b, waits⟩
  | cons q paths ih =>
    obtain ⟨b', waits⟩ := (Probes.syncProbing q s).marks part b waits
    exact ih waits

/-- Where a path stands once in the list, what the test of its probing leaves is what the whole list leaves. -/
theorem syncAll_at {p : PathId} {paths : List PathId} (once : paths.Nodup) (member : p ∈ paths) (s : State) :
    ∃ u, Still s u ∧ LanesMove s u ∧ u.path p = s.path p ∧
      (syncAll paths s).path p = (u.syncProbing p).path p ∧
      ∀ i, ProbeWaits (u.syncProbing p) i p → ProbeWaits (syncAll paths s) i p := by
  obtain ⟨a, b, rfl⟩ := List.append_of_mem member
  obtain ⟨-, tail, apart⟩ := List.nodup_append.mp once
  have before : p ∉ a := fun here => apart p here p (List.mem_cons_self ..) rfl
  have after : p ∉ b := (List.nodup_cons.mp tail).1
  refine ⟨syncAll a s, syncAll_still a s, syncAll_lanesMove a s, syncAll_path_other before s, ?_, fun i waits => ?_⟩
  · rw [syncAll_append]
    exact syncAll_path_other after _
  · rw [syncAll_append]
    exact syncAll_probe_other after waits

theorem pathsOf_nodup (s : State) (i : PortId) : (s.pathsOf i).Nodup :=
  (List.nodup_finRange 128).filter _

theorem mem_pathsOf {s : State} {i : PortId} {p : PathId} : p ∈ s.pathsOf i ↔ s.pathPort p = some i := by
  simp [State.pathsOf]

/-! ### Losses and withdrawals -/

namespace LanesMove

theorem settle (s : State) : LanesMove s s.settle :=
  ⟨(Course.settle s).ports⟩

theorem hand_out (p : PathId) (s : State) : LanesMove s ((s.recomputeTargets p).reportHealth p) :=
  (of_ports (State.recomputeTargets_ports p s)).trans (of_ports rfl)

theorem stopProbing (p : PathId) (s : State) : LanesMove s (s.stopProbing p) :=
  (Probes.stopProbing p s).ports

theorem loseAttempt (c : CtxId) (a : Attempt) (s : State) : LanesMove s (s.loseAttempt c a) :=
  ((modCtx c _ s).trans (of_course (.lowerInflight a.path _))).trans (defer _ _)

theorem loseInquiry (c : CtxId) (p : PathId) (s : State) : LanesMove s (s.loseInquiry c p) :=
  ((modCtx c _ s).trans (of_course (.lowerInflight p _))).trans (defer _ _)

theorem loseWork (p : PathId) (c : CtxId) (s : State) : LanesMove s (s.loseWork p c) := by
  unfold State.loseWork
  split
  · exact refl s
  · next x _ =>
    have attempts := foldl (fun s a => State.loseAttempt c a s) (fun s a => loseAttempt c a s)
      (x.attempts.filter fun a => a.isSent && a.path == p) s
    dsimp only
    split
    · exact attempts
    · exact ite (attempts.trans (loseInquiry c p _)) attempts

theorem loseSent (p : PathId) (s : State) : LanesMove s (s.loseSent p) :=
  foldl _ (fun s c => loseWork p c s) _ _

theorem withdrawAttempt (c : CtxId) (id : Nat) (s : State) : LanesMove s (s.withdrawAttempt c id) := by
  unfold State.withdrawAttempt
  split
  · exact refl s
  · split
    · exact refl s
    · have gone := modCtx c (fun x => x.withdraw id) s
      exact ite (ite gone (gone.trans (defer _ _))) (refl s)

theorem withdrawFrame (s : State) (e : LaneEntry) : LanesMove s (s.withdrawFrame e) := by
  cases e with
  | request c id p endpoint => exact withdrawAttempt c id s
  | inquiry c p endpoint => exact (modCtx c _ s).trans (defer _ _)
  | probe p seq => exact refl s
  | echo p seq time => exact refl s

theorem withdrawWhere (i : PortId) (test : LaneEntry → Bool) (s : State) : LanesMove s (s.withdrawWhere i test) :=
  (modPort i _ s (PortRec.dropFrames_coursed _ _)).trans (foldl _ withdrawFrame _ _)

theorem withdrawPath (p : PathId) (s : State) : LanesMove s (s.withdrawPath p) := by
  unfold State.withdrawPath
  split
  · exact refl s
  · exact withdrawWhere _ _ s

theorem withdrawIfServed (before : Health) (p : PathId) (s : State) : LanesMove s (s.withdrawIfServed before p) :=
  ite (withdrawPath p s) (refl s)

theorem carrierDown (s : State) (p : PathId) : LanesMove s (s.carrierDown p) := by
  have falls : LanesMove s (s.enterDown p .carrier) := by
    unfold State.enterDown
    dsimp only
    have lost := (modPath p (fun r => r.enterDown s.clock (s.pathDesc p)) s).trans
      ((stopProbing p _).trans (loseSent p _))
    exact (lost.trans (withdrawIfServed _ p _)).trans (hand_out p _)
  unfold State.carrierDown
  split
  · exact refl s
  · exact (Probes.syncProbing p s).ports
  all_goals exact falls

end LanesMove

end Sys2Proof.LinkPorts
end

section
/-!
O31. The carrier filter (R63 to R66): raw losses, raw returns and the expiry of its timer.
-/

namespace Sys2Proof.LinkPorts

open Sys2Proof.Machine

/-! ### Accepted losses -/

/-- R67: an accepted loss has the port DOWN and moves lanes and masks beyond that. -/
theorem acceptLoss_lanesMove (i : PortId) (s : State) :
    LanesMove (s.modPort i fun r => { r with state := .down }) (s.acceptLoss i) := by
  unfold State.acceptLoss
  dsimp only
  have emptied : ∀ u : State, LanesMove u (((u.withdrawWhere i fun _ => true).modPort i (·.clearMasks)).settle) :=
    fun u => ((LanesMove.withdrawWhere i _ u).trans (.modPort i (·.clearMasks) _ rfl)).trans (.settle _)
  exact .ite ((LanesMove.foldl State.carrierDown .carrierDown _ _).trans (emptied _)) (.refl _)

theorem acceptLoss_port (i : PortId) (s : State) : ((s.acceptLoss i).port i).state = .down ∧
    ((s.acceptLoss i).port i).filter = (s.port i).filter ∧
    ((s.acceptLoss i).port i).filterTimer = (s.port i).filterTimer := by
  have moved := (acceptLoss_lanesMove i s).port i
  rw [port_modPort, if_pos rfl] at moved
  rw [moved]
  exact ⟨rfl, rfl, rfl⟩

/-- R64, R65: a raw loss in PRESENT, in IMMEDIATE mode or without a loss filter time, is accepted at once. -/
theorem rawLoss_accepted {i : PortId} {s : State} (present : (s.port i).filter = .present)
    (atOnce : (s.port i).settings.mode = .immediate ∨ (s.port i).settings.lossTime = 0) :
    s.rawLoss i = (if (s.port i).settings.lossTime = 0 then s.setFilter i .lost
      else s.startFilter i (.hold false) (s.port i).settings.lossTime).acceptLoss i := by
  unfold State.rawLoss
  dsimp only
  rw [present]
  dsimp only
  cases mode : (s.port i).settings.mode with
  | delayed =>
    have zero := atOnce.resolve_left (by simp [mode])
    simp [zero]
  | immediate => by_cases zero : (s.port i).settings.lossTime = 0 <;> simp [zero]

/-- R63 to R65: what a raw loss does in each filter state. -/
theorem rawLoss_cases (i : PortId) (s : State) :
    ((s.port i).filter = .present → (s.port i).settings.mode = .delayed → (s.port i).settings.lossTime ≠ 0 →
      s.rawLoss i = s.startFilter i .lossPending (s.port i).settings.lossTime) ∧
    ((s.port i).filter = .lossPending ∨ (s.port i).filter = .lost → s.rawLoss i = s) ∧
    (∀ raw, (s.port i).filter = .hold raw →
      s.rawLoss i = s.modPort i fun r => { r with filter := .hold false }) ∧
    ((s.port i).filter = .returnPending → s.rawLoss i = s.setFilter i .lost) := by
  unfold State.rawLoss
  dsimp only
  refine ⟨fun filter mode time => ?_, fun filter => ?_, fun raw filter => ?_, fun filter => ?_⟩
  · rw [filter]
    simp [mode, time]
  · rcases filter with filter | filter <;> rw [filter]
  · rw [filter]
  · rw [filter]

/-! ### Accepted returns -/

/-- R63, R66: the port whose carrier is accepted as returned. -/
def returned (s : State) (i : PortId) : State :=
  s.setPort i { s.port i with state := .up, filter := .present, filterTimer := .idle }

theorem returned_port (s : State) (i : PortId) :
    (returned s i).port i = { s.port i with state := .up, filter := .present, filterTimer := .idle } := by
  rw [returned, State.port_setPort, if_pos rfl]

/-- R66, R117: an accepted return, the filter then PRESENT. -/
theorem acceptReturn_eq (i : PortId) (s : State) : (s.setFilter i .present).acceptReturn i =
    if s.adapter.works then syncAll (s.pathsOf i) (returned s i) else returned s i := by
  have both : (s.setFilter i .present).modPort i (fun r => { r with state := .up }) = returned s i := by
    unfold State.setFilter
    rw [State.modPort, port_modPort, if_pos rfl]
    refine setPort_setPort i _ _ s fun changed same => changed ?_
    have carrier : (s.port i).filter.accepted = true := congrArg PortReported.carrier same
    simp [PortRec.reported, carrier, show CarrierFilter.present.accepted = true from rfl]
  unfold State.acceptReturn
  dsimp only
  rw [both]
  rfl

/-- R111: probing rests on a path that is DRAINING, FENCED, or DOWN within its hold-down. -/
theorem probingState_rests {r : PathRec}
    (rests : r.health = .draining ∨ r.health = .fenced ∨ r.health = .down ∧ r.holdEnded = false) :
    r.probingState = false := by
  unfold PathRec.probingState
  rcases rests with health | health | ⟨health, held⟩
  · rw [health]
  · rw [health]
  · rw [health]
    exact held

/-- R108, R111: probing begins on a path that is UNTRIED, or DOWN past its hold-down. -/
theorem syncAll_begins {s : State} {i : PortId} {p : PathId} {paths : List PathId} (once : paths.Nodup)
    (member : p ∈ paths) (works : s.adapter.works = true) (carrier : (s.port i).state ≠ .down)
    (named : s.pathPort p = some i) (idle : (s.path p).markB = .idle)
    (served : (s.path p).health = .untried ∨ (s.path p).health = .down ∧ (s.path p).holdEnded = true) :
    ((syncAll paths s).path p).markB = .running s.clock (1000 * (s.pathDesc p).fastInterval) ∧
      ProbeWaits (syncAll paths s) i p := by
  obtain ⟨u, still, lanes, path, after, probe⟩ := syncAll_at once member s
  have probed : (u.path p).probingState = true ∧ (u.path p).health ≠ .up := by
    unfold PathRec.probingState
    rw [path]
    rcases served with health | ⟨health, ended⟩
    · simp [health]
    · simp [health, ended]
  have named : u.pathPort p = some i := by rw [State.pathPort, path]; exact named
  have carrier : (u.port i).state ≠ .down := by rw [lanes.port i]; exact carrier
  have works : u.adapter.works = true := by rw [still.calm.quiet.adapter]; exact works
  have run : u.syncProbing p = u.startProbing p := by
    rw [State.syncProbing, if_pos (probingActive_of works named carrier probed.1), path, idle]
    rfl
  obtain ⟨mark, waits⟩ := startProbing_begins probed.2
  rw [run] at after probe
  refine ⟨?_, probe i (waits i named)⟩
  rw [after, mark, State.pathDesc, path, still.calm.quiet.clock]
  rfl

/-- R111: where a path's state has it rest, no mark runs. -/
theorem syncAll_rests {s : State} {p : PathId} {paths : List PathId} (once : paths.Nodup) (member : p ∈ paths)
    (rests : (s.path p).probingState = false) : ((syncAll paths s).path p).markB = .idle := by
  obtain ⟨u, -, -, path, after, -⟩ := syncAll_at once member s
  rw [after]
  exact syncProbing_stops (by rw [path]; exact rests)

/-- R158: the return marks the port's part where the port was not UP. -/
theorem returned_marks {s : State} {i : PortId} (moved : (s.port i).state ≠ .up) :
    ∃ b, { part := .port i, event := b } ∈ (returned s i).rewrites := by
  have changed : (s.port i).reported ≠
      PortRec.reported { s.port i with state := .up, filter := .present, filterTimer := .idle } :=
    fun same => moved (congrArg PortReported.state same)
  rw [returned, State.setPort, if_neg changed]
  exact markRewrite_waits ..

/-- R66, R111, R117: what an accepted return leaves. -/
theorem carrierReturned (s : State) (i : PortId) : CarrierReturned s ((s.setFilter i .present).acceptReturn i) i := by
  rw [acceptReturn_eq]
  by_cases works : s.adapter.works = true
  · rw [if_pos works]
    have once := pathsOf_nodup s i
    have port := (syncAll_lanesMove (s.pathsOf i) (returned s i)).port i
    rw [returned_port] at port
    refine ⟨?_, fun moved => ?_, fun halted => absurd works (by simp [halted]), fun _ p named idle served => ?_,
      fun p idle rests => ?_, (syncAll_still _ _).ctxs, syncAll_health _ _⟩
    · rw [port]
      exact ⟨rfl, rfl, rfl⟩
    · obtain ⟨b, waits⟩ := returned_marks moved
      exact syncAll_marks _ waits
    · exact syncAll_begins (s := returned s i) once (mem_pathsOf.mpr named) works (by rw [returned_port]; simp) named
        idle served
    · by_cases named : s.pathPort p = some i
      · exact syncAll_rests (s := returned s i) once (mem_pathsOf.mpr named)
          (probingState_rests (rests.resolve_left fun other => other named))
      · rw [syncAll_path_other (mt mem_pathsOf.mp named)]
        exact idle
  · rw [if_neg works]
    refine ⟨?_, returned_marks, fun _ => rfl, fun on => absurd on works, fun _ idle _ => idle, rfl, fun _ => rfl⟩
    rw [returned_port]
    exact ⟨rfl, rfl, rfl⟩

/-- R63, R65: a return begins, by the return filter time. -/
theorem beginReturn_cases (i : PortId) (s : State) :
    ((s.port i).settings.returnTime = 0 → s.beginReturn i = (s.setFilter i .present).acceptReturn i) ∧
    ((s.port i).settings.returnTime ≠ 0 →
      s.beginReturn i = s.startFilter i .returnPending (s.port i).settings.returnTime) :=
  ⟨fun time => if_pos time, fun time => if_neg time⟩

/-- R63: what a raw return does in each filter state. -/
theorem rawReturn_cases (i : PortId) (s : State) :
    ((s.port i).filter = .present ∨ (s.port i).filter = .returnPending → s.rawReturn i = s) ∧
    ((s.port i).filter = .lossPending → s.rawReturn i = s.setFilter i .present) ∧
    (∀ raw, (s.port i).filter = .hold raw →
      s.rawReturn i = s.modPort i fun r => { r with filter := .hold true }) ∧
    ((s.port i).filter = .lost → s.rawReturn i = s.beginReturn i) := by
  unfold State.rawReturn
  refine ⟨fun filter => ?_, fun filter => ?_, fun raw filter => ?_, fun filter => ?_⟩
  · rcases filter with filter | filter <;> rw [filter]
  all_goals rw [filter]

/-- R63, R65: what the expiry of the timer does in each filter state in which it runs. -/
theorem filterExpiry_cases (i : PortId) (s : State) :
    ((s.port i).filter = .lossPending → s.filterExpiry i = (s.setFilter i .lost).acceptLoss i) ∧
    ((s.port i).filter = .hold false → s.filterExpiry i = s.setFilter i .lost) ∧
    ((s.port i).filter = .hold true → s.filterExpiry i = s.beginReturn i) ∧
    ((s.port i).filter = .returnPending → s.filterExpiry i = (s.setFilter i .present).acceptReturn i) := by
  unfold State.filterExpiry
  refine ⟨fun filter => ?_, fun filter => ?_, fun filter => ?_, fun filter => ?_⟩
  all_goals simp [filter]

/-! ### O31 -/

/-- Settles O31: by the filter state, and for an accepted loss or return by what each leaves. -/
theorem carrierFilterTakesRawChanges : Obligations.CarrierFilterTakesRawChanges := by
  refine ⟨fun i s => ?_, fun i s => ⟨?_, ?_⟩⟩
  · obtain ⟨pending, stays, hold, waiting⟩ := rawLoss_cases i s
    refine ⟨s.rawLoss i, rfl, pending, fun present atOnce => ?_, stays, hold, waiting⟩
    rw [rawLoss_accepted present atOnce]
    split
    · have port := acceptLoss_port i (s.setFilter i .lost)
      rwa [State.setFilter, port_modPort, if_pos rfl] at port
    · have port := acceptLoss_port i (s.startFilter i (.hold false) (s.port i).settings.lossTime)
      rwa [State.startFilter, port_modPort, if_pos rfl] at port
  · obtain ⟨stays, present, hold, lost⟩ := rawReturn_cases i s
    obtain ⟨atOnce, later⟩ := beginReturn_cases i s
    refine ⟨s.rawReturn i, rfl, stays, present, hold, fun filter time => ?_, fun filter time => ?_⟩
    · rw [lost filter, later time]
      rfl
    · rw [lost filter, atOnce time]
      exact carrierReturned s i
  · obtain ⟨lossPending, holdLost, holdPresent, returnPending⟩ := filterExpiry_cases i s
    obtain ⟨atOnce, later⟩ := beginReturn_cases i s
    refine ⟨if (s.port i).filterTimer.isExpired then s.filterExpiry i else s, rfl, fun runs => ?_,
      fun expired => ?_⟩
    · rw [if_neg (by simp [runs])]
    · rw [if_pos expired]
      refine ⟨fun filter => ?_, holdLost, fun filter time => ?_, fun filter time => ?_, fun filter => ?_⟩
      · rw [lossPending filter]
        obtain ⟨state, filter, timer⟩ := acceptLoss_port i (s.setFilter i .lost)
        rw [State.setFilter, port_modPort, if_pos rfl] at filter timer
        exact ⟨filter, state, timer⟩
      · rw [holdPresent filter, later time]
        rfl
      · rw [holdPresent filter, atOnce time]
        exact carrierReturned s i
      · rw [returnPending filter]
        exact carrierReturned s i

end Sys2Proof.LinkPorts
end

section
/-!
O34. The receiver of a port (R68): `CountsStand` says that an operation leaves the counters of every receiver.
-/

namespace Sys2Proof.LinkPorts

open Sys2Proof.Machine

/-! ### Counters of receivers -/

/-- A receiver's counters stand. -/
structure SameCounts (a b : PortRec) : Prop where
  framesReceived : b.framesReceived = a.framesReceived
  foreignType : b.foreignType = a.foreignType
  unknownSource : b.unknownSource = a.unknownSource

/-- The counters of every receiver stand. -/
structure CountsStand (s t : State) : Prop where
  port : ∀ i, SameCounts (s.port i) (t.port i)

theorem LanesMove.counts {s t : State} (h : LanesMove s t) : CountsStand s t where
  port := fun i => by
    rw [h.port i]
    exact ⟨rfl, rfl, rfl⟩

namespace CountsStand

theorem refl (s : State) : CountsStand s s :=
  ⟨fun _ => ⟨rfl, rfl, rfl⟩⟩

theorem trans {s t u : State} (h : CountsStand s t) (k : CountsStand t u) : CountsStand s u where
  port := fun i =>
    have a := h.port i
    have b := k.port i
    ⟨b.framesReceived.trans a.framesReceived, b.foreignType.trans a.foreignType,
      b.unknownSource.trans a.unknownSource⟩

theorem ite {s t u : State} {p : Prop} [Decidable p] (h : CountsStand s t) (k : CountsStand s u) :
    CountsStand s (if p then t else u) := by
  split <;> assumption

theorem foldl {α : Type} (f : State → α → State) (h : ∀ s a, CountsStand s (f s a)) :
    ∀ (l : List α) (s : State), CountsStand s (l.foldl f s)
  | [], s => refl s
  | a :: l, s => (h s a).trans (foldl f h l (f s a))

theorem of_ports {s t : State} (same : t.ports = s.ports) : CountsStand s t :=
  (LanesMove.of_ports same).counts

theorem of_course {s t : State} (h : Course s t) : CountsStand s t :=
  (LanesMove.of_course h).counts

theorem modPort (i : PortId) (f : PortRec → PortRec) (s : State) (h : SameCounts (s.port i) (f (s.port i))) :
    CountsStand s (s.modPort i f) where
  port := fun j => by
    rw [port_modPort]
    split
    · next same => subst same; exact h
    · exact ⟨rfl, rfl, rfl⟩

theorem modPath (p : PathId) (f : PathRec → PathRec) (s : State) : CountsStand s (s.modPath p f) :=
  of_ports rfl

theorem settle (s : State) : CountsStand s s.settle :=
  (LanesMove.settle s).counts

theorem count (p : PathId) (f : PathCounters → PathCounters) (s : State) : CountsStand s (s.count p f) :=
  of_ports rfl

/-! ### Changes of health -/

theorem syncProbing (p : PathId) (s : State) : CountsStand s (s.syncProbing p) :=
  (Probes.syncProbing p s).ports.counts

theorem stopProbing (p : PathId) (s : State) : CountsStand s (s.stopProbing p) :=
  (LanesMove.stopProbing p s).counts

theorem hand_out (p : PathId) (s : State) : CountsStand s ((s.recomputeTargets p).reportHealth p) :=
  (LanesMove.hand_out p s).counts

theorem handOutService (p : PathId) (s : State) : CountsStand s (s.handOutService p) := by
  have reported : ∀ s : State, CountsStand s (s.reportHealth p) := fun _ => of_ports rfl
  exact ((of_ports (State.recomputeTargets_ports p s)).trans (of_course (.releaseFor p _))).trans (reported _)

theorem enterUp (p : PathId) (s : State) : CountsStand s (s.enterUp p) := by
  unfold State.enterUp
  dsimp only
  exact ((modPath p _ s).trans (syncProbing p _)).trans (handOutService p _)

theorem enterSuspect (p : PathId) (s : State) : CountsStand s (s.enterSuspect p) := by
  unfold State.enterSuspect
  dsimp only
  exact ((modPath p _ s).trans (syncProbing p _)).trans (handOutService p _)

theorem enterRecovering (p : PathId) (s : State) : CountsStand s (s.enterRecovering p) := by
  unfold State.enterRecovering
  dsimp only
  exact ((modPath p _ s).trans (syncProbing p _)).trans (hand_out p _)

theorem becomeUntried (p : PathId) (s : State) : CountsStand s (s.becomeUntried p) := by
  unfold State.becomeUntried
  dsimp only
  exact ((modPath p _ s).trans (syncProbing p _)).trans (hand_out p _)

theorem withdrawIfServed (before : Health) (p : PathId) (s : State) :
    CountsStand s (s.withdrawIfServed before p) :=
  (LanesMove.withdrawIfServed before p s).counts

theorem enterDraining (p : PathId) (limit : Timer) (s : State) : CountsStand s (s.enterDraining p limit) := by
  unfold State.enterDraining
  dsimp only
  exact (((modPath p _ s).trans (stopProbing p _)).trans (withdrawIfServed _ p _)).trans (hand_out p _)

theorem enterFencedFrom (p : PathId) (lose : Bool) (s : State) : CountsStand s (s.enterFencedFrom p lose) := by
  unfold State.enterFencedFrom
  dsimp only
  have stopped : CountsStand s ((s.modPath p (·.enterFenced)).stopProbing p) :=
    (modPath p _ s).trans (stopProbing p _)
  refine (CountsStand.trans ?_ (withdrawIfServed _ p _)).trans (hand_out p _)
  exact ite (stopped.trans (LanesMove.loseSent p _).counts) stopped

theorem portProved (i : PortId) (s : State) : CountsStand s (s.portProved i) := by
  unfold State.portProved
  refine ite ((modPort i (fun r => { r with state := .up }) s ⟨rfl, rfl, rfl⟩).trans ?_) (refl s)
  exact foldl _ (fun s q => ite (enterUp q s) (refl s)) _ _

theorem testProving (p : PathId) (s : State) : CountsStand s (s.testProving p) := by
  refine ite ?_ (refl s)
  unfold State.completeProving
  dsimp only
  refine (enterUp p s).trans ?_
  split
  · exact refl _
  · exact portProved ..

theorem doubtPaths (i : PortId) (s : State) : CountsStand s (s.doubtPaths i) :=
  foldl _ (fun s q => ite ((modPath q _ s).trans (enterSuspect q _)) (refl s)) _ _

theorem correlatePath (p : PathId) (s : State) : CountsStand s (s.correlatePath p) := by
  have trips : ∀ (i : PortId) (s : State), CountsStand s (s.trip i) := fun i s => by
    unfold State.trip
    split
    · exact refl s
    · exact (modPort _ _ _ ⟨rfl, rfl, rfl⟩).trans (doubtPaths i _)
    · exact doubtPaths i s
  unfold State.correlatePath State.correlate
  split
  · exact refl s
  · next i _ =>
    have listed : CountsStand s (s.modPort i fun r =>
        { r with downTimes := addDownTime s.clock (s.port i).downTimes }) := modPort _ _ _ ⟨rfl, rfl, rfl⟩
    dsimp only
    split
    · exact listed
    · exact ite (listed.trans (trips i _)) listed

theorem enterDown (p : PathId) (cause : DownCause) (s : State) : CountsStand s (s.enterDown p cause) := by
  unfold State.enterDown
  dsimp only
  have lost : CountsStand s (((s.modPath p fun r => r.enterDown s.clock (s.pathDesc p)).stopProbing p).loseSent p) :=
    ((modPath p _ s).trans (stopProbing p _)).trans (LanesMove.loseSent p _).counts
  refine (CountsStand.trans ?_ (withdrawIfServed _ p _)).trans (hand_out p _)
  cases cause with
  | carrier => exact lost
  | strikes => exact lost.trans (correlatePath p _)
  | proving => exact lost.trans (correlatePath p _)

/-! ### Strikes, good probes and samples -/

theorem setStrikes (p : PathId) (n : Nat) (s : State) : CountsStand s (s.setStrikes p n) := by
  have judged : ∀ s : State, CountsStand s (s.judge p) := fun s => by
    unfold State.judge
    dsimp only
    split
    · exact ite (enterDown p _ s) (ite (enterSuspect p s) (refl s))
    · exact ite (enterDown p _ s) (ite (enterUp p s) (refl s))
    all_goals exact refl s
  exact ite ((modPath p _ s).trans (judged _)) (refl s)

theorem dropStrike (p : PathId) (s : State) : CountsStand s (s.dropStrike p) :=
  setStrikes ..

theorem malformedArrival (p : PathId) (s : State) : CountsStand s (s.malformedArrival p) :=
  (count p _ s).trans (ite (ite (enterDown ..) (refl _)) (setStrikes ..))

theorem goodReply (p : PathId) (s : State) : CountsStand s (s.goodReply p) :=
  (modPath p _ s).trans (dropStrike p _)

theorem goodProbe (p : PathId) (s : State) : CountsStand s (s.goodProbe p) := by
  have recovers : CountsStand s ((s.enterRecovering p).testProving p) :=
    (enterRecovering p s).trans (testProving p _)
  unfold State.goodProbe
  split
  · exact dropStrike p s
  · exact dropStrike p s
  · exact recovers
  · exact ite (ite (enterFencedFrom p false s) recovers) (refl s)
  · exact (modPath p _ s).trans (testProving p _)
  · exact refl s
  · exact refl s

theorem sample (p : PathId) (time : W32) (s : State) : CountsStand s (s.sample p time) :=
  ite ((modPath p _ s).trans (setStrikes ..)) (modPath p _ s)

/-! ### What a frame from a known path does -/

theorem takeReply (p : PathId) (h : LinkHeader) (outcome : RemoteOutcome) (payload : List Byte) (s : State) :
    CountsStand s (s.takeReply p h outcome payload) := by
  have sampled : ∀ (a : Attempt) (s : State), CountsStand s (s.replySample a p outcome) := fun a s => by
    unfold State.replySample
    split
    · exact refl s
    · exact ite ((sample p _ s).trans (settle _)) (refl s)
  have accepted : ∀ (c : CtxId) (a : Attempt), CountsStand s (s.acceptReply c a p outcome payload) := fun c a =>
    ((((count p _ s).trans (sampled a _)).trans (goodReply p _)).trans (settle _)).trans
      (of_course (.contextReply c a.id p outcome payload _))
  unfold State.takeReply
  split
  · exact count p _ s
  · split
    · exact count p _ s
    · exact ite (accepted ..) (count p _ s)

theorem takeVerdict (p : PathId) (h : LinkHeader) (code : RemoteOutcome) (payload : List Byte) (s : State) :
    CountsStand s (s.takeVerdict p h code payload) := by
  unfold State.takeVerdict
  split
  · exact count p _ s
  · next c _ =>
    exact ite ((((count p _ s).trans (goodReply p _)).trans (settle _)).trans
      (of_course (.resolveVerdict c h code payload _))) (count p _ s)

theorem placeEcho (i : PortId) (p : PathId) (seq : W16) (time : W32) (s : State) :
    CountsStand s (s.placeEcho i p seq time) :=
  ite (modPort _ _ _ ⟨rfl, rfl, rfl⟩) (of_course (.enqueue i 0 _ s))

theorem takeEcho (p : PathId) (seq : W16) (s : State) : CountsStand s (s.takeEcho p seq) := by
  unfold State.takeEcho
  split
  · exact refl s
  · exact ite (((((sample p _ s).trans (settle _)).trans (goodProbe p _)).trans (settle _)).trans (modPath p _ _))
      (refl s)

theorem takeAdvisory (p : PathId) (code : Advisory) (s : State) : CountsStand s (s.takeAdvisory p code) := by
  have drains : CountsStand s (s.drainPath p) := by
    unfold State.drainPath
    dsimp only
    split
    · exact enterDraining ..
    · exact enterDraining ..
    · exact enterDraining ..
    · exact enterDraining ..
    · exact ite (refl s) (modPath p _ s)
    · exact refl s
    · exact refl s
  cases code with
  | drain => exact drains.trans (settle _)
  | resume => exact ite (becomeUntried p s) (refl s)

/-- R84 to R95: whatever a frame from a known path is, no receiver counts it again. -/
theorem takeFrame (i : PortId) (p : PathId) (body : List Byte) (s : State) :
    CountsStand s (s.takeFrame i p body) := by
  unfold State.takeFrame
  dsimp only
  split
  · exact (malformedArrival p s).trans (settle _)
  · exact count p _ s
  · exact takeReply ..
  · exact takeVerdict ..
  · exact placeEcho ..
  · exact takeEcho ..
  · exact takeAdvisory ..

end CountsStand

/-! ### The receiver (R68) -/

section Receiver
variable {i : PortId} {f : EthFrame} {cfg : Settings} {s : State}

/-- R68: what a receiver does not take. -/
theorem receive_discards (h : (s.port i).state = .down ∨ f.checkOk = false ∨ f.dest ≠ cfg.portAddr.get i) :
    s.receive i f cfg = s := by
  refine if_pos ?_
  simpa using h

/-- R68: a frame of another type. -/
theorem receive_foreign (carrier : (s.port i).state ≠ .down) (check : f.checkOk = true)
    (dest : f.dest = cfg.portAddr.get i) (foreign : f.etype ≠ cfg.frameType) :
    s.receive i f cfg = s.setPort i { s.port i with foreignType := (s.port i).foreignType + 1 } := by
  unfold State.receive
  rw [if_neg (by simp [carrier, check, dest]), if_pos foreign]
  rfl

/-- R68, R85: a frame taken is counted and its path looked up. -/
theorem receive_takes (carrier : (s.port i).state ≠ .down) (check : f.checkOk = true)
    (dest : f.dest = cfg.portAddr.get i) (etype : f.etype = cfg.frameType) :
    s.receive i f cfg = (s.counted i).lookUp i f.src f.body := by
  unfold State.receive
  rw [if_neg (by simp [carrier, check, dest]), if_neg (not_not.mpr etype)]
  rfl

end Receiver

theorem counted_port (s : State) (i : PortId) :
    (s.counted i).port i = { s.port i with framesReceived := (s.port i).framesReceived + 1 } := by
  rw [State.counted, port_modPort, if_pos rfl]

/-- R85: no known path: the frame is counted as of unknown source. -/
theorem lookUp_unknown {s : State} {i : PortId} {src : Mac} (unknown : s.sourcePath i src = none)
    (body : List Byte) : (s.counted i).lookUp i src body = s.setPort i
      { s.port i with
        framesReceived := (s.port i).framesReceived + 1
        unknownSource := (s.port i).unknownSource + 1 } := by
  have unknown : (s.counted i).sourcePath i src = none := unknown
  unfold State.lookUp
  rw [unknown]
  dsimp only
  rw [State.modPort, counted_port]
  refine setPort_setPort i _ _ s fun changed same => changed ?_
  have wraps : (s.port i).framesReceived + 1 = (s.port i).framesReceived :=
    (congrArg PortReported.framesReceived same).symm
  simp only [PortRec.reported, wraps]

/-- R85: a known path takes the frame, and the receivers' counters stand. -/
theorem lookUp_known {s : State} {i : PortId} {src : Mac} (known : s.sourcePath i src ≠ none) (body : List Byte) :
    CountsStand (s.counted i) ((s.counted i).lookUp i src body) := by
  unfold State.lookUp
  split
  · next unknown => exact absurd unknown known
  · exact .takeFrame ..

/-! ### O34 -/

theorem exec_frameArrival_unset {s : State} (settings : s.settings = none) (i : PortId) (f : EthFrame) :
    exec (.frameArrival i f) s = .next s := by
  show execFrameArrival i f s = _
  unfold execFrameArrival
  rw [settings]

/-- R68: where the adapter works, a frame is for the receiver of its port. -/
theorem exec_frameArrival {s : State} {cfg : Settings} (settings : s.settings = some cfg) (i : PortId)
    (f : EthFrame) :
    exec (.frameArrival i f) s = .next (if s.adapter.works then s.receive i f cfg else s) := by
  show execFrameArrival i f s = _
  unfold execFrameArrival
  rw [settings]

/-- R68: whatever an arrival is, the receivers of the other ports count nothing. -/
theorem receive_others {i : PortId} {f : EthFrame} {cfg : Settings} (s : State) (j : PortId) (other : j ≠ i) :
    SameCounts (s.port j) ((s.receive i f cfg).port j) := by
  have apart : ∀ r, (s.setPort i r).port j = s.port j := fun r => by rw [State.port_setPort, if_neg other]
  by_cases refused : (s.port i).state = .down ∨ f.checkOk = false ∨ f.dest ≠ cfg.portAddr.get i
  · rw [receive_discards refused]
    exact ⟨rfl, rfl, rfl⟩
  · simp only [not_or, not_not, Bool.not_eq_false] at refused
    obtain ⟨carrier, check, dest⟩ := refused
    by_cases etype : f.etype = cfg.frameType
    · rw [receive_takes carrier check dest etype]
      by_cases known : s.sourcePath i f.src = none
      · rw [lookUp_unknown known, apart]
        exact ⟨rfl, rfl, rfl⟩
      · have stands := (lookUp_known known f.body).port j
        rwa [State.counted, State.modPort, apart] at stands
    · rw [receive_foreign carrier check dest etype, apart]
      exact ⟨rfl, rfl, rfl⟩

/-- Settles O34: by the cases of R68, then by whether the source is known. -/
theorem framesDiscarded : Obligations.FramesDiscarded := by
  intro i f s
  cases settings : s.settings with
  | none => exact ⟨s, exec_frameArrival_unset settings i f, fun _ => rfl, nofun, fun j _ => ⟨rfl, rfl, rfl⟩⟩
  | some cfg =>
    refine ⟨_, exec_frameArrival settings i f, fun discarded => ?_, fun cfg' same works carrier check => ?_,
      fun j other => ?_⟩
    · by_cases works : s.adapter.works = true
      · have refused : (s.port i).state = .down ∨ f.checkOk = false := by simpa [works] using discarded
        rw [if_pos works, receive_discards (refused.imp_right .inl)]
      · exact if_neg works
    · cases same
      rw [if_pos works]
      refine ⟨fun dest => receive_discards (.inr (.inr dest)), receive_foreign carrier check, fun dest etype => ?_⟩
      rw [receive_takes carrier check dest etype]
      by_cases unknown : s.sourcePath i f.src = none
      · rw [lookUp_unknown unknown, State.port_setPort, if_pos rfl]
        exact ⟨rfl, rfl, fun _ => rfl, fun known => absurd unknown known⟩
      · have stands := (lookUp_known unknown f.body).port i
        rw [counted_port] at stands
        exact ⟨stands.framesReceived, stands.foreignType, fun known => absurd known unknown,
          fun _ => stands.unknownSource⟩
    · split
      · have stands := receive_others (f := f) (cfg := cfg) s j other
        exact ⟨stands.framesReceived, stands.foreignType, stands.unknownSource⟩
      · exact ⟨rfl, rfl, rfl⟩

end Sys2Proof.LinkPorts
end

section
/-!
O50, O51. The link header as bytes: the Header Check (R82) and the layout of 11, section 11.4.
-/

namespace Sys2Proof.LinkFraming

open Sys2Proof.Machine
open Sys2Proof.LinkPorts (headerSum_withCheck)

/-! ### Bytes at an offset -/

theorem byteAt_append_left {bs : List Byte} {off : Nat} (within : off < bs.length) (rest : List Byte) :
    byteAt (bs ++ rest) off = byteAt bs off := by
  rw [byteAt, byteAt, List.getD_append _ _ _ _ within]

theorem byteAt_append_length (pre : List Byte) (b : Byte) (rest : List Byte) :
    byteAt (pre ++ b :: rest) pre.length = b.toNat := by
  simp [byteAt]

theorem leBytes_length (v n : Nat) : (leBytes v n).length = n := by
  induction n generalizing v with
  | zero => rfl
  | succ n ih => rw [leBytes, List.length_cons, ih]

theorem beBytes_length (v n : Nat) : (beBytes v n).length = n := by
  rw [beBytes, List.length_reverse, leBytes_length]

/-- The last of the bytes is the lowest. -/
theorem beBytes_succ (v n : Nat) : beBytes v (n + 1) = beBytes (v / 256) n ++ [BitVec.ofNat 8 v] := by
  rw [beBytes, leBytes, List.reverse_cons, beBytes]

theorem beAt_succ_last (bs : List Byte) (off n : Nat) :
    beAt bs off (n + 1) = 256 * beAt bs off n + byteAt bs (off + n) := by
  induction n generalizing off with
  | zero => simp [beAt]
  | succ n ih =>
    rw [beAt, ih, beAt, show off + 1 + n = off + (n + 1) by omega]
    ring

/-- A number written most significant byte first reads back, as far as its bytes hold it. -/
theorem beAt_beBytes (pre : List Byte) (v n : Nat) (rest : List Byte) :
    beAt (pre ++ beBytes v n ++ rest) pre.length n = v % 256 ^ n := by
  induction n generalizing v rest with
  | zero => rw [beAt, pow_zero, Nat.mod_one]
  | succ n ih =>
    have last := byteAt_append_length (pre ++ beBytes (v / 256) n) (BitVec.ofNat 8 v) rest
    rw [List.length_append, beBytes_length, BitVec.toNat_ofNat] at last
    have bytes : pre ++ beBytes v (n + 1) ++ rest =
        pre ++ beBytes (v / 256) n ++ BitVec.ofNat 8 v :: rest := by
      simp [beBytes_succ]
    rw [bytes, beAt_succ_last, ih, last, pow_succ' 256, Nat.mod_mul, Nat.add_comm]

/-! ### O50 -/

theorem headerBytes_length (h : LinkHeader) : (headerBytes h).length = 32 := rfl

theorem wordSum_append {bs : List Byte} {n : Nat} (within : 2 * n ≤ bs.length) (rest : List Byte) :
    wordSum (bs ++ rest) n = wordSum bs n := by
  induction n with
  | zero => rfl
  | succ n ih =>
    rw [wordSum, wordSum, ih (by omega)]
    simp only [beAt]
    rw [byteAt_append_left (by omega), byteAt_append_left (by omega)]

/-- R82: the sum covers the header alone. -/
theorem headerSum_append (h : LinkHeader) (payload : List Byte) :
    headerSum (headerBytes h ++ payload) = headerSum (headerBytes h) :=
  wordSum_append (headerBytes_length h).ge payload

/-- R82, R84: a sum other than 0 makes the frame malformed. -/
theorem wellFormedArrival_bad_sum {body : List Byte} (sum : headerSum body ≠ 0) : wellFormedArrival body = none :=
  if_pos (.inr (.inl sum))

/-- Settles O50: the check cancels the sum of the other words, and the sixteen words end before the payload. -/
theorem headerCheck : Obligations.HeaderCheck :=
  ⟨fun h => ⟨headerSum_withCheck h, rfl⟩, headerSum_append, fun _ => wellFormedArrival_bad_sum⟩

/-! ### O51 -/

/-- 11, section 11.4: a field of the header is read at the offset its bytes begin at. -/
theorem beAt_header {h : LinkHeader} {off v n : Nat} (within : off ≤ 32)
    (field : ((headerBytes h).drop off).take n = beBytes v n) (payload : List Byte) :
    beAt (headerBytes h ++ payload) off n = v % 256 ^ n := by
  have begins : ((headerBytes h).take off).length = off :=
    List.length_take_of_le (within.trans (headerBytes_length h).ge)
  have bytes : (headerBytes h).take off ++ beBytes v n ++ ((headerBytes h).drop off).drop n = headerBytes h := by
    rw [← field, List.append_assoc, List.take_append_drop, List.take_append_drop]
  have read := beAt_beBytes ((headerBytes h).take off) v n (((headerBytes h).drop off).drop n ++ payload)
  rwa [← List.append_assoc, bytes, begins] at read

/-- A field of whole bytes is read back as it was sent. -/
theorem ofNat_beAt_header {h : LinkHeader} {off : Nat} (n : Nat) {v : BitVec (8 * n)} (within : off ≤ 32)
    (field : ((headerBytes h).drop off).take n = beBytes v.toNat n) (payload : List Byte) :
    BitVec.ofNat (8 * n) (beAt (headerBytes h ++ payload) off n) = v := by
  have range : 256 ^ n = 2 ^ (8 * n) := (pow_mul 2 8 n).symm
  rw [beAt_header within field, range, Nat.mod_eq_of_lt v.isLt, BitVec.ofNat_toNat, BitVec.setWidth_eq]

/-- The low 4 bits of two fields in one number are the second field. -/
theorem packed_low {m : Nat} (a : BitVec m) (b : BitVec 4) :
    BitVec.ofNat 4 (16 * a.toNat + b.toNat) = b := by
  apply BitVec.eq_of_toNat_eq
  rw [BitVec.toNat_ofNat]
  omega

/-- What stands above the low 4 bits is the first field. -/
theorem packed_high {m : Nat} (a : BitVec m) (b : BitVec 4) :
    BitVec.ofNat m ((16 * a.toNat + b.toNat) / 16) = a := by
  have quotient : (16 * a.toNat + b.toNat) / 16 = a.toNat := by omega
  rw [quotient, BitVec.ofNat_toNat, BitVec.setWidth_eq]

/-- The generation and the attempt number share a byte. -/
theorem byteAt_gen_attempt (h : LinkHeader) (payload : List Byte) :
    byteAt (headerBytes h ++ payload) 0x0C = 16 * h.gen.toNat + h.attempt.toNat := by
  change (BitVec.ofNat 8 (16 * h.gen.toNat + h.attempt.toNat)).toNat = _
  rw [BitVec.toNat_ofNat]
  omega

/-- The two parts of the Return Handle share a word. -/
theorem beAt_handle (h : LinkHeader) (payload : List Byte) :
    beAt (headerBytes h ++ payload) 0x0E 2 = 16 * h.handleCtx.toNat + h.handleNum.toNat := by
  rw [beAt_header (by decide) rfl]
  omega

/-- Settles O51: each field is read at the offset its bytes begin at, and the shared ones are parted at bit 4. -/
theorem linkHeaderRoundTrip : Obligations.LinkHeaderRoundTrip := by
  intro h payload
  rw [parseHeader, byteAt_gen_attempt, packed_high, packed_low, beAt_handle, packed_high, packed_low]
  cases h
  rw [LinkHeader.mk.injEq]
  refine ⟨rfl, rfl, ?checkWord, ?adapterWord, ?endpointWord, ?issueWord, rfl, rfl, rfl, rfl, rfl, rfl, ?probeWord,
    ?timeWord, ?lengthWord⟩
  case issueWord | timeWord => exact ofNat_beAt_header 4 (by decide) rfl payload
  all_goals exact ofNat_beAt_header 2 (by decide) rfl payload

end Sys2Proof.LinkFraming
end

section
/-!
SUPPORT. The hand-outs of a change of health (R104, R120, R158): `ReachMoves` says what the recomputing of the
reachability of targets and the report of the path leave, and `HandedOut` follows from it.
-/

namespace Sys2Proof.PathHealth

open Sys2Proof.Machine

/-! ### Event marks (R159) -/

/-- A part that waits with an event mark keeps it when any part is marked. -/
theorem markRewrite_keeps_event {part other : Part} {event : Bool} {l : List Rewrite}
    (waits : { part := part, event := true } ∈ l) :
    { part := part, event := true } ∈ markRewrite other event l := by
  unfold markRewrite
  split
  · exact List.mem_map.mpr ⟨_, waits, by split <;> rfl⟩
  · exact List.mem_append_left _ waits

/-- A part marked with an event waits with its event mark. -/
theorem markRewrite_event (part : Part) (l : List Rewrite) :
    { part := part, event := true } ∈ markRewrite part true l := by
  unfold markRewrite
  split
  · next waits =>
    obtain ⟨r, member, same⟩ := List.any_eq_true.mp waits
    have same := eq_of_beq same
    exact List.mem_map.mpr ⟨r, member, by simp [← same]⟩
  · exact List.mem_append_right _ (List.mem_singleton.mpr rfl)

theorem setPath_keeps_event {part : Part} {s : State} (p : PathId) (r : PathRec)
    (waits : { part := part, event := true } ∈ s.rewrites) :
    { part := part, event := true } ∈ (s.setPath p r).rewrites := by
  unfold State.setPath
  dsimp only
  split
  · exact waits
  · exact markRewrite_keeps_event waits

/-! ### The reachability of a Path List (R120) -/

theorem reachOf_congr {s t : State} (health : ∀ p, (t.path p).health = (s.path p).health) (paths : List PathId) :
    reachOf t paths = reachOf s paths := by
  simp only [reachOf, health]

/-- R120: the reachability computed is the one the health states give. -/
theorem reachIs_reachOf (s : State) (paths : List PathId) : ReachIs s paths (reachOf s paths) := by
  unfold reachOf
  by_cases up : ∃ p ∈ paths, (s.path p).health = .up
  · rw [if_pos (by simpa using up)]
    refine ⟨iff_of_true rfl up, iff_of_false nofun fun none => ?_⟩
    obtain ⟨p, member, health⟩ := up
    exact none.1 p member health
  · rw [if_neg (by simpa using up)]
    have noneUp : ∀ p ∈ paths, (s.path p).health ≠ .up := fun p member health => up ⟨p, member, health⟩
    by_cases suspect : ∃ p ∈ paths, (s.path p).health = .suspect
    · rw [if_pos (by simpa using suspect)]
      exact ⟨iff_of_false nofun up, iff_of_true rfl ⟨noneUp, suspect⟩⟩
    · rw [if_neg (by simpa using suspect)]
      exact ⟨iff_of_false nofun up, iff_of_false nofun fun both => suspect both.2⟩

/-! ### Recomputing and reporting (R104) -/

/-- The reachability held for target `u` is that of its Path List. -/
def ReachRight (s : State) (u : TargetId) : Prop :=
  (s.target u).reach = reachOf s (s.targetDesc u).pathList

/-- The step moves of the targets their reachability alone, each change with its event mark, spoils no reachability that
is right, and leaves the health of every path and every event mark that waits. -/
structure ReachMoves (s t : State) : Prop where
  health : ∀ p, (t.path p).health = (s.path p).health
  desc : ∀ u, t.targetDesc u = s.targetDesc u
  marks : ∀ part, { part := part, event := true } ∈ s.rewrites → { part := part, event := true } ∈ t.rewrites
  changed : ∀ u, (t.target u).reach ≠ (s.target u).reach → { part := .target u, event := true } ∈ t.rewrites
  right : ∀ u, ReachRight s u → ReachRight t u

theorem recomputeReach_target (u v : TargetId) (s : State) :
    (s.recomputeReach u).target v =
      if v = u then { s.target u with reach := reachOf s (s.targetDesc u).pathList } else s.target v := by
  unfold State.recomputeReach
  dsimp only
  split
  · next same =>
    rw [← same]
    split
    · next here => rw [here]
    · rfl
  · exact State.target_setTarget u v _ s

theorem recomputeReach_path (u : TargetId) (p : PathId) (s : State) :
    (s.recomputeReach u).path p = s.path p := by
  rw [State.path, State.path, State.recomputeReach_paths]

theorem recomputeReach_desc (u v : TargetId) (s : State) :
    (s.recomputeReach u).targetDesc v = s.targetDesc v := by
  unfold State.targetDesc
  rw [recomputeReach_target]
  split
  · next here => rw [here]
  · rfl

/-- R120: a target recomputed has the reachability of its list. -/
theorem recomputeReach_right (u : TargetId) (s : State) : ReachRight (s.recomputeReach u) u := by
  unfold ReachRight
  rw [recomputeReach_target, if_pos rfl, recomputeReach_desc]
  exact (reachOf_congr (fun p => by rw [recomputeReach_path]) _).symm

namespace ReachMoves

theorem refl (s : State) : ReachMoves s s :=
  ⟨fun _ => rfl, fun _ => rfl, fun _ waits => waits, fun _ moved => absurd rfl moved, fun _ right => right⟩

theorem trans {s t u : State} (h : ReachMoves s t) (k : ReachMoves t u) : ReachMoves s u where
  health := fun p => (k.health p).trans (h.health p)
  desc := fun v => (k.desc v).trans (h.desc v)
  marks := fun part waits => k.marks part (h.marks part waits)
  changed := fun v moved => by
    by_cases later : (u.target v).reach = (t.target v).reach
    · exact k.marks _ (h.changed v (later ▸ moved))
    · exact k.changed v later
  right := fun v right => k.right v (h.right v right)

theorem recomputeReach (u : TargetId) (s : State) : ReachMoves s (s.recomputeReach u) where
  health := fun p => by rw [recomputeReach_path]
  desc := fun v => recomputeReach_desc u v s
  marks := fun part waits => by
    unfold State.recomputeReach
    dsimp only
    split
    · exact waits
    · exact markRewrite_keeps_event waits
  changed := fun v moved => by
    rw [recomputeReach_target] at moved
    split at moved
    · next here =>
      subst here
      unfold State.recomputeReach
      dsimp only
      rw [if_neg (Ne.symm moved)]
      exact markRewrite_event ..
    · exact absurd rfl moved
  right := fun v right => by
    by_cases here : v = u
    · rw [here]
      exact recomputeReach_right u s
    · unfold ReachRight
      rw [recomputeReach_target, if_neg here, recomputeReach_desc, right]
      exact (reachOf_congr (fun p => by rw [recomputeReach_path]) _).symm

theorem recomputeAll : ∀ (l : List TargetId) (s : State),
    ReachMoves s (l.foldl (fun s u => s.recomputeReach u) s)
  | [], s => refl s
  | u :: l, s => (recomputeReach u s).trans (recomputeAll l _)

theorem reportHealth (p : PathId) (s : State) : ReachMoves s (s.reportHealth p) := by
  have health : ∀ q, ((s.reportHealth p).path q).health = (s.path q).health := fun q => by
    rw [State.reportHealth_path]
    split
    · next here => rw [here]
    · rfl
  exact ⟨health, fun _ => rfl, fun part waits => markRewrite_keeps_event (setPath_keeps_event _ _ waits),
    fun _ moved => absurd rfl moved, fun u right => right.trans (reachOf_congr health _).symm⟩

end ReachMoves

theorem recomputeAll_right {u : TargetId} : ∀ {l : List TargetId}, u ∈ l → ∀ s : State,
    ReachRight (l.foldl (fun s u => s.recomputeReach u) s) u
  | _ :: l, member, s => by
    rcases List.mem_cons.mp member with rfl | later
    · exact (ReachMoves.recomputeAll l _).right u (recomputeReach_right u s)
    · exact recomputeAll_right later _

theorem mem_targetsOf {s : State} {p : PathId} {u : TargetId} :
    u ∈ s.targetsOf p ↔ p ∈ (s.targetDesc u).pathList := by
  simp [State.targetsOf]

/-- R104, R120, R158: after a step that leaves the targets alone, recomputing and reporting hand the change out. -/
theorem handedOut_of_targets {s t : State} (p : PathId) (same : t.targets = s.targets) :
    HandedOut s ((t.recomputeTargets p).reportHealth p) p := by
  have target : ∀ u, t.target u = s.target u := fun u => by rw [State.target, State.target, same]
  have desc : ∀ u, t.targetDesc u = s.targetDesc u := fun u => by rw [State.targetDesc, State.targetDesc, target]
  have moves : ReachMoves t ((t.recomputeTargets p).reportHealth p) :=
    (ReachMoves.recomputeAll _ t).trans (.reportHealth p _)
  refine ⟨markRewrite_event .., fun u listed => ?_, fun u _ moved => moves.changed u (by rwa [target])⟩
  rw [← desc] at listed ⊢
  have right : ReachRight ((t.recomputeTargets p).reportHealth p) u :=
    (ReachMoves.reportHealth p _).right u (recomputeAll_right (mem_targetsOf.mpr listed) t)
  rw [right, moves.desc]
  exact reachIs_reachOf ..

end Sys2Proof.PathHealth
end

section
/-!
O15, O44. The entry to UNTRIED (R104, R116), UNFENCE and DRILL_END by the state of the path (R116), and the expiries of
the hold-down, stability and drain limit timers (R106, R107, R113).
-/

namespace Sys2Proof.PathHealth

open Sys2Proof.Machine
open Sys2Proof.LinkPorts (Probed Probes ProbeWaits path_modPath startProbing_begins probingActive_of)

/-! ### Probing (R111) -/

/-- Probing leaves every target as it is. -/
theorem syncProbing_targets (p : PathId) (s : State) : (s.syncProbing p).targets = s.targets := by
  have dropped : ∀ s : State, (s.dropProbe p).targets = s.targets := fun s => by
    unfold State.dropProbe
    split <;> rfl
  have queued : ∀ s : State, (s.queueProbe p).targets = s.targets := fun s => by
    unfold State.queueProbe
    split
    · rfl
    · split <;> rfl
  have started : (s.startProbing p).targets = s.targets := by
    unfold State.startProbing State.cycleSteps
    dsimp only
    split
    · exact dropped _
    · exact queued _
  unfold State.syncProbing
  split
  · split
    · exact started
    · rfl
  · exact dropped s

/-- R108, R111: where probing may run on a path that is not UP and no cycle runs, one begins. -/
theorem syncProbing_begins {s : State} {p : PathId} {i : PortId} (works : s.adapter.works = true)
    (named : s.pathPort p = some i) (carrier : (s.port i).state ≠ .down)
    (served : (s.path p).probingState = true) (notUp : (s.path p).health ≠ .up)
    (idle : (s.path p).markB = .idle) :
    ((s.syncProbing p).path p).markB = .running s.clock (1000 * (s.pathDesc p).fastInterval) ∧
      ProbeWaits (s.syncProbing p) i p := by
  have run : s.syncProbing p = s.startProbing p := by
    rw [State.syncProbing, if_pos (probingActive_of works named carrier served), idle]
    rfl
  obtain ⟨mark, waits⟩ := startProbing_begins notUp
  rw [run]
  exact ⟨mark, waits i named⟩

/-- R111: on a DOWN port no mark runs. -/
theorem syncProbing_down {s : State} {p : PathId} {i : PortId} (named : s.pathPort p = some i)
    (carrier : (s.port i).state = .down) : ((s.syncProbing p).path p).markB = .idle := by
  have inactive : s.probingActive p = false := by simp [State.probingActive, named, carrier]
  rw [State.syncProbing, if_neg (by simp [inactive]), State.stopProbing_path, if_pos rfl]

/-! ### The entry to UNTRIED (R104) -/

/-- Leaving a state cancels timers alone. -/
theorem leave_eq (r : PathRec) :
    r.leave = { r with stability := r.leave.stability, hold := r.leave.hold, drain := r.leave.drain } := by
  unfold PathRec.leave
  split <;> rfl

/-- What a change of state under R116 leaves of a path: its flap level, its estimate and its in-flight count. -/
structure Keeps (a b : PathRec) : Prop where
  flap : b.flap = a.flap
  samples : b.samples = a.samples
  srtt : b.srtt = a.srtt
  rttvar : b.rttvar = a.rttvar
  slow : b.slow = a.slow
  inflight : b.inflight = a.inflight

/-- Path record `b` is `a` after its entry to UNTRIED. -/
structure Untried (a b : PathRec) : Prop extends Keeps a b where
  health : b.health = .untried
  strikes : b.strikes = 0
  proving : b.proving = 0
  fence : b.fence = a.fence
  drill : b.drill = a.drill
  drain : b.drain = a.leave.drain

theorem Untried.enterUntried (r : PathRec) : Untried r r.enterUntried := by
  unfold PathRec.enterUntried
  rw [leave_eq]
  exact ⟨⟨rfl, rfl, rfl, rfl, rfl, rfl⟩, rfl, rfl, rfl, rfl, rfl, rfl⟩

theorem enterUntried_contents (r : PathRec) : r.enterUntried.contents = r.contents :=
  r.enterUntried_same.contents

theorem enterUntried_markB (r : PathRec) : r.enterUntried.markB = r.markB := by
  unfold PathRec.enterUntried
  rw [leave_eq]

/-- The path record after the entry: as entered and probed, with the change counted. -/
theorem becomeUntried_path (p : PathId) (s : State) :
    (s.becomeUntried p).path p =
      (fun r : PathRec =>
        { r with counters := { r.counters with transitions := r.counters.transitions + 1 } })
        (((s.modPath p (·.enterUntried)).syncProbing p).path p) := by
  unfold State.becomeUntried
  dsimp only
  rw [State.reportHealth_path, if_pos rfl, State.recomputeTargets_path]

theorem becomeUntried_untried (p : PathId) (s : State) : Untried (s.path p) ((s.becomeUntried p).path p) := by
  have probed := (Probes.syncProbing p (s.modPath p (·.enterUntried))).path
  rw [path_modPath, if_pos rfl] at probed
  obtain ⟨⟨flap, samples, srtt, rttvar, slow, inflight⟩, health, strikes, proving, fence, drill, drain⟩ :=
    Untried.enterUntried (s.path p)
  rw [becomeUntried_path, probed]
  exact ⟨⟨flap, samples, srtt, rttvar, slow, inflight⟩, health, strikes, proving, fence, drill, drain⟩

theorem becomeUntried_ports (p : PathId) (s : State) :
    (s.becomeUntried p).ports = ((s.modPath p (·.enterUntried)).syncProbing p).ports :=
  State.recomputeTargets_ports p _

/-- R111: a path on which no cycle ran begins one at its entry to UNTRIED, where its port is not DOWN. -/
theorem becomeUntried_probes {s : State} {p : PathId} {i : PortId} (works : s.adapter.works = true)
    (idle : (s.path p).markB = .idle) (named : s.pathPort p = some i) (carrier : (s.port i).state ≠ .down) :
    ((s.becomeUntried p).path p).markB = .running s.clock (1000 * (s.pathDesc p).fastInterval) ∧
      ProbeWaits (s.becomeUntried p) i p := by
  have entered : (s.modPath p (·.enterUntried)).path p = (s.path p).enterUntried := by
    rw [path_modPath, if_pos rfl]
  have health := (Untried.enterUntried (s.path p)).health
  obtain ⟨mark, waits⟩ := syncProbing_begins (s := s.modPath p (·.enterUntried)) works
    (by rw [State.pathPort, entered, enterUntried_contents]; exact named) carrier
    (by rw [entered, PathRec.probingState, health]) (by rw [entered, health]; nofun)
    (by rw [entered, enterUntried_markB]; exact idle)
  refine ⟨?_, ?_⟩
  · rw [becomeUntried_path]
    refine mark.trans ?_
    rw [State.pathDesc, entered, enterUntried_contents]
    rfl
  · rw [ProbeWaits, State.port, becomeUntried_ports]
    exact waits

/-- R104, R120, R158: the entry is handed out. -/
theorem becomeUntried_handedOut (p : PathId) (s : State) : HandedOut s (s.becomeUntried p) p :=
  handedOut_of_targets p (syncProbing_targets p _)

/-! ### UNFENCE and DRILL_END (R116) -/

/-- The change of a path record is one of its Fence and Drill flags alone. -/
def FlagsAlone (f : PathRec → PathRec) : Prop :=
  ∀ r : PathRec, f r = { r with fence := (f r).fence, drill := (f r).drill }

/-- R116 for either flag: what the end of a fence or a drill leaves of path `p`, whose flags `f` changes, where `freed`
says that the path enters UNTRIED. -/
structure Ended (s t : State) (p : PathId) (f : PathRec → PathRec) (freed : Prop) [Decidable freed] : Prop extends
    Keeps (s.path p) (t.path p) where
  fence : (t.path p).fence = (f (s.path p)).fence
  drill : (t.path p).drill = (f (s.path p)).drill
  health : (t.path p).health = if freed then .untried else (s.path p).health
  afresh : (s.path p).health ≠ .untried → (t.path p).health = .untried →
    (t.path p).strikes = 0 ∧ (t.path p).proving = 0 ∧
    ((s.path p).markB = .idle → ∀ i, s.pathPort p = some i → (s.port i).state ≠ .down →
      (t.path p).markB = .running s.clock (1000 * (s.pathDesc p).fastInterval) ∧ ProbeWaits t i p)
  handed : (t.path p).health ≠ (s.path p).health → HandedOut s t p

section Flags
variable {s : State} {p : PathId} {f : PathRec → PathRec} {freed : Prop} [Decidable freed]

/-- A path that is not freed stays as it is but for its flags. -/
theorem Ended.of_stays (flags : FlagsAlone f) (stays : ¬freed) : Ended s (s.modPath p f) p f freed := by
  have changed : (s.modPath p f).path p = f (s.path p) := by rw [path_modPath, if_pos rfl]
  have health : ((s.modPath p f).path p).health = (s.path p).health := by rw [changed, flags]
  refine ⟨?_, by rw [changed], by rw [changed], by rw [health, if_neg stays], fun other untried => ?_, fun moved => ?_⟩
  · rw [changed, flags]
    exact ⟨rfl, rfl, rfl, rfl, rfl, rfl⟩
  · exact absurd (health ▸ untried) other
  · exact absurd health moved

/-- A path that is freed enters UNTRIED and probes afresh. -/
theorem Ended.of_freed (works : s.adapter.works = true) (flags : FlagsAlone f) (free : freed) :
    Ended s ((s.modPath p f).becomeUntried p) p f freed := by
  have changed : (s.modPath p f).path p = f (s.path p) := by rw [path_modPath, if_pos rfl]
  have untried := becomeUntried_untried p (s.modPath p f)
  rw [changed] at untried
  have markB : (f (s.path p)).markB = (s.path p).markB := by rw [flags]
  have contents : (f (s.path p)).contents = (s.path p).contents := by rw [flags]
  refine ⟨?_, untried.fence, untried.drill, by rw [untried.health, if_pos free],
    fun _ _ => ⟨untried.strikes, untried.proving, fun idle i named carrier => ?_⟩,
    fun _ => handedOut_of_targets p (syncProbing_targets p _)⟩
  · have keeps := untried.toKeeps
    rw [flags] at keeps
    exact ⟨keeps.flap, keeps.samples, keeps.srtt, keeps.rttvar, keeps.slow, keeps.inflight⟩
  · have begun := becomeUntried_probes (s := s.modPath p f) works (by rw [changed, markB]; exact idle)
      (by rw [State.pathPort, changed, contents]; exact named) carrier
    rwa [State.pathDesc, changed, contents] at begun

theorem Ended.of_flags (works : s.adapter.works = true) (flags : FlagsAlone f) :
    Ended s (if freed then (s.modPath p f).becomeUntried p else s.modPath p f) p f freed := by
  by_cases free : freed
  · rw [if_pos free]
    exact .of_freed works flags free
  · rw [if_neg free]
    exact .of_stays flags free

end Flags

/-- R116: which paths an UNFENCE frees. -/
theorem unfencePath_eq {p : PathId} {s : State} (fenced : (s.path p).fence = true) :
    s.unfencePath p =
      if (s.path p).health = .fenced ∧ (s.path p).drill = false ∨ (s.path p).health = .draining then
        (s.modPath p fun r => { r with fence := false }).becomeUntried p
      else s.modPath p fun r => { r with fence := false } := by
  unfold State.unfencePath
  dsimp only
  rw [if_pos fenced]
  cases health : (s.path p).health with
  | fenced => cases (s.path p).drill <;> simp
  | draining => simp
  | down | up | suspect | untried | recovering => simp

/-- R116: which paths a DRILL_END frees. -/
theorem endDrill_eq {p : PathId} {s : State} (drilled : (s.path p).drill = true) :
    s.endDrill p =
      if (s.path p).health = .fenced ∧ (s.path p).fence = false then
        (s.modPath p fun r => { r with drill := false }).becomeUntried p
      else s.modPath p fun r => { r with drill := false } := by
  unfold State.endDrill
  dsimp only
  rw [if_pos drilled]
  simp only [Bool.not_eq_true]

theorem unfencePath_clear {p : PathId} {s : State} (clear : (s.path p).fence = false) : s.unfencePath p = s := by
  unfold State.unfencePath
  simp [clear]

theorem endDrill_clear {p : PathId} {s : State} (clear : (s.path p).drill = false) : s.endDrill p = s := by
  unfold State.endDrill
  simp [clear]

theorem unfencePath_ended {p : PathId} {s : State} (works : s.adapter.works = true)
    (fenced : (s.path p).fence = true) :
    Ended s (s.unfencePath p) p (fun r => { r with fence := false })
      ((s.path p).health = .fenced ∧ (s.path p).drill = false ∨ (s.path p).health = .draining) := by
  rw [unfencePath_eq fenced]
  exact .of_flags works fun _ => rfl

theorem endDrill_ended {p : PathId} {s : State} (works : s.adapter.works = true)
    (drilled : (s.path p).drill = true) :
    Ended s (s.endDrill p) p (fun r => { r with drill := false })
      ((s.path p).health = .fenced ∧ (s.path p).fence = false) := by
  rw [endDrill_eq drilled]
  exact .of_flags works fun _ => rfl

theorem exec_unfence {entry : Byte} {p : PathId} {s : State} (works : s.adapter.works = true)
    (named : p.val = entry.toNat) : exec (.unfence entry) s = .next (s.unfencePath p) := by
  change execUnfence entry s = _
  simp only [execUnfence, ← named, works, p.isLt, dif_pos, if_true]

theorem exec_drillEnd {entry : Byte} {p : PathId} {s : State} (works : s.adapter.works = true)
    (named : p.val = entry.toNat) : exec (.drillEnd entry) s = .next (s.endDrill p) := by
  change execDrillEnd entry s = _
  simp only [execDrillEnd, ← named, works, p.isLt, dif_pos, if_true]

/-! ### O15 -/

/-- Settles O15: a flag that is clear stays so; one that is set is cleared, and the path stays or enters UNTRIED. -/
theorem unfenceAndDrillEndNotices : Obligations.UnfenceAndDrillEndNotices := by
  intro entry p s works named
  refine ⟨⟨s.unfencePath p, exec_unfence works named, (Still.unfencePath p s).calm.quiet.toOnlyWork,
      (Still.unfencePath p s).ctxs, unfencePath_clear, fun fenced => ?_, ?_⟩,
    ⟨s.endDrill p, exec_drillEnd works named, (Still.endDrill p s).calm.quiet.toOnlyWork,
      (Still.endDrill p s).ctxs, endDrill_clear, fun drilled => ?_, ?_⟩⟩
  · have e := unfencePath_ended works fenced
    exact ⟨e.fence, e.flap, e.samples, e.srtt, e.rttvar, e.slow, e.inflight, e.afresh, e.health⟩
  · cases fence : (s.path p).fence with
    | false => exact fun moved => absurd (by rw [unfencePath_clear fence]) moved
    | true => exact (unfencePath_ended works fence).handed
  · have e := endDrill_ended works drilled
    exact ⟨e.drill, e.flap, e.samples, e.srtt, e.rttvar, e.slow, e.inflight, e.afresh, e.health⟩
  · cases drill : (s.path p).drill with
    | false => exact fun moved => absurd (by rw [endDrill_clear drill]) moved
    | true => exact (endDrill_ended works drill).handed

/-! ### The expiry of the hold-down timer (R107) -/

/-- R107: path `p` after the expiry of its hold-down timer, its probing not yet tested. -/
def holdEnded (s : State) (p : PathId) : State :=
  s.modPath p fun r => { r with holdEnded := true, hold := .idle }

theorem exec_holdDownExpiry (p : PathId) (s : State) : exec (.holdDownExpiry p) s =
    .next (if (s.path p).hold.isExpired then (holdEnded s p).syncProbing p else s) :=
  rfl

theorem holdEnded_path (s : State) (p : PathId) :
    (holdEnded s p).path p = { s.path p with holdEnded := true, hold := .idle } := by
  rw [holdEnded, path_modPath, if_pos rfl]

theorem holdEnded_still (s : State) (p : PathId) : Still s (holdEnded s p) :=
  .modPath p _ s ⟨rfl, rfl, rfl, rfl⟩ fun h => h.congr rfl rfl rfl rfl h.strikes h.flap

/-- R107: the path stays in its state, with its hold-down ended. -/
theorem holdEnded_probed (s : State) (p : PathId) :
    (((holdEnded s p).syncProbing p).path p).holdEnded = true ∧
      (((holdEnded s p).syncProbing p).path p).hold = .idle ∧
      (((holdEnded s p).syncProbing p).path p).health = (s.path p).health ∧
      (((holdEnded s p).syncProbing p).path p).flap = (s.path p).flap := by
  have probed := (Probes.syncProbing p (holdEnded s p)).path
  rw [holdEnded_path] at probed
  rw [probed]
  exact ⟨rfl, rfl, rfl, rfl⟩

/-- R107, R111: a DOWN path is probed from the end of its hold-down where its port is not DOWN. -/
theorem holdEnded_begins {s : State} {p : PathId} {i : PortId} (down : (s.path p).health = .down)
    (idle : (s.path p).markB = .idle) (works : s.adapter.works = true) (named : s.pathPort p = some i)
    (carrier : (s.port i).state ≠ .down) :
    (((holdEnded s p).syncProbing p).path p).markB =
      .running s.clock (1000 * (s.pathDesc p).fastInterval) := by
  have served : ((holdEnded s p).path p).probingState = true := by
    rw [holdEnded_path, PathRec.probingState]
    simp only [down]
  have begun := (syncProbing_begins (s := holdEnded s p) works
    (by rw [State.pathPort, holdEnded_path]; exact named) carrier served
    (by rw [holdEnded_path]; simp [down]) (by rw [holdEnded_path]; exact idle)).1
  rwa [State.pathDesc, holdEnded_path] at begun

theorem holdEnded_rests {s : State} {p : PathId} {i : PortId} (named : s.pathPort p = some i)
    (carrier : (s.port i).state = .down) : (((holdEnded s p).syncProbing p).path p).markB = .idle :=
  syncProbing_down (s := holdEnded s p) (by rw [State.pathPort, holdEnded_path]; exact named) carrier

/-! ### O44 -/

theorem exec_stabilityExpiry (p : PathId) (s : State) : exec (.stabilityExpiry p) s =
    .next (if (s.path p).stability.isExpired then
      s.setPath p { s.path p with flap := 0, lastUp := none, stability := .idle } else s) :=
  rfl

theorem exec_drainLimitExpiry (p : PathId) (s : State) : exec (.drainLimitExpiry p) s =
    .next (if (s.path p).drain.isExpired ∧ (s.path p).health = .draining then s.becomeUntried p else s) :=
  rfl

theorem becomeUntried_drain {p : PathId} {s : State} (draining : (s.path p).health = .draining) :
    ((s.becomeUntried p).path p).drain = .idle := by
  rw [(becomeUntried_untried p s).drain, PathRec.leave, draining]

/-- Settles O44: an expiry that is not due changes nothing, and one that is does what its rule says. -/
theorem pathTimerExpiries : Obligations.PathTimerExpiries := by
  intro p s
  have hold : Still s (if (s.path p).hold.isExpired then (holdEnded s p).syncProbing p else s) :=
    .ite ((holdEnded_still s p).trans (.syncProbing p _)) (.refl s)
  have drain : Still s
      (if (s.path p).drain.isExpired ∧ (s.path p).health = .draining then s.becomeUntried p else s) :=
    .ite (.becomeUntried p s) (.refl s)
  refine ⟨⟨_, exec_holdDownExpiry p s, hold.calm.quiet.toOnlyWork, hold.ctxs, fun runs => by simp [runs],
      fun expired => ?_⟩,
    ⟨_, exec_stabilityExpiry p s, fun runs => by simp [runs], fun expired => if_pos expired⟩,
    ⟨_, exec_drainLimitExpiry p s, drain.calm.quiet.toOnlyWork, drain.ctxs, fun early => if_neg fun due => ?_,
      fun expired draining => ?_⟩⟩
  · rw [if_pos expired]
    obtain ⟨ended, timer, health, flap⟩ := holdEnded_probed s p
    exact ⟨ended, timer, health, flap, fun down idle works =>
      ⟨fun _ named carrier => holdEnded_begins down idle works named carrier,
        fun _ named carrier => holdEnded_rests named carrier⟩⟩
  · rcases early with runs | elsewhere
    · exact absurd due.1 (by simp [runs])
    · exact elsewhere due.2
  · rw [if_pos ⟨expired, draining⟩]
    have untried := becomeUntried_untried p s
    exact ⟨untried.health, untried.strikes, untried.proving, becomeUntried_drain draining, untried.srtt,
      untried.inflight, becomeUntried_handedOut p s⟩

end Sys2Proof.PathHealth
end

section
/-!
O33, O3. The age checks of correlation lists (R146), the holdoff expiry (R162), and the microsecond that passes on an
empty queue (R145, R147, R148, R163).
-/

namespace Sys2Proof.TimeBase

open Sys2Proof.Machine

/-! ### Age checks (R146) -/

/-- R146: a time stays while its wrapped difference to the clock is below 2^30 µs. -/
theorem youngTimes_eq (now : W32) (times : List W32) :
    youngTimes now times = times.filter fun x => decide ((now - x).toNat < 2 ^ 30) :=
  rfl

theorem exec_ageCheck (i : PortId) (s : State) : exec (.ageCheck i) s =
    .next (if (s.port i).ageDue then
      s.modPort i fun r => { r with downTimes := youngTimes s.clock r.downTimes, ageDue := false } else s) :=
  rfl

theorem exec_ageCheck_due {i : PortId} {s : State} (due : (s.port i).ageDue = true) :
    exec (.ageCheck i) s = .next
      (s.setPort i
        { s.port i with
          downTimes := (s.port i).downTimes.filter fun x => decide ((s.clock - x).toNat < 2 ^ 30)
          ageDue := false }) := by
  rw [exec_ageCheck, if_pos due, State.modPort, youngTimes_eq]

theorem exec_ageCheck_not_due {i : PortId} {s : State} (early : (s.port i).ageDue = false) :
    exec (.ageCheck i) s = .next s := by
  rw [exec_ageCheck, if_neg (Bool.eq_false_iff.mp early)]

/-! ### The holdoff expiry (R162) -/

/-- R162: the holdoff timer's expiry by the count of completions, when it is due. -/
def holdoffEnded (s : State) : State :=
  if s.coalesced = 0 then { s with holdoff := .idle } else s.setCompletions

theorem exec_holdoffExpiry (s : State) : exec .holdoffExpiry s =
    .next (if s.holdoff.isExpired then holdoffEnded s else s) :=
  rfl

/-- R161, R162: COMPLETIONS is bit 0 of EVENT. -/
theorem setCompletions_event (s : State) : s.setCompletions.event = s.event ||| 0x001 :=
  rfl

/-! ### O33 -/

/-- Settles O33: by the port's flag, and by the holdoff timer and the count of completions. -/
theorem ageChecksAndHoldoff : Obligations.AgeChecksAndHoldoff := by
  refine ⟨fun i s => ⟨exec_ageCheck_due, exec_ageCheck_not_due⟩,
    fun s => ⟨_, exec_holdoffExpiry s, fun early => if_neg (Bool.eq_false_iff.mp early), fun due => ?_⟩⟩
  rw [if_pos due]
  refine ⟨fun uncounted => if_pos uncounted, fun counted => ?_⟩
  have ended : holdoffEnded s = s.setCompletions := if_neg counted
  rw [ended]
  exact ⟨rfl, setCompletions_event s⟩

/-! ### What runs in one microsecond (R147, R148, R163) -/

theorem step_empty {s : State} (empty : s.pending = []) : step s = .next s.tick := by
  rw [step, empty]

/-- R148: a RUNNING timer falls due when the wrapped difference reaches its limit. -/
theorem timer_tick_running (clock start : W32) (limit : Nat) : Timer.tick clock (.running start limit) =
    if limit ≤ (clock - start).toNat then .expired start limit else .running start limit :=
  rfl

theorem tick_ctx (s : State) (c : CtxId) : s.tick.ctx c = (s.ctx c).map (·.tick (s.clock + 1)) :=
  mapEntries_get _ s.ctxs c

theorem tick_path (s : State) (p : PathId) : s.tick.path p = (s.path p).tick (s.clock + 1) :=
  mapEntries_get _ s.paths p

theorem tick_port (s : State) (i : PortId) : s.tick.port i = (s.port i).tick (s.clock + 1) :=
  mapEntries_get _ s.ports i

theorem tick_stream (s : State) (n : StreamId) :
    s.tick.stream n = { s.stream n with read := (s.stream n).read.map (·.tick (s.clock + 1)) } :=
  mapEntries_get _ s.streams n

theorem tick_target (s : State) (u : TargetId) :
    s.tick.target u = { s.target u with read := (s.target u).read.map (·.tick (s.clock + 1)) } :=
  mapEntries_get _ s.targets u

/-- R146: a port is given an age check at a multiple of 2^30 µs, and keeps one not yet taken (log 23). -/
theorem port_tick (clock : W32) (r : PortRec) : r.tick clock =
    { r with
      filterTimer := r.filterTimer.tick clock
      ageDue := r.ageDue || decide (clock.toNat % 2 ^ 30 = 0) } :=
  rfl

/-! ### O3 -/

/-- Settles O3: the step is the tick, read field by field. The Fetch Engine's read is timed in the phases that have
one, and LOADING's in the Anchor read. -/
theorem emptyQueueTicksTheClock : Obligations.EmptyQueueTicksTheClock := by
  intro s empty
  refine ⟨s.tick, step_empty empty, rfl, timer_tick_running _, rfl, fun _ _ => rfl, ?phase, ?loading, rfl, rfl,
    tick_ctx s, tick_path s, fun i => (tick_port s i).trans (port_tick _ _), tick_stream s, tick_target s, rfl⟩
  case phase =>
    change s.phase.tick (s.clock + 1) = _
    cases s.phase <;> rfl
  case loading =>
    change s.loading.map (·.tick (s.clock + 1)) = _
    cases s.loading with
    | none => rfl
    | some l => cases l <;> rfl

end Sys2Proof.TimeBase
end

section
/-!
O53, O17. The rewrite list: the issue of the rewrite at its head (R159), and the parts that a SNAPSHOT adds (R160).
-/

namespace Sys2Proof.DigestRewrites

open Sys2Proof.Machine

/-! ### The issue of a rewrite (R159) -/

/-- The bit of EVENT that the issue of a rewrite sets, 0 where it raises no event. -/
def raisedBit (w : Rewrite) : BitVec 9 :=
  (w.raised.map eventBit).getD 0

/-- R159: the issue changes the list, the turn and the events, and posts its write. -/
theorem issueRewrite_frame (w : Rewrite) (rest : List Rewrite) (s : State) :
    s.issueRewrite w rest =
      { s with
        rewrites := rest, lastIssued := some .rewrite, event := (s.issueRewrite w rest).event
        interrupt := (s.issueRewrite w rest).interrupt, outbound := (s.issueRewrite w rest).outbound } := by
  unfold State.issueRewrite
  cases w.raised <;> rfl

theorem issueRewrite_event (w : Rewrite) (rest : List Rewrite) (s : State) :
    (s.issueRewrite w rest).event = s.event ||| raisedBit w := by
  unfold State.issueRewrite raisedBit
  cases w.raised with
  | none => exact BitVec.or_zero.symm
  | some e => rfl

/-- R157, R159: the part as it stands is posted, and at most an interrupt follows. -/
theorem issueRewrite_outbound (w : Rewrite) (rest : List Rewrite) (s : State) :
    ∃ later, (s.issueRewrite w rest).outbound =
        s.outbound ++ [.write (s.partAddr w.part) (partBytes s w.part)] ++ later ∧
      ∀ o ∈ later, o = .interrupt := by
  unfold State.issueRewrite
  cases w.raised with
  | none => exact ⟨[], (List.append_nil _).symm, nofun⟩
  | some e => exact (Calm.raise e _).quiet.outbound

theorem issueRewrite_outbound_of_not_raised {w : Rewrite} (quiet : w.raised = none) (rest : List Rewrite) (s : State) :
    (s.issueRewrite w rest).outbound = s.outbound ++ [.write (s.partAddr w.part) (partBytes s w.part)] := by
  unfold State.issueRewrite
  rw [quiet]
  rfl

/-- R159: a rewrite without a mark raises nothing, nor does one of the header, a group or a port. -/
theorem not_raised {w : Rewrite}
    (plain : w.event = false ∨ w.part = .header ∨ (∃ g, w.part = .group g) ∨ ∃ i, w.part = .port i) :
    w.raised = none := by
  unfold Rewrite.raised
  rcases plain with unmarked | header | ⟨g, group⟩ | ⟨i, port⟩
  · rw [unmarked]
    cases w.part <;> rfl
  · rw [header]
  · rw [group]
  · rw [port]

/-! ### O53 -/

theorem exec_digestRewriteIssue_empty {s : State} (empty : s.rewrites = []) :
    exec .digestRewriteIssue s = .next s := by
  change execDigestRewriteIssue s = _
  rw [execDigestRewriteIssue, empty]

theorem exec_digestRewriteIssue_head {s : State} {w : Rewrite} {rest : List Rewrite} (list : s.rewrites = w :: rest) :
    exec .digestRewriteIssue s = .next (if s.rewriteTurn then s.issueRewrite w rest else s) := by
  change execDigestRewriteIssue s = _
  rw [execDigestRewriteIssue, list]

/-- R159: the turn of the rewrites, in the working states: no completion waits, or one was issued last. -/
theorem rewriteTurn_iff (s : State) :
    s.rewriteTurn = true ↔ s.adapter.works = true ∧ (s.queue = [] ∨ s.lastIssued ≠ some .rewrite) := by
  simp [State.rewriteTurn]

theorem exec_digestRewriteIssue_waits {s : State} (waits : ¬ s.rewriteTurn = true) :
    exec .digestRewriteIssue s = .next s := by
  cases list : s.rewrites with
  | nil => exact exec_digestRewriteIssue_empty list
  | cons w rest => rw [exec_digestRewriteIssue_head list, if_neg waits]

/-- Settles O53: by the list and its turn; what the issue raises is told by the part and its mark. -/
theorem digestRewriteIssue : Obligations.DigestRewriteIssue := by
  intro s
  refine ⟨fun still => ?_, fun w rest list works turn => ?_⟩
  · rcases still with empty | rests | ⟨waiting, last⟩
    · exact exec_digestRewriteIssue_empty empty
    · exact exec_digestRewriteIssue_waits (by simp [rewriteTurn_iff, rests])
    · exact exec_digestRewriteIssue_waits (by simp [rewriteTurn_iff, waiting, last])
  · refine ⟨s.issueRewrite w rest, raisedBit w, ?_, issueRewrite_frame w rest s, issueRewrite_event w rest s,
      fun p path => by rw [path]; rfl, fun u target => by rw [target]; rfl, fun plain => ?_,
      issueRewrite_outbound w rest s⟩
    · rw [exec_digestRewriteIssue_head list, if_pos ((rewriteTurn_iff s).mpr ⟨works, turn⟩)]
    · have quiet := not_raised plain
      exact ⟨by rw [raisedBit, quiet]; rfl, issueRewrite_outbound_of_not_raised quiet rest s⟩

/-! ### Marks without an event -/

/-- R159: a mark without an event leaves a part that waits as it is. -/
theorem markRewrite_without_event (part : Part) (l : List Rewrite) :
    markRewrite part false l =
      if l.any (fun r => r.part == part) then l else l ++ [{ part := part, event := false }] := by
  have same : (l.map fun r : Rewrite => if r.part = part then { r with event := r.event || false } else r) = l := by
    simp
  rw [markRewrite, same]

/-- R160: parts marked one after the other join the tail in their order, but for those that wait. -/
theorem markAll_eq {order : List Part} (once : order.Nodup) (l : List Rewrite) :
    order.foldl (fun l part => markRewrite part false l) l =
      l ++ (order.filter fun part => !l.any fun r => r.part == part).map
        fun part => { part := part, event := false } := by
  induction order generalizing l with
  | nil => simp
  | cons part order ih =>
    obtain ⟨fresh, once⟩ := List.nodup_cons.mp once
    rw [List.foldl_cons, ih once, markRewrite_without_event]
    by_cases waits : l.any (fun r => r.part == part) = true
    · simp [waits]
    · have others : (order.filter fun other =>
            !(l ++ [({ part := part, event := false } : Rewrite)]).any fun r => r.part == other) =
          order.filter fun other => !l.any fun r => r.part == other := by
        refine List.filter_congr fun other member => ?_
        have apart : (part == other) = false := beq_false_of_ne fun same => fresh (same ▸ member)
        simp [apart]
      rw [if_neg waits, others]
      simp [waits]

/-! ### O17 -/

/-- R160: the order of a SNAPSHOT names each part once. -/
theorem snapshotOrder_nodup : snapshotOrder.Nodup := by
  have numbered {n : Nat} {kind : Fin n → Part} (apart : Function.Injective kind) :
      ((List.finRange n).map kind).Nodup :=
    (List.nodup_finRange n).map apart
  have ports := numbered (kind := Part.port) fun _ _ => Part.port.inj
  have targets := numbered (kind := Part.target) fun _ _ => Part.target.inj
  have paths := numbered (kind := Part.path) fun _ _ => Part.path.inj
  have groups := numbered (kind := Part.group) fun _ _ => Part.group.inj
  simp only [snapshotOrder, List.nodup_cons, List.nodup_append, List.mem_append, List.mem_map]
  grind

/-- Settles O17: the parts are marked without an event, in the order of R160, each once. -/
theorem snapshotNotice : Obligations.SnapshotNotice := by
  intro s works
  change execSnapshot s = _
  rw [execSnapshot, if_pos works, markAll_eq snapshotOrder_nodup]
  rfl

end Sys2Proof.DigestRewrites
end

section
/-!
O29. The failed requests of a read (R163), and the first table read of LOADING that fails (R169).
-/

namespace Sys2Proof.HostFaults

open Sys2Proof.Machine

/-! ### One failed request (R163) -/

/-- R163: a failed request moves the fault registers and the events alone. -/
theorem memoryFault_frame (addr : W64) (s : State) :
    s.memoryFault addr =
      { s with
        faultAddress := (s.memoryFault addr).faultAddress, faultCount := (s.memoryFault addr).faultCount
        event := (s.memoryFault addr).event, interrupt := (s.memoryFault addr).interrupt
        outbound := (s.memoryFault addr).outbound } :=
  rfl

theorem memoryFault_event (addr : W64) (s : State) : (s.memoryFault addr).event = s.event ||| 0x040 :=
  rfl

/-! ### The failed requests of a read (R163) -/

/-- R163: where the read has every request named, each of them fails. -/
theorem failedRequests_of_known {r : HostRead} {requests : List Nat} (known : ∀ k ∈ requests, k < requestCount r)
    (named : requests ≠ []) : failedRequests r requests = requests := by
  have all : (requests.filter fun k => decide (k < requestCount r)) = requests :=
    List.filter_eq_self.mpr fun k member => decide_eq_true (known k member)
  rw [failedRequests, all, if_neg (by simpa using named)]

/-- Reads that lose their use do so before or after a failure alike. -/
theorem readFailed_joinOrphans (r : HostRead) (requests : List Nat) (left : List Orphan) (s : State) :
    (s.joinOrphans left).readFailed r requests = (s.readFailed r requests).joinOrphans left := by
  unfold State.readFailed
  exact List.foldl_hom (State.joinOrphans left) fun _ _ => rfl

theorem readFailed_orphans (r : HostRead) (requests : List Nat) (s : State) :
    (s.readFailed r requests).orphans = s.orphans := by
  unfold State.readFailed
  exact List.foldlRecOn (motive := fun t : State => t.orphans = s.orphans) _ _ rfl fun _ same _ _ => same

/-! ### The table reads of LOADING (R168, R169) -/

theorem mem_tableEntries (e : TableEntry) : e ∈ tableEntries := by
  cases e <;> simp [tableEntries]

theorem tableEntries_nodup : tableEntries.Nodup := by
  have targets := (List.nodup_finRange 64).map fun _ _ => TableEntry.target.inj
  have paths := (List.nodup_finRange 128).map fun _ _ => TableEntry.path.inj
  refine targets.append paths ?_
  simp [List.disjoint_left]

/-- R32, R163: the reads of the tables are told by their addresses, their lengths and what is left of their limits. -/
theorem tableRead_unique {cfg : Settings} {begun : W32} {age : Nat} {read : TableEntry → HostRead}
    (targets : ∀ u : TargetId, (read (.target u)).addr = cfg.targetBase + BitVec.ofNat 64 (16 * u.val) ∧
      (read (.target u)).len = 16)
    (paths : ∀ p : PathId, (read (.path p)).addr = cfg.pathBase + BitVec.ofNat 64 (64 * p.val) ∧
      (read (.path p)).len = 64)
    (limits : ∀ e, (read e).limit = tableLimit begun age (Config.tableReadBegins begun (tableIndex e))) :
    read = tableRead cfg begun age := by
  funext e
  have place : (read e).addr = tableAddr cfg e ∧ (read e).len = e.size := by
    cases e with
    | target u => exact targets u
    | path p => exact paths p
  rw [tableRead, ← place.1, ← place.2, ← limits e]

/-- Log 32: the reads left without a use are those of the other entries that have not ended. -/
theorem mem_otherTableReads {cfg : Settings} {begun : W32} {age : Nat} {got : TablesRead} {e : TableEntry}
    {o : Orphan} :
    o ∈ otherTableReads cfg begun age got e ↔ ∃ other, other ≠ e ∧ got.get (tableIndex other) = none ∧
      o = { id := .table other, read := tableRead cfg begun age other } := by
  simp [otherTableReads, mem_tableEntries, and_assoc, eq_comm (a := o)]

theorem otherTableReads_nodup (cfg : Settings) (begun : W32) (age : Nat) (got : TablesRead) (e : TableEntry) :
    ((otherTableReads cfg begun age got e).map (·.id)).Nodup := by
  rw [otherTableReads, List.map_map]
  exact (tableEntries_nodup.filter _).map fun _ _ => HostReadId.table.inj

/-- R169: the first table read that fails ends LOADING in FAULTED, and the others lose their use. -/
theorem exec_loadingTablesReadEnd_failed {s : State} {q : Bool} {cfg : Settings} {begun : W32} {age : Nat}
    {got : TablesRead} {e : TableEntry} (loading : s.loading = some (.tables q cfg begun age got))
    (unended : got.get (tableIndex e) = none) (requests : List Nat) :
    exec (.loadingTablesReadEnd [{ entry := e, answer := .failed requests }]) s = .next
      (State.faultLoading (tableRead cfg begun age e) requests
        (s.joinOrphans (otherTableReads cfg begun age got e))) := by
  change Host.Outcome.next (s.endTableRead e (.failed requests)) = _
  simp [State.endTableRead, loading, unended]

/-! ### O29 -/

/-- Settles O29: the requests of a failed read are its own, and the reads left behind are the other entries'. -/
theorem memoryFaults : Obligations.MemoryFaults := by
  refine ⟨fun s addr => ⟨_, rfl, rfl, rfl, memoryFault_event addr s, memoryFault_frame addr s⟩,
    fun s r requests known named => ?requests, fun s q cfg begun age got e requests read loading unended
      targets paths limits => ?tables⟩
  case requests =>
    rw [State.readFailed, failedRequests_of_known known named]
    rfl
  case tables =>
    obtain rfl := tableRead_unique targets paths fun other => limits other _ rfl
    refine ⟨otherTableReads cfg begun age got e, ?_, otherTableReads_nodup .., fun o => mem_otherTableReads⟩
    rw [exec_loadingTablesReadEnd_failed loading unended, State.faultLoading, readFailed_joinOrphans,
      State.joinOrphans, readFailed_orphans]

end Sys2Proof.HostFaults
end

section
/-!
O9, O7. The register window: the writes of EVENT, EVENT_MASK, ANCHOR and FAULT_ADDRESS (R161, R163, R166), how accesses
and words decode (R174, R175), and what reads return (11, section 11.1).
-/

namespace Sys2Proof.RegisterWindow

open Sys2Proof.Machine

/-! ### O9 -/

theorem exec_anchorWrite (span : RegisterSpan) (value : W64) (s : State) : exec (.anchorWrite span value) s =
    .next (if s.adapter = .halted then { s with anchor := spliceHalf s.anchor span value } else s.misuse) :=
  rfl

theorem exec_faultAddressWrite (value : W64) (s : State) : exec (.faultAddressWrite value) s =
    .next (if value = 0 then { s with faultAddress := 0 } else s.misuse) :=
  rfl

/-- Settles O9: the event registers are set with the interrupt evaluated again; ANCHOR is told by the adapter state,
and FAULT_ADDRESS by the data. -/
theorem registerWrites : Obligations.RegisterWrites := by
  refine ⟨fun value s => ⟨rfl, rfl⟩, fun span value s => ⟨fun halted => ?_, fun other => ?_, fun clear => ?_,
    fun set => ?_⟩⟩
  · rw [exec_anchorWrite, if_pos halted]
    cases span <;> rfl
  · rw [exec_anchorWrite, if_neg other, State.misuse]
  · rw [exec_faultAddressWrite, if_pos clear]
  · rw [exec_faultAddressWrite, if_neg set, State.misuse]

/-! ### Fields of a word -/

theorem extract_low {v w : Nat} (hi : BitVec v) (lo : BitVec w) : (hi ++ lo).extractLsb' 0 w = lo := by
  rw [BitVec.extractLsb'_append_eq_of_add_le (Nat.zero_add w).le, BitVec.extractLsb'_eq_self]

theorem extract_above {v w : Nat} (hi : BitVec v) (lo : BitVec w) (start len : Nat) :
    (hi ++ lo).extractLsb' (w + start) len = hi.extractLsb' start len := by
  rw [BitVec.extractLsb'_append_eq_of_le (Nat.le_add_right w start), Nat.add_sub_cancel_left]

/-- The field that lies directly above the lowest one. -/
theorem extract_next {u v w : Nat} (hi : BitVec u) (mid : BitVec v) (lo : BitVec w) :
    (hi ++ mid ++ lo).extractLsb' w v = mid :=
  (extract_above (hi ++ mid) lo 0 v).trans (extract_low hi mid)

/-- Two adjoining fields are one. -/
theorem extract_join {w : Nat} (v : BitVec w) (start m n : Nat) :
    v.extractLsb' (start + m) n ++ v.extractLsb' start m = v.extractLsb' start (n + m) :=
  BitVec.extractLsb'_append_extractLsb'_eq_extractLsb' rfl

/-! ### CONTROL words (R166) -/

theorem decodeControl_reset {word : W32} (reset : word.getLsbD 2 = true) : decodeControl word = .warmReset :=
  if_pos reset

theorem decodeControl_without_reset {word : W32} (clear : word.getLsbD 2 = false) : decodeControl word =
    match word.getLsbD 0, word.getLsbD 1 with
    | true, false => .start
    | false, true => .stop
    | _, _ => .controlBadCombination := by
  rw [decodeControl, clear]
  cases word.getLsbD 0 <;> cases word.getLsbD 1 <;> rfl

/-! ### NOTICE words (R175; 11, section 11.2) -/

/-- The command of a NOTICE word by its kind code, with the operands that stand above the code. -/
def noticeOfKind (operands : BitVec 24) (code : Byte) : Instr :=
  match code with
  | 1#8 => .arm (operands.extractLsb' 0 12) (operands.extractLsb' 12 7)
  | 2#8 => .abort (operands.extractLsb' 0 12)
  | 3#8 => .sweep
  | 4#8 => .reloadStream (operands.extractLsb' 0 8)
  | 5#8 => .reloadTarget (operands.extractLsb' 0 8)
  | 6#8 => .reloadPath (operands.extractLsb' 0 8)
  | 7#8 => .fence (operands.extractLsb' 0 8)
  | 8#8 => .unfence (operands.extractLsb' 0 8)
  | 9#8 => .drill (operands.extractLsb' 0 8)
  | 10#8 => .drillEnd (operands.extractLsb' 0 8)
  | 11#8 => .snapshot
  | code => .noticeUnknownKind code

theorem decodeNotice_append (operands : BitVec 24) (code : Byte) :
    decodeNotice (operands ++ code) = noticeOfKind operands code := by
  have kind : BitVec.extractLsb' 0 8 (operands ++ code : W32) = code := extract_low operands code
  have exch : BitVec.extractLsb' 8 12 (operands ++ code : W32) = _ := extract_above operands code 0 12
  have len : BitVec.extractLsb' 20 7 (operands ++ code : W32) = _ := extract_above operands code 12 7
  have entry : BitVec.extractLsb' 8 8 (operands ++ code : W32) = _ := extract_above operands code 0 8
  unfold noticeOfKind
  split
  case h_12 => simp_all [decodeNotice, ← BitVec.toNat_inj]
  all_goals
    simp only [decodeNotice, kind, exch, len, entry]
    rfl

theorem noticeOfKind_unknown (operands : BitVec 24) {code : Byte} (unknown : code = 0 ∨ 12 ≤ code.toNat) :
    noticeOfKind operands code = .noticeUnknownKind code := by
  unfold noticeOfKind
  split
  case h_12 => rfl
  all_goals exact absurd unknown (by decide)

/-! ### Window writes (R174) -/

theorem decodeWrite32At_discarded {offset : BitVec 12}
    (range : offset.toNat < 0x08 ∨ 0x14 ≤ offset.toNat ∧ offset.toNat < 0x18 ∨
      0x24 ≤ offset.toNat ∧ offset.toNat < 0x28 ∨ 0x30 ≤ offset.toNat) (word : W32) :
    decodeWrite32At offset word = some (.otherRegisterWrite offset .w32) :=
  if_pos (by simp only [unmappedOffset, readOnlyOffset, Bool.or_eq_true, Bool.and_eq_true, decide_eq_true_eq]; omega)

/-- R174: in ANCHOR and FAULT_ADDRESS, a write is judged by whether it begins at a half. -/
theorem decodeWrite32At_taken {offset : BitVec 12}
    (range : 0x08 ≤ offset.toNat ∧ offset.toNat < 0x10 ∨ 0x28 ≤ offset.toNat ∧ offset.toNat < 0x30) (word : W32) :
    decodeWrite32At offset word =
      if offset.toNat % 4 = 0 then some (decodeWrite32 offset.toNat word) else decodeUnaligned32 offset word :=
  if_neg (by simp only [unmappedOffset, readOnlyOffset, Bool.or_eq_true, Bool.and_eq_true, decide_eq_true_eq]; omega)

/-- Log 21: a write that begins at neither half of ANCHOR is a write of it. -/
theorem decodeWrite32At_inside_anchor {offset : BitVec 12} (above : 0x08 < offset.toNat) (below : offset.toNat < 0x10)
    (half : offset ≠ 0x0C) (word : W32) :
    decodeWrite32At offset word = some (.anchorWrite (.inside offset) (word.setWidth 64)) := by
  have unaligned : ¬ offset.toNat % 4 = 0 := fun aligned =>
    half (BitVec.eq_of_toNat_eq (show offset.toNat = 12 by omega))
  rw [decodeWrite32At_taken (by omega), if_neg unaligned, decodeUnaligned32, if_pos (by simp; omega)]

/-- R174, log 21: a write that begins inside FAULT_ADDRESS is a write of it. -/
theorem decodeWrite32At_faultAddress {offset : BitVec 12} (above : 0x28 ≤ offset.toNat) (below : offset.toNat < 0x30)
    (word : W32) : decodeWrite32At offset word = some (.faultAddressWrite (word.setWidth 64)) := by
  rw [decodeWrite32At_taken (by omega)]
  split
  · next aligned =>
    have half : offset.toNat = 0x28 ∨ offset.toNat = 0x2C := by omega
    rcases half with low | high
    · rw [low]
      rfl
    · rw [high]
      rfl
  · rw [decodeUnaligned32, if_neg (by simp; omega), if_pos (by simp; omega)]

/-- R174: a 64-bit write that covers no 64-bit register is two 32-bit writes, the lower first. -/
theorem decodeWindowWrite_halves {offset : BitVec 12} (ident : offset ≠ 0x00) (anchor : offset ≠ 0x08)
    (faultAddress : offset ≠ 0x28) (within : offset.toNat + 4 < 4096) (data : W64) :
    decodeWindowWrite offset .w64 data =
      decodeWindowWrite offset .w32 data ++ decodeWindowWrite (offset + 4) .w32 (data >>> 32) := by
  have apart {other : Nat} (different : offset ≠ BitVec.ofNat 12 other) (small : other < 4096) :
      ¬ offset.toNat = other :=
    fun same => different (BitVec.eq_of_toNat_eq (by rw [same, BitVec.toNat_ofNat, Nat.mod_eq_of_lt small]))
  have high : (data >>> 32).setWidth 32 = data.extractLsb' 32 32 := rfl
  simp only [decodeWindowWrite, high]
  rw [if_neg (apart ident (by decide)), if_neg (apart anchor (by decide)), if_neg (apart faultAddress (by decide)),
    if_neg (by omega)]

/-! ### Window reads (R174) -/

theorem decodeReadAt_eq (offset : BitVec 12) : decodeReadAt offset =
    if 0x24 ≤ offset.toNat ∧ offset.toNat < 0x28 ∨ 0x30 ≤ offset.toNat then [.unmappedRegisterRead offset]
    else [] := by
  simp [decodeReadAt, unmappedOffset]

theorem decodeWindowRead_narrow (offset : BitVec 12) {width : AccessWidth} (narrow : width ≠ .w64) :
    decodeWindowRead offset width = decodeReadAt offset := by
  cases width with
  | w64 => exact absurd rfl narrow
  | w8 | w16 | w32 => rfl

theorem decodeWindowRead_halves {offset : BitVec 12} (within : offset.toNat + 4 < 4096) :
    decodeWindowRead offset .w64 = decodeWindowRead offset .w32 ++ decodeWindowRead (offset + 4) .w32 :=
  if_neg (by omega)

/-- A 64-bit register is its two halves. -/
theorem extract_halves (v : W64) : v.extractLsb' 32 32 ++ v.extractLsb' 0 32 = v :=
  (extract_join v 0 32 32).trans BitVec.extractLsb'_eq_self

theorem windowRead_mul (s : State) (offset : Nat) : windowRead s (4 * offset) = s.windowWord (4 * offset) :=
  if_pos (.inl (Nat.mul_mod_right 4 offset))

/-- R174: the offsets of no register read 0. -/
theorem windowRead_no_register {offset : Nat} (range : 0x30 ≤ offset ∨ 0x24 ≤ offset ∧ offset < 0x28) (s : State) :
    windowRead s offset = 0 := by
  have outside : noRegister offset = true := by
    simp only [noRegister, Bool.or_eq_true, Bool.and_eq_true, decide_eq_true_eq]
    omega
  rw [windowRead, if_pos (.inr outside), State.windowWord]
  repeat rw [if_neg (by omega)]

/-! ### Reads of bytes (R174) -/

theorem windowByte_eq (s : State) (offset : Nat) {b : Nat} (within : b < 4) :
    s.windowByte (4 * offset + b) = (windowRead s (4 * offset)).extractLsb' (8 * b) 8 := by
  have word : (4 * offset + b) / 4 * 4 = 4 * offset := by omega
  have place : (4 * offset + b) % 4 = b := by omega
  rw [State.windowByte, word, place, windowRead_mul]

theorem setWidth_zero_append {w : Nat} (v : Nat) (x : BitVec w) (n : Nat) :
    (0#v ++ x).setWidth n = x.setWidth n := by
  simp [← BitVec.toNat_inj, BitVec.toNat_append]

theorem windowReadBytes_one (s : State) (offset : Nat) :
    windowReadBytes s offset 1 = (s.windowByte offset).setWidth 32 := by
  rw [windowReadBytes, if_neg (by omega)]
  exact setWidth_zero_append 8 _ 32

/-- A read of 16 bits within one register is that of its two bytes. -/
theorem windowReadBytes_two {s : State} {offset : Nat} (within : offset + 1 < registerEnd offset) :
    windowReadBytes s offset 2 = (s.windowByte (offset + 1) ++ s.windowByte offset).setWidth 32 := by
  rw [windowReadBytes, if_pos ⟨Nat.le_refl 2, within⟩]

/-- A register ends no sooner than the word that an offset lies in. -/
theorem word_lt_registerEnd (offset : Nat) {b : Nat} (within : b < 3) :
    4 * offset + b + 1 < registerEnd (4 * offset + b) := by
  unfold registerEnd
  split <;> omega

theorem windowReadBytes_two_in_word (s : State) (offset : Nat) {b : Nat} (within : b < 3) :
    windowReadBytes s (4 * offset + b) 2 =
      ((windowRead s (4 * offset)).extractLsb' (8 * b) 16).setWidth 32 := by
  have next : s.windowByte (4 * offset + b + 1) = (windowRead s (4 * offset)).extractLsb' (8 * b + 8) 8 :=
    windowByte_eq s offset (b := b + 1) (by omega)
  rw [windowReadBytes_two (word_lt_registerEnd offset within), next, windowByte_eq s offset (by omega), extract_join]

/-- The highest byte of a word and the lowest of the one above it. -/
theorem extract_across (hi lo : W32) :
    hi.extractLsb' 0 8 ++ lo.extractLsb' 24 8 = (hi ++ lo).extractLsb' 24 16 := by
  rw [BitVec.extractLsb'_append_eq_ite]
  simp

/-- R174: 16 bits that lie in both halves of a 64-bit register. -/
theorem windowReadBytes_two_across (s : State) {offset : Nat}
    (within : 4 * offset + 3 + 1 < registerEnd (4 * offset + 3)) :
    windowReadBytes s (4 * offset + 3) 2 = ((windowRead64 s (4 * offset)).extractLsb' 24 16).setWidth 32 := by
  have next : s.windowByte (4 * offset + 3 + 1) = (windowRead s (4 * offset + 4)).extractLsb' 0 8 :=
    windowByte_eq s (offset + 1) (b := 0) (by omega)
  rw [windowReadBytes_two within, next, windowByte_eq s offset (by omega), windowRead64]
  exact congrArg _ (extract_across ..)

/-! ### STATUS (11, section 11.1) -/

theorem adapterCode_lt (a : AdapterState) : adapterCode a < 6 := by
  cases a <;> decide

theorem liveCount_le (s : State) : s.liveCount ≤ 512 :=
  List.countP_le_length.trans (Vector.length_toList (xs := s.ctxs)).le

theorem statusWord_toNat {s : State} (faults : s.faultCount ≤ 255) (runs : s.armFifo.length ≤ 32) :
    s.statusWord.toNat = adapterCode s.adapter + 8 * s.sweepPending.toNat + 16 * s.liveCount +
      2 ^ 14 * s.armFifo.length + 2 ^ 20 * s.faultCount := by
  have code := adapterCode_lt s.adapter
  have sweep := s.sweepPending.toNat_le
  have live := liveCount_le s
  rw [State.statusWord, BitVec.toNat_ofNat, Nat.mod_eq_of_lt (by omega)]

/-- 11, section 11.1: the fields of STATUS do not overlap. -/
theorem statusWord_fields {s : State} (faults : s.faultCount ≤ 255) (runs : s.armFifo.length ≤ 32) :
    s.statusWord.extractLsb' 28 4 = 0 ∧
      (s.statusWord.extractLsb' 20 8).toNat = s.faultCount ∧
      (s.statusWord.extractLsb' 14 6).toNat = s.armFifo.length ∧
      (s.statusWord.extractLsb' 4 10).toNat = s.liveCount ∧
      (s.statusWord.extractLsb' 3 1).toNat = s.sweepPending.toNat ∧
      (s.statusWord.extractLsb' 0 3).toNat = adapterCode s.adapter := by
  have code := adapterCode_lt s.adapter
  have sweep := s.sweepPending.toNat_le
  have live := liveCount_le s
  rw [← BitVec.toNat_inj]
  simp only [BitVec.extractLsb'_toNat, statusWord_toNat faults runs, Nat.shiftRight_eq_div_pow]
  refine ⟨?_, ?_, ?_, ?_, ?_, ?_⟩
  · change _ = 0
    omega
  all_goals omega

/-! ### O7 -/

/-- R166: the CONTROL word by its three bits. -/
theorem decodeControl_by_bits (word : W32) :
    (word.getLsbD 2 = true → decodeControl word = .warmReset) ∧
      (word.getLsbD 2 = false →
        (word.getLsbD 0 = true → word.getLsbD 1 = false → decodeControl word = .start) ∧
        (word.getLsbD 0 = false → word.getLsbD 1 = true → decodeControl word = .stop) ∧
        (word.getLsbD 0 = word.getLsbD 1 → decodeControl word = .controlBadCombination)) := by
  refine ⟨decodeControl_reset, fun clear => ?_⟩
  rw [decodeControl_without_reset clear]
  cases word.getLsbD 0 <;> cases word.getLsbD 1 <;> simp

/-- Settles O7: words by their fields, accesses by their offsets, and reads by the words they lie in. -/
theorem windowWordsDecode : Obligations.WindowWordsDecode := by
  refine ⟨decodeControl_by_bits, ⟨?arm, ?abort, ?sweep, ?entries, ?snapshot, ?unknown⟩, ?ranges, ?registers, ?reads⟩
  case arm =>
    exact fun pad len exch => (decodeNotice_append (pad ++ len ++ exch) 1#8).trans
      (congrArg₂ Instr.arm (extract_low (pad ++ len) exch) (extract_next pad len exch))
  case abort =>
    exact fun pad exch => (decodeNotice_append (pad ++ exch) 2#8).trans (congrArg Instr.abort (extract_low pad exch))
  case sweep => exact fun pad => decodeNotice_append pad 3#8
  case entries =>
    intro pad entry
    have kind (code : Byte) := decodeNotice_append (pad ++ entry) code
    have operand : (pad ++ entry).extractLsb' 0 8 = entry := extract_low pad entry
    exact ⟨(kind 4#8).trans (congrArg Instr.reloadStream operand),
      (kind 5#8).trans (congrArg Instr.reloadTarget operand), (kind 6#8).trans (congrArg Instr.reloadPath operand),
      (kind 7#8).trans (congrArg Instr.fence operand), (kind 8#8).trans (congrArg Instr.unfence operand),
      (kind 9#8).trans (congrArg Instr.drill operand), (kind 10#8).trans (congrArg Instr.drillEnd operand)⟩
  case snapshot => exact fun pad => decodeNotice_append pad 11#8
  case unknown =>
    exact fun pad code unknown => (decodeNotice_append pad code).trans (noticeOfKind_unknown pad unknown)
  case ranges =>
    intro offset data
    refine ⟨rfl, rfl, fun range => ?_, fun above below half => ?_, fun above below => ?_,
      fun ident anchor faultAddress within => decodeWindowWrite_halves ident anchor faultAddress within data,
      fun width narrow => (decodeWindowRead_narrow offset narrow).trans (decodeReadAt_eq offset),
      decodeWindowRead_halves⟩
    · rw [decodeWindowWrite, decodeWrite32At_discarded range, Option.toList_some]
    · rw [decodeWindowWrite, decodeWrite32At_inside_anchor above below half, Option.toList_some]
    · rw [decodeWindowWrite, decodeWrite32At_faultAddress above below, Option.toList_some]
  case registers =>
    intro data
    refine ⟨rfl, rfl, rfl, fun word half => ?_⟩
    subst half
    exact ⟨rfl, rfl, rfl, rfl, rfl, rfl, rfl, rfl⟩
  case reads =>
    intro s
    refine ⟨extract_halves Config.ident, extract_halves s.anchor, extract_halves s.faultAddress, rfl, rfl, rfl, rfl,
      fun offset range => windowRead_no_register range s, fun _ => rfl, fun offset b within => ?_, fun offset => ?_,
      fun offset register => ?_, fun faults runs => ?_⟩
    · rw [windowReadBytes_one, windowByte_eq s offset within]
    · exact ⟨windowReadBytes_two_in_word s offset (b := 0) (by decide),
        windowReadBytes_two_in_word s offset (b := 1) (by decide),
        windowReadBytes_two_in_word s offset (b := 2) (by decide)⟩
    · rcases register with rfl | rfl | rfl
      · exact windowReadBytes_two_across s (offset := 0x00) (by decide)
      · exact windowReadBytes_two_across s (offset := 0x02) (by decide)
      · exact windowReadBytes_two_across s (offset := 0x0A) (by decide)
    · obtain ⟨spare, count, places, live, sweep, state⟩ := statusWord_fields faults runs
      refine ⟨spare, count, places, live, sweep, state.trans ?_⟩
      cases s.adapter <;> rfl

end Sys2Proof.RegisterWindow
end

section
/-!
O4, O5. What a cold reset leaves (R173), and the laws that hold of it.
-/

namespace Sys2Proof.ColdReset

open Sys2Proof.Machine

/-! ### The stores after reset (R27, R46, R61, R79, R123) -/

@[simp] theorem reset_ctx (c : CtxId) : State.reset.ctx c = none :=
  replicate_get _ c

@[simp] theorem reset_stream (n : StreamId) : State.reset.stream n = {} :=
  replicate_get _ n

@[simp] theorem reset_target (u : TargetId) : State.reset.target u = {} :=
  replicate_get _ u

@[simp] theorem reset_path (p : PathId) : State.reset.path p = {} :=
  replicate_get _ p

@[simp] theorem reset_port (i : PortId) : State.reset.port i = PortRec.initial :=
  replicate_get _ i

theorem reset_queue : State.reset.queue = [] :=
  rfl

/-- R79: the lanes of a port are empty after reset. -/
theorem initial_lanesEmpty : PortRec.initial.lanesEmpty = true :=
  (PortRec.lanesEmpty_iff _).mpr (replicate_get [])

/-! ### O4 -/

/-- Settles O4: the registers are read off the state after reset, and the stores entry by entry. -/
theorem resetState : Obligations.ResetState := by
  refine ⟨rfl, rfl, rfl, rfl, rfl, rfl, rfl, rfl, rfl, rfl, rfl, rfl, rfl, rfl, rfl, rfl, rfl, rfl, rfl, rfl, rfl,
    reset_ctx, fun n => ?stream, fun u => ?target, fun p => ?path, fun i => ?port⟩
  case stream => simp
  case target => simp
  case path => simp
  case port => simpa using ⟨rfl, rfl, rfl, initial_lanesEmpty, rfl, rfl⟩

/-! ### The laws of the stores after reset -/

/-- R47, R99: a path record without a copy, a sample, a strike or a flap is in range. -/
theorem pathRec_default_ok : ({} : PathRec).Ok where
  contents := fun _ copy => nomatch copy
  estimate := ⟨Nat.zero_le _, fun _ => ⟨rfl, rfl⟩, fun sampled => absurd rfl sampled⟩
  strikes := Nat.zero_le _
  flap := Nat.zero_le _

/-- R74, R119: a port after reset has no mask set and no DOWN entry listed. -/
theorem portRec_initial_ok : PortRec.initial.Ok where
  masks := fun _ => ⟨replicate_get false, rfl, rfl⟩
  downTimes := Nat.zero_le _

theorem reset_pathsOk : State.reset.PathsOk := fun p => by
  rw [reset_path]
  exact pathRec_default_ok

theorem reset_portsOk : State.reset.PortsOk := fun i => by
  rw [reset_port]
  exact portRec_initial_ok

theorem reset_streamsOk : State.reset.StreamsOk := fun n => by
  rw [reset_stream]
  exact StreamEntry.Ok.default

theorem reset_targetsOk : State.reset.TargetsOk := fun u d copy => by
  rw [reset_target] at copy
  cases copy

/-- R18: no context is live, so none holds an exchange number. -/
theorem reset_oneHolder : State.reset.OneHolder := fun c _ _ _ _ live => by
  rw [reset_ctx] at live
  cases live

/-- R154: no context is live, so none is in CLOSING, and the completion queue is empty. -/
theorem reset_queueOk : State.reset.QueueOk where
  distinct := .nil
  closing := fun c => by simp [reset_queue]
  fixed := fun c x live => by
    rw [reset_ctx] at live
    cases live

/-- R161, R165: nothing is raised, counted, in force or in progress. -/
theorem reset_registersOk : State.reset.RegistersOk where
  interrupt := rfl
  faults := Nat.zero_le _
  fifo := Nat.zero_le _
  runs := fun _ waiting => nomatch waiting
  settings := fun _ inForce => nomatch inForce
  reading := fun _ _ _ _ _ tables => nomatch tables
  loading := by decide
  coalesced := Nat.zero_le _
  payload := rfl
  settled := rfl

/-! ### O5 -/

/-- Settles O5: store by store, each entry being an initial one. -/
theorem lawsHoldAtReset : Obligations.LawsHoldAtReset :=
  ⟨reset_pathsOk, reset_portsOk, reset_streamsOk, reset_targetsOk, reset_oneHolder, reset_queueOk, reset_registersOk⟩

end Sys2Proof.ColdReset
end

section
/-!
O59, first part. The commands that leave the adapter state as it is, whatever the state they are taken in: all but
the resets, START, STOP, the ends of LOADING's reads, and the three commands that may free the last live context
(R165, R170).
-/

namespace Sys2Proof.AdapterStates

open Sys2Proof.Machine

/-- The outcome, if it is a next state, has the adapter state of `s`. -/
def SameAdapter (s : State) (o : Host.Outcome State Fault Refusal) : Prop :=
  ∀ t, o = .next t → t.adapter = s.adapter

theorem SameAdapter.of_eq {s t : State} (same : t.adapter = s.adapter) : SameAdapter s (.next t) := by
  rintro _ ⟨⟩
  exact same

theorem SameAdapter.of_fix {s t : State} (fix : Fix s t) : SameAdapter s (.next t) :=
  .of_eq fix.1

theorem SameAdapter.of_whole {s t : State} (whole : Whole s t) : SameAdapter s (.next t) :=
  .of_fix whole.fix

theorem SameAdapter.refl (s : State) : SameAdapter s (.next s) :=
  .of_eq rfl

theorem SameAdapter.misuse (s : State) : SameAdapter s (.next s.misuse) :=
  .of_eq rfl

/-! ### Notices (R4, R6, R24, R33, R114 to R116, R160) -/

theorem execArm_same (first : BitVec 12) (len : BitVec 7) (s : State) : SameAdapter s (execArm first len s) := by
  have offered : ∀ r, Fix s (s.offerRun r) := fun r => .ite ⟨rfl, rfl⟩ ⟨rfl, rfl⟩
  refine .of_fix (.ite ?_ (.misuse s))
  split
  case h_1 => exact offered _
  all_goals exact ⟨rfl, rfl⟩

theorem sweep_same (s : State) : SameAdapter s (execSweep s) := by
  refine .of_fix ?_
  split <;> exact ⟨rfl, rfl⟩

theorem abort_same (exch : BitVec 12) (s : State) : SameAdapter s (execAbort exch s) := by
  refine .of_fix (.ite ?_ (.misuse s))
  split
  · exact .refl s
  · exact (Course.abortCtx ..).whole.fix

theorem reloadStream_same (entry : Byte) (s : State) : SameAdapter s (execReloadStream entry s) := by
  refine .of_fix (.ite ?_ (.misuse s))
  split <;> exact ⟨rfl, rfl⟩

/-- R175: a notice that names an entry of a table raises MISUSE out of its range and outside the working states. -/
theorem namedEntry_fix {s : State} {entry size : Nat} {notice : entry < size → State} (fix : ∀ h, Fix s (notice h)) :
    Fix s (if h : entry < size then if s.adapter.works then notice h else s.misuse else s.misuse) := by
  split
  · exact .ite (fix _) (.misuse s)
  · exact .misuse s

theorem reloadTarget_same (entry : Byte) (s : State) : SameAdapter s (execReloadTarget entry s) := by
  refine .of_fix (namedEntry_fix fun h => ?_)
  split <;> exact ⟨rfl, rfl⟩

theorem reloadPath_same (entry : Byte) (s : State) : SameAdapter s (execReloadPath entry s) := by
  refine .of_fix (namedEntry_fix fun h => ?_)
  split <;> exact ⟨rfl, rfl⟩

theorem fence_same (entry : Byte) (s : State) : SameAdapter s (execFence entry s) :=
  .of_fix (namedEntry_fix fun _ => (Quiet.fencePath _ s).settle.fix)

theorem unfence_same (entry : Byte) (s : State) : SameAdapter s (execUnfence entry s) :=
  .of_fix (namedEntry_fix fun _ => (Still.unfencePath _ s).whole.fix)

theorem drill_same (entry : Byte) (s : State) : SameAdapter s (execDrill entry s) :=
  .of_fix (namedEntry_fix fun _ => (Quiet.drillPath _ s).settle.fix)

theorem drillEnd_same (entry : Byte) (s : State) : SameAdapter s (execDrillEnd entry s) :=
  .of_fix (namedEntry_fix fun _ => (Still.endDrill _ s).whole.fix)

/-! ### Arrivals and expiries (R68, R125, R136, R23, R130, R139) -/

theorem frameArrival_same (i : PortId) (f : EthFrame) (s : State) : SameAdapter s (execFrameArrival i f s) := by
  unfold execFrameArrival
  split
  · exact .refl s
  · exact .of_whole (.ite (.receive ..) (.refl s))

theorem replyTimerExpiry_same (c : CtxId) (k : Fin 2) (s : State) : SameAdapter s (execReplyTimerExpiry c k s) := by
  unfold execReplyTimerExpiry
  split
  · exact .refl s
  · split
    · exact .refl s
    · exact .of_whole (.attemptTimeout ..)

theorem inquiryTimerExpiry_same (c : CtxId) (s : State) : SameAdapter s (execInquiryTimerExpiry c s) := by
  unfold execInquiryTimerExpiry
  split
  · exact .refl s
  · split
    · exact .refl s
    · exact .of_whole (.ite (Course.inquiryExpired ..).whole (.refl s))

theorem deadlineExpiry_same (c : CtxId) (s : State) : SameAdapter s (execDeadlineExpiry c s) := by
  unfold execDeadlineExpiry
  split
  · exact .refl s
  · split
    · exact .refl s
    · exact .of_whole (.ite (Course.complete ..).whole (.refl s))

theorem waitTimerExpiry_same (c : CtxId) (s : State) : SameAdapter s (execWaitTimerExpiry c s) := by
  unfold execWaitTimerExpiry
  split
  · exact .refl s
  · exact .of_whole (.ite (Course.endWait ..).whole (.refl s))

theorem pendingWaitExpiry_same (c : CtxId) (s : State) : SameAdapter s (execPendingWaitExpiry c s) := by
  unfold execPendingWaitExpiry
  split
  · exact .refl s
  · exact .of_whole (.ite (Course.endPendingWait ..).whole (.refl s))

theorem probeMarkAExpiry_same (p : PathId) (s : State) : SameAdapter s (execProbeMarkAExpiry p s) :=
  .of_whole (.ite ((Still.clearOutstanding p s).calm.quiet.trans (.probeMiss p _)).settle (.refl s))

theorem holdDownExpiry_same (p : PathId) (s : State) : SameAdapter s (execHoldDownExpiry p s) := by
  have probing (u : State) : Fix u (u.syncProbing p) := (Still.syncProbing p u).whole.fix
  exact .of_fix (.ite (probing (s.modPath p fun r => { r with holdEnded := true, hold := .idle })) (.refl s))

/-! ### The Fetch Engine (R5 to R14) -/

theorem runStart_same (s : State) : SameAdapter s (execRunStart s) := by
  unfold execRunStart
  split
  · exact .refl s
  · exact .of_fix (.ite ⟨rfl, rfl⟩ (.refl s))

theorem contextReservation_same (s : State) : SameAdapter s (execContextReservation s) := by
  refine .of_fix (.ite ?_ (.refl s))
  split <;> exact ⟨rfl, rfl⟩

/-- R14, R16: the taking moves the Issue Number, and the rest of it leaves that and the adapter state alone. -/
theorem take_adapter (c : CtxId) (x : Context) (s : State) : (s.take c x).adapter = s.adapter := by
  have advanced (u : State) (n : StreamId) : (u.advanceJob.dispatch n).adapter = u.adapter :=
    ((Fix.advanceJob u).trans (Course.dispatch ..).whole.fix).1
  have changed (u : State) (f : Context → Context) : (u.modCtx c f).adapter = u.adapter := (Fix.modCtx c f u).1
  simp [State.take, State.modStream, advanced, changed]

theorem endPayloadRead_adapter (answer : ReadAnswer) (s : State) : (s.endPayloadRead answer).adapter = s.adapter := by
  unfold State.endPayloadRead
  split
  case h_1 c r _ =>
    unfold State.payloadRead
    split
    · rfl
    · split
      · exact ((Fix.readFailed ..).trans (.refuse ..)).1
      · dsimp only
        split
        · exact (Fix.refuse c .aborted (s.fillSlot c _)).1
        · exact take_adapter c _ (s.fillSlot c _)
  all_goals rfl

theorem payloadReadEnd_same (answer : ReadAnswer) (s : State) : SameAdapter s (execPayloadReadEnd answer s) := by
  refine .of_eq ?_
  split
  · rfl
  · exact endPayloadRead_adapter answer s

/-! ### The Completion Writer (R159) -/

theorem digestRewriteIssue_same (s : State) : SameAdapter s (execDigestRewriteIssue s) := by
  unfold execDigestRewriteIssue
  split
  · exact .refl s
  · exact .of_fix (.ite (.issueRewrite ..) (.refl s))

/-! ### The commands together -/

/-- The commands that may change the adapter state (R165, R166, R168 to R173). -/
def changesAdapter : Instr → Bool
  | .coldReset _ _ _ _ | .warmReset | .start | .stop => true
  | .loadingAnchorReadEnd _ | .loadingTablesReadEnd _ => true
  | .completionIssue | .recordReadEnd _ | .hostReadTimeout _ _ => true
  | _ => false

/-- R165: every other command leaves the adapter state as it is. -/
theorem exec_same {cmd : Instr} (other : changesAdapter cmd = false) (s : State) : SameAdapter s (exec cmd s) := by
  cases cmd with
  | coldReset | warmReset | start | stop | loadingAnchorReadEnd | loadingTablesReadEnd | completionIssue
  | recordReadEnd | hostReadTimeout => cases other
  | controlBadCombination => exact .misuse s
  | noticeUnknownKind => exact .misuse s
  | otherRegisterWrite => exact .misuse s
  | unmappedRegisterRead => exact .misuse s
  | eventWrite => exact .of_eq rfl
  | eventMaskWrite => exact .of_eq rfl
  | anchorWrite => exact .of_fix (.ite ⟨rfl, rfl⟩ (.misuse s))
  | faultAddressWrite => exact .of_fix (.ite ⟨rfl, rfl⟩ (.misuse s))
  | arm first len => exact execArm_same first len s
  | sweep => exact sweep_same s
  | abort exch => exact abort_same exch s
  | reloadStream entry => exact reloadStream_same entry s
  | reloadTarget entry => exact reloadTarget_same entry s
  | reloadPath entry => exact reloadPath_same entry s
  | fence entry => exact fence_same entry s
  | unfence entry => exact unfence_same entry s
  | drill entry => exact drill_same entry s
  | drillEnd entry => exact drillEnd_same entry s
  | snapshot => exact .of_fix (.ite ⟨rfl, rfl⟩ (.misuse s))
  | rawCarrierLoss => exact .of_fix (.rawLoss ..)
  | rawCarrierReturn => exact .of_fix (.rawReturn ..)
  | carrierFilterExpiry => exact .of_fix (.ite (.filterExpiry ..) (.refl s))
  | frameArrival i f => exact frameArrival_same i f s
  | ageCheck => exact .of_fix (.ite ⟨rfl, rfl⟩ (.refl s))
  | replyTimerExpiry c k => exact replyTimerExpiry_same c k s
  | inquiryTimerExpiry c => exact inquiryTimerExpiry_same c s
  | deadlineExpiry c => exact deadlineExpiry_same c s
  | waitTimerExpiry c => exact waitTimerExpiry_same c s
  | pendingWaitExpiry c => exact pendingWaitExpiry_same c s
  | probeMarkAExpiry p => exact probeMarkAExpiry_same p s
  | probeCycleStart => exact .of_whole (.ite (.cycleStart ..) (.refl s))
  | holdDownExpiry p => exact holdDownExpiry_same p s
  | stabilityExpiry => exact .of_fix (.ite ⟨rfl, rfl⟩ (.refl s))
  | drainLimitExpiry => exact .of_whole (.ite (Still.becomeUntried ..).whole (.refl s))
  | holdoffExpiry => exact .of_fix (.ite (.ite ⟨rfl, rfl⟩ (.setCompletions s)) (.refl s))
  | runStart => exact runStart_same s
  | sweepStart => exact .of_fix (.ite ⟨rfl, rfl⟩ (.refl s))
  | sweepOwnerReadEnd => exact .of_fix (.ite (.refl s) (.endOwnerRead ..))
  | contextReservation => exact contextReservation_same s
  | streamLoadReadEnd => exact .of_fix (.ite (.refl s) (.endStreamLoad ..))
  | payloadReadEnd answer => exact payloadReadEnd_same answer s
  | reloadStreamReadEnd => exact .of_fix (.ite (.refl s) (.endStreamReload ..))
  | reloadTargetReadEnd => exact .of_fix (.ite (.refl s) (.endTargetReload ..))
  | reloadPathReadEnd => exact .of_fix (.ite (.refl s) (.endPathReload ..))
  | grantDecision => exact .of_whole (.decideGrant ..)
  | transmitEnd => exact .of_eq rfl
  | digestRewriteIssue => exact digestRewriteIssue_same s

end Sys2Proof.AdapterStates
end

section
/-!
O59, second part. The changes of adapter state (R165): bring-up, its failure and its end (R166, R168, R169), STOP and
QUIESCED (R170), and the resets (R172, R173).
-/

namespace Sys2Proof.AdapterStates

open Sys2Proof.Machine

/-! ### STATE_CHANGE (R161, R165) -/

/-- R165: a change of adapter state sets STATE_CHANGE. -/
theorem enterAdapter_stateChange (a : AdapterState) (s : State) : (s.enterAdapter a).event &&& 0x080 = 0x080 :=
  or_80 _

theorem enterAdapter_adapter (a : AdapterState) (s : State) : (s.enterAdapter a).adapter = a :=
  rfl

/-- R161: where no event is taken back, STATE_CHANGE stays set. -/
theorem stateChange_kept {s t : State} (kept : s.event &&& t.event = s.event) (set : s.event &&& 0x080 = 0x080) :
    t.event &&& 0x080 = 0x080 :=
  calc
    t.event &&& 0x080 = t.event &&& (s.event &&& 0x080) := by rw [set]
    _ = s.event &&& t.event &&& 0x080 := by rw [← BitVec.and_assoc, BitVec.and_comm t.event]
    _ = 0x080 := by rw [kept, set]

/-! ### START and STOP (R166, R168, R170) -/

theorem execStart_spec {s t : State} (run : execStart s = .next t) :
    t.adapter = s.adapter ∨
      (s.adapter = .halted ∨ s.adapter = .quiesced) ∧ t.adapter = .loading ∧ t.event &&& 0x080 = 0x080 := by
  unfold execStart at run
  split at run <;> cases run
  case h_1 halted =>
    split
    · exact .inl rfl
    · exact .inr ⟨.inl halted, rfl, enterAdapter_stateChange ..⟩
  case h_2 quiesced => exact .inr ⟨.inr quiesced, rfl, enterAdapter_stateChange ..⟩
  all_goals exact .inl rfl

/-- R170: QUIESCED is entered at once where no context is live. -/
theorem execStop_spec {s t : State} (run : execStop s = .next t) :
    t.adapter = s.adapter ∨
      s.adapter = .running ∧ (t.adapter = .quiescing ∨ t.adapter = .quiesced) ∧ t.event &&& 0x080 = 0x080 := by
  unfold execStop at run
  cases run
  split
  case isFalse => exact .inl rfl
  case isTrue running =>
    obtain ⟨-, stays | ⟨-, quiesced, -, set⟩⟩ := Turn.quiesce (s.stopFetch.enterAdapter .quiescing)
    · exact .inr ⟨running, .inl stays, stateChange_kept (Tame.quiesceIfIdle _).event (enterAdapter_stateChange ..)⟩
    · exact .inr ⟨running, .inr quiesced, set⟩

/-! ### QUIESCED (R170) -/

/-- R155, R170: the issue of a completion may free the last live context. -/
theorem execCompletionIssue_turn {s t : State} (run : execCompletionIssue s = .next t) : Turn s t := by
  have finished (c rest x r) : Turn s (s.finishHead c rest x r) :=
    Fix.turn (t := { s.issueCompletion c x r with queue := rest, lastIssued := some .completion }.setCtx c none)
      (Fix.issueCompletion c x r s) (.quiesce _)
  unfold execCompletionIssue at run
  split at run
  · cases run
    exact .of (.refl s)
  · split at run
    · cases run
      exact .of (.refl s)
    · split at run
      · cases run
        exact .of (.refl s)
      · cases run
        split
        · exact finished ..
        · exact .of (.refl s)

theorem execRecordReadEnd_turn {answer : ReadAnswer} {s t : State} (run : execRecordReadEnd answer s = .next t) :
    Turn s t := by
  cases run
  split
  · exact .of (.refl s)
  · exact .endRecordRead ..

/-! ### The end of LOADING (R168, R169) -/

/-- The adapter leaves LOADING for `a`, with STATE_CHANGE set. -/
structure LoadingEndsIn (a : AdapterState) (s t : State) : Prop where
  before : s.adapter = .loading
  after : t.adapter = a
  stateChange : t.event &&& 0x080 = 0x080

/-- R165: the adapter is LOADING while a LOADING is in progress. -/
theorem adapter_of_loading {s : State} {l : Loading} (ok : s.RegistersOk) (loading : s.loading = some l) :
    s.adapter = .loading :=
  ok.loading.mp (by rw [loading]; rfl)

theorem faultLoading_ends {s : State} (before : s.adapter = .loading) (left : List Orphan) (r : HostRead)
    (requests : List Nat) : LoadingEndsIn .faulted s ((s.joinOrphans left).faultLoading r requests) :=
  ⟨before, rfl, enterAdapter_stateChange ..⟩

/-- R168, step 10: what follows the change to RUNNING leaves the registers as they are. -/
theorem enterRunning_whole (s : State) :
    Whole (({ s with loading := none }.enterAdapter .running).resumeRun) s.enterRunning :=
  (Still.foldl _ (fun s p => .syncProbing p s) _ _).whole.trans (Course.foldl _ (fun s n => .dispatch n s) _ _).whole

theorem resumeRun_frame (s : State) : s.resumeRun = { s with phase := s.resumeRun.phase } := by
  unfold State.resumeRun
  split <;> rfl

theorem enterRunning_ends {s u : State} (before : s.adapter = .loading) : LoadingEndsIn .running s u.enterRunning := by
  have whole := enterRunning_whole u
  rw [resumeRun_frame] at whole
  exact ⟨before, whole.fix.1, stateChange_kept whole.tame.event (enterAdapter_stateChange ..)⟩

theorem finishLoading_ends {s : State} (before : s.adapter = .loading) (q : Bool) (cfg : Settings) (got : TablesRead) :
    LoadingEndsIn .running s (s.finishLoading q cfg got) := by
  unfold State.finishLoading
  exact enterRunning_ends before

theorem endAnchorRead_spec {s : State} (ok : s.RegistersOk) (answer : ReadAnswer) :
    (s.endAnchorRead answer).adapter = s.adapter ∨ LoadingEndsIn .faulted s (s.endAnchorRead answer) := by
  unfold State.endAnchorRead
  split
  · exact .inl rfl
  · exact .inl rfl
  · rename_i loading
    split
    · exact .inl rfl
    · exact .inr ⟨adapter_of_loading ok loading, rfl, enterAdapter_stateChange ..⟩

/-- R168, R169: the last table read that ends with data ends LOADING in RUNNING, and one that fails ends it in FAULTED,
unless the read has lost its use. -/
theorem endTableRead_spec {s : State} (ok : s.RegistersOk) (e : TableEntry) (answer : ReadAnswer) :
    (s.endTableRead e answer).adapter = s.adapter ∨
      (∃ bytes, answer = .data bytes) ∧ LoadingEndsIn .running s (s.endTableRead e answer) ∨
      (∃ requests, answer = .failed requests) ∧ LoadingEndsIn .faulted s (s.endTableRead e answer) := by
  unfold State.endTableRead
  split
  · exact .inl (Fix.endOrphan ..).1
  · exact .inl (Fix.endOrphan ..).1
  · rename_i loading
    have before := adapter_of_loading ok loading
    split
    · exact .inl (Fix.endOrphan ..).1
    · cases answer with
      | data bytes =>
        dsimp only
        split
        · exact .inr (.inl ⟨⟨bytes, rfl⟩, finishLoading_ends before ..⟩)
        · exact .inl rfl
      | failed requests => exact .inr (.inr ⟨⟨requests, rfl⟩, faultLoading_ends before ..⟩)

/-- The adapter state stays, or LOADING ends in RUNNING or FAULTED. -/
def StaysOrLoads (s t : State) : Prop :=
  t.adapter = s.adapter ∨ LoadingEndsIn .running s t ∨ LoadingEndsIn .faulted s t

theorem takeTableEnd_spec {s : State} (ok : s.RegistersOk) (e : TableReadEnd) : StaysOrLoads s (s.takeTableEnd e) := by
  unfold State.takeTableEnd
  split
  · exact .inl rfl
  · exact (endTableRead_spec ok e.entry e.answer).imp_right (.imp And.right And.right)

/-- An adapter that has left LOADING does not end one again, and STATE_CHANGE stays set. -/
theorem StaysOrLoads.trans {s t u : State} (h : StaysOrLoads s t) (k : StaysOrLoads t u)
    (kept : t.event &&& u.event = t.event) : StaysOrLoads s u := by
  have ended {a : AdapterState} (other : a ≠ .loading) (first : LoadingEndsIn a s t) : LoadingEndsIn a s u := by
    have stays : u.adapter = t.adapter := by
      rcases k with stays | again | again
      · exact stays
      all_goals exact absurd (first.after.symm.trans again.before) other
    exact ⟨first.before, stays.trans first.after, stateChange_kept kept first.stateChange⟩
  rcases h with same | running | faulted
  · unfold StaysOrLoads
    rcases k with stays | ends | ends
    · exact .inl (stays.trans same)
    · exact .inr (.inl ⟨same ▸ ends.before, ends.after, ends.stateChange⟩)
    · exact .inr (.inr ⟨same ▸ ends.before, ends.after, ends.stateChange⟩)
  · exact .inr (.inl (ended (by decide) running))
  · exact .inr (.inr (ended (by decide) faulted))

/-- R168, R169, log 32: of the ends of table reads that come together, one at most ends LOADING. -/
theorem execLoadingTablesReadEnd_spec {s t : State} (ok : s.RegistersOk) {ends : List TableReadEnd}
    (run : execLoadingTablesReadEnd ends s = .next t) : StaysOrLoads s t := by
  cases run
  have each := List.foldlRecOn (motive := fun u : State => u.RegistersOk ∧ StaysOrLoads s u) ends
    (fun s e => s.takeTableEnd e) ⟨ok, .inl rfl⟩ fun u ⟨uok, far⟩ e _ =>
      ⟨(Keeps.takeTableEnd u e).regs uok, far.trans (takeTableEnd_spec uok e) (Tame.takeTableEnd u e).event⟩
  exact each.2

theorem execLoadingAnchorReadEnd_spec {s t : State} (ok : s.RegistersOk) {answer : ReadAnswer}
    (run : execLoadingAnchorReadEnd answer s = .next t) : t.adapter = s.adapter ∨ LoadingEndsIn .faulted s t := by
  cases run
  split
  · exact .inl rfl
  · exact endAnchorRead_spec ok answer

/-! ### Reads without an answer (R163) -/

/-- R163: the failed end of a read changes the adapter state where its block's own rule does. -/
theorem failedEnd_spec {s : State} (ok : s.RegistersOk) (read : HostReadId) (requests : List Nat) :
    Turn s (s.failedEnd read requests) ∨ (s.failedEnd read requests).adapter = s.adapter ∨
      LoadingEndsIn .faulted s (s.failedEnd read requests) := by
  cases read with
  | ownerWord => exact .inl (.of (.endOwnerRead ..))
  | record => exact .inl (.endRecordRead ..)
  | payload => exact .inr (.inl (endPayloadRead_adapter ..))
  | stream n => exact .inl (.of (.ite (.endStreamLoad ..) (.endStreamReload ..)))
  | target u => exact .inl (.of (.endTargetReload ..))
  | path p => exact .inl (.of (.endPathReload ..))
  | anchor => exact .inr (endAnchorRead_spec ok _)
  | table e =>
    rcases endTableRead_spec ok e (.failed requests) with same | ⟨⟨_, data⟩, -⟩ | ⟨-, ended⟩
    · exact .inr (.inl same)
    · cases data
    · exact .inr (.inr ended)

theorem execHostReadTimeout_spec {s t : State} (ok : s.RegistersOk) {read : HostReadId} {requests : List Nat}
    (run : execHostReadTimeout read requests s = .next t) :
    Turn s t ∨ t.adapter = s.adapter ∨ LoadingEndsIn .faulted s t := by
  cases run
  split
  · exact failedEnd_spec ok read requests
  · exact .inl (.of (.ite (.endOrphan ..) (.refl s)))

/-! ### Resets (R172, R173) -/

theorem execColdReset_halted {raw0 raw1 raw2 raw3 : Bool} {s t : State}
    (run : execColdReset raw0 raw1 raw2 raw3 s = .next t) : t.adapter = .halted := by
  cases run
  exact (Fix.foldl (fun (u : State) (found : PortId × Bool) => u.rawReturn found.1) (fun u _ => .rawReturn _ u) _ _).1

/-- R164, R172: a warm reset sets STATE_CHANGE where the adapter was not HALTED. -/
theorem execWarmReset_spec {s t : State} (run : execWarmReset s = .next t) :
    t.adapter = .halted ∧ (s.adapter = .halted ∨ t.event &&& 0x080 = 0x080) := by
  cases run
  split
  case isTrue halted => exact ⟨rfl, .inl halted⟩
  case isFalse => exact ⟨rfl, .inr (or_80 _)⟩

/-! ### O59 -/

/-- Settles O59: command by command, from what each can do to the adapter state. -/
theorem adapterStateChanges : Obligations.AdapterStateChanges := by
  intro cmd s t run ok changed
  cases other : changesAdapter cmd with
  | false => exact absurd (exec_same other s t run) changed
  | true =>
    cases cmd with
    | coldReset a b d e => exact .inl ⟨⟨a, b, d, e, rfl⟩, execColdReset_halted run⟩
    | warmReset =>
      obtain ⟨halted, before | set⟩ := execWarmReset_spec run
      · exact absurd (halted.trans before.symm) changed
      · exact .inr ⟨set, by simp [halted]⟩
    | start =>
      obtain ⟨before, after, set⟩ := (execStart_spec run).resolve_left changed
      exact .inr ⟨set, by simp [before, after]⟩
    | stop =>
      obtain ⟨before, after, set⟩ := (execStop_spec run).resolve_left changed
      exact .inr ⟨set, by simp [before, after]⟩
    | loadingTablesReadEnd ends =>
      obtain ⟨before, after, set⟩ | ⟨before, after, set⟩ := (execLoadingTablesReadEnd_spec ok run).resolve_left changed
      all_goals exact .inr ⟨set, by simp [before, after]⟩
    | loadingAnchorReadEnd answer =>
      obtain ⟨before, after, set⟩ := (execLoadingAnchorReadEnd_spec ok run).resolve_left changed
      exact .inr ⟨set, by simp [before, after]⟩
    | completionIssue =>
      obtain ⟨before, after, idle, set⟩ := (execCompletionIssue_turn run).2.resolve_left changed
      exact .inr ⟨set, by simp [before, after, idle]⟩
    | recordReadEnd answer =>
      obtain ⟨before, after, idle, set⟩ := (execRecordReadEnd_turn run).2.resolve_left changed
      exact .inr ⟨set, by simp [before, after, idle]⟩
    | hostReadTimeout read requests =>
      rcases execHostReadTimeout_spec ok run with turn | same | ⟨before, after, set⟩
      · obtain ⟨before, after, idle, set⟩ := turn.2.resolve_left changed
        exact .inr ⟨set, by simp [before, after, idle]⟩
      · exact absurd same changed
      · exact .inr ⟨set, by simp [before, after]⟩
    | _ => cases other

end Sys2Proof.AdapterStates
end

section
/-!
O1. The form of the model's step: the command at the front of the queue runs on the state with the queue's rest
(log 1). The other arm of `step`, the empty queue, is `Sys2Proof.TimeBase.step_empty`.
-/

namespace Sys2Proof.StepForm

open Sys2Proof.Machine

/-- Settles O1: the queue's head selects the arm of `step` that runs a command. -/
theorem stepRunsFrontCommand : Obligations.StepRunsFrontCommand := by
  intro s c rest front
  rw [step, front]

end Sys2Proof.StepForm
end
